-- ==== Sys2Proof/Word.lean ====
section
/-! DEFINITION. The words of the PF1664: bytes, cycle numbers, tokens, limits, and the numbers that name
stations, locks and tags. -/

namespace Sys2Proof

/-- One byte of the lock line or of the host port. -/
abbrev Byte := BitVec 8

/-- A 16-bit field: generation, token, digest, frame check (R4, R59, R89). -/
abbrev Word16 := BitVec 16

/-- A cycle number, modulo 2^24 (R46). -/
abbrev CycleNo := BitVec 24

/-- A hold limit in cycles, 0 to 4095; 0 means unlimited (Table 1-1). -/
abbrev Limit := BitVec 12

/-- A station number, 0 to 15. -/
abbrev StationNo := Fin 16

/-- A lock number, 0 to 63 (R1). -/
abbrev LockNo := Fin 64

/-- The tag of a request entry, 0 to 15 (R108). -/
abbrev Tag := Fin 16

end Sys2Proof
end

