-- ==== Sys2Proof/Config.lean ====
section
/-! DEFINITION. The constants of the data sheet: line timing (Table 0-2, Table 3-1), buffer and queue sizes. -/

namespace Sys2Proof.Config

/-- CLKIN periods of one bit time per unit of the divisor (R38). -/
def clocksPerBit : Nat := 12

/-- CLKIN periods of one of a cell's three phases per unit of the divisor (R38). -/
def clocksPerPhase : Nat := 4

/-- G: the transmit gap, in bit times (R45). -/
def transmitGap : Nat := 4

/-- W: the silence window, in bit times (R43). -/
def silenceWindow : Nat := 12

/-- Q: the quiet that ends a frame, in bit times (R44). -/
def quiet : Nat := 2

/-- Bytes that the receive buffer holds (R40). -/
def receiveBytes : Nat := 1076

/-- Bytes of the shortest frame, and the length under which a reception is garbled (R64). -/
def shortestFrame : Nat := 12

/-- Operations that one frame carries at most (R56, R116). -/
def frameOps : Nat := 4

/-- The ceiling of the agree and disagree counters (R90). -/
def voteCeiling : Nat := 15

/-- Divisor, drop threshold and interrupt enable after either reset (Table 10-2). -/
def resetDivisor : Nat := 8
@[inherit_doc resetDivisor] def resetDropThreshold : Nat := 3
@[inherit_doc resetDivisor] def resetIntEnable : Bool := true

end Sys2Proof.Config
end

