-- ==== Sys2Proof/Syntax.lean ====
section
/-! DEFINITION. The commands of the PF1664: one constructor for each row of spec/opcode_table.json. A row that
ends a complete exchange carries `extra`, the number of whole bytes the host clocked past the command's own
length (R136), because that decides whether the held response was shifted out whole (R137). -/

namespace Sys2Proof

/-- The rows of spec/opcode_table.json. -/
inductive Instr where
  /-- RST# returns high (R163): the straps then sampled (R153), and whether HSEL# is asserted then (R143). -/
  | pinReset (sid snc : Fin 16) (hselAsserted : Bool)
  /-- HSEL# is asserted (R138). -/
  | exchangeStart
  /-- A complete exchange that carries NOP (R146). -/
  | nop (extra : Nat)
  /-- A complete exchange that carries STATUS (R146). -/
  | status (extra : Nat)
  /-- A complete exchange that carries CONFIGURE with its three argument bytes (R154, Table 11-9). -/
  | configure (divisor dropThreshold flags : Byte) (extra : Nat)
  /-- A complete exchange that carries START (R155). -/
  | start (extra : Nat)
  /-- A complete exchange that carries LEAVE (R156, R157). -/
  | leave (extra : Nat)
  /-- A complete exchange that carries RESET_STATION; the straps as sampled at its end (R153, R162). -/
  | resetStation (sid snc : Fin 16) (extra : Nat)
  /-- A complete exchange that carries ACQUIRE: lock byte, mode-and-try byte, 16-bit limit (R112, Table 11-9). -/
  | acquire (lock modeTry : Byte) (limit : Word16) (extra : Nat)
  /-- A complete exchange that carries RELEASE (R113). -/
  | release (tag : Byte) (extra : Nat)
  /-- A complete exchange that carries the DOWNGRADE command (R114). -/
  | downgrade (tag : Byte) (extra : Nat)
  /-- A complete exchange that carries the RENEW command (R115). -/
  | renew (tag : Byte) (extra : Nat)
  /-- A complete exchange that carries QUERY_TAG (R149). -/
  | queryTag (tag : Byte) (extra : Nat)
  /-- A complete exchange that carries FETCH (R131). -/
  | fetch (extra : Nat)
  /-- A complete exchange that carries QUERY_LOCK (R18). -/
  | queryLock (lock : Byte) (extra : Nat)
  /-- A complete exchange that carries QUERY_ROSTER (R86). -/
  | queryRoster (extra : Nat)
  /-- A complete exchange whose command code is not in Table 9-2 (R145). -/
  | unknownCommand (code : Byte) (extra : Nat)
  /-- An exchange that ends after `whole` bytes, fewer than the length of its command (R141). -/
  | truncatedExchange (code : Byte) (whole : Nat)
  /-- An exchange that ends with no whole byte (R142). -/
  | emptyExchange
  /-- The listening window reaches its length (R51). -/
  | listeningWindowExpiry
  /-- G bit times after the own slot start (R45). -/
  | transmitGapExpiry
  /-- The third phase of the last cell of the own transmission ends (R41). -/
  | transmissionEnd
  /-- The own readback in the own slot differs from what is driven (R60). -/
  | readbackMismatch
  /-- The own readback of a cold-start FOUND frame differs from what is driven (R61). -/
  | arbitrationLoss
  /-- The slot timer reaches W with no cell start (R43). -/
  | silentSlotEnd
  /-- Quiet of Q bit times ends a frame slot (R44). -/
  | frameSlotEnd
  /-- Quiet of Q bit times ends a reception at an unaligned LISTENING station (R50). -/
  | listeningReceptionEnd
  /-- The expiries of a cycle end (R31). -/
  | leaseExpiry
  /-- The drop of a slot owner whose miss count has reached D (R80). -/
  | drop
  /-- A SYNCING station whose orphan counter has reached N (R98). -/
  | enterFounding
  /-- A recessive-to-dominant edge (R39): the CLKIN periods that no earlier step has counted; whether the line is
  dominant at the phase-1, value and phase-3 samples, measured from this edge; the CLKIN periods for which the line stays
  dominant from this edge on, which tell its level until the next edge (R44, R59). -/
  | cellStart (after : Nat) (phase1 value phase3 : Bool) (dominant : Nat)
  deriving DecidableEq, Repr

end Sys2Proof
end

