-- ==== Sys2Proof/Machine/Operands.lean ====
section
/-! DEFINITION. The operand forms of the host port: command codes and lengths (Table 9-2), and how the argument
bytes are read (Table 11-9, R166). -/

namespace Sys2Proof.Machine

/-- Command codes of Table 9-2. -/
def codeNop : Byte := 0x00
@[inherit_doc codeNop] def codeStatus : Byte := 0x01
@[inherit_doc codeNop] def codeConfigure : Byte := 0x02
@[inherit_doc codeNop] def codeStart : Byte := 0x03
@[inherit_doc codeNop] def codeLeave : Byte := 0x04
@[inherit_doc codeNop] def codeResetStation : Byte := 0x05
@[inherit_doc codeNop] def codeAcquire : Byte := 0x10
@[inherit_doc codeNop] def codeRelease : Byte := 0x11
@[inherit_doc codeNop] def codeDowngrade : Byte := 0x12
@[inherit_doc codeNop] def codeRenew : Byte := 0x13
@[inherit_doc codeNop] def codeQueryTag : Byte := 0x14
@[inherit_doc codeNop] def codeFetch : Byte := 0x20
@[inherit_doc codeNop] def codeQueryLock : Byte := 0x30
@[inherit_doc codeNop] def codeQueryRoster : Byte := 0x31

/-- The length in bytes of each command of Table 9-2, code included. -/
def commandTable : List (Byte × Nat) :=
  [(codeNop, 1), (codeStatus, 1), (codeConfigure, 4), (codeStart, 1), (codeLeave, 1), (codeResetStation, 1),
   (codeAcquire, 5), (codeRelease, 2), (codeDowngrade, 2), (codeRenew, 2), (codeQueryTag, 2), (codeFetch, 1),
   (codeQueryLock, 2), (codeQueryRoster, 1)]

/-- Whether Table 9-2 lists the code. -/
def commandListed (code : Byte) : Bool := (commandTable.lookup code).isSome

/-- The length of the command with this code; a code that Table 9-2 does not list has length 1 (R136). -/
def commandLength (code : Byte) : Nat := (commandTable.lookup code).getD 1

/-- Two bytes read as one field, the high byte first (chapter 11). -/
def word16 (hi lo : Byte) : Word16 := hi ++ lo

/-- The high byte of a 16-bit field. -/
def hiByte (w : Word16) : Byte := w.extractLsb' 8 8

/-- The low byte of a 16-bit field. -/
def loByte (w : Word16) : Byte := w.extractLsb' 0 8

/-- A count that a layout carries in one byte. -/
def countByte (n : Nat) : Byte := BitVec.ofNat 8 n

/-- A cycle number as its three bytes, most significant first (Table 11-1, Table 11-10). -/
def cycleBytes (c : CycleNo) : List Byte := [c.extractLsb' 16 8, c.extractLsb' 8 8, c.extractLsb' 0 8]

/-- A tag byte of 0 to 15 names an entry; 16 to 255 name none (R145). -/
def tagOfByte (b : Byte) : Option Tag := if h : b.toNat < 16 then some ⟨b.toNat, h⟩ else none

/-- A lock byte of 0 to 63 names a lock (R19, R166). -/
def lockOfByte (b : Byte) : Option LockNo := if h : b.toNat < 64 then some ⟨b.toNat, h⟩ else none

/-- Bit 1 of the ACQUIRE mode byte: set for SHARED (Table 11-9). -/
def modeByteShared (b : Byte) : Bool := b.getLsbD 1

/-- Bit 0 of the ACQUIRE mode byte: the try flag (Table 11-9). -/
def modeByteTry (b : Byte) : Bool := b.getLsbD 0

/-- Bit 0 of the CONFIGURE flags byte: the interrupt enable (Table 11-9). -/
def flagsIntEnable (b : Byte) : Bool := b.getLsbD 0

/-- CONFIGURE's range check: divisor 1 to 64 and drop threshold 2 to 7 (R154, R166). -/
def configureInRange (divisor dropThreshold : Byte) : Bool :=
  decide (1 ≤ divisor.toNat ∧ divisor.toNat ≤ 64 ∧ 2 ≤ dropThreshold.toNat ∧ dropThreshold.toNat ≤ 7)

end Sys2Proof.Machine
end

