-- ==== Sys2Proof/Machine/State.lean ====
section
/-! DEFINITION. The state of one station: every register, list, counter, mode and flag that spec/ gives the
PF1664, block by block (Figure 0-2), and the queue of the commands that wait. -/

namespace Sys2Proof.Machine

/-- Station states (Table 10-1, Table 11-7). -/
inductive StationState where
  | idle | listening | syncing | founding | active | stopped | halted
  deriving DecidableEq, Repr

/-- Lock modes (Table 1-1). -/
inductive Mode where
  | exclusive | shared
  deriving DecidableEq, Repr

/-- A holder entry (Table 1-1). -/
structure Holder where
  station : StationNo
  mode : Mode
  leaseStart : CycleNo
  limit : Limit
  token : Word16
  deriving DecidableEq, Repr

/-- A waiter entry (Table 1-1). -/
structure Waiter where
  station : StationNo
  mode : Mode
  limit : Limit
  deriving DecidableEq, Repr

/-- A lock record: holders in grant order, waiters in queue order (R1, R2, R3). -/
structure LockRecord where
  generation : Word16
  holders : List Holder
  waiters : List Waiter
  deriving DecidableEq, Repr

/-- Generation 0, no holder, no waiter (R10, R17). -/
def LockRecord.empty : LockRecord := ⟨0, [], []⟩

/-- States of a roster entry (Table 5-1). -/
inductive RosterState where
  | absent | syncing | active
  deriving DecidableEq, Repr

/-- A roster entry (R72). -/
structure RosterEntry where
  state : RosterState
  misses : BitVec 3
  deriving DecidableEq, Repr

/-- ABSENT with miss count 0 (R72). -/
def RosterEntry.absent : RosterEntry := ⟨.absent, 0⟩

/-- Operation kinds (Table 2-1). -/
inductive OpKind where
  | claim | yield | downgrade | renew
  deriving DecidableEq, Repr

/-- An operation as a frame carries it (Table 2-1); `lock` is the whole byte, 64 to 255 being void (R19). -/
structure Operation where
  kind : OpKind
  lock : Byte
  mode : Mode
  tryOnly : Bool
  limit : Limit
  deriving DecidableEq, Repr

/-- Frame statuses (Table 4-1, Table 11-1). -/
inductive FrameStatus where
  | active | syncing | join | found | leave
  deriving DecidableEq, Repr

/-- A snapshot page (Table 1-6): page 0 is the 16 roster entries; `locks k` is page k + 1, the records of locks
8k to 8k + 7. -/
inductive Page where
  | roster (entries : List RosterEntry)
  | locks (k : Fin 8) (records : List LockRecord)
  deriving DecidableEq, Repr

/-- A frame by its named fields (Figure 4-1). -/
structure Frame where
  sender : StationNo
  slotCount : Fin 16
  status : FrameStatus
  cycle : CycleNo
  digest : Word16
  ops : List Operation
  page : Option Page
  deriving DecidableEq, Repr

/-- The frame the Frame Builder has handed to the Line Interface (R54): its content, the tags whose ops it
carries in frame order (R56), and whether its first cell has been begun (R41, R45, R62). -/
structure OwnFrame where
  frame : Frame
  tags : List Tag
  sent : Bool
  deriving DecidableEq, Repr

/-- A reception as the Line Interface holds it (R40): the bytes stored, the bits of the cells after the last whole
byte, and its marks. -/
structure Reception where
  inProgress : Bool
  bytes : List Byte
  cells : List Bool
  fault : Bool
  overLong : Bool
  deriving DecidableEq, Repr

/-- The empty receive buffer (R40). -/
def Reception.empty : Reception := ⟨false, [], [], false, false⟩

/-- The Line Interface. `shiftClocks` counts CLKIN periods within the cell being sent, `sinceCell` since the latest
cell start, and `dominant` is the time from that cell start for which the line stays dominant. Of the latest own
transmission, `heard` says that a cell start has come since it began (R100, log 25), `ownFault` that a sample of an own
cell was a cell fault, and `mismatch` that one was a readback mismatch, which has been handed to the Frame Checker
(R59). -/
structure LineInterface where
  rx : Reception
  own : Option OwnFrame
  sending : Bool
  shift : Nat
  shiftClocks : Nat
  sinceCell : Nat
  dominant : Nat
  heard : Bool
  ownFault : Bool
  mismatch : Bool
  deriving DecidableEq, Repr

/-- Slot phases (Table 3-2). -/
inductive SlotPhase where
  | waiting | inFrame
  deriving DecidableEq, Repr

/-- The Slot Tracker (Table 3-2). `timer` and `window` are kept in CLKIN periods, 12 × divisor to the bit time
(R38); `window` is none while the listening window is stopped. -/
structure SlotTracker where
  aligned : Bool
  position : Fin 16
  cycle : CycleNo
  phase : SlotPhase
  timer : Nat
  window : Option Nat
  deriving DecidableEq, Repr

/-- The Replication Controller (Table 6-1), its sync state apart: that one stands in Controller. Bit p of
`installed` is page p's membership of the installed-page set, and so the valid condition of the roster (p = 0)
and of lock page p (R12, R87). -/
structure Replication where
  agree : Nat
  disagree : Nat
  installed : BitVec 9
  orphan : Nat
  digest : Option Word16
  joinPending : Bool
  deriving DecidableEq, Repr

/-- Relations of a request entry (Table 7-1). -/
inductive Relation where
  | free | pending | waiting | held | ended
  deriving DecidableEq, Repr

/-- Op statuses (Table 7-2). -/
inductive OpStatus where
  | queued | inFlight | doubtful
  deriving DecidableEq, Repr

/-- A request entry (Table 7-1). -/
structure RequestEntry where
  relation : Relation
  lock : LockNo
  mode : Mode
  tryOnly : Bool
  limit : Limit
  token : Word16
  op : Option OpKind
  opStatus : OpStatus
  doubtMark : Bool
  deriving DecidableEq, Repr

/-- A FREE entry as a reset leaves it (R108); the fields beside relation and op are a DESIGN CHOICE (log 5). -/
def RequestEntry.blank : RequestEntry := ⟨.free, 0, .exclusive, false, 0, 0, none, .queued, false⟩

/-- The Request Engine (chapter 7). `doubtOrder` is the model's own: the tags of the DOUBTFUL ops, those of the
older frame first and each frame's in frame order, which R120 and R121 ask for (log 13). -/
structure RequestEngine where
  entries : Vector RequestEntry 16
  queue : List Tag
  toYield : List LockNo
  doubtOrder : List Tag
  deriving DecidableEq, Repr

/-- Outcomes with which an entry ends (R109). -/
inductive EndOutcome where
  | released | cancelled | denied | expired | evicted | lost | left | refused
  deriving DecidableEq, Repr

/-- What an UPDATE notice says of the request: WAITING with a position, or HELD with a token (Table 8-1). -/
inductive Standing where
  | waiting (position : Nat)
  | held (token : Word16)
  deriving DecidableEq, Repr

/-- The fault set of a FAULT notice (Table 8-1). -/
structure FaultSet where
  duplicateId : Bool
  slotCountMismatch : Bool
  alienTraffic : Bool
  deriving DecidableEq, Repr

/-- Sync states that a SYNC notice carries (R106). -/
inductive SyncValue where
  | syncing | active
  deriving DecidableEq, Repr

/-- A notice's kind with the fields of that kind (Table 8-1). -/
inductive NoticeBody where
  | update (tag : Tag) (lock : LockNo) (mode : Mode) (standing : Standing)
  | ended (tag : Tag) (lock : LockNo) (outcome : EndOutcome)
  | sync (value : SyncValue)
  | roster
  | tableLost
  | fault (faults : FaultSet)
  deriving DecidableEq, Repr

/-- A notice with its serial (R126, R127). -/
structure Notice where
  serial : Byte
  body : NoticeBody
  deriving DecidableEq, Repr

/-- The Notice Queue, head first, and its serial counter (R125, R127). -/
structure NoticeQueue where
  queue : List Notice
  serial : Byte
  deriving DecidableEq, Repr

/-- Result codes (Table 9-4). -/
inductive Result where
  | ok | unknown | state | range | duplicate | full | tag | busy | straps | empty
  deriving DecidableEq, Repr

/-- A response in the response holder (R139). -/
structure Response where
  echo : Byte
  result : Result
  payload : List Byte
  deriving DecidableEq, Repr

/-- The state of HSEL# as the port takes it: no exchange; an exchange in progress; or waiting for HSEL# to be
deasserted after a pin reset, taking nothing from that assertion (R143). -/
inductive PortPhase where
  | closed | exchange | waitDeassert
  deriving DecidableEq, Repr

/-- The Host Port (Table 9-1). `status` is the status byte of the exchange in progress (R138). -/
structure HostPort where
  held : Response
  delivered : Bool
  truncated : Bool
  phase : PortPhase
  status : Option Byte
  deriving DecidableEq, Repr

/-- The bits of the exchange in progress, or of the last one: what HDI brought at the rising edges of HCK (R136), and
the number of falling edges, which is the position of the bit on HDO (R137). -/
structure HostClock where
  hdi : List Bool
  falls : Nat
  deriving DecidableEq, Repr

/-- No edge of HCK yet. -/
def HostClock.start : HostClock := ⟨[], 0⟩

/-- The station controller (Table 10-2); `state` is the one station state of chapters 6 and 10. -/
structure Controller where
  state : StationState
  leavePending : Bool
  divisor : Nat
  dropThreshold : Nat
  intEnable : Bool
  sid : StationNo
  snc : Fin 16
  deriving DecidableEq, Repr

/-- The whole station, and `pending`, the commands that wait, first in first out (the model's own field). -/
structure State where
  ctrl : Controller
  line : LineInterface
  slots : SlotTracker
  pageCursor : Fin 9
  roster : Vector RosterEntry 16
  locks : Vector LockRecord 64
  repl : Replication
  req : RequestEngine
  notices : NoticeQueue
  port : HostPort
  spi : HostClock
  pending : List Instr
  deriving DecidableEq, Repr

/-- The block never stops with a fault: DUPLICATE_ID, SLOT_COUNT_MISMATCH and ALIEN_TRAFFIC are effects on State
(R66, R160), so no constructor is needed, and nothing raises one. -/
inductive Fault where
  deriving DecidableEq, Repr

/-- Why a command has no outcome. -/
inductive Refusal where
  /-- The command has no meaning in this model yet. No arm raises it: every row has its meaning. Safe. -/
  | notModelled (mnemonic : String)
  deriving DecidableEq, Repr

/-- Table 10-2 after either reset, with these straps sampled. -/
def Controller.afterReset (sid snc : Fin 16) : Controller :=
  ⟨.idle, false, Config.resetDivisor, Config.resetDropThreshold, Config.resetIntEnable, sid, snc⟩

/-- The Line Interface after either reset: line released, shift position 0, receive buffer empty (R40, R41, R71). -/
def LineInterface.afterReset : LineInterface := ⟨.empty, none, false, 0, 0, 0, 0, false, false, false⟩

/-- Table 3-2 after either reset. -/
def SlotTracker.afterReset : SlotTracker := ⟨false, 0, 0, .waiting, 0, none⟩

/-- Table 6-1 after either reset. -/
def Replication.afterReset : Replication := ⟨0, 0, 0, 0, none, false⟩

/-- Every entry FREE, queue and to-yield set empty (R108, R110, R111). -/
def RequestEngine.afterReset : RequestEngine := ⟨.replicate 16 .blank, [], [], []⟩

/-- Queue empty, serial counter 0 (R135). -/
def NoticeQueue.afterReset : NoticeQueue := ⟨[], 0⟩

/-- The NOP OK response that the holder holds after a pin reset (Table 9-1). -/
def Response.nopOk : Response := ⟨0, .ok, []⟩

/-- Table 9-1 after a pin reset. -/
def HostPort.afterPinReset (phase : PortPhase) : HostPort := ⟨.nopOk, false, false, phase, none⟩

/-- Every block in the state its chapter gives for either reset (R162, R163), with this host port and with these
commands still waiting. -/
def State.afterReset (sid snc : Fin 16) (port : HostPort) (pending : List Instr) : State where
  ctrl := .afterReset sid snc
  line := .afterReset
  slots := .afterReset
  pageCursor := 0
  roster := .replicate 16 .absent
  locks := .replicate 64 .empty
  repl := .afterReset
  req := .afterReset
  notices := .afterReset
  port := port
  spi := .start
  pending := pending

/-- The station right after a pin reset, with no command waiting. The spec gives the sampled straps no value:
SID = 0 and SNC = 0 are a DESIGN CHOICE (log 4). -/
def State.reset : State := .afterReset 0 0 (.afterPinReset .closed) []

end Sys2Proof.Machine
end

