-- ==== Sys2Proof/Machine/Formats.lean ====
section
/-! DEFINITION. The layouts of chapter 11 that cross the lock line: the frame check, the frame, the page bodies and
the participant form, written and read, and the format checks of R64 and R65. -/

namespace Sys2Proof.Machine

/-! ### The frame check -/

/-- One bit fed into the CRC register with generator x^16 + x^12 + x^5 + 1 (R59). -/
def crcBit (crc : Word16) (bit : Bool) : Word16 :=
  if crc.msb != bit then (crc <<< 1) ^^^ 0x1021 else crc <<< 1

/-- The bits of a byte, most significant first (R37). -/
def byteBits (b : Byte) : List Bool :=
  [b.getMsbD 0, b.getMsbD 1, b.getMsbD 2, b.getMsbD 3, b.getMsbD 4, b.getMsbD 5, b.getMsbD 6, b.getMsbD 7]

/-- The byte that eight bits make, the first being the most significant (R40). -/
def byteOfBits (bits : List Bool) : Byte := BitVec.ofNat 8 (bits.foldl (fun n b => 2 * n + b.toNat) 0)

/-- The whole bytes that bits make, the first bit of each being the most significant; the bits of a last byte that is
not whole are ignored (R136). -/
def bytesOfBits : List Bool → List Byte
  | b0 :: b1 :: b2 :: b3 :: b4 :: b5 :: b6 :: b7 :: bits =>
    byteOfBits [b0, b1, b2, b3, b4, b5, b6, b7] :: bytesOfBits bits
  | _ => []

/-- The CRC-16 of R59 and R89: preset to all ones, most significant bit of each byte first, no inversion. -/
def crc16 (bytes : List Byte) : Word16 := bytes.foldl (fun crc b => (byteBits b).foldl crcBit crc) 0xFFFF

/-! ### Codes -/

/-- Mode code: 0 EXCLUSIVE, 1 SHARED (Table 11-2, Table 11-6). -/
def modeCode : Mode → Nat
  | .exclusive => 0
  | .shared => 1

/-- The mode that a mode bit names. -/
def modeOfBit (b : Bool) : Mode := if b then .shared else .exclusive

/-- Operation kind code (Table 11-2). -/
def kindCode : OpKind → Nat
  | .claim => 0
  | .yield => 1
  | .downgrade => 2
  | .renew => 3

/-- The operation kind of a two-bit code (Table 11-2). -/
def kindOfCode : Nat → OpKind
  | 0 => .claim
  | 1 => .yield
  | 2 => .downgrade
  | _ => .renew

/-- Frame status code (Table 11-1). -/
def statusCode : FrameStatus → Nat
  | .active => 0
  | .syncing => 1
  | .join => 2
  | .found => 3
  | .leave => 4

/-- The frame status of a code; 5 to 7 are garbled (Table 11-1). -/
def statusOfCode : Nat → Option FrameStatus
  | 0 => some .active
  | 1 => some .syncing
  | 2 => some .join
  | 3 => some .found
  | 4 => some .leave
  | _ => none

/-- Roster state code (Table 11-4). -/
def rosterCode : RosterState → Nat
  | .absent => 0
  | .syncing => 1
  | .active => 2

/-- The roster state of a code; 3 does not match (Table 11-4, R65). -/
def rosterOfCode : Nat → Option RosterState
  | 0 => some .absent
  | 1 => some .syncing
  | 2 => some .active
  | _ => none

/-! ### Roster entries and the participant form -/

/-- A roster entry as its byte (Table 11-4). -/
def RosterEntry.toByte (e : RosterEntry) : Byte := BitVec.ofNat 8 (64 * rosterCode e.state + 8 * e.misses.toNat)

/-- The roster entry of a byte; bits 2 to 0 are read past (R165). -/
def rosterEntryOfByte (b : Byte) : Option RosterEntry :=
  match rosterOfCode (b.toNat / 64) with
  | some st => some ⟨st, b.extractLsb' 3 3⟩
  | none => none

/-- The roster entries of a page 0 body (R65). -/
def rosterEntriesOfBytes : List Byte → Option (List RosterEntry)
  | [] => some []
  | b :: bs =>
    match rosterEntryOfByte b, rosterEntriesOfBytes bs with
    | some e, some es => some (e :: es)
    | _, _ => none

/-- A participant of a record (R11): a holder with its lease and token, or a waiter. -/
inductive Participant where
  | holder (h : Holder)
  | waiter (w : Waiter)
  deriving DecidableEq, Repr

/-- The participant form of a record: holders in grant order, then waiters in queue order (R11). -/
def LockRecord.participants (r : LockRecord) : List Participant :=
  r.holders.map .holder ++ r.waiters.map .waiter

/-- The record that participants rebuild (R14): the holders in the order carried and the waiters in the order
carried. -/
def recordOfParticipants (generation : Word16) (ps : List Participant) : LockRecord where
  generation := generation
  holders := ps.filterMap fun | .holder h => some h | .waiter _ => none
  waiters := ps.filterMap fun | .holder _ => none | .waiter w => some w

/-- Byte P0 of a participant (Table 11-6). -/
def participantHead (station : StationNo) (role : Nat) (m : Mode) : Byte :=
  BitVec.ofNat 8 (16 * station.val + 8 * role + 4 * modeCode m)

/-- A limit as its two bytes, bits 7 to 4 of the first being 0 (Table 11-2, Table 11-6). -/
def limitBytes (limit : Limit) : List Byte :=
  [hiByte (limit.setWidth 16), loByte (limit.setWidth 16)]

/-- The limit that two bytes carry: bits 11 to 0 of the pair (R164, R165). -/
def limitOfBytes (hi lo : Byte) : Limit := (word16 hi lo).setWidth 12

/-- The eight bytes of a participant; a waiter carries lease start 0 and token 0 (R11, Table 11-6). -/
def Participant.toBytes : Participant → List Byte
  | .holder h =>
    participantHead h.station 0 h.mode :: cycleBytes h.leaseStart ++ limitBytes h.limit
      ++ [hiByte h.token, loByte h.token]
  | .waiter w => participantHead w.station 1 w.mode :: cycleBytes 0 ++ limitBytes w.limit ++ [0, 0]

/-- The participant of eight bytes; a lease start or token in a waiter is not taken (R165). -/
def participantOfBytes (p0 p1 p2 p3 p4 p5 p6 p7 : Byte) : Participant :=
  let station : StationNo := Fin.ofNat 16 (p0.toNat / 16)
  let m := modeOfBit (p0.getLsbD 2)
  if p0.getLsbD 3 then .waiter ⟨station, m, limitOfBytes p4 p5⟩
  else .holder ⟨station, m, p1 ++ p2 ++ p3, limitOfBytes p4 p5, word16 p6 p7⟩

/-- A record in the layout of Table 11-5. -/
def LockRecord.toBytes (r : LockRecord) : List Byte :=
  hiByte r.generation :: loByte r.generation :: countByte r.participants.length
    :: r.participants.flatMap Participant.toBytes

/-- Reads `n` participants; none where the bytes end too early (R65). -/
def readParticipants : Nat → List Byte → Option (List Participant × List Byte)
  | 0, bs => some ([], bs)
  | n + 1, p0 :: p1 :: p2 :: p3 :: p4 :: p5 :: p6 :: p7 :: bs =>
    match readParticipants n bs with
    | some (ps, left) => some (participantOfBytes p0 p1 p2 p3 p4 p5 p6 p7 :: ps, left)
    | none => none
  | _ + 1, _ => none

/-- Reads one record; none for a participant count above 16 or bytes that end inside it (R65). -/
def readRecord : List Byte → Option (LockRecord × List Byte)
  | g1 :: g0 :: count :: bs =>
    if count.toNat > 16 then none
    else
      match readParticipants count.toNat bs with
      | some (ps, left) => some (recordOfParticipants (word16 g1 g0) ps, left)
      | none => none
  | _ => none

/-- Reads `n` records in turn (R65). -/
def readRecords : Nat → List Byte → Option (List LockRecord × List Byte)
  | 0, bs => some ([], bs)
  | n + 1, bs =>
    match readRecord bs with
    | some (r, left) =>
      match readRecords n left with
      | some (rs, rest) => some (r :: rs, rest)
      | none => none
    | none => none

/-! ### Pages -/

/-- The page's number, 0 to 8 (Table 1-6). -/
def Page.index : Page → Nat
  | .roster _ => 0
  | .locks k _ => k.val + 1

/-- The page's body (chapter 11.2). -/
def Page.body : Page → List Byte
  | .roster es => es.map RosterEntry.toByte
  | .locks _ rs => rs.flatMap LockRecord.toBytes

/-- The page of an index and a body, where the body matches the index (R65). -/
def readPage (index : Nat) (body : List Byte) : Option Page :=
  if index = 0 then
    if body.length = 16 then (rosterEntriesOfBytes body).map .roster else none
  else if h : index - 1 < 8 then
    match readRecords 8 body with
    | some (rs, []) => some (.locks ⟨index - 1, h⟩ rs)
    | _ => none
  else none

/-! ### Operations -/

/-- An operation as its four bytes (Table 11-2). -/
def Operation.toBytes (o : Operation) : List Byte :=
  BitVec.ofNat 8 (64 * kindCode o.kind + 32 * modeCode o.mode + 16 * o.tryOnly.toNat) :: o.lock
    :: limitBytes o.limit

/-- The operation of four bytes; the bits marked 0 are read past (R164). -/
def operationOfBytes (b0 b1 b2 b3 : Byte) : Operation :=
  ⟨kindOfCode (b0.toNat / 64), b1, modeOfBit (b0.getLsbD 5), b0.getLsbD 4, limitOfBytes b2 b3⟩

/-- Reads `n` operations, in application order. -/
def readOperations : Nat → List Byte → List Operation
  | n + 1, b0 :: b1 :: b2 :: b3 :: bs => operationOfBytes b0 b1 b2 b3 :: readOperations n bs
  | _, _ => []

/-! ### The frame -/

/-- The header of a frame (Table 11-1). -/
def Frame.header (f : Frame) : List Byte :=
  let body := (f.page.map Page.body).getD []
  [BitVec.ofNat 8 (16 * f.sender.val + f.slotCount.val),
   BitVec.ofNat 8 (32 * statusCode f.status + 4 * f.ops.length + 2 * f.page.isSome.toNat)]
    ++ cycleBytes f.cycle ++ [hiByte f.digest, loByte f.digest]
    ++ [countByte ((f.page.map Page.index).getD 0),
        hiByte (BitVec.ofNat 16 body.length), loByte (BitVec.ofNat 16 body.length)]

/-- The frame before its check: header, operations in application order, page body (R164). -/
def Frame.content (f : Frame) : List Byte :=
  f.header ++ f.ops.flatMap Operation.toBytes ++ (f.page.map Page.body).getD []

/-- The whole frame, with the two bytes of frame check, high byte first (R59, R164). -/
def Frame.toBytes (f : Frame) : List Byte :=
  f.content ++ [hiByte (crc16 f.content), loByte (crc16 f.content)]

/-- R64 and R65 on the bytes of a reception: the frame they spell, none where a test of R64, taken in its order,
finds them garbled. -/
def readFrame (bs : List Byte) : Option Frame :=
  let n := bs.length
  if n < Config.shortestFrame then none
  else if crc16 (bs.take (n - 2)) ≠ word16 (bs.getD (n - 2) 0) (bs.getD (n - 1) 0) then none
  else
    let b0 := bs.getD 0 0
    let b1 := bs.getD 1 0
    match statusOfCode (b1.toNat / 32) with
    | none => none
    | some st =>
      let sender := b0.toNat / 16
      let slotCount := b0.toNat % 16
      let opCount := b1.toNat / 4 % 8
      let pageFlag := b1.getLsbD 1
      let index := (bs.getD 7 0).toNat
      let bodyLength := (word16 (bs.getD 8 0) (bs.getD 9 0)).toNat
      if sender > slotCount then none
      else if opCount > Config.frameOps then none
      else if (opCount ≠ 0 ∨ pageFlag = true) ∧ st ≠ .active then none
      else if pageFlag = true ∧ index > 8 then none
      else if pageFlag = false ∧ (index ≠ 0 ∨ bodyLength ≠ 0) then none
      else if n ≠ 10 + 4 * opCount + bodyLength + 2 then none
      else
        let frame (page : Option Page) : Frame :=
          ⟨Fin.ofNat 16 sender, Fin.ofNat 16 slotCount, st,
           bs.getD 2 0 ++ bs.getD 3 0 ++ bs.getD 4 0, word16 (bs.getD 5 0) (bs.getD 6 0),
           readOperations opCount (bs.drop 10), page⟩
        if pageFlag = true then
          (readPage index ((bs.drop (10 + 4 * opCount)).take bodyLength)).map fun p => frame (some p)
        else some (frame none)

/-- A reception with any mark of R39 or R40 is garbled (first test of R64). -/
def Reception.marked (rx : Reception) : Bool := rx.fault || rx.overLong || !rx.cells.isEmpty

/-- The frame a reception spells where it passes the format checks; none where it is garbled (R64). -/
def Reception.frame (rx : Reception) : Option Frame := if rx.marked then none else readFrame rx.bytes

/-! ### The digest -/

/-- The bytes of R89 and R165: the 16 state codes in bits 7 and 6, then the 64 records. -/
def digestInput (roster : Vector RosterEntry 16) (locks : Vector LockRecord 64) : List Byte :=
  roster.toList.map (fun e => BitVec.ofNat 8 (64 * rosterCode e.state))
    ++ locks.toList.flatMap LockRecord.toBytes

end Sys2Proof.Machine
end

