-- ==== Sys2Proof/Decode.lean ====
section
/-! DEFINITION. From bytes to commands. spec/opcode_table.json gives its rows no bits, so no word spells a
command. What the spec does give is the host port's exchange: its whole bytes name the command that its end
executes (R136, Table 9-2, Table 11-9). -/

namespace Sys2Proof

/-- The command that a word spells by the bits of spec/opcode_table.json: no row of it has bits. -/
def decodeTableWord (_nbits _w : Nat) : Option Instr := none

/-- The row that ends an exchange in which the host clocked these whole bytes (R136, R141, R142, R145). `sid`
and `snc` are the strap levels at that moment, which RESET_STATION samples (R153). -/
def decodeExchange (sid snc : Fin 16) : List Byte → Instr
  | [] => .emptyExchange
  | code :: args =>
    let whole := args.length + 1
    let extra := whole - Machine.commandLength code
    if whole < Machine.commandLength code then .truncatedExchange code whole
    else if code = Machine.codeNop then .nop extra
    else if code = Machine.codeStatus then .status extra
    else if code = Machine.codeConfigure then .configure (args.getD 0 0) (args.getD 1 0) (args.getD 2 0) extra
    else if code = Machine.codeStart then .start extra
    else if code = Machine.codeLeave then .leave extra
    else if code = Machine.codeResetStation then .resetStation sid snc extra
    else if code = Machine.codeAcquire then
      .acquire (args.getD 0 0) (args.getD 1 0) (Machine.word16 (args.getD 2 0) (args.getD 3 0)) extra
    else if code = Machine.codeRelease then .release (args.getD 0 0) extra
    else if code = Machine.codeDowngrade then .downgrade (args.getD 0 0) extra
    else if code = Machine.codeRenew then .renew (args.getD 0 0) extra
    else if code = Machine.codeQueryTag then .queryTag (args.getD 0 0) extra
    else if code = Machine.codeFetch then .fetch extra
    else if code = Machine.codeQueryLock then .queryLock (args.getD 0 0) extra
    else if code = Machine.codeQueryRoster then .queryRoster extra
    else .unknownCommand code extra

/-- The row that ends an exchange in which HDI brought these bits at the rising edges of HCK (R136). -/
def decodeBits (sid snc : Fin 16) (bits : List Bool) : Instr := decodeExchange sid snc (Machine.bytesOfBits bits)

/-- The whole bytes a host clocks in for the exchange that a row ends, with `filler` for the bytes past the
command, which the port ignores (R136); none for a row that ends no exchange. -/
def encodeExchange (filler : List Byte) : Instr → Option (List Byte)
  | .nop _ => some (Machine.codeNop :: filler)
  | .status _ => some (Machine.codeStatus :: filler)
  | .configure d t f _ => some (Machine.codeConfigure :: d :: t :: f :: filler)
  | .start _ => some (Machine.codeStart :: filler)
  | .leave _ => some (Machine.codeLeave :: filler)
  | .resetStation .. => some (Machine.codeResetStation :: filler)
  | .acquire l m lim _ =>
    some (Machine.codeAcquire :: l :: m :: Machine.hiByte lim :: Machine.loByte lim :: filler)
  | .release t _ => some (Machine.codeRelease :: t :: filler)
  | .downgrade t _ => some (Machine.codeDowngrade :: t :: filler)
  | .renew t _ => some (Machine.codeRenew :: t :: filler)
  | .queryTag t _ => some (Machine.codeQueryTag :: t :: filler)
  | .fetch _ => some (Machine.codeFetch :: filler)
  | .queryLock l _ => some (Machine.codeQueryLock :: l :: filler)
  | .queryRoster _ => some (Machine.codeQueryRoster :: filler)
  | .unknownCommand code _ => some (code :: filler)
  | .truncatedExchange code _ => some (code :: filler)
  | .emptyExchange => some []
  | .pinReset .. | .exchangeStart | .listeningWindowExpiry | .transmitGapExpiry | .transmissionEnd
  | .readbackMismatch | .arbitrationLoss | .silentSlotEnd | .frameSlotEnd | .listeningReceptionEnd
  | .leaseExpiry | .drop | .enterFounding | .cellStart .. => none

end Sys2Proof
end

