-- ==== Sys2Proof/Machine/Ops.lean ====
section
/-! DEFINITION. The named reads and writes of State that every block uses, and the passing of time. -/

namespace Sys2Proof.Machine

/-- The locks in ascending order. -/
@[irreducible] def allLocks : List LockNo := List.finRange 64

/-- The tags in ascending order. -/
@[irreducible] def allTags : List Tag := List.finRange 16

/-! ### Reads -/

/-- N, the line's slot count (R153). -/
def State.lineSlots (s : State) : Nat := s.ctrl.snc.val + 1

/-- The station is ACTIVE. -/
def State.isActive (s : State) : Bool := s.ctrl.state == .active

/-- The station is in the state `st`. -/
def State.inState (s : State) (st : StationState) : Bool := s.ctrl.state == st

/-- The station is SYNCING or FOUNDING. -/
def State.isRecovering (s : State) : Bool := s.inState .syncing || s.inState .founding

/-- The receiver is on: LISTENING, SYNCING, FOUNDING or ACTIVE (R37, Table 10-1). -/
def State.receiving (s : State) : Bool := s.inState .listening || s.isRecovering || s.isActive

/-- The slot in progress is the own slot (R45). -/
def State.inOwnSlot (s : State) : Bool := s.slots.position == s.ctrl.sid

/-- The slot in progress is slot N-1, whose end is the cycle end (R46). -/
def State.inLastSlot (s : State) : Bool := s.slots.position == s.ctrl.snc

/-- The record of lock `l`. -/
def State.lock (s : State) (l : LockNo) : LockRecord := s.locks[l]

/-- The roster entry of station `k`. -/
def State.rosterEntry (s : State) (k : StationNo) : RosterEntry := s.roster[k]

/-- The request entry of tag `t`. -/
def State.entry (s : State) (t : Tag) : RequestEntry := s.req.entries[t]

/-- The page that lock `l` lies in, 1 to 8 (R12). -/
def lockPage (l : LockNo) : Nat := l.val / 8 + 1

/-- Page `p` is in the installed-page set (R87). -/
def State.pageInstalled (s : State) (p : Nat) : Bool := s.repl.installed.getLsbD p

/-- Lock `l`'s page is valid (R12, R13). -/
def State.lockValid (s : State) (l : LockNo) : Bool := s.pageInstalled (lockPage l)

/-- The roster is valid (R73, R87). -/
def State.rosterValid (s : State) : Bool := s.pageInstalled 0

/-- All 9 pages, the installed-page set of an ACTIVE station (R87). -/
def allPages : BitVec 9 := BitVec.allOnes 9

/-- A relation of a live entry (R108). -/
def Relation.live : Relation → Bool
  | .pending | .waiting | .held => true
  | .free | .ended => false

/-- The entry is live (R108). -/
def RequestEntry.live (e : RequestEntry) : Bool := e.relation.live

/-- The tag of the live entry that names lock `l`; at most one does (R108). -/
def State.liveTag (s : State) (l : LockNo) : Option Tag :=
  allTags.find? fun t => (s.entry t).live && (s.entry t).lock == l

/-- The number of live entries (R108, R146). -/
def State.liveCount (s : State) : Nat := (allTags.filter fun t => (s.entry t).live).length

/-! ### Writes -/

/-- Replaces the record of lock `l`. -/
def State.setLock (s : State) (l : LockNo) (r : LockRecord) : State :=
  { s with locks := s.locks.set l.val r l.isLt }

/-- Replaces the roster entry of station `k`. -/
def State.setRosterEntry (s : State) (k : StationNo) (e : RosterEntry) : State :=
  { s with roster := s.roster.set k.val e k.isLt }

/-- Replaces the request entry of tag `t`. -/
def State.setEntry (s : State) (t : Tag) (e : RequestEntry) : State :=
  { s with req.entries := s.req.entries.set t.val e t.isLt }

/-- Enters a station state. -/
def State.setStation (s : State) (st : StationState) : State := { s with ctrl.state := st }

/-- Sets the installed-page set, and with it the valid conditions of roster and lock pages (R87). -/
def State.setInstalled (s : State) (pages : BitVec 9) : State := { s with repl.installed := pages }

/-- Page `p` joins the installed-page set (R93). -/
def State.addInstalled (s : State) (p : Nat) : State :=
  s.setInstalled (s.repl.installed ||| BitVec.twoPow 9 p)

/-- Sets the orphan counter (R97). -/
def State.setOrphan (s : State) (n : Nat) : State := { s with repl.orphan := n }

/-- Clears the agree and disagree counters (R91, R96, R102). -/
def State.clearVote (s : State) : State := { s with repl.agree := 0, repl.disagree := 0 }

/-- Sets the JOIN-pending flag (R55). -/
def State.setJoinPending (s : State) (b : Bool) : State := { s with repl.joinPending := b }

/-- The page cursor's value on becoming ACTIVE: own number mod 9 (R57). -/
def State.startCursor (s : State) : State := { s with pageCursor := Fin.ofNat 9 s.ctrl.sid.val }

/-- Releases the line: nothing is being sent, and the shift position is 0 (R41). -/
def State.releaseLine (s : State) : State :=
  { s with line.sending := false, line.shift := 0, line.shiftClocks := 0 }

/-- Forgets the frame that was handed to the Line Interface, and what its readback showed. -/
def State.dropOwnFrame (s : State) : State :=
  { s with line.own := none, line.ownFault := false, line.mismatch := false }

/-! ### Time -/

/-- CLKIN periods of one bit time (R38). -/
def State.bitTime (s : State) : Nat := Config.clocksPerBit * s.ctrl.divisor

/-- The length of the listening window in CLKIN periods: (N + 2 + own number) × W bit times (R51). -/
def State.windowLength (s : State) : Nat :=
  (s.lineSlots + 2 + s.ctrl.sid.val) * Config.silenceWindow * s.bitTime

/-- The cells of the frame handed over (R41). -/
def State.ownCells (s : State) : Nat := ((s.line.own.map fun o => 8 * o.frame.toBytes.length).getD 0)

/-- The values of those cells: bytes in frame order, most significant bit first (R37, R41). -/
def State.ownBits (s : State) : List Bool :=
  match s.line.own with
  | some o => o.frame.toBytes.flatMap byteBits
  | none => []

/-- The sample points of a cell (Table 3-1). -/
inductive SamplePoint where
  | phase1 | value | phase3
  deriving DecidableEq, Repr

/-- CLKIN periods from the start of a cell to a sample point: 1/6, 1/2 and 5/6 bit time (Table 3-1). -/
def State.pointClocks (s : State) : SamplePoint → Nat
  | .phase1 => s.bitTime / 6
  | .value => s.bitTime / 2
  | .phase3 => 5 * s.bitTime / 6

/-- One sample of a cell that the station drives (R59): the CLKIN periods until it, its point, the value the cell carries,
and whether the line is dominant then. -/
structure OwnSample where
  clocks : Nat
  point : SamplePoint
  bit : Bool
  dominant : Bool
  deriving DecidableEq, Repr

/-- A readback mismatch: a value sample that reads dominant where the own value was 1 (R59). -/
def OwnSample.isMismatch (x : OwnSample) : Bool := x.point == .value && x.bit && x.dominant

/-- A cell fault in the readback: a phase-1 sample, or a value sample of a 0, that reads recessive, or a phase-3 sample that
reads dominant (R59). -/
def OwnSample.isFault (x : OwnSample) : Bool :=
  match x.point with
  | .phase1 => !x.dominant
  | .value => !x.bit && !x.dominant
  | .phase3 => x.dominant

/-- The samples of the own cells that fall into the next `n` CLKIN periods, in their order (R59). Until the next cell start
the line is dominant for the time that the latest one gave, and recessive after it. -/
def State.ownSamples (s : State) (n : Nat) : List OwnSample :=
  (((s.ownBits.drop s.line.shift).take (n / s.bitTime + 2)).zipIdx).flatMap fun (bit, j) =>
    [SamplePoint.phase1, .value, .phase3].filterMap fun point =>
      let moment := j * s.bitTime + s.pointClocks point
      let clocks := moment - s.line.shiftClocks
      if s.line.shiftClocks ≤ moment ∧ clocks < n then
        some ⟨clocks, point, bit, decide (s.line.sinceCell + clocks < s.line.dominant)⟩
      else none

/-- `n` CLKIN periods of a transmission that reads back no mismatch in them: the shift position counts the cells sent, up
to the last (R41). -/
def State.advanceShift (s : State) (n : Nat) : State :=
  let total := s.line.shiftClocks + n
  { s with
    line.shift := min s.ownCells (s.line.shift + total / s.bitTime)
    line.shiftClocks := total % s.bitTime }

/-- A readback cell fault in these samples marks the reception in progress, or the one that begins within the transmission
(R39, R59). -/
def State.markFault (s : State) (samples : List OwnSample) : State :=
  let fault := samples.any (·.isFault)
  { s with
    line.ownFault := s.line.ownFault || fault
    line.rx.fault := s.line.rx.fault || (s.line.rx.inProgress && fault) }

/-- `n` CLKIN periods of an own transmission. On its first mismatch the line is released at once, and the mismatch is handed
to the Frame Checker (R41, R59); no own cell is sampled after it. -/
def State.advanceOwn (s : State) (n : Nat) : State :=
  if s.line.sending then
    let samples := s.ownSamples n
    let s1 := s.markFault (samples.takeWhile fun x => !x.isMismatch)
    if samples.any (·.isMismatch) then { s1.releaseLine with line.mismatch := true } else s1.advanceShift n
  else s

/-- `n` CLKIN periods at an aligned station: in a waiting slot the slot timer counts from slot start up to W
(R43); in a frame slot it counts the quiet since the latest cell's end, or since the line went recessive, up
to Q (R44). A count that has reached its end stays there until its event is taken (log 3). -/
def State.advanceSlotTimer (s : State) (n : Nat) : State :=
  if s.slots.aligned then
    match s.slots.phase with
    | .waiting => { s with slots.timer := min (s.slots.timer + n) (Config.silenceWindow * s.bitTime) }
    | .inFrame =>
      { s with
        slots.timer := min (s.line.sinceCell + n - max s.bitTime s.line.dominant) (Config.quiet * s.bitTime) }
  else s

/-- `n` CLKIN periods of the listening window, up to its length (R51). -/
def State.advanceWindow (s : State) (n : Nat) : State :=
  { s with slots.window := s.slots.window.map fun k => min (k + n) s.windowLength }

/-- `n` CLKIN periods since the latest cell start, counted as far as the end of quiet (R39, R44). -/
def State.advanceCell (s : State) (n : Nat) : State :=
  { s with
    line.sinceCell :=
      min (s.line.sinceCell + n) (Config.quiet * s.bitTime + max s.bitTime s.line.dominant) }

/-- `n` CLKIN periods pass with no event. Only a station whose receiver is on counts time. -/
def State.elapse (s : State) (n : Nat) : State :=
  if s.receiving then (((s.advanceOwn n).advanceSlotTimer n).advanceWindow n).advanceCell n else s

end Sys2Proof.Machine
end

