-- ==== Sys2Proof/Machine/Flags.lean ====
section
/-! DEFINITION. The flags and outputs that the part computes from its state: the status byte, HINT#, HDO and the
line driver. -/

namespace Sys2Proof.Machine

/-- Station state codes (Table 11-7). -/
def stationCode : StationState → Nat
  | .idle => 0
  | .listening => 1
  | .syncing => 2
  | .founding => 3
  | .active => 4
  | .stopped => 5
  | .halted => 6

/-- Notice pending: the notice queue is non-empty, whatever the interrupt enable holds (R138). -/
def State.noticePending (s : State) : Bool := !s.notices.queue.isEmpty

/-- The operation queue holds at least one tag (R138). -/
def State.opsWaiting (s : State) : Bool := !s.req.queue.isEmpty

/-- The status byte (R138, Table 11-8). -/
def State.statusByte (s : State) : Byte :=
  BitVec.ofNat 8
    (32 * stationCode s.ctrl.state + 16 * s.noticePending.toNat + 8 * s.port.truncated.toNat
      + 4 * s.opsWaiting.toNat + 2 * s.ctrl.leavePending.toNat)

/-- HINT# is asserted while the notice queue is non-empty and the interrupt enable is set (R134). -/
def State.hintAsserted (s : State) : Bool := s.noticePending && s.ctrl.intEnable

/-- Result codes (Table 9-4). -/
def resultCode : Result → Byte
  | .ok => 0
  | .unknown => 1
  | .state => 2
  | .range => 3
  | .duplicate => 4
  | .full => 5
  | .tag => 6
  | .busy => 7
  | .straps => 8
  | .empty => 9

/-- The held response as it is shifted out: echo, result code, payload (R137). -/
def Response.toBytes (r : Response) : List Byte := r.echo :: resultCode r.result :: r.payload

/-- Byte `i` on HDO in an exchange: the status byte, the held response, then filler 0x00; none while HDO is at high
impedance (R137). While HSEL# is still asserted after a pin reset no exchange is in progress (R143), and that HDO then
stays at high impedance is the model's choice (log 29). -/
def State.hdoByte (s : State) (i : Nat) : Option Byte :=
  match s.port.phase, s.port.status with
  | .exchange, some status => some ((status :: s.port.held.toBytes).getD i 0)
  | _, _ => none

/-- The bit on HDO: the first bit of the status byte from the assertion of HSEL#, and each later bit from a falling edge
of HCK, most significant first; none at high impedance (R137). -/
def State.hdoBit (s : State) : Option Bool :=
  (s.hdoByte (s.spi.falls / 8)).map fun b => b.getMsbD (s.spi.falls % 8)

/-- The value of the cell under the shift position (R41). -/
def State.cellValue (s : State) : Option Bool := s.ownBits[s.line.shift]?

/-- The line driver drives dominant: in the first phase of every cell it sends, and in the second phase of a cell
that carries 0 (R37, R168). -/
def State.drivesDominant (s : State) : Bool :=
  if s.line.sending then
    let phase := Config.clocksPerPhase * s.ctrl.divisor
    match s.cellValue with
    | some bit => decide (s.line.shiftClocks < phase) || (decide (s.line.shiftClocks < 2 * phase) && !bit)
    | none => false
  else false

end Sys2Proof.Machine
end

