-- ==== Sys2Proof/Machine/Notices.lean ====
section
/-! DEFINITION. The Notice Queue (chapter 8): raising and coalescing, and removal by delivery. -/

namespace Sys2Proof.Machine

/-- What a notice belongs to: a tag, or one of the four station kinds (R125). -/
inductive NoticeOwner where
  | tag (t : Tag)
  | sync | roster | tableLost | fault
  deriving DecidableEq, Repr

/-- The owner of a notice's body (R125). -/
def NoticeBody.owner : NoticeBody → NoticeOwner
  | .update t .. => .tag t
  | .ended t .. => .tag t
  | .sync _ => .sync
  | .roster => .roster
  | .tableLost => .tableLost
  | .fault _ => .fault

/-- The union of two fault sets (R129). -/
def FaultSet.union (a b : FaultSet) : FaultSet :=
  ⟨a.duplicateId || b.duplicateId, a.slotCountMismatch || b.slotCountMismatch, a.alienTraffic || b.alienTraffic⟩

/-- The body after a new raise lands on an unread notice of the same owner: a FAULT takes the union, every other
kind takes the new content (R128, R129). A raise on an unread END does not arise (R128); here it would replace
it (log 15). -/
def NoticeBody.coalesce (unread new : NoticeBody) : NoticeBody :=
  match unread, new with
  | .fault a, .fault b => .fault (a.union b)
  | _, b => b

/-- A new body onto the queue with this serial: changed in place where its owner has an unread notice, else
appended at the tail (R128, R129). -/
def raiseOnto (serial : Byte) (body : NoticeBody) : List Notice → List Notice
  | [] => [⟨serial, body⟩]
  | n :: rest =>
    if n.body.owner = body.owner then ⟨serial, n.body.coalesce body⟩ :: rest
    else n :: raiseOnto serial body rest

/-- A raise: the serial counter goes up by one, and the notice that is made or changed takes it (R127). -/
def State.raise (s : State) (body : NoticeBody) : State :=
  { s with
    notices.queue := raiseOnto (s.notices.serial + 1) body s.notices.queue
    notices.serial := s.notices.serial + 1 }

/-- The sets of one fault. -/
def FaultSet.duplicate : FaultSet := ⟨true, false, false⟩
@[inherit_doc FaultSet.duplicate] def FaultSet.slotCount : FaultSet := ⟨false, true, false⟩
@[inherit_doc FaultSet.duplicate] def FaultSet.alien : FaultSet := ⟨false, false, true⟩

/-- The entry of a removed END notice becomes FREE (R133). -/
def State.freeEntry (s : State) (t : Tag) : State := s.setEntry t { s.entry t with relation := .free }

/-- The tag whose END notice a body is. -/
def NoticeBody.endedTag : NoticeBody → Option Tag
  | .ended t _ _ => some t
  | .update .. | .sync _ | .roster | .tableLost | .fault _ => none

/-- The delivery of a FETCH response with this serial: the head notice is removed where it holds the same serial,
and its entry freed where it was an END (R132, R133). -/
def State.removeHead (s : State) (serial : Byte) : State :=
  match s.notices.queue with
  | [] => s
  | n :: rest =>
    if n.serial = serial then
      let s' := { s with notices.queue := rest }
      match n.body.endedTag with
      | some t => s'.freeEntry t
      | none => s'
    else s

end Sys2Proof.Machine
end

