-- ==== Sys2Proof/Machine/Requests.lean ====
section
/-! DEFINITION. The Request Engine (chapter 7): the end of an entry, the operation queue, the draw, the reports of
the Lock Table, doubtful operations, FOUND handling and reconciliation. -/

namespace Sys2Proof.Machine

/-! ### Entries -/

/-- Takes tag `t` out of the operation queue; the others close the gap (R109, R110). -/
def State.dequeue (s : State) (t : Tag) : State :=
  { s with req.queue := s.req.queue.filter (· ≠ t), req.doubtOrder := s.req.doubtOrder.filter (· ≠ t) }

/-- Appends tag `t` at the tail of the operation queue (R110). -/
def State.enqueue (s : State) (t : Tag) : State := { s with req.queue := s.req.queue ++ [t] }

/-- An entry whose op is discarded or done: op none, whatever its status was (R109). -/
def RequestEntry.noOp (e : RequestEntry) : RequestEntry :=
  { e with op := none, opStatus := .queued, doubtMark := false }

/-- An entry with this op QUEUED. -/
def RequestEntry.withOp (e : RequestEntry) (k : OpKind) : RequestEntry :=
  { e with op := some k, opStatus := .queued, doubtMark := false }

/-- Discards tag `t`'s op, in the queue or in doubt (R109, R121). -/
def State.discardOp (s : State) (t : Tag) : State := (s.dequeue t).setEntry t (s.entry t).noOp

/-- Queues an op of tag `t` at the tail (R113 to R115). -/
def State.queueOp (s : State) (t : Tag) (k : OpKind) : State :=
  (s.setEntry t ((s.entry t).withOp k)).enqueue t

/-- Ends an entry: relation ENDED, op discarded, END notice handed over (R109). -/
def State.endEntry (s : State) (t : Tag) (outcome : EndOutcome) : State :=
  let e := s.entry t
  ((s.dequeue t).setEntry t { e.noOp with relation := .ended }).raise (.ended t e.lock outcome)

/-- An UPDATE notice of tag `t` as its entry stands: HELD with its token. -/
def State.raiseHeld (s : State) (t : Tag) : State :=
  s.raise (.update t (s.entry t).lock (s.entry t).mode (.held (s.entry t).token))

/-- An UPDATE notice of tag `t` as its entry stands: WAITING at a position. -/
def State.raiseWaiting (s : State) (t : Tag) (position : Nat) : State :=
  s.raise (.update t (s.entry t).lock (s.entry t).mode (.waiting position))

/-- Ends the entry of tag `t` where it is live (R123, R124). -/
def State.endLive (outcome : EndOutcome) (s : State) (t : Tag) : State :=
  if (s.entry t).live then s.endEntry t outcome else s

/-- Ends every live entry in ascending tag order and empties queue and to-yield set (R123, R124). -/
def State.endAll (s : State) (outcome : EndOutcome) : State :=
  let s' := allTags.foldl (State.endLive outcome) s
  { s' with req.queue := [], req.toYield := [], req.doubtOrder := [] }

/-- Empties the to-yield set (R111). -/
def State.clearToYield (s : State) : State := { s with req.toYield := [] }

/-- Takes lock `l` out of the to-yield set (R111). -/
def State.unyield (s : State) (l : LockNo) : State :=
  { s with req.toYield := s.req.toYield.filter (· ≠ l) }

/-! ### The draw and what comes back from it -/

/-- The walk of R116 over the queue: takes up to `n` tags, leaving in place those `held` back; the taken ones and
the ones that stay, each in queue order. -/
def drawFrom (held : Tag → Bool) : Nat → List Tag → List Tag × List Tag
  | 0, q => ([], q)
  | _ + 1, [] => ([], [])
  | n + 1, t :: q =>
    if held t then
      let r := drawFrom held (n + 1) q
      (r.1, t :: r.2)
    else
      let r := drawFrom held n q
      (t :: r.1, r.2)

/-- A CLAIM whose lock is in the to-yield set is left in its place (R116). -/
def State.heldBack (s : State) (t : Tag) : Bool :=
  (s.entry t).op == some .claim && s.req.toYield.contains (s.entry t).lock

/-- The operation that an entry's op puts into a frame: a CLAIM with the entry's mode, try and limit, any other
with EXCLUSIVE, try clear and limit 0 (R116, notes to Table 2-1). -/
def RequestEntry.operation (e : RequestEntry) (k : OpKind) : Operation :=
  match k with
  | .claim => ⟨.claim, BitVec.ofNat 8 e.lock.val, e.mode, e.tryOnly, e.limit⟩
  | .yield | .downgrade | .renew => ⟨k, BitVec.ofNat 8 e.lock.val, .exclusive, false, 0⟩

/-- The YIELD sent for a lock of the to-yield set (R116). -/
def orphanYield (l : LockNo) : Operation := ⟨.yield, BitVec.ofNat 8 l.val, .exclusive, false, 0⟩

/-- Sets the op status of tag `t`. -/
def State.setOpStatus (s : State) (t : Tag) (st : OpStatus) (mark : Bool) : State :=
  s.setEntry t { s.entry t with opStatus := st, doubtMark := mark }

/-- The draw of R116: the operations of the own frame, queued ops first and then orphan YIELDs in ascending lock
order, the tags drawn, and the state with those ops IN_FLIGHT. -/
def State.draw (s : State) : List Operation × List Tag × State :=
  let r := drawFrom s.heldBack Config.frameOps s.req.queue
  let queued := r.1.filterMap fun t => (s.entry t).op.map (s.entry t).operation
  let orphans := (s.req.toYield.take (Config.frameOps - r.1.length)).map orphanYield
  (queued ++ orphans, r.1,
    r.1.foldl (fun s t => s.setOpStatus t .inFlight false) { s with req.queue := r.2 })

/-- Tag `t`'s op is IN_FLIGHT. -/
def State.inFlight (s : State) (t : Tag) : Bool :=
  (s.entry t).op.isSome && (s.entry t).opStatus == .inFlight

/-- Tag `t`'s op is DOUBTFUL. -/
def State.doubtful (s : State) (t : Tag) : Bool :=
  (s.entry t).op.isSome && (s.entry t).opStatus == .doubtful

/-- Ops that were not applied come back to the head of the queue as QUEUED, in their frame order (R110, R117). -/
def State.returnToHead (s : State) (tags : List Tag) : State :=
  let s' := tags.foldl (fun s t => s.setOpStatus t .queued false) s
  { s' with req.queue := tags ++ s'.req.queue }

/-- The frame did not happen: its ops that are still in flight return to the head (R62, R117). -/
def State.returnDrawn (s : State) (tags : List Tag) : State := s.returnToHead (tags.filter s.inFlight)

/-- A garbled readback: the frame's ops become DOUBTFUL in frame order, doubt mark clear (R63, R117, R120). -/
def State.doubtDrawn (s : State) (tags : List Tag) : State :=
  let ts := tags.filter s.inFlight
  let s' := ts.foldl (fun s t => s.setOpStatus t .doubtful false) s
  { s' with req.doubtOrder := s'.req.doubtOrder ++ ts }

/-- The DOUBTFUL tags whose mark is `mark`, in frame order. -/
def State.doubtfulMarked (s : State) (mark : Bool) : List Tag :=
  s.req.doubtOrder.filter fun t => s.doubtful t && (s.entry t).doubtMark == mark

/-- Every DOUBTFUL op returns to the head as QUEUED, those with the mark set ahead of those with it clear (R121,
R122). -/
def State.requeueDoubtful (s : State) : State :=
  { s.returnToHead (s.doubtfulMarked true ++ s.doubtfulMarked false) with req.doubtOrder := [] }

/-- An own evaluation that keeps the vote first settles the DOUBTFUL ops whose mark is set, then sets the mark of
those whose mark is clear (R120). -/
def State.settleDoubtful (s : State) : State :=
  let settled := s.doubtfulMarked true
  let fresh := s.doubtfulMarked false
  let s1 := { s.returnToHead settled with req.doubtOrder := fresh }
  fresh.foldl (fun s t => s.setOpStatus t .doubtful true) s1

/-! ### Reports of the Lock Table -/

/-- The result of an applied operation (Table 2-2). -/
inductive OpResult where
  | granted (token : Word16) (mode : Mode)
  | queued (position : Nat)
  | denied | refused | released | withdrawn | downgraded | renewed | noEffect
  deriving DecidableEq, Repr

/-- The entry that a result belongs to: the one whose op is in flight for that lock and kind (R118). -/
def State.reportedTag (s : State) (k : OpKind) (l : LockNo) : Option Tag :=
  allTags.find? fun t => s.inFlight t && (s.entry t).op == some k && (s.entry t).lock == l

/-- Table 7-3 for the entry of tag `t`. -/
def State.entryResult (s : State) (t : Tag) (k : OpKind) (res : OpResult) : State :=
  let e := s.entry t
  match k, res with
  | .claim, .granted token mode =>
    (s.setEntry t { e.noOp with relation := .held, token := token, mode := mode }).raiseHeld t
  | .claim, .queued position => (s.setEntry t { e.noOp with relation := .waiting }).raiseWaiting t position
  | .claim, .denied => s.endEntry t .denied
  | .claim, .refused => s.endEntry t .refused
  | .yield, .released => s.endEntry t .released
  | .yield, .withdrawn => s.endEntry t .cancelled
  | .yield, .noEffect => s.endEntry t .released
  | .downgrade, .downgraded => (s.setEntry t { e.noOp with mode := .shared }).raiseHeld t
  | .downgrade, .noEffect => s.setEntry t e.noOp
  | .renew, .renewed => (s.setEntry t e.noOp).raiseHeld t
  | .renew, .noEffect => s.setEntry t e.noOp
  | _, _ => s

/-- An operation result report (R22, R118): to the entry whose op it was, else to the orphan lock, else ignored. -/
def State.resultReport (s : State) (k : OpKind) (l : LockNo) (res : OpResult) : State :=
  match s.reportedTag k l with
  | some t => s.entryResult t k res
  | none => if k = .yield then s.unyield l else s

/-- A grant report (R7, R119). Table 7-4 has no row for a PENDING entry nor for a HELD one with another token, and the
entry then stays as it is (DESIGN CHOICE, log 30). -/
def State.grantReport (s : State) (l : LockNo) (mode : Mode) (token : Word16) : State :=
  if s.req.toYield.contains l then s
  else
    match s.liveTag l with
    | none => s
    | some t =>
      if (s.entry t).relation = .waiting then
        (s.setEntry t { s.entry t with relation := .held, mode := mode, token := token }).raiseHeld t
      else s

/-- A removal report by expiry or purge, with the outcome Table 7-4 gives its cause (R119). Table 7-4 has no row for a
PENDING entry nor for an expiry that meets a WAITING one, and the entry then stays as it is (DESIGN CHOICE, log 30). -/
def State.removalReport (s : State) (l : LockNo) (outcome : EndOutcome) : State :=
  if s.req.toYield.contains l then s.unyield l
  else
    match s.liveTag l with
    | none => s
    | some t =>
      if (s.entry t).relation = .held ∨ ((s.entry t).relation = .waiting ∧ outcome ≠ .expired) then
        s.endEntry t outcome
      else s

/-! ### FOUND handling -/

/-- FOUND handling of one entry: a WAITING or HELD entry ends LOST; a PENDING one is kept (R122). -/
def State.foundEntry (s : State) (t : Tag) : State :=
  if (s.entry t).relation = .waiting ∨ (s.entry t).relation = .held then s.endEntry t .lost else s

/-- FOUND handling (R122): entries in ascending tag order, then the DOUBTFUL CLAIMs that are left return to the
head, then the to-yield set is emptied. -/
def State.foundHandling (s : State) : State := ((allTags.foldl State.foundEntry s).requeueDoubtful).clearToYield

/-! ### Reconciliation -/

/-- The part a station takes in a record. -/
inductive Participation where
  | holder (h : Holder)
  | waiter (w : Waiter) (position : Nat)
  | neither
  deriving DecidableEq, Repr

/-- The holder entry of a station. -/
def LockRecord.holderOf (r : LockRecord) (st : StationNo) : Option Holder := r.holders.find? (·.station == st)

/-- The waiter entry of a station. -/
def LockRecord.waiterOf (r : LockRecord) (st : StationNo) : Option Waiter := r.waiters.find? (·.station == st)

/-- A waiter's queue position, 1 for the head (R3). -/
def LockRecord.positionOf (r : LockRecord) (st : StationNo) : Nat := r.waiters.findIdx (·.station == st) + 1

/-- The station's participation in the record. -/
def LockRecord.participation (r : LockRecord) (st : StationNo) : Participation :=
  match r.holderOf st, r.waiterOf st with
  | some h, _ => .holder h
  | none, some w => .waiter w (r.positionOf st)
  | none, none => .neither

/-- The station is a holder or a waiter of the record. -/
def LockRecord.participates (r : LockRecord) (st : StationNo) : Bool :=
  (r.holderOf st).isSome || (r.waiterOf st).isSome

/-- A DOWNGRADE that the table shows done: the station is a SHARED holder (R121). -/
def downgradeDone (e : RequestEntry) (h : Holder) : Bool := e.op == some .downgrade && h.mode == .shared

/-- Reconciliation of one live entry (Table 7-6). The DOUBTFUL ops it leaves stay DOUBTFUL here, and
requeueDoubtful returns them when every entry has been visited. -/
def State.reconcileEntry (s : State) (t : Tag) : State :=
  let e := s.entry t
  if !e.live then s
  else
    match (s.lock e.lock).participation s.ctrl.sid with
    | .holder h =>
      let s1 := if e.relation = .pending ∨ downgradeDone e h then s.discardOp t else s
      let s2 := s1.setEntry t { s1.entry t with relation := .held, mode := h.mode, token := h.token }
      if e.relation = .held ∧ e.mode = h.mode ∧ e.token = h.token then s2 else s2.raiseHeld t
    | .waiter w position =>
      let s1 := if e.relation = .pending then s.discardOp t else s
      let s2 := s1.setEntry t { s1.entry t with relation := .waiting, mode := w.mode, token := 0 }
      if e.relation = .waiting ∧ e.mode = w.mode ∧ e.token = 0 then s2 else s2.raiseWaiting t position
    | .neither =>
      if e.relation = .pending then s
      else if e.op = some .yield then s.endEntry t (if e.relation = .held then .released else .cancelled)
      else s.endEntry t .lost

/-- The locks in whose record the own station takes part and which no live entry names enter the to-yield set
(R111, R121). -/
def State.fillToYield (s : State) : State :=
  { s with
    req.toYield :=
      allLocks.filter fun l =>
        s.req.toYield.contains l || ((s.lock l).participates s.ctrl.sid && (s.liveTag l).isNone) }

/-- Reconciliation (R121). -/
def State.reconcile (s : State) : State :=
  ((allTags.foldl State.reconcileEntry s).requeueDoubtful).fillToYield

end Sys2Proof.Machine
end

