-- ==== Sys2Proof/Machine/LockTable.lean ====
section
/-! DEFINITION. The Lock Table (chapters 1 and 2): the grant pass, the four operations, purge, expiry, clear and
install, with the reports they hand to the Request Engine. -/

namespace Sys2Proof.Machine

/-! ### One record -/

/-- The head waiter's mode fits the holders (R5, Table 1-2). -/
def grantable (holders : List Holder) : Mode → Bool
  | .exclusive => holders.isEmpty
  | .shared => holders.all (·.mode == .shared)

/-- The holder entry that a grant makes of a waiter (R6). -/
def Waiter.grantedAt (w : Waiter) (c : CycleNo) (token : Word16) : Holder :=
  ⟨w.station, w.mode, c, w.limit, token⟩

/-- The grant pass on a generation, a holder list and a waiter queue (R6). -/
def grantLoop (c : CycleNo) (gen : Word16) (holders : List Holder) : List Waiter → LockRecord
  | [] => ⟨gen, holders, []⟩
  | w :: ws =>
    if grantable holders w.mode then grantLoop c (gen + 1) (holders ++ [w.grantedAt c (gen + 1)]) ws
    else ⟨gen, holders, w :: ws⟩

/-- The grant pass on one record, with the current cycle number (R6). -/
def LockRecord.grantPass (r : LockRecord) (c : CycleNo) : LockRecord :=
  grantLoop c r.generation r.holders r.waiters

/-- The record without station `st` among its holders. -/
def LockRecord.dropHolder (r : LockRecord) (st : StationNo) : LockRecord :=
  { r with holders := r.holders.filter (·.station ≠ st) }

/-- The record without station `st` among its waiters. -/
def LockRecord.dropWaiter (r : LockRecord) (st : StationNo) : LockRecord :=
  { r with waiters := r.waiters.filter (·.station ≠ st) }

/-- What an operation did: the record after it and after its grant pass, its result, and the record on which the
pass ran (which says who was waiting when the pass began). -/
structure OpEffect where
  record : LockRecord
  result : OpResult
  entering : LockRecord
  deriving DecidableEq, Repr

/-- CLAIM (R23, R24, R25). -/
def LockRecord.claim (r : LockRecord) (c : CycleNo) (st : StationNo) (o : Operation) : OpEffect :=
  if r.participates st then ⟨r, .refused, r⟩
  else
    let joined := { r with waiters := r.waiters ++ [Waiter.mk st o.mode o.limit] }
    let passed := joined.grantPass c
    match passed.holderOf st with
    | some h => ⟨passed, .granted h.token h.mode, joined⟩
    | none =>
      if o.tryOnly then ⟨{ passed with waiters := passed.waiters.dropLast }, .denied, joined⟩
      else ⟨passed, .queued passed.waiters.length, joined⟩

/-- YIELD (R26, R27, R28). -/
def LockRecord.yield (r : LockRecord) (c : CycleNo) (st : StationNo) : OpEffect :=
  if (r.holderOf st).isSome then ⟨(r.dropHolder st).grantPass c, .released, r.dropHolder st⟩
  else if (r.waiterOf st).isSome then ⟨(r.dropWaiter st).grantPass c, .withdrawn, r.dropWaiter st⟩
  else ⟨r, .noEffect, r⟩

/-- The holder list with the EXCLUSIVE hold of `st` made SHARED, in its place (R29). -/
def LockRecord.shareHolder (r : LockRecord) (st : StationNo) : LockRecord :=
  { r with holders := r.holders.map fun h => if h.station = st then { h with mode := .shared } else h }

/-- DOWNGRADE (R29). -/
def LockRecord.downgrade (r : LockRecord) (c : CycleNo) (st : StationNo) : OpEffect :=
  if r.holders.any fun h => h.station == st && h.mode == .exclusive then
    ⟨(r.shareHolder st).grantPass c, .downgraded, r.shareHolder st⟩
  else ⟨r, .noEffect, r⟩

/-- The holder list with the lease start of `st` set to `c` (R30). -/
def LockRecord.renewHolder (r : LockRecord) (c : CycleNo) (st : StationNo) : LockRecord :=
  { r with holders := r.holders.map fun h => if h.station = st then { h with leaseStart := c } else h }

/-- RENEW; it runs no grant pass (R30). -/
def LockRecord.renew (r : LockRecord) (c : CycleNo) (st : StationNo) : OpEffect :=
  if (r.holderOf st).isSome then ⟨r.renewHolder c st, .renewed, r.renewHolder c st⟩ else ⟨r, .noEffect, r⟩

/-- An operation of station `st` on one record (R21). -/
def LockRecord.apply (r : LockRecord) (c : CycleNo) (st : StationNo) (o : Operation) : OpEffect :=
  match o.kind with
  | .claim => r.claim c st o
  | .yield => r.yield c st
  | .downgrade => r.downgrade c st
  | .renew => r.renew c st

/-- A hold whose limit has run out at the end of cycle `c` (R31). -/
def Holder.expired (h : Holder) (c : CycleNo) : Bool :=
  decide (0 < h.limit.toNat ∧ h.limit.toNat ≤ (c - h.leaseStart).toNat)

/-- The record without the holds that expire at the end of cycle `c` (R31). -/
def LockRecord.dropExpired (r : LockRecord) (c : CycleNo) : LockRecord :=
  { r with holders := r.holders.filter fun h => !h.expired c }

/-! ### The table -/

/-- Hands the own station's grant report, where the pass from `entering` to `after` granted its waiter (R7). -/
def State.reportGrant (s : State) (l : LockNo) (entering after : LockRecord) : State :=
  if (entering.waiterOf s.ctrl.sid).isSome then
    match after.holderOf s.ctrl.sid with
    | some h => s.grantReport l h.mode h.token
    | none => s
  else s

/-- Applies one operation of `sender` at a slot end: skipped where it is void (R19) or its page is not installed
(R13); reports are handed at an ACTIVE station alone (R16, R22). -/
def State.applyOperation (s : State) (sender : StationNo) (o : Operation) : State :=
  match lockOfByte o.lock with
  | none => s
  | some l =>
    if s.lockValid l then
      let eff := (s.lock l).apply s.slots.cycle sender o
      let s1 := s.setLock l eff.record
      if s.isActive then
        let s2 := if sender = s.ctrl.sid then s1.resultReport o.kind l eff.result else s1
        s2.reportGrant l eff.entering eff.record
      else s1
    else s

/-- The operations of a frame, in frame order (R21). -/
def State.applyOperations (s : State) (sender : StationNo) (ops : List Operation) : State :=
  ops.foldl (fun s o => s.applyOperation sender o) s

/-- The causes of a purge (R9). -/
inductive PurgeCause where
  | drop | join | leave
  deriving DecidableEq, Repr

/-- The outcome with which an own entry ends by a purge (Table 7-4). -/
def PurgeCause.outcome : PurgeCause → EndOutcome
  | .drop => .evicted
  | .join | .leave => .lost

/-- The purge of station `st` on one lock (R8, R9). -/
def State.purgeLock (s : State) (st : StationNo) (cause : PurgeCause) (l : LockNo) : State :=
  if s.lockValid l && (s.lock l).participates st then
    let left := ((s.lock l).dropHolder st).dropWaiter st
    let after := left.grantPass s.slots.cycle
    let s1 := s.setLock l after
    if s.isActive then
      let s2 := if st = s.ctrl.sid then s1.removalReport l cause.outcome else s1
      s2.reportGrant l left after
    else s1
  else s

/-- A purge: every lock in ascending lock order (R8). -/
def State.purge (s : State) (st : StationNo) (cause : PurgeCause) : State :=
  allLocks.foldl (fun s l => s.purgeLock st cause l) s

/-- The expiries of the ending cycle on one lock (R31, R34). -/
def State.expireLock (s : State) (l : LockNo) : State :=
  let r := s.lock l
  if s.lockValid l && r.holders.any (·.expired s.slots.cycle) then
    let left := r.dropExpired s.slots.cycle
    let after := left.grantPass s.slots.cycle
    let s1 := s.setLock l after
    if s.isActive then
      let s2 :=
        if r.holders.any fun h => h.station == s.ctrl.sid && h.expired s.slots.cycle then
          s1.removalReport l .expired
        else s1
      s2.reportGrant l left after
    else s1
  else s

/-- The expiries of a cycle end, in ascending lock order (R31, R35). -/
def State.expireAll (s : State) : State := allLocks.foldl State.expireLock s

/-- The clear of a FOUND frame (R10). -/
def State.clearTable (s : State) : State := { s with locks := .replicate 64 .empty }

/-- The install of lock page k + 1: its 8 records are replaced (R14). -/
def State.installLocks (s : State) (k : Fin 8) (records : List LockRecord) : State :=
  { s with locks := s.locks.mapFinIdx fun l r _ => if l / 8 = k.val then records.getD (l % 8) .empty else r }

end Sys2Proof.Machine
end

