-- ==== Sys2Proof/Machine/Roster.lean ====
section
/-! DEFINITION. The Roster (chapter 5): entries, activity, silence, drop, and the effects of valid frames. -/

namespace Sys2Proof.Machine

/-- Writes a roster entry. A change of state at an ACTIVE station raises a ROSTER notice (R85). -/
def State.putRoster (s : State) (k : StationNo) (e : RosterEntry) : State :=
  let s1 := s.setRosterEntry k e
  if s.isActive && (s.rosterEntry k).state != e.state then s1.raise .roster else s1

/-- The roster effect of a valid ACTIVE, SYNCING, JOIN or LEAVE frame from station `k`, with its purge, where the
roster is valid (R73 to R77). -/
def State.rosterFrame (s : State) (k : StationNo) (status : FrameStatus) : State :=
  if s.rosterValid then
    match status with
    | .active => s.putRoster k ⟨.active, 0⟩
    | .syncing => s.putRoster k ⟨.syncing, 0⟩
    | .join =>
      let s1 := s.putRoster k ⟨.syncing, 0⟩
      if (s.rosterEntry k).state = .absent then s1 else s1.purge k .join
    | .leave => (s.putRoster k ⟨.absent, 0⟩).purge k .leave
    | .found => s
  else s

/-- Garbled or alien activity in a slot: the owner's miss count becomes 0 (R79). -/
def State.rosterActivity (s : State) (k : StationNo) : State :=
  if s.rosterValid then s.setRosterEntry k { s.rosterEntry k with misses := 0 } else s

/-- The drop of station `k`: ABSENT with miss count 0, and purged with cause DROP (R80). -/
def State.dropStation (s : State) (k : StationNo) : State := (s.putRoster k .absent).purge k .drop

/-- The owner's entry is not ABSENT and its miss count has reached D (R80). -/
def State.dropDue (s : State) (k : StationNo) : Bool :=
  (s.rosterEntry k).state != .absent && decide (s.ctrl.dropThreshold ≤ (s.rosterEntry k).misses.toNat)

/-- A miss count after one more silent slot: one up, 7 staying 7 (R80). -/
def oneMiss (m : BitVec 3) : BitVec 3 := if m = 7 then 7 else m + 1

/-- A silent slot of owner `k` (R80). -/
def State.rosterSilence (s : State) (k : StationNo) : State :=
  if s.rosterValid && (s.rosterEntry k).state != .absent then
    let s1 := s.setRosterEntry k { s.rosterEntry k with misses := oneMiss (s.rosterEntry k).misses }
    if s1.dropDue k then s1.dropStation k else s1
  else s

/-- The roster after a FOUND frame from `k`: the founder ACTIVE and every other entry ABSENT (R78). -/
def foundRoster (k : StationNo) : Vector RosterEntry 16 :=
  (Vector.replicate 16 RosterEntry.absent).set k.val ⟨.active, 0⟩ k.isLt

/-- The install of page 0: all 16 entries replaced, those of stations N to 15 set ABSENT (R83). -/
def State.installRoster (s : State) (entries : List RosterEntry) : State :=
  { s with
    roster := s.roster.mapFinIdx fun k _ _ => if k ≤ s.ctrl.snc.val then entries.getD k .absent else .absent }

/-- Some station other than the own one is SYNCING in the roster (R57). -/
def State.otherSyncing (s : State) : Bool :=
  (List.finRange 16).any fun k => k != s.ctrl.sid && (s.rosterEntry k).state == .syncing

end Sys2Proof.Machine
end

