-- ==== Sys2Proof/Machine/Recovery.lean ====
section
/-! DEFINITION. The Replication Controller and the changes of station state that slot ends and faults make
(chapters 6 and 10): the vote, page install, founding, recovery, the orphan counter, stopping and halting. -/

namespace Sys2Proof.Machine

/-! ### Off the line -/

/-- Entry to STOPPED or HALTED: line released, reception abandoned, unaligned, window stopped, tables invalid,
digest discarded, counters 0, leave-pending flag cleared (R41, R53, R71, R87, R156 to R160). -/
def State.goOffLine (s : State) (st : StationState) : State :=
  { s with
    ctrl := { s.ctrl with state := st, leavePending := false }
    line := { s.line with
      rx := .empty, own := none, sending := false, shift := 0, shiftClocks := 0, ownFault := false, mismatch := false }
    slots := { s.slots with aligned := false, phase := .waiting, timer := 0, window := none }
    repl := { s.repl with agree := 0, disagree := 0, installed := 0, orphan := 0, digest := none } }

/-- Entry to HALTED with a fault: the FAULT notice, then every live entry ends LOST (R124, R130, R160). -/
def State.halt (s : State) (fault : FaultSet) : State :=
  ((s.goOffLine .halted).raise (.fault fault)).endAll .lost

/-- Entry to STOPPED: every live entry ends LEFT (R123, R156, R158). -/
def State.stop (s : State) : State := (s.endAll .left).goOffLine .stopped

/-! ### The vote -/

/-- A counter up by one; at 15 it stays (R90). -/
def countVoice (n : Nat) : Nat := min Config.voteCeiling (n + 1)

/-- Counts a valid ACTIVE frame of another station against the own digest of this slot's start, which only a
station that was ACTIVE then holds (R90). -/
def State.countVote (s : State) (f : Frame) : State :=
  if f.sender = s.ctrl.sid then s
  else
    match s.repl.digest with
    | none => s
    | some d =>
      if f.digest = d then { s with repl.agree := countVoice s.repl.agree }
      else { s with repl.disagree := countVoice s.repl.disagree }

/-- Uninstalls every page: the roster and every lock page become invalid (R92, R95). -/
def State.uninstallAll (s : State) : State := s.setInstalled 0

/-- A lost vote (R92, R106). -/
def State.loseVote (s : State) : State :=
  ({ ((s.setStation .syncing).uninstallAll.setOrphan 0) with repl.digest := none }.clearToYield).raise (.sync .syncing)

/-- The vote is lost: disagree greater than 0 and at least agree (R91). -/
def State.voteLost (s : State) : Bool := decide (0 < s.repl.disagree ∧ s.repl.agree ≤ s.repl.disagree)

/-- The vote evaluation, and its outcome at the Request Engine (R91, R120). -/
def State.evaluateVote (s : State) : State :=
  if s.voteLost then s.loseVote.clearVote else s.clearVote.settleDoubtful

/-! ### Pages -/

/-- The install of a page at a SYNCING station: page 0 always, a lock page once page 0 is installed (R93). -/
def State.installPage (s : State) (p : Page) : State :=
  match p with
  | .roster entries => (s.installRoster entries).addInstalled 0
  | .locks k records => if s.rosterValid then (s.installLocks k records).addInstalled (k.val + 1) else s

/-- A page is taken for install by a SYNCING station alone; a FOUNDING one has been returned to SYNCING by the
same frame (R93, R98). -/
def State.takePage (s : State) (page : Option Page) : State :=
  if s.inState .syncing then
    match page with
    | some p => s.installPage p
    | none => s
  else s

/-- A valid ACTIVE frame returns a FOUNDING station to SYNCING with orphan counter 0 (R98). -/
def State.returnToSyncing (s : State) : State :=
  if s.inState .founding then (s.setStation .syncing).setOrphan 0 else s

/-! ### Becoming ACTIVE -/

/-- What every entry to ACTIVE sets: state, counters, page cursor, JOIN-pending flag (R55, R57, R96, R102). -/
def State.becomeActive (s : State) : State :=
  (((s.setStation .active).clearVote.setOrphan 0).startCursor).setJoinPending false

/-- Recovery completes at a SYNCING station that holds all 9 pages after the slot end's work (R96). -/
def State.completeRecovery (s : State) : State :=
  if s.inState .syncing && s.repl.installed == allPages then s.becomeActive.reconcile.raise (.sync .active)
  else s

/-- The entries whose state a new roster changes are some (R85, R103). -/
def State.rosterChanges (s : State) (roster : Vector RosterEntry 16) : Bool :=
  (List.finRange 16).any fun k => (s.rosterEntry k).state != roster[k].state

/-- The founding effects of a valid FOUND frame (R102), with the notices in the order of R103. The leave-pending
flag is kept (R104). -/
def State.found (s : State) (f : Frame) : State :=
  let s1 := { s with roster := foundRoster f.sender, slots.cycle := f.cycle }
  let s2 := (s1.clearTable.setInstalled allPages).becomeActive
  let s3 := if s.isActive && s.rosterChanges (foundRoster f.sender) then s2.raise .roster else s2
  let s4 := if s.isActive || decide (0 < s.liveCount) then s3.raise .tableLost else s3
  let s5 := s4.foundHandling
  if s.isActive then s5 else s5.raise (.sync .active)

/-! ### The orphaned line -/

/-- A SYNCING station whose orphan counter has reached N enters FOUNDING; everything else stays (R98). -/
def State.foundIfOrphaned (s : State) : State :=
  if s.inState .syncing && decide (s.lineSlots ≤ s.repl.orphan) then s.setStation .founding else s

/-- The orphan counter at the end of a slot of a station that was SYNCING when its work began and is still: 0
after a valid ACTIVE frame, else one up, and FOUNDING at N (R97, R98). -/
def State.countOrphan (s : State) (heardActive : Bool) : State :=
  if s.inState .syncing then
    if heardActive then s.setOrphan 0 else (s.setOrphan (s.repl.orphan + 1)).foundIfOrphaned
  else s

end Sys2Proof.Machine
end

