-- ==== Sys2Proof/Machine/Slots.lean ====
section
/-! DEFINITION. Slot starts and slot ends (chapters 3, 4 and 6): the building of the own frame, the classification of
a reception, and the work of one slot end in its order. -/

namespace Sys2Proof.Machine

/-! ### Slot start -/

/-- The status of the own frame (R55, Table 4-1); none where the station has no own slot start. -/
def State.ownStatus (s : State) : Option FrameStatus :=
  match s.ctrl.state with
  | .syncing => some (if s.ctrl.leavePending then .leave else if s.repl.joinPending then .join else .syncing)
  | .founding => some (if s.ctrl.leavePending then .leave else .found)
  | .active => some (if s.ctrl.leavePending then .leave else .active)
  | .idle | .listening | .stopped | .halted => none

/-- The page under the cursor as it stands (R57). -/
def State.pageUnderCursor (s : State) : Page :=
  if h : s.pageCursor.val = 0 then .roster s.roster.toList
  else
    .locks ⟨s.pageCursor.val - 1, by omega⟩
      ((allLocks.filter fun l => lockPage l == s.pageCursor.val).map s.lock)

/-- The page cursor after a page has been taken, from 8 to 0 (R57). -/
def nextCursor (c : Fin 9) : Fin 9 := c + 1

/-- The digest of the station's roster states and records (R89). -/
def State.computeDigest (s : State) : Word16 := crc16 (digestInput s.roster s.locks)

/-- A frame of the own station with no operation and no page (R58). -/
def State.plainFrame (s : State) (status : FrameStatus) (cycle : CycleNo) : Frame :=
  ⟨s.ctrl.sid, s.ctrl.snc, status, cycle, 0, [], none⟩

/-- Builds the own frame at the own slot start and hands it to the Line Interface (R54 to R58). An ACTIVE frame
draws operations (R116) and takes a page where another station is SYNCING. -/
def State.buildOwnFrame (s : State) : State :=
  match s.ownStatus with
  | none => s
  | some .active =>
    let (ops, tags, s1) := s.draw
    let page := if s.otherSyncing then some s.pageUnderCursor else none
    let frame := { s.plainFrame .active s.slots.cycle with
      digest := s.repl.digest.getD 0, ops := ops, page := page }
    { s1 with
      line.own := some ⟨frame, tags, false⟩
      pageCursor := if s.otherSyncing then nextCursor s.pageCursor else s.pageCursor }
  | some status => { s with line.own := some ⟨s.plainFrame status s.slots.cycle, [], false⟩ }

/-- A slot start (R43): phase waiting, timer 0, nothing being sent; an ACTIVE station computes its digest (R89);
the own slot start builds the own frame (R45, R54). -/
def State.slotStart (s : State) : State :=
  let s1 :=
    { (s.releaseLine.dropOwnFrame) with
      slots.phase := .waiting
      slots.timer := 0
      repl.digest := if s.isActive then some s.computeDigest else none }
  if s1.inOwnSlot then s1.buildOwnFrame else s1

/-- The cycle number and position of the next slot: after slot N-1 the cycle number goes up by one and slot 0
follows (R43, R46). -/
def State.nextPosition (s : State) : State :=
  if s.inLastSlot then { s with slots.position := 0, slots.cycle := s.slots.cycle + 1 }
  else { s with slots.position := s.slots.position + 1 }

/-- The next slot starts (R43, R46). -/
def State.nextSlot (s : State) : State := s.nextPosition.slotStart

/-! ### Slot end -/

/-- What a slot brought, as the Frame Checker classes it (R64 to R68). -/
inductive SlotContent where
  | silent
  | garbled
  | alien
  | valid (f : Frame)
  deriving DecidableEq, Repr

/-- A frame that passes the format checks is alien where its sender, its slot count or, for any status but FOUND,
its cycle number does not fit (R66). -/
def State.alienFrame (s : State) (f : Frame) : Bool :=
  f.sender != s.slots.position || f.slotCount != s.ctrl.snc
    || (f.status != .found && f.cycle != s.slots.cycle)

/-- The own frame of this slot was built but not begun, because the slot ended before G (R45). -/
def State.ownUnsent (s : State) : Bool :=
  match s.line.own with
  | some o => !o.sent
  | none => false

/-- The class of the reception that ends a frame slot at an aligned station; an own slot that ended before G is
handed on as garbled (R45, R64, R66). -/
def State.classify (s : State) : SlotContent :=
  if s.ownUnsent then .garbled
  else
    match s.line.rx.frame with
    | none => .garbled
    | some f => if s.alienFrame f then .alien else .valid f

/-- The slot carried a valid ACTIVE frame (R97). -/
def SlotContent.heardActive : SlotContent → Bool
  | .valid f => f.status == .active
  | .silent | .garbled | .alien => false

/-- The slot carried a valid FOUND frame. -/
def SlotContent.heardFound : SlotContent → Bool
  | .valid f => f.status == .found
  | .silent | .garbled | .alien => false

/-- The content is the own frame read back valid: its operations are settled by their results (R63). -/
def OwnFrame.readBack (o : OwnFrame) : SlotContent → Bool
  | .valid f => f.status == o.frame.status && f.ops == o.frame.ops
  | .silent | .garbled | .alien => false

/-- The own frame at the end of its slot (Table 4-2): where it did not happen its ops come back (R62); where it was
begun a JOIN is no longer pending (R55), and its ops become DOUBTFUL unless it read back valid (R63). -/
def State.settleOwnFrame (s : State) (c : SlotContent) : State :=
  match s.line.own with
  | none => s
  | some o =>
    if !o.sent || c == .silent then s.returnDrawn o.tags
    else
      let s1 := if o.frame.status = .join then s.setJoinPending false else s
      if o.readBack c then s1 else s1.doubtDrawn o.tags

/-- A valid frame at an aligned station (R69, Table 4-3). -/
def State.handFrame (s : State) (f : Frame) : State :=
  match f.status with
  | .active =>
    ((((s.returnToSyncing.countVote f).takePage f.page).rosterFrame f.sender .active).applyOperations f.sender f.ops)
  | .syncing => s.rosterFrame f.sender .syncing
  | .join => s.rosterFrame f.sender .join
  | .leave => s.rosterFrame f.sender .leave
  | .found => s.found f

/-- The work that the slot's content calls for: R80 for silence, R79 with R95 for a garbled reception, R66 with R79
for an alien one, R69 for a valid frame. -/
def State.slotWork (s : State) (c : SlotContent) : State :=
  match c with
  | .silent => s.rosterSilence s.slots.position
  | .garbled =>
    let s1 := s.rosterActivity s.slots.position
    if s1.isRecovering then s1.uninstallAll else s1
  | .alien => (s.raise (.fault .alien)).rosterActivity s.slots.position
  | .valid f => s.handFrame f

/-- The expiries, where the slot end is a cycle end (R31, R32). -/
def State.cycleEndWork (s : State) : State := if s.inLastSlot then s.expireAll else s

/-- The own slot carries a LEAVE frame (R158). -/
def State.leavingSlot (s : State) : Bool :=
  match s.line.own with
  | some o => o.frame.status == .leave
  | none => false

/-- A slot end at an aligned station, in its order: the own frame's fate, the content's work (R21, R69), the
expiries (R32), the completion of recovery (R96), the orphan counter (R97), the vote evaluation (R91), and the
start of the next slot (R46). The end of the own LEAVE slot stops the station and does nothing else (R158). -/
def State.slotEnd (s : State) (c : SlotContent) : State :=
  if s.leavingSlot then s.stop
  else
    let worked := ((s.settleOwnFrame c).slotWork c).cycleEndWork
    let s1 := worked.completeRecovery
    let s2 := if s.inState .syncing then s1.countOrphan c.heardActive else s1
    let s3 := if s.inOwnSlot && s.isActive && s2.isActive && !c.heardFound then s2.evaluateVote else s2
    s3.nextSlot

/-! ### Alignment -/

/-- A LISTENING station aligns on a valid frame (R52): the frame's slot is the current slot and its end is now. A
FOUND frame has the founding effects (R101, R102); any other takes the station to SYNCING unapplied (R88). -/
def State.align (s : State) (f : Frame) : State :=
  let s1 :=
    { s.releaseLine.dropOwnFrame with
      slots.aligned := true
      slots.position := f.sender
      slots.cycle := f.cycle
      slots.window := none }
  let s2 := if f.status = .found then s1.found f else (s1.setStation .syncing).setOrphan 0
  s2.cycleEndWork.nextSlot

end Sys2Proof.Machine
end

