-- ==== Sys2Proof/Machine/Line.lean ====
section
/-! DEFINITION. The rows of the lock line and of the part's timers: cells, transmissions, slot ends, the reception end
at a LISTENING station, and the three works that a slot end holds. A row that the station's state cannot raise
changes nothing (log 2). -/

namespace Sys2Proof.Machine

/-! ### Cells -/

/-- A cell start `sinceCell` CLKIN periods after the one before it lies outside 0.9 to 1.1 bit times (R39). -/
def State.timingFault (s : State) : Bool :=
  decide (10 * s.line.sinceCell < 9 * s.bitTime ∨ 11 * s.bitTime < 10 * s.line.sinceCell)

/-- The line recessive at the phase-1 sample, or dominant at the phase-3 sample (R39). -/
def cellFault (phase1 phase3 : Bool) : Bool := !phase1 || phase3

/-- A reception with one more cell (R40): eight cells make a byte, and past 1076 bytes none is stored and the
reception is over-long. -/
def Reception.take (rx : Reception) (bit fault : Bool) : Reception :=
  let marked := { rx with inProgress := true, fault := rx.fault || fault }
  if Config.receiveBytes ≤ rx.bytes.length then { marked with overLong := true }
  else
    let cells := rx.cells ++ [bit]
    if cells.length = 8 then { marked with bytes := rx.bytes ++ [byteOfBits cells], cells := [] }
    else { marked with cells := cells }

/-- A cell start (R39) at a station whose receiver is on, after the time since the event before it has passed. It
begins a reception where none is in progress (R40), makes the slot a frame slot (R43), restarts the quiet
count (R44), and at a LISTENING station restarts the listening window (R51). A cell fault already found in the own cells
marks a reception that begins within the transmission (R59). -/
def State.takeCell (s : State) (phase1 value phase3 : Bool) (dominant : Nat) : State :=
  let first := !s.line.rx.inProgress
  let rx := if first then .empty else s.line.rx
  let fault := cellFault phase1 phase3 || (s.line.sending && s.line.ownFault) || (!first && s.timingFault)
  let s1 :=
    { s with
      line.rx := rx.take (!value) fault
      line.sinceCell := 0
      line.dominant := dominant
      line.heard := true }
  if s.slots.aligned then { s1 with slots.phase := .inFrame, slots.timer := 0 }
  else { s1 with slots.window := some 0 }

/-- CELL_START (R39, R40, R43, R44, R51), after the samples of the own cells up to this edge (R59). -/
def execCellStart (after : Nat) (phase1 value phase3 : Bool) (dominant : Nat) (s : State) :
    Host.Outcome State Fault Refusal :=
  .next (if s.receiving then (s.elapse after).takeCell phase1 value phase3 dominant else s)

/-! ### The own transmission -/

/-- Begins the frame handed over: first cell, shift position 0, and nothing read back yet (R41, R59, R100). -/
def State.beginSending (s : State) : State :=
  { s with
    line.own := s.line.own.map fun o => { o with sent := true }
    line.sending := true
    line.shift := 0
    line.shiftClocks := 0
    line.heard := false
    line.ownFault := false
    line.mismatch := false }

/-- The listening window of a LISTENING station that sends nothing has reached its length with no cell start (R51). -/
def State.windowExpired (s : State) : Bool :=
  s.inState .listening && !s.line.sending && s.slots.window.any fun k => decide (s.windowLength ≤ k)

/-- The cold-start founding begins a FOUND frame with cycle number 0 at once (R58, R100). The window runs again from 0
(R51, log 25). -/
def State.coldStart (s : State) : State :=
  ({ s with slots.window := some 0, line.own := some ⟨s.plainFrame .found 0, [], false⟩ }).beginSending

/-- LISTENING_WINDOW_EXPIRY: the cold-start founding where the window has reached its length. Where it has not, as after
a cell start that was taken first and restarted it, it does not expire (R51). -/
def execListeningWindowExpiry (s : State) : Host.Outcome State Fault Refusal :=
  .next (if s.windowExpired then s.coldStart else s)

/-- TRANSMIT_GAP_EXPIRY: G bit times after the own slot start the own frame's first cell begins, whatever the line
carries (R41, R45). -/
def execTransmitGapExpiry (s : State) : Host.Outcome State Fault Refusal :=
  .next
    (if s.slots.aligned && s.ownUnsent then
      let s1 := s.beginSending
      match s.slots.phase with
      | .waiting => { s1 with slots.timer := max s.slots.timer (Config.transmitGap * s.bitTime) }
      | .inFrame => s1
    else s)

/-- TRANSMISSION_END: the line is released and the shift position returns to 0 (R41). A LISTENING station stays so: its
window runs on from the last cell start read back (R51), and starts again from 0 where none was (R100). -/
def execTransmissionEnd (s : State) : Host.Outcome State Fault Refusal :=
  .next
    (if s.line.sending then
      let s1 := s.releaseLine
      if s.inState .listening then
        { s1.dropOwnFrame with slots.window := if s.line.heard then s.slots.window else some 0 }
      else s1
    else s)

/-- READBACK_MISMATCH: a mismatch that a value sample in the own slot has found halts the station with DUPLICATE_ID (R59,
R60, R160). -/
def execReadbackMismatch (s : State) : Host.Outcome State Fault Refusal :=
  .next (if s.slots.aligned && s.line.mismatch then s.halt .duplicate else s)

/-- ARBITRATION_LOSS: a mismatch that a value sample has found in a cold-start FOUND frame, at which the station has stopped
driving, is no fault; it stays LISTENING and goes on receiving (R59, R61), and its window runs on (R51). -/
def execArbitrationLoss (s : State) : Host.Outcome State Fault Refusal :=
  .next (if s.inState .listening && s.line.mismatch then s.releaseLine.dropOwnFrame else s)

/-! ### Slot ends -/

/-- SILENT_SLOT_END: the slot timer has reached W with no cell start (R43). -/
def execSilentSlotEnd (s : State) : Host.Outcome State Fault Refusal :=
  .next (if s.slots.aligned && s.slots.phase == .waiting then s.slotEnd .silent else s)

/-- Ends the reception in progress; the receive buffer keeps its bytes until the next one begins (R40). -/
def State.endReception (s : State) : State := { s with line.rx.inProgress := false }

/-- FRAME_SLOT_END: quiet of Q bit times has ended a frame slot; the reception is classified and the slot end's work
done (R44, R47). -/
def execFrameSlotEnd (s : State) : Host.Outcome State Fault Refusal :=
  .next
    (if s.slots.aligned && s.slots.phase == .inFrame then s.endReception.slotEnd s.classify else s)

/-- LISTENING_RECEPTION_END: a garbled reception changes nothing; a valid one with another slot count halts the
station; one with the own slot count aligns it (R50, R67). -/
def execListeningReceptionEnd (s : State) : Host.Outcome State Fault Refusal :=
  .next
    (if s.inState .listening && s.line.rx.inProgress then
      match s.line.rx.frame with
      | none => s.endReception
      | some f => if f.slotCount = s.ctrl.snc then s.endReception.align f else s.halt .slotCount
    else s)

/-! ### The works of a slot end as rows of their own (log 7)

The end of the own slot that carries a LEAVE frame does none of them (R35, R158). -/

/-- LEASE_EXPIRY: the expiries of the cycle end of the slot in progress (R31). -/
def execLeaseExpiry (s : State) : Host.Outcome State Fault Refusal :=
  .next (if s.slots.aligned && !s.leavingSlot then s.cycleEndWork else s)

/-- DROP: the owner of the slot in progress, where its miss count has reached D, becomes ABSENT and is purged with
cause DROP (R80). -/
def execDrop (s : State) : Host.Outcome State Fault Refusal :=
  .next
    (if s.slots.aligned && !s.leavingSlot && s.rosterValid && s.dropDue s.slots.position then
      s.dropStation s.slots.position
    else s)

/-- ENTER_FOUNDING: a SYNCING station whose orphan counter has reached N enters FOUNDING (R98). -/
def execEnterFounding (s : State) : Host.Outcome State Fault Refusal :=
  .next (if s.leavingSlot then s else s.foundIfOrphaned)

end Sys2Proof.Machine
end

