-- ==== Sys2Proof/Machine/HostPort.lean ====
section
/-! DEFINITION. The Host Port (chapter 9): exchanges, the response holder, and the commands that read the station. -/

namespace Sys2Proof.Machine

/-! ### Exchanges -/

/-- A command's answer (R145). -/
structure Reply where
  result : Result
  payload : List Byte
  deriving DecidableEq, Repr

/-- OK with a payload. -/
def Reply.ok (payload : List Byte) : Reply := ⟨.ok, payload⟩

/-- A result other than OK, with no payload (R145). -/
def Reply.no (r : Result) : Reply := ⟨r, []⟩

/-- A command: its effect and its answer. -/
abbrev Command := State → State × Reply

/-- A rising edge of HCK with this level on HDI: in an exchange the bit is received, and the held response counts as
shifted out whole from the last rising edge of its last byte on (R136, R137, R140). -/
def State.hckRise (s : State) (bit : Bool) : State :=
  if s.port.phase = .exchange then
    { s with
      spi.hdi := s.spi.hdi ++ [bit]
      port.delivered := decide (3 + s.port.held.payload.length ≤ (s.spi.hdi.length + 1) / 8) }
  else s

/-- A falling edge of HCK: in an exchange HDO goes on to its next bit (R137). -/
def State.hckFall (s : State) : State :=
  if s.port.phase = .exchange then { s with spi.falls := s.spi.falls + 1 } else s

/-- The row by which the exchange in progress ends where HSEL# is deasserted now (R136), with the straps at these
levels (R153). -/
def State.endingRow (s : State) (sid snc : Fin 16) : Instr := decodeBits sid snc s.spi.hdi

/-- The delivered mark after an exchange of `whole` whole bytes: set where the held response, 2 + P bytes after the
status byte, was shifted out whole (R137, R140). -/
def State.shiftOut (s : State) (whole : Nat) : State :=
  { s with port.delivered := decide (3 + s.port.held.payload.length ≤ whole) }

/-- The serial that a FETCH response with result OK carries (R132, R150). -/
def Response.fetchSerial (r : Response) : Option Byte :=
  if r.echo = codeFetch ∧ r.result = .ok then r.payload.head? else none

/-- Step 1 of R140: a delivery is handed to the Notice Queue, and the delivered mark is then cleared. -/
def State.deliver (s : State) : State :=
  let s1 :=
    if s.port.delivered then
      match s.port.held.fetchSerial with
      | some serial => s.removeHead serial
      | none => s
    else s
  { s1 with port.delivered := false }

/-- Places a response in the holder (R139). -/
def State.holdResponse (s : State) (code : Byte) (r : Reply) : State :=
  { s with port.held := ⟨code, r.result, r.payload⟩ }

/-- Sets or clears the truncation flag (R141). -/
def State.setTruncated (s : State) (b : Bool) : State := { s with port.truncated := b }

/-- HSEL# is deasserted: no exchange is in progress, and the status byte is gone with it. -/
def State.closeExchange (s : State) : State :=
  { s with port.phase := .closed, port.status := none, port.delivered := false }

/-- The end of a complete exchange of `whole` bytes with this command, in the order of R140: delivery, execution,
truncation flag. After a pin reset with HSEL# asserted nothing is taken until HSEL# is deasserted (R143). -/
def State.endComplete (s : State) (code : Byte) (whole : Nat) (command : Command) : State :=
  if s.port.phase = .waitDeassert then s.closeExchange
  else
    let done := command (s.shiftOut whole).deliver
    ((done.1.holdResponse code done.2).setTruncated false).closeExchange

/-- The whole bytes of a complete exchange: the command's length and the bytes clocked past it (R136). -/
def wholeBytes (code : Byte) (extra : Nat) : Nat := commandLength code + extra

/-- A complete exchange of a command of Table 9-2. -/
def State.exchange (s : State) (code : Byte) (extra : Nat) (command : Command) : Host.Outcome State Fault Refusal :=
  .next (s.endComplete code (wholeBytes code extra) command)

/-- EXCHANGE_START: the status byte is taken once, the delivered mark cleared, and the first bit of the status byte is
on HDO (R137, R138, R140). -/
def execExchangeStart (s : State) : Host.Outcome State Fault Refusal :=
  .next
    { s with port.phase := .exchange, port.status := some s.statusByte, port.delivered := false, spi := .start }

/-- TRUNCATED_EXCHANGE: the bytes are discarded, a delivery is handed on, the flag is set (R140, R141). -/
def execTruncatedExchange (_code : Byte) (whole : Nat) (s : State) : Host.Outcome State Fault Refusal :=
  .next
    (if s.port.phase = .waitDeassert then s.closeExchange
    else (((s.shiftOut whole).deliver).setTruncated true).closeExchange)

/-- EMPTY_EXCHANGE: none of the steps of R140 is done (R142). -/
def execEmptyExchange (s : State) : Host.Outcome State Fault Refusal := .next s.closeExchange

/-- UNKNOWN_COMMAND: complete at one byte, result UNKNOWN in every state (R136, R145). -/
def execUnknownCommand (code : Byte) (extra : Nat) (s : State) : Host.Outcome State Fault Refusal :=
  .next (s.endComplete code (1 + extra) fun s => (s, .no .unknown))

/-! ### NOP and STATUS -/

/-- NOP (R146). -/
def execNop (extra : Nat) (s : State) : Host.Outcome State Fault Refusal :=
  s.exchange codeNop extra fun s => (s, .ok [])

/-- The installed-page mask of the STATUS payload (R107, Table 11-10). -/
def State.pageMask (s : State) : Word16 := s.repl.installed.setWidth 16

/-- The 12 bytes of the STATUS payload (R146, Table 11-10). -/
def State.statusPayload (s : State) : List Byte :=
  [countByte (stationCode s.ctrl.state)] ++ cycleBytes s.slots.cycle
    ++ [countByte s.slots.position.val, hiByte s.pageMask, loByte s.pageMask, countByte s.liveCount,
        countByte s.req.queue.length, countByte s.req.toYield.length, countByte s.notices.queue.length,
        countByte s.ctrl.dropThreshold]

/-- STATUS (R146). -/
def execStatus (extra : Nat) (s : State) : Host.Outcome State Fault Refusal :=
  s.exchange codeStatus extra fun s => (s, .ok s.statusPayload)

/-! ### The table queries -/

/-- QUERY_LOCK (R18, R151). -/
def State.queryLock (lock : Byte) : Command := fun s =>
  if s.isActive then
    match lockOfByte lock with
    | some l => (s, .ok (s.lock l).toBytes)
    | none => (s, .no .range)
  else (s, .no .state)

/-- QUERY_LOCK as a row (R18). -/
def execQueryLock (lock : Byte) (extra : Nat) (s : State) : Host.Outcome State Fault Refusal :=
  s.exchange codeQueryLock extra (State.queryLock lock)

/-- QUERY_ROSTER (R86, R151). -/
def State.queryRoster : Command := fun s =>
  if s.isActive then (s, .ok (cycleBytes s.slots.cycle ++ s.roster.toList.map RosterEntry.toByte))
  else (s, .no .state)

/-- QUERY_ROSTER as a row (R86). -/
def execQueryRoster (extra : Nat) (s : State) : Host.Outcome State Fault Refusal :=
  s.exchange codeQueryRoster extra State.queryRoster

/-! ### FETCH -/

/-- Outcome codes of an END notice (Table 11-11). -/
def outcomeCode : EndOutcome → Byte
  | .released => 1
  | .cancelled => 2
  | .denied => 3
  | .expired => 4
  | .evicted => 5
  | .lost => 6
  | .left => 7
  | .refused => 8

/-- The mode byte of an UPDATE notice (Table 11-11). -/
def modeByte (m : Mode) : Byte := countByte (modeCode m)

/-- The value field of a FAULT notice (Table 11-11). -/
def FaultSet.value (f : FaultSet) : Byte :=
  countByte (f.duplicateId.toNat + 2 * f.slotCountMismatch.toNat + 4 * f.alienTraffic.toNat)

/-- The 8 bytes of a notice in the FETCH payload; a field the kind does not carry reads 0 (R150, Table 11-11). -/
def Notice.toBytes (n : Notice) : List Byte :=
  match n.body with
  | .update t l m (.held token) =>
    [n.serial, 1, countByte t.val, countByte l.val, 3, modeByte m, hiByte token, loByte token]
  | .update t l m (.waiting position) =>
    [n.serial, 1, countByte t.val, countByte l.val, 2, modeByte m,
     hiByte (BitVec.ofNat 16 position), loByte (BitVec.ofNat 16 position)]
  | .ended t l outcome => [n.serial, 2, countByte t.val, countByte l.val, outcomeCode outcome, 0, 0, 0]
  | .sync .syncing => [n.serial, 3, 0, 0, 0, 0, 0, countByte (stationCode .syncing)]
  | .sync .active => [n.serial, 3, 0, 0, 0, 0, 0, countByte (stationCode .active)]
  | .roster => [n.serial, 4, 0, 0, 0, 0, 0, 0]
  | .tableLost => [n.serial, 5, 0, 0, 0, 0, 0, 0]
  | .fault f => [n.serial, 6, 0, 0, 0, 0, 0, f.value]

/-- FETCH: a copy of the head notice, which stays (R131). -/
def State.fetchNotice : Command := fun s =>
  match s.notices.queue with
  | n :: _ => (s, .ok n.toBytes)
  | [] => (s, .no .empty)

/-- FETCH as a row (R131). -/
def execFetch (extra : Nat) (s : State) : Host.Outcome State Fault Refusal :=
  s.exchange codeFetch extra State.fetchNotice

end Sys2Proof.Machine
end

