-- ==== Sys2Proof/Machine/Commands.lean ====
section
/-! DEFINITION. The host commands that act on request entries (R108 to R115, R149). -/

namespace Sys2Proof.Machine

/-- The entry named by a tag byte where it is live (R113, R145). -/
def State.liveOfByte (s : State) (b : Byte) : Option Tag :=
  match tagOfByte b with
  | some t => if (s.entry t).live then some t else none
  | none => none

/-- The lowest-numbered FREE entry (R112). -/
def State.lowestFree (s : State) : Option Tag := allTags.find? fun t => (s.entry t).relation == .free

/-- ACQUIRE is taken in LISTENING, SYNCING, FOUNDING and ACTIVE without leave pending (R112). -/
def State.takesAcquire (s : State) : Bool := s.receiving && !s.ctrl.leavePending

/-- The entry that ACQUIRE makes: PENDING with its CLAIM QUEUED (R112). -/
def acquiredEntry (l : LockNo) (m : Mode) (tryOnly : Bool) (limit : Limit) : RequestEntry :=
  ⟨.pending, l, m, tryOnly, limit, 0, some .claim, .queued, false⟩

/-- ACQUIRE: its checks in order, then the lowest FREE entry becomes PENDING and its tag is queued (R112). -/
def State.acquire (lock modeTry : Byte) (limit : Word16) : Command := fun s =>
  if !s.takesAcquire then (s, .no .state)
  else
    match lockOfByte lock with
    | none => (s, .no .range)
    | some l =>
      if 4095 < limit.toNat then (s, .no .range)
      else if (s.liveTag l).isSome then (s, .no .duplicate)
      else
        match s.lowestFree with
        | none => (s, .no .full)
        | some t =>
          let e := acquiredEntry l (modeOfBit (modeByteShared modeTry)) (modeByteTry modeTry) (limit.setWidth 12)
          ((s.setEntry t e).enqueue t, .ok [countByte t.val])

/-- ACQUIRE as a row (R112). -/
def execAcquire (lock modeTry : Byte) (limit : Word16) (extra : Nat) (s : State) :
    Host.Outcome State Fault Refusal :=
  s.exchange codeAcquire extra (State.acquire lock modeTry limit)

/-- The op of an entry turned into a YIELD in the same queue place (R113). -/
def State.supersede (s : State) (t : Tag) : State := s.setEntry t ((s.entry t).withOp .yield)

/-- RELEASE of a live entry by its op (R113). R113's row for a QUEUED RENEW or DOWNGRADE names a HELD entry alone; the
last row of Table 7-6 can leave such an op at a WAITING entry, and that RELEASE there turns it into a YIELD in the same
queue place, with result OK, is the model's choice (log 28). -/
def State.releaseTag (s : State) (t : Tag) : State × Reply :=
  match (s.entry t).op, (s.entry t).opStatus with
  | none, _ => (s.queueOp t .yield, .ok [])
  | some .claim, .queued => (s.endEntry t .cancelled, .ok [])
  | some .yield, .queued => (s, .ok [])
  | some .renew, .queued => (s.supersede t, .ok [])
  | some .downgrade, .queued => (s.supersede t, .ok [])
  | some _, .inFlight => (s, .no .busy)
  | some _, .doubtful => (s, .no .busy)

/-- RELEASE (R113). -/
def State.release (tag : Byte) : Command := fun s =>
  if s.ctrl.leavePending then (s, .no .state)
  else
    match s.liveOfByte tag with
    | none => (s, .no .tag)
    | some t => s.releaseTag t

/-- RELEASE as a row (R113). -/
def execRelease (tag : Byte) (extra : Nat) (s : State) : Host.Outcome State Fault Refusal :=
  s.exchange codeRelease extra (State.release tag)

/-- The DOWNGRADE command (R114). -/
def State.downgradeTag (tag : Byte) : Command := fun s =>
  if s.ctrl.leavePending then (s, .no .state)
  else
    match s.liveOfByte tag with
    | none => (s, .no .tag)
    | some t =>
      if (s.entry t).relation ≠ .held ∨ (s.entry t).mode ≠ .exclusive then (s, .no .state)
      else if (s.entry t).op.isSome then (s, .no .busy)
      else (s.queueOp t .downgrade, .ok [])

/-- The DOWNGRADE command as a row (R114). -/
def execDowngrade (tag : Byte) (extra : Nat) (s : State) : Host.Outcome State Fault Refusal :=
  s.exchange codeDowngrade extra (State.downgradeTag tag)

/-- The RENEW command (R115). -/
def State.renewTag (tag : Byte) : Command := fun s =>
  if s.ctrl.leavePending then (s, .no .state)
  else
    match s.liveOfByte tag with
    | none => (s, .no .tag)
    | some t =>
      if (s.entry t).relation ≠ .held then (s, .no .state)
      else if (s.entry t).op = some .renew ∧ (s.entry t).opStatus = .queued then (s, .ok [])
      else if (s.entry t).op.isSome then (s, .no .busy)
      else (s.queueOp t .renew, .ok [])

/-- The RENEW command as a row (R115). -/
def execRenew (tag : Byte) (extra : Nat) (s : State) : Host.Outcome State Fault Refusal :=
  s.exchange codeRenew extra (State.renewTag tag)

/-- Relation codes of the QUERY_TAG payload; 0 does not appear there (Table 11-10, R167). -/
def relationCode : Relation → Nat
  | .free => 0
  | .pending => 1
  | .waiting => 2
  | .held => 3
  | .ended => 4

/-- Op codes of the QUERY_TAG payload (Table 11-10). -/
def opCode : Option OpKind → Nat
  | none => 0
  | some .claim => 1
  | some .yield => 2
  | some .downgrade => 3
  | some .renew => 4

/-- Op status codes (Table 11-10); QUEUED where there is no op (R149). -/
def RequestEntry.opStatusCode (e : RequestEntry) : Nat :=
  match e.op, e.opStatus with
  | none, _ => 0
  | some _, .queued => 0
  | some _, .inFlight => 1
  | some _, .doubtful => 2

/-- The 8 bytes of the QUERY_TAG payload (R149, Table 11-10). -/
def RequestEntry.toBytes (e : RequestEntry) : List Byte :=
  [countByte (relationCode e.relation), countByte e.lock.val,
   countByte (2 * modeCode e.mode + e.tryOnly.toNat)] ++ limitBytes e.limit
    ++ [hiByte e.token, loByte e.token, countByte (16 * opCode e.op + e.opStatusCode)]

/-- QUERY_TAG (R108, R149). -/
def State.queryTag (tag : Byte) : Command := fun s =>
  match tagOfByte tag with
  | none => (s, .no .tag)
  | some t => if (s.entry t).relation = .free then (s, .no .tag) else (s, .ok (s.entry t).toBytes)

/-- QUERY_TAG as a row (R149). -/
def execQueryTag (tag : Byte) (extra : Nat) (s : State) : Host.Outcome State Fault Refusal :=
  s.exchange codeQueryTag extra (State.queryTag tag)

end Sys2Proof.Machine
end

