-- ==== Sys2Proof/Machine/LifeCycle.lean ====
section
/-! DEFINITION. The station's life cycle (chapter 10): configuration, start, leave and the two resets. -/

namespace Sys2Proof.Machine

/-- CONFIGURE: in IDLE, in range, the three values replace the whole configuration (R147, R154). -/
def State.configure (divisor dropThreshold flags : Byte) : Command := fun s =>
  if !s.inState .idle then (s, .no .state)
  else if !configureInRange divisor dropThreshold then (s, .no .range)
  else
    ({ s with
        ctrl.divisor := divisor.toNat
        ctrl.dropThreshold := dropThreshold.toNat
        ctrl.intEnable := flagsIntEnable flags }, .ok [])

/-- CONFIGURE as a row (R154). -/
def execConfigure (divisor dropThreshold flags : Byte) (extra : Nat) (s : State) :
    Host.Outcome State Fault Refusal :=
  s.exchange codeConfigure extra (State.configure divisor dropThreshold flags)

/-- The sampled straps let the station start: N at least 2, the own number less than N (R153). -/
def State.strapsAllow (s : State) : Bool := decide (2 ≤ s.lineSlots ∧ s.ctrl.sid.val < s.lineSlots)

/-- The effects of START: LISTENING, unaligned at position 0 and cycle 0, the window started, no page valid, the
counters 0, JOIN pending (R42, R87, R155). Records, roster entries, requests and notices are kept. -/
def State.enterListening (s : State) : State :=
  { s with
    ctrl.state := .listening
    slots := ⟨false, 0, 0, .waiting, 0, some 0⟩
    repl := ⟨0, 0, 0, 0, none, true⟩
    line := .afterReset }

/-- START (R147, R153, R155). -/
def State.startStation : Command := fun s =>
  if !(s.inState .idle || s.inState .stopped) then (s, .no .state)
  else if !s.strapsAllow then (s, .no .straps)
  else (s.enterListening, .ok [])

/-- START as a row (R155). -/
def execStart (extra : Nat) (s : State) : Host.Outcome State Fault Refusal :=
  s.exchange codeStart extra State.startStation

/-- LEAVE: stops a LISTENING station at once (R156), sets leave pending in SYNCING, FOUNDING and ACTIVE (R157). -/
def State.leaveLine : Command := fun s =>
  match s.ctrl.state with
  | .listening => (s.stop, .ok [])
  | .syncing | .founding | .active => ({ s with ctrl.leavePending := true }, .ok [])
  | .idle | .stopped | .halted => (s, .no .state)

/-- LEAVE as a row (R156, R157). -/
def execLeave (extra : Nat) (s : State) : Host.Outcome State Fault Refusal :=
  s.exchange codeLeave extra State.leaveLine

/-- RESET_STATION: every block as its chapter gives for either reset, with the straps as they now stand (R162). The
host port goes on to place the response and close the exchange. -/
def State.resetStation (sid snc : Fin 16) : Command := fun s =>
  (.afterReset sid snc s.port s.pending, .ok [])

/-- RESET_STATION as a row (R162). -/
def execResetStation (sid snc : Fin 16) (extra : Nat) (s : State) : Host.Outcome State Fault Refusal :=
  s.exchange codeResetStation extra (State.resetStation sid snc)

/-- PIN_RESET: every block reset, the holder with NOP OK, the straps sampled as RST# returns high (R153, R163);
where HSEL# is asserted then, the port waits for it to be deasserted (R143). -/
def execPinReset (sid snc : Fin 16) (hselAsserted : Bool) (s : State) : Host.Outcome State Fault Refusal :=
  .next (.afterReset sid snc (.afterPinReset (if hselAsserted then .waitDeassert else .closed)) s.pending)

end Sys2Proof.Machine
end

