-- ==== Sys2Proof/Machine/Dispatch.lean ====
section
/-! DEFINITION. One arm per command: the call of its meaning. -/

namespace Sys2Proof.Machine

def exec (i : Instr) (s : State) : Host.Outcome State Fault Refusal :=
  match i with
  | .pinReset sid snc hselAsserted => Sys2Proof.Machine.execPinReset sid snc hselAsserted s
  | .exchangeStart => Sys2Proof.Machine.execExchangeStart s
  | .nop extra => Sys2Proof.Machine.execNop extra s
  | .status extra => Sys2Proof.Machine.execStatus extra s
  | .configure divisor dropThreshold flags extra => Sys2Proof.Machine.execConfigure divisor dropThreshold flags extra s
  | .start extra => Sys2Proof.Machine.execStart extra s
  | .leave extra => Sys2Proof.Machine.execLeave extra s
  | .resetStation sid snc extra => Sys2Proof.Machine.execResetStation sid snc extra s
  | .acquire lock modeTry limit extra => Sys2Proof.Machine.execAcquire lock modeTry limit extra s
  | .release tag extra => Sys2Proof.Machine.execRelease tag extra s
  | .downgrade tag extra => Sys2Proof.Machine.execDowngrade tag extra s
  | .renew tag extra => Sys2Proof.Machine.execRenew tag extra s
  | .queryTag tag extra => Sys2Proof.Machine.execQueryTag tag extra s
  | .fetch extra => Sys2Proof.Machine.execFetch extra s
  | .queryLock lock extra => Sys2Proof.Machine.execQueryLock lock extra s
  | .queryRoster extra => Sys2Proof.Machine.execQueryRoster extra s
  | .unknownCommand code extra => Sys2Proof.Machine.execUnknownCommand code extra s
  | .truncatedExchange code whole => Sys2Proof.Machine.execTruncatedExchange code whole s
  | .emptyExchange => Sys2Proof.Machine.execEmptyExchange s
  | .listeningWindowExpiry => Sys2Proof.Machine.execListeningWindowExpiry s
  | .transmitGapExpiry => Sys2Proof.Machine.execTransmitGapExpiry s
  | .transmissionEnd => Sys2Proof.Machine.execTransmissionEnd s
  | .readbackMismatch => Sys2Proof.Machine.execReadbackMismatch s
  | .arbitrationLoss => Sys2Proof.Machine.execArbitrationLoss s
  | .silentSlotEnd => Sys2Proof.Machine.execSilentSlotEnd s
  | .frameSlotEnd => Sys2Proof.Machine.execFrameSlotEnd s
  | .listeningReceptionEnd => Sys2Proof.Machine.execListeningReceptionEnd s
  | .leaseExpiry => Sys2Proof.Machine.execLeaseExpiry s
  | .drop => Sys2Proof.Machine.execDrop s
  | .enterFounding => Sys2Proof.Machine.execEnterFounding s
  | .cellStart after phase1 value phase3 dominant => Sys2Proof.Machine.execCellStart after phase1 value phase3 dominant s

end Sys2Proof.Machine
end

