-- ==== Sys2Proof/Safety.lean ====
section
/-! DEFINITION. What a safe station is: the laws that the spec states of every state, of every record and of every
notice queue, in the terms the statements use. -/

namespace Sys2Proof.Machine

/-! ### The Notice Queue (R125) -/

/-- At most one notice per tag and one of each station kind (R125). -/
def State.NoticesDistinct (s : State) : Prop := (s.notices.queue.map fun n => n.body.owner).Nodup

/-! ### Slot position and roster (R42, R72) -/

/-- The slot position lies in 0 to N-1 at an aligned station (R42), and entries N to 15 are ABSENT with miss count
0 (R72). -/
structure State.RosterBounded (s : State) : Prop where
  position : s.slots.aligned = true → s.slots.position ≤ s.ctrl.snc
  tail : ∀ k : StationNo, s.ctrl.snc < k → s.rosterEntry k = .absent

/-! ### The station state (R53, R73, R87, R89, R97, R152, R157) -/

/-- SYNCING, FOUNDING or ACTIVE: the states of an aligned station. -/
def StationState.onLine : StationState → Bool
  | .syncing | .founding | .active => true
  | .idle | .listening | .stopped | .halted => false

/-- What the station state says of the other items of Table 6-1, Table 3-2 and Table 10-2. -/
structure State.StationLaw (s : State) : Prop where
  /-- A station is aligned exactly in SYNCING, FOUNDING and ACTIVE (R42, R52, R53). -/
  aligned : s.slots.aligned = s.ctrl.state.onLine
  /-- At an ACTIVE station the installed-page set holds all 9 pages (R87). -/
  activePages : s.ctrl.state = .active → s.repl.installed = allPages
  /-- No page is valid outside SYNCING, FOUNDING and ACTIVE (R12, R73). -/
  offLinePages : s.ctrl.state.onLine = false → s.repl.installed = 0
  /-- No lock page is installed while page 0 is not (R93). -/
  rosterFirst : s.pageInstalled 0 = false → s.repl.installed = 0
  /-- A station that is not ACTIVE holds no digest (R89) and both vote counters are 0 (R87). -/
  notActive : s.ctrl.state ≠ .active → s.repl.digest = none ∧ s.repl.agree = 0 ∧ s.repl.disagree = 0
  /-- An ACTIVE station holds a digest (R89). -/
  activeDigest : s.ctrl.state = .active → s.repl.digest.isSome = true
  /-- The counters stay in their ranges (R90). -/
  voteRange : s.repl.agree ≤ Config.voteCeiling ∧ s.repl.disagree ≤ Config.voteCeiling
  /-- The orphan counter is 0 outside SYNCING and FOUNDING (R87), below N in SYNCING and N in FOUNDING (R98). -/
  orphanElse : s.ctrl.state ≠ .syncing → s.ctrl.state ≠ .founding → s.repl.orphan = 0
  orphanSyncing : s.ctrl.state = .syncing → s.repl.orphan < s.lineSlots
  orphanFounding : s.ctrl.state = .founding → s.repl.orphan = s.lineSlots
  /-- The leave-pending flag is set in SYNCING, FOUNDING and ACTIVE alone (R157). -/
  leave : s.ctrl.leavePending = true → s.ctrl.state.onLine = true
  /-- The listening window runs in LISTENING and nowhere else (R42, R51, R53). -/
  window : s.slots.window.isSome = true ↔ s.ctrl.state = .listening
  /-- Nothing is sent in IDLE, STOPPED and HALTED (R152, R159, R161). -/
  sending : s.line.sending = true → s.receiving = true
  /-- The configuration stays in its ranges (Table 10-2). -/
  divisor : 1 ≤ s.ctrl.divisor ∧ s.ctrl.divisor ≤ 64
  dropThreshold : 2 ≤ s.ctrl.dropThreshold ∧ s.ctrl.dropThreshold ≤ 7

/-! ### Lock records (R1, R2, R6, R9, R31) -/

/-- A holder list is empty, or one EXCLUSIVE holder, or SHARED holders only (R2). -/
def HoldersLaw (hs : List Holder) : Prop :=
  (∃ h, hs = [h] ∧ h.mode = .exclusive) ∨ ∀ h ∈ hs, h.mode = .shared

/-- The stations of a record's participants, holders first. -/
def LockRecord.stations (r : LockRecord) : List StationNo :=
  r.holders.map (·.station) ++ r.waiters.map (·.station)

/-- The law of one record: R2's holder list, each station at most once (R1), and a head waiter that is not
grantable (R6). -/
structure LockRecord.Lawful (r : LockRecord) : Prop where
  holders : HoldersLaw r.holders
  once : r.stations.Nodup
  blocked : ∀ w ∈ r.waiters.head?, grantable r.holders w.mode = false

/-- Every hold with a limit has run at most its limit (R31). -/
def LockRecord.LeasesRun (r : LockRecord) (c : CycleNo) : Prop :=
  ∀ h ∈ r.holders, 0 < h.limit.toNat → (c - h.leaseStart).toNat ≤ h.limit.toNat

/-- The record that the purge of a station leaves (R8). -/
def LockRecord.purged (r : LockRecord) (st : StationNo) (c : CycleNo) : LockRecord :=
  if r.participates st then ((r.dropHolder st).dropWaiter st).grantPass c else r

/-- The record that the expiries at the end of cycle `c` leave (R31). -/
def LockRecord.expiredAt (r : LockRecord) (c : CycleNo) : LockRecord :=
  if r.holders.any (·.expired c) then (r.dropExpired c).grantPass c else r

/-- The record after the operations of station `st` that name lock `l`, in frame order (R21). -/
def LockRecord.appliedAll (r : LockRecord) (c : CycleNo) (st : StationNo) (l : LockNo) (ops : List Operation) :
    LockRecord :=
  ops.foldl (fun r o => if o.lock.toNat = l.val then (r.apply c st o).record else r) r

/-- The laws of the table at an ACTIVE station (R1, R2, R6, R9, R31). -/
structure State.TableLaw (s : State) : Prop where
  lawful : ∀ l, (s.lock l).Lawful
  leases : ∀ l, (s.lock l).LeasesRun s.slots.cycle
  present : ∀ l, ∀ st ∈ (s.lock l).stations, (s.rosterEntry st).state ≠ .absent

/-! ### Request entries (R108, R109, R110) -/

/-- An END notice of tag `t` is in the notice queue (R109). -/
def State.EndUnread (s : State) (t : Tag) : Prop := ∃ n ∈ s.notices.queue, ∃ l o, n.body = .ended t l o

/-- The laws of the request entries, with the operation queue and the END notices. -/
structure State.RequestLaw (s : State) : Prop where
  /-- An entry is PENDING exactly when its op is CLAIM (R108). -/
  pendingClaim : ∀ t, (s.entry t).relation = .pending ↔ (s.entry t).op = some .claim
  /-- Only a live entry has an op (R108, R109). -/
  opLive : ∀ t, (s.entry t).op.isSome = true → (s.entry t).live = true
  /-- No two live entries name the same lock (R108). -/
  oneLock : ∀ t u, (s.entry t).live = true → (s.entry u).live = true → (s.entry t).lock = (s.entry u).lock → t = u
  /-- An entry is ENDED exactly when the notice queue holds an END notice for its tag (R109). -/
  endNotice : ∀ t, (s.entry t).relation = .ended ↔ s.EndUnread t
  /-- The operation queue holds the tags of the QUEUED ops, each once (R110). -/
  queueOnce : s.req.queue.Nodup
  queueOps : ∀ t, t ∈ s.req.queue ↔ (s.entry t).op.isSome = true ∧ (s.entry t).opStatus = .queued
  /-- The model's frame order of the DOUBTFUL ops holds each of their tags once. -/
  doubtOnce : s.req.doubtOrder.Nodup
  doubtOps : ∀ t, t ∈ s.req.doubtOrder ↔ s.doubtful t = true
  /-- The tags of the own frame are distinct. -/
  ownOnce : ∀ o ∈ s.line.own, o.tags.Nodup

/-- Every live entry ends with `outcome`, its op discarded and its END notice in the queue; queue and to-yield set
are empty, the other entries are as before, and no notice of another owner is lost (R109, R123, R124). -/
structure State.EndsAll (outcome : EndOutcome) (s t : State) : Prop where
  ended : ∀ g, (s.entry g).live = true →
    t.entry g = { s.entry g with relation := .ended, op := none, opStatus := .queued, doubtMark := false }
  kept : ∀ g, (s.entry g).live = false → t.entry g = s.entry g
  noticed : ∀ g, (s.entry g).live = true → ∃ n ∈ t.notices.queue, n.body = .ended g (s.entry g).lock outcome
  others : ∀ n ∈ s.notices.queue, (∀ g, (s.entry g).live = true → n.body.owner ≠ .tag g) →
    (∀ f, n.body ≠ .fault f) → n ∈ t.notices.queue
  queue : t.req.queue = []
  toYield : t.req.toYield = []

/-- The line is released and no reception is in progress, the station is unaligned with its window stopped, no page is
valid, digest and counters are gone, leave pending is clear, and the station is in `st`; slot position, cycle number,
tables, page cursor, configuration, straps and the waiting commands are kept (R41, R53, R87). -/
structure State.OffLine (st : StationState) (s t : State) : Prop where
  ctrl : t.ctrl = { s.ctrl with state := st, leavePending := false }
  released : t.line.own = none ∧ t.line.sending = false ∧ t.line.shift = 0 ∧ t.line.rx.inProgress = false
  slots : t.slots.aligned = false ∧ t.slots.window = none ∧ t.slots.position = s.slots.position
    ∧ t.slots.cycle = s.slots.cycle
  repl : t.repl.agree = 0 ∧ t.repl.disagree = 0 ∧ t.repl.installed = 0 ∧ t.repl.orphan = 0 ∧ t.repl.digest = none
  tables : t.roster = s.roster ∧ t.locks = s.locks ∧ t.pageCursor = s.pageCursor ∧ t.pending = s.pending

/-- Entry to STOPPED: off the line, and every live entry ended LEFT (R123, R156, R158). -/
structure State.StoppedFrom (s t : State) : Prop where
  offLine : State.OffLine .stopped s t
  ends : s.EndsAll .left t

/-- Entry to HALTED: off the line, with a FAULT notice that carries the fault, and every live entry ended LOST (R124,
R160); the port is kept. -/
structure State.HaltedFrom (s t : State) (carries : FaultSet → Bool) : Prop where
  offLine : State.OffLine .halted s t
  fault : ∃ n ∈ t.notices.queue, ∃ f, n.body = .fault f ∧ carries f = true
  ends : s.EndsAll .lost t
  port : t.port = s.port

/-! ### The own transmission -/

/-- The line is dominant `x` CLKIN periods from now, where no cell starts before (R44). -/
def State.LineDominantAt (s : State) (x : Nat) : Prop := s.line.sinceCell + x < s.line.dominant

/-- `x` CLKIN periods from now a station that sends, and sends on until then, samples an own cell that carries `bit`,
`twelfths` twelfths of a bit time after the start of that cell: 2, 6 and 10 are the points of Table 3-1 (R41, R59). -/
def State.SamplesOwnCellAt (s : State) (x twelfths : Nat) (bit : Bool) : Prop :=
  s.line.sending = true ∧ ∃ (o : OwnFrame) (k : Nat) (b : Byte), s.line.own = some o ∧ o.frame.toBytes[k / 8]? = some b
    ∧ bit = b.getLsbD (7 - k % 8)
    ∧ 12 * s.ctrl.divisor * s.line.shift + s.line.shiftClocks + x = (12 * k + twelfths) * s.ctrl.divisor

/-- That sample is a readback mismatch: a value sample that reads dominant in an own 1 (R59). -/
def State.MismatchAt (s : State) (x : Nat) : Prop := s.SamplesOwnCellAt x 6 true ∧ s.LineDominantAt x

/-- That sample is a cell fault in the readback: the line recessive in the first phase or in the value phase of an own 0, or
dominant in the third phase (R59). -/
def State.ReadbackFaultAt (s : State) (x : Nat) : Prop :=
  (∃ bit, s.SamplesOwnCellAt x 2 bit ∧ ¬ s.LineDominantAt x)
  ∨ (s.SamplesOwnCellAt x 6 false ∧ ¬ s.LineDominantAt x)
  ∨ ∃ bit, s.SamplesOwnCellAt x 10 bit ∧ s.LineDominantAt x

/-! ### The founding effects at the Request Engine (R103, R122) -/

/-- The notices that the founding effects of a frame of `founder` raise, in the order of R103: ROSTER where the station is
ACTIVE and a roster state changes, TABLE_LOST where it is ACTIVE or has a live request, the END notices of the WAITING and
HELD requests in ascending tag order (R122), and last SYNC ACTIVE where it is not ACTIVE. -/
def State.foundingNotices (s : State) (founder : StationNo) : List NoticeBody :=
  (if s.ctrl.state = .active ∧ ∃ k, (s.rosterEntry k).state ≠ (if k = founder then .active else .absent) then [.roster]
    else [])
  ++ (if s.ctrl.state = .active ∨ ∃ g, (s.entry g).live = true then [.tableLost] else [])
  ++ ((List.finRange 16).filter fun g => (s.entry g).relation = .waiting ∨ (s.entry g).relation = .held).map
      (fun g => .ended g (s.entry g).lock .lost)
  ++ (if s.ctrl.state = .active then [] else [.sync .active])

/-- Requests and notices after the founding effects of a frame of `founder`. -/
structure State.FoundingHandled (s t : State) (founder : StationNo) : Prop where
  /-- A PENDING entry keeps all that its CLAIM asks for; a DOUBTFUL CLAIM is QUEUED, its mark clear (R122). -/
  claims : ∀ g, (s.entry g).relation = .pending →
    t.entry g = if s.doubtful g then { s.entry g with opStatus := .queued, doubtMark := false } else s.entry g
  /-- A WAITING or HELD entry ends LOST, and its op is discarded (R109, R122). -/
  ended : ∀ g, ((s.entry g).relation = .waiting ∨ (s.entry g).relation = .held) →
    t.entry g = { s.entry g with relation := .ended, op := none, opStatus := .queued, doubtMark := false }
    ∧ ∃ n ∈ t.notices.queue, n.body = .ended g (s.entry g).lock .lost
  kept : ∀ g, (s.entry g).live = false → t.entry g = s.entry g
  /-- The DOUBTFUL CLAIMs stand at the head, those with the mark set ahead of those with it clear and each in frame order;
  the QUEUED CLAIMs stay in their places behind them (R122). -/
  queue : t.req.queue
    = s.req.doubtOrder.filter (fun g => (s.entry g).relation = .pending ∧ (s.entry g).doubtMark = true)
      ++ s.req.doubtOrder.filter (fun g => (s.entry g).relation = .pending ∧ (s.entry g).doubtMark = false)
      ++ s.req.queue.filter (fun g => (s.entry g).relation = .pending)
  emptied : t.req.toYield = [] ∧ t.req.doubtOrder = []
  /-- Every raise of R103, one after the other. -/
  notices : t.notices = ((s.foundingNotices founder).foldl State.raise s).notices

/-! ### Slots -/

/-- The end of a slot without a valid ACTIVE frame at a SYNCING or FOUNDING station that stays in recovery: a SYNCING one
counts an orphaned slot and is FOUNDING at N; requests, slot position and cycle number, pages and digest are kept (R16,
R97, R98). -/
structure State.OrphanedSlot (s t : State) : Prop where
  ctrl : t.ctrl = { s.ctrl with
    state := if s.ctrl.state = .syncing ∧ s.ctrl.snc.val + 1 ≤ s.repl.orphan + 1 then .founding else s.ctrl.state }
  repl : t.repl = { s.repl with
    orphan := if s.ctrl.state = .syncing then s.repl.orphan + 1 else s.repl.orphan }
  kept : t.req = s.req ∧ t.slots = s.slots ∧ t.pageCursor = s.pageCursor ∧ t.port = s.port

/-- A change of the record of lock `l` into `r` in which the own station takes no part but that of a waiter: where `r`
grants it, the entry that waits for the lock is HELD with its mode and token and an UPDATE says so; where it does not,
and where the own station does not wait, nothing is reported (R7, R119). -/
structure State.GrantHandedOn (s t : State) (l : LockNo) (r : LockRecord) : Prop where
  granted : ∀ h g e, (s.lock l).waiterOf s.ctrl.sid ≠ none → r.holderOf s.ctrl.sid = some h → l ∉ s.req.toYield →
    s.entry g = e → e.lock = l → e.relation = .waiting →
    t.entry g = { e with relation := .held, mode := h.mode, token := h.token }
    ∧ ∃ n ∈ t.notices.queue, n.body = .update g l h.mode (.held h.token)
  silent : ((s.lock l).waiterOf s.ctrl.sid = none ∨ r.holderOf s.ctrl.sid = none) →
    t.req = s.req ∧ t.notices = s.notices

/-- The record of a lock after the expiries of the slot in progress: those of its cycle where it is slot N-1, none
otherwise (R31, R46). -/
def State.endingCycle (s : State) (r : LockRecord) : LockRecord :=
  if s.slots.position = s.ctrl.snc then r.expiredAt s.slots.cycle else r

/-- The bits of a reception, in the order of its cells. -/
def Reception.receivedBits (rx : Reception) : List Bool := rx.bytes.flatMap byteBits ++ rx.cells

/-- The to-yield set is kept without repetition, in ascending lock order (R111, R116). -/
def State.ToYieldAscending (s : State) : Prop := s.req.toYield.Pairwise (· < ·)

/-! ### The host port -/

/-- The rows that end an exchange (R136, R141, R142). -/
def endsExchange : Instr → Bool
  | .nop _ | .status _ | .configure .. | .start _ | .leave _ | .resetStation .. | .acquire .. | .release ..
  | .downgrade .. | .renew .. | .queryTag .. | .fetch _ | .queryLock .. | .queryRoster _ | .unknownCommand ..
  | .truncatedExchange .. | .emptyExchange => true
  | .pinReset .. | .exchangeStart | .listeningWindowExpiry | .transmitGapExpiry | .transmissionEnd
  | .readbackMismatch | .arbitrationLoss | .silentSlotEnd | .frameSlotEnd | .listeningReceptionEnd
  | .leaseExpiry | .drop | .enterFounding | .cellStart .. => false

/-- The number of whole bytes of the exchange that a row ends (R136). -/
def exchangeBytes : Instr → Nat
  | .nop x | .status x | .start x | .leave x | .resetStation _ _ x | .fetch x | .queryRoster x
  | .unknownCommand _ x => 1 + x
  | .release _ x | .downgrade _ x | .renew _ x | .queryTag _ x | .queryLock _ x => 2 + x
  | .configure _ _ _ x => 4 + x
  | .acquire _ _ _ x => 5 + x
  | .truncatedExchange _ whole => whole
  | .emptyExchange | .pinReset .. | .exchangeStart | .listeningWindowExpiry | .transmitGapExpiry | .transmissionEnd
  | .readbackMismatch | .arbitrationLoss | .silentSlotEnd | .frameSlotEnd | .listeningReceptionEnd
  | .leaseExpiry | .drop | .enterFounding | .cellStart .. => 0

/-- The station when step 1 of R140 is done, at the end of an exchange of `whole` whole bytes: a FETCH response
shifted out whole in it has been delivered (R132, R133). -/
def State.afterDelivery (s : State) (whole : Nat) : State := (s.shiftOut whole).deliver

/-- The station when the exchange is over: the response in the holder, no truncation, no exchange (R139, R140). -/
def State.answered (s : State) (code : Byte) (result : Result) (payload : List Byte) : State :=
  { s with port := ⟨⟨code, result, payload⟩, false, false, .closed, none⟩ }

end Sys2Proof.Machine
end

