-- ==== Sys2Proof/WellFormed.lean ====
section
/-! DEFINITION. Which terms of Instr stand for something that can happen at the part's pins. -/

namespace Sys2Proof

/-- An unknown command's code is in no row of Table 9-2 (R145); a truncated exchange brought at least one whole
byte and fewer than its command's length (R136, R141); an edge from recessive to dominant leaves the
line dominant for some time (R39). -/
def Instr.wellFormed : Instr → Bool
  | .unknownCommand code _ => !Machine.commandListed code
  | .truncatedExchange code whole => decide (1 ≤ whole ∧ whole < Machine.commandLength code)
  | .cellStart _ _ _ _ dominant => dominant != 0
  | .pinReset .. | .exchangeStart | .nop _ | .status _ | .configure .. | .start _ | .leave _
  | .resetStation .. | .acquire .. | .release .. | .downgrade .. | .renew .. | .queryTag .. | .fetch _
  | .queryLock .. | .queryRoster _ | .emptyExchange | .listeningWindowExpiry | .transmitGapExpiry
  | .transmissionEnd | .readbackMismatch | .arbitrationLoss | .silentSlotEnd | .frameSlotEnd
  | .listeningReceptionEnd | .leaseExpiry | .drop | .enterFounding => true

end Sys2Proof
end

