-- ==== Sys2Proof/Certificates/Slice0/Obligations.lean ====
section
/-! DEFINITION. The statements for the provers, block by block. An exchange row is stated for a port with an exchange
in progress; a port outside one is stated apart. Command and result codes are those of Table 9-2 and Table 9-4. -/

open Sys2Proof Sys2Proof.Machine

/-! ### The step -/

/-- A step runs the command at the front of the queue, with the queue's rest. -/
def Obligations.StepRunsFrontCommand : Prop :=
  ∀ (c : Instr) (rest : List Instr) (s : State),
    step { s with pending := c :: rest } = exec c { s with pending := rest }

/-- On an empty queue a step lets one CLKIN period pass (the model's choice, log 1). What `n` periods with no event do
at a station whose receiver is on, in CLKIN periods (log 14): an own transmission goes on to its next cell when a bit
time is over, up to its last (R38, R41). It samples each own cell at 1/6, 1/2 and 5/6 bit time from the start of that
cell. The first value sample that reads dominant in an own 1 is the mismatch: the line is released at once, and no own
cell is sampled after it. Until then a phase-1 sample, or a value sample of a 0, that reads recessive, and a phase-3
sample that reads dominant, is a cell fault, which marks the reception in progress (R59); the fields that keep both are
the model's (log 10). The slot timer of an aligned station counts to W from slot start (R43), and in a frame slot to Q
from the end of the latest cell or of the time the line stayed dominant past it (R44). The listening window counts to (N
+ 2 + own number) x W bit times (R51). That each count then stands is the model's (log 3). Nothing else changes. -/
def Obligations.IdleStepMovesTimersAlone : Prop :=
  (∀ s : State, s.pending = [] → step s = .next (s.elapse 1))
  ∧ ∀ (s t : State) (n b : Nat), s.elapse n = t → b = 12 * s.ctrl.divisor →
    { t with
      line.sending := s.line.sending, line.shift := s.line.shift, line.shiftClocks := s.line.shiftClocks
      line.mismatch := s.line.mismatch, line.ownFault := s.line.ownFault, line.rx.fault := s.line.rx.fault
      line.sinceCell := s.line.sinceCell, slots.timer := s.slots.timer, slots.window := s.slots.window } = s
    ∧ (s.receiving = false → t = s)
    ∧ (s.line.sending = false →
        t.line.sending = false ∧ t.line.shift = s.line.shift ∧ t.line.shiftClocks = s.line.shiftClocks
        ∧ t.line.mismatch = s.line.mismatch ∧ t.line.ownFault = s.line.ownFault ∧ t.line.rx.fault = s.line.rx.fault)
    ∧ (s.receiving = true → s.line.sending = true → 1 ≤ s.ctrl.divisor → s.line.shiftClocks < b →
        (t.line.mismatch = true ↔ s.line.mismatch = true ∨ ∃ x < n, s.MismatchAt x)
        ∧ (t.line.ownFault = true ↔
            s.line.ownFault = true ∨ ∃ x < n, s.ReadbackFaultAt x ∧ ∀ y < x, ¬ s.MismatchAt y)
        ∧ (t.line.rx.fault = true ↔ s.line.rx.fault = true
            ∨ (s.line.rx.inProgress = true ∧ ∃ x < n, s.ReadbackFaultAt x ∧ ∀ y < x, ¬ s.MismatchAt y))
        ∧ ((∃ x < n, s.MismatchAt x) → t.line.sending = false ∧ t.line.shift = 0 ∧ t.line.shiftClocks = 0)
        ∧ ((∀ x < n, ¬ s.MismatchAt x) →
            t.line.sending = true ∧ t.line.shiftClocks = (s.line.shiftClocks + n) % b
            ∧ ∀ o, s.line.own = some o →
              t.line.shift = min (8 * o.frame.toBytes.length) (s.line.shift + (s.line.shiftClocks + n) / b)))
    ∧ (s.receiving = true → s.slots.aligned = true → s.slots.phase = .waiting →
        t.slots.timer = min (s.slots.timer + n) (12 * b))
    ∧ (s.receiving = true → s.slots.aligned = true → s.slots.phase = .inFrame →
        t.slots.timer = min (s.line.sinceCell + n - max b s.line.dominant) (2 * b))
    ∧ (s.slots.aligned = false → t.slots.timer = s.slots.timer)
    ∧ (s.receiving = true → ∀ k, s.slots.window = some k →
        t.slots.window = some (min (k + n) ((s.ctrl.snc.val + 1 + 2 + s.ctrl.sid.val) * 12 * b)))
    ∧ (s.slots.window = none → t.slots.window = none)
    ∧ (s.receiving = true → t.line.sinceCell = min (s.line.sinceCell + n) (2 * b + max b s.line.dominant))

/-- Every command has a next state, in which: the queue of the waiting commands is as it was; configuration and straps
are as they were, unless the command is a reset or (for the configuration) CONFIGURE (R153, R154); after a row of the
line or of a timer the host port and the bits of its exchange are as they were (R139); and after a command of the host
that is no reset, so are the records, the roster and the page cursor (R15, R54). -/
def Obligations.CommandsKeepWhatTheyDoNotOwn : Prop :=
  ∀ (c : Instr) (s : State), ∃ t, exec c s = .next t
    ∧ t.pending = s.pending
    ∧ ((∀ sid snc h, c ≠ .pinReset sid snc h) → (∀ sid snc x, c ≠ .resetStation sid snc x) →
        t.ctrl.sid = s.ctrl.sid ∧ t.ctrl.snc = s.ctrl.snc
        ∧ ((∀ d n f x, c ≠ .configure d n f x) →
            t.ctrl.divisor = s.ctrl.divisor ∧ t.ctrl.dropThreshold = s.ctrl.dropThreshold
            ∧ t.ctrl.intEnable = s.ctrl.intEnable)
        ∧ (endsExchange c = false → c ≠ .exchangeStart → t.port = s.port ∧ t.spi = s.spi)
        ∧ (endsExchange c = true → t.locks = s.locks ∧ t.roster = s.roster ∧ t.pageCursor = s.pageCursor))

/-! ### Resets -/

/-- PIN_RESET: every block at the values that its chapter gives for either reset, and the port at those of Table 9-1
(R163); no edge of HCK has been taken. -/
def Obligations.PinResetLeavesResetValues : Prop :=
  ∀ (sid snc : Fin 16) (hsel : Bool) (s : State), ∃ t, exec (.pinReset sid snc hsel) s = .next t
    ∧ t.ctrl = ⟨.idle, false, 8, 3, true, sid, snc⟩
    ∧ (t.line.own = none ∧ t.line.sending = false ∧ t.line.shift = 0 ∧ t.line.rx.bytes = [] ∧ t.line.rx.cells = []
        ∧ t.line.rx.inProgress = false)
    ∧ (t.slots.aligned = false ∧ t.slots.position = 0 ∧ t.slots.cycle = 0 ∧ t.slots.phase = .waiting
        ∧ t.slots.timer = 0 ∧ t.slots.window = none)
    ∧ t.pageCursor = 0
    ∧ (∀ k, t.rosterEntry k = ⟨.absent, 0⟩)
    ∧ (∀ l, t.lock l = ⟨0, [], []⟩)
    ∧ t.repl = ⟨0, 0, 0, 0, none, false⟩
    ∧ ((∀ g, (t.entry g).relation = .free ∧ (t.entry g).op = none) ∧ t.req.queue = [] ∧ t.req.toYield = [])
    ∧ t.notices = ⟨[], 0⟩
    ∧ t.port = ⟨⟨0, .ok, []⟩, false, false, if hsel then .waitDeassert else .closed, none⟩
    ∧ t.spi = ⟨[], 0⟩
    ∧ t.hintAsserted = false
    ∧ t.pending = s.pending

/-- RESET_STATION does what a pin reset does to every block but the port, which holds its OK response (R162, R163). -/
def Obligations.ResetStationResetsAsThePinDoes : Prop :=
  ∀ (sid snc : Fin 16) (extra : Nat) (hsel : Bool) (s : State), s.port.phase = .exchange →
    ∃ t, exec (.pinReset sid snc hsel) s = .next t
      ∧ exec (.resetStation sid snc extra) s = .next (t.answered 0x05 .ok [])

/-! ### Exchanges -/

/-- A port that waits for HSEL# to be deasserted after a pin reset takes nothing from that assertion (R143). An
exchange-end row that finds no exchange in progress acts as the end of a whole exchange would (the model's choice, log
6). -/
def Obligations.ExchangeEndsOutsideAnExchange : Prop :=
  ∀ (c : Instr) (s : State), endsExchange c = true →
    (s.port.phase = .waitDeassert →
      exec c s = .next { s with port := { s.port with phase := .closed, status := none, delivered := false } })
    ∧ (s.port.phase = .closed → exec c s = exec c { s with port.phase := .exchange })

/-- EXCHANGE_START: the status byte of that moment, bit by bit, the delivered mark cleared, and no edge of HCK taken
yet; nothing else changes (R136, R138, R140). That it starts an exchange in every phase of the port is the model's
choice (log 6). -/
def Obligations.ExchangeStartTakesTheStatusByte : Prop :=
  ∀ s : State, ∃ b : Byte,
    exec .exchangeStart s
      = .next { s with
          port := { s.port with phase := .exchange, status := some b, delivered := false }
          spi := ⟨[], 0⟩ }
    ∧ (b.extractLsb' 5 3).toNat
        = (match s.ctrl.state with
          | .idle => 0 | .listening => 1 | .syncing => 2 | .founding => 3 | .active => 4 | .stopped => 5 | .halted => 6)
    ∧ b.getLsbD 4 = decide (s.notices.queue ≠ []) ∧ b.getLsbD 3 = s.port.truncated
    ∧ b.getLsbD 2 = decide (s.req.queue ≠ []) ∧ b.getLsbD 1 = s.ctrl.leavePending ∧ b.getLsbD 0 = false

/-- The outputs. HINT#: asserted while the notice queue is non-empty and the interrupt enable set (R134). The line:
dominant while a station sends in the first third of each cell and, for a 0, in the second, bytes in frame order and
most significant bit first (R37, R41). HDO, byte by byte: the status byte, the echo, the result code of Table 9-4, the
payload, then 0x00; high impedance outside an exchange (R137), also while HSEL# stays asserted after a pin reset (the
model's choice, log 29). The edges of HCK in an exchange, for which the table has no row (log 17): a rising edge
receives a bit, and the held response counts as shifted out whole from the last rising edge of its last byte on; a
falling edge takes HDO to its next bit, each byte most significant bit first. The bits received, a last byte that is not
whole apart, spell the row that ends the exchange: with fewer bytes than Table 9-2 gives its command it is truncated,
with a code outside the table unknown, with none empty (R136, R137, R140). -/
def Obligations.OutputsFollowTheState : Prop :=
  ∀ s : State,
    (s.hintAsserted = true ↔ s.notices.queue ≠ [] ∧ s.ctrl.intEnable = true)
    ∧ (s.line.sending = false → s.drivesDominant = false)
    ∧ (∀ (o : OwnFrame) (b : Byte), s.line.sending = true → s.line.own = some o →
        o.frame.toBytes[s.line.shift / 8]? = some b →
        (s.drivesDominant = true ↔ s.line.shiftClocks < 4 * s.ctrl.divisor
          ∨ (s.line.shiftClocks < 8 * s.ctrl.divisor ∧ b.getLsbD (7 - s.line.shift % 8) = false)))
    ∧ (s.port.phase ≠ .exchange → (∀ i, s.hdoByte i = none) ∧ s.hdoBit = none ∧ s.hckFall = s ∧ ∀ x, s.hckRise x = s)
    ∧ (∀ b : Byte, s.port.phase = .exchange → s.port.status = some b →
      s.hdoByte 0 = some b ∧ s.hdoByte 1 = some s.port.held.echo
      ∧ (∃ r : Byte, s.hdoByte 2 = some r ∧ r.toNat =
          (match s.port.held.result with
          | .ok => 0 | .unknown => 1 | .state => 2 | .range => 3 | .duplicate => 4 | .full => 5 | .tag => 6 | .busy => 7
          | .straps => 8 | .empty => 9))
      ∧ (∀ i, i < s.port.held.payload.length → s.hdoByte (3 + i) = s.port.held.payload[i]?)
      ∧ (∀ i, 3 + s.port.held.payload.length ≤ i → s.hdoByte i = some 0))
    ∧ (s.port.phase = .exchange →
        (∀ b, s.hdoByte (s.spi.falls / 8) = some b → s.hdoBit = some (b.getLsbD (7 - s.spi.falls % 8)))
        ∧ s.hckFall = { s with spi.falls := s.spi.falls + 1 }
        ∧ ∀ x, s.hckRise x = { s with
            spi.hdi := s.spi.hdi ++ [x]
            port.delivered := decide (3 + s.port.held.payload.length ≤ (s.spi.hdi.length + 1) / 8) })
    ∧ ∀ (sid snc : Fin 16) (bytes : List Byte) (unfinished : List Bool),
        s.spi.hdi = bytes.flatMap byteBits ++ unfinished → unfinished.length < 8 →
        (s.endingRow sid snc).wellFormed = true
        ∧ exchangeBytes (s.endingRow sid snc) = bytes.length
        ∧ (∃ filler, encodeExchange filler (s.endingRow sid snc) = some bytes)
        ∧ (bytes = [] → s.endingRow sid snc = .emptyExchange)
        ∧ ∀ code args, bytes = code :: args → ∀ table : List (Byte × Nat),
            table = [(0x00, 1), (0x01, 1), (0x02, 4), (0x03, 1), (0x04, 1), (0x05, 1), (0x10, 5), (0x11, 2), (0x12, 2),
              (0x13, 2), (0x14, 2), (0x20, 1), (0x30, 2), (0x31, 1)] →
            (∀ n, (code, n) ∈ table → args.length + 1 < n →
              s.endingRow sid snc = .truncatedExchange code (args.length + 1))
            ∧ ((∀ n, (code, n) ∉ table) → s.endingRow sid snc = .unknownCommand code args.length)

/-- What step 1 of R140 does, case by case: an exchange that shifts a FETCH OK response out whole removes the head
notice that still holds its serial, and frees the entry of an END; every other exchange removes nothing (R132, R133,
R137). And what a raise does: the serial counter goes up by one, from 255 to 0, and the notice takes it (R127); where
its tag or station kind has no unread notice it joins the tail, else it changes that one in place, a FAULT to the union
of the two fault sets and any other to the new content (R128, R129). That it would replace an unread END, which does not
arise, is the model's choice (log 15). -/
def Obligations.DeliveryRemovesTheNoticeCopied : Prop :=
  (∀ (s : State) (whole : Nat),
    (whole < 3 + s.port.held.payload.length → s.afterDelivery whole = { s with port.delivered := false })
    ∧ (s.port.held.echo ≠ 0x20 ∨ s.port.held.result ≠ .ok →
        s.afterDelivery whole = { s with port.delivered := false })
    ∧ (s.notices.queue = [] → s.afterDelivery whole = { s with port.delivered := false })
    ∧ ∀ (x : Byte) (more : List Byte) (n : Notice) (rest : List Notice),
        s.port.held = ⟨0x20, .ok, x :: more⟩ → s.notices.queue = n :: rest →
        (n.serial ≠ x → s.afterDelivery whole = { s with port.delivered := false })
        ∧ (n.serial = x → 4 + more.length ≤ whole →
            (∀ g l o, n.body = .ended g l o →
              s.afterDelivery whole
                = { s with notices.queue := rest
                           req.entries := s.req.entries.set g.val { s.entry g with relation := .free } g.isLt
                           port.delivered := false })
            ∧ ((∀ g l o, n.body ≠ .ended g l o) →
              s.afterDelivery whole = { s with notices.queue := rest, port.delivered := false })))
  ∧ ∀ (s : State) (b : NoticeBody),
      (∃ queue, s.raise b = { s with notices := ⟨queue, s.notices.serial + 1⟩ })
      ∧ ((∀ n ∈ s.notices.queue, n.body.owner ≠ b.owner) →
          (s.raise b).notices.queue = s.notices.queue ++ [⟨s.notices.serial + 1, b⟩])
      ∧ ∀ (front : List Notice) (n : Notice) (back : List Notice), s.notices.queue = front ++ n :: back →
          (∀ m ∈ front, m.body.owner ≠ b.owner) → n.body.owner = b.owner →
          (∀ x y : FaultSet, n.body = .fault x → b = .fault y →
            (s.raise b).notices.queue = front
              ++ ⟨s.notices.serial + 1, .fault ⟨x.duplicateId || y.duplicateId, x.slotCountMismatch || y.slotCountMismatch,
                  x.alienTraffic || y.alienTraffic⟩⟩ :: back)
          ∧ ((∀ y, b ≠ .fault y) → (s.raise b).notices.queue = front ++ ⟨s.notices.serial + 1, b⟩ :: back)

/-- EMPTY_EXCHANGE executes no command and hands no delivery: the exchange is over, and its status byte is discarded;
held response, truncation flag and every other block are as they were (R142). -/
def Obligations.EmptyExchangeDoesNothing : Prop :=
  ∀ s : State,
    exec .emptyExchange s
      = .next { s with port := { s.port with phase := .closed, status := none, delivered := false } }

/-- TRUNCATED_EXCHANGE: the command is not executed, the held response is kept, the truncation flag is set, and only the
delivery of step 1 changes another block (R141). For a row that is not well formed, with no whole byte or as many as its
command has, that is the model's choice (log 16). -/
def Obligations.TruncatedExchangeSetsTheFlag : Prop :=
  ∀ (code : Byte) (whole : Nat) (s : State), s.port.phase = .exchange →
    exec (.truncatedExchange code whole) s
      = .next { s.afterDelivery whole with port := ⟨s.port.held, false, true, .closed, none⟩ }

/-- UNKNOWN_COMMAND: result UNKNOWN with the code received as echo, in every state (R145). For a row that is not well
formed, whose code Table 9-2 lists, that is the model's choice (log 16). -/
def Obligations.UnknownCodeAnswersUnknown : Prop :=
  ∀ (code : Byte) (extra : Nat) (s : State), s.port.phase = .exchange →
    exec (.unknownCommand code extra) s = .next ((s.afterDelivery (1 + extra)).answered code .unknown [])

/-- A command whose result is not OK changes no block: the delivery of step 1 and the response apart, the station is as
it was (R145). -/
def Obligations.RejectedCommandChangesNothing : Prop :=
  ∀ (c : Instr) (s t : State), endsExchange c = true → (∀ code whole, c ≠ .truncatedExchange code whole) →
    c ≠ .emptyExchange → s.port.phase = .exchange → exec c s = .next t → t.port.held.result ≠ .ok →
    ∃ code r, t = (s.afterDelivery (exchangeBytes c)).answered code r []

/-! ### Commands that read -/

/-- NOP: OK with no payload; delivery, response and truncation flag are all its effect (R146). -/
def Obligations.NopAnswersOk : Prop :=
  ∀ (extra : Nat) (s : State), s.port.phase = .exchange →
    exec (.nop extra) s = .next ((s.afterDelivery (1 + extra)).answered 0x00 .ok [])

/-- STATUS: the 12 bytes of Table 11-10, taken after the delivery (R146). -/
def Obligations.StatusReportsTheStation : Prop :=
  ∀ (extra : Nat) (s : State), s.port.phase = .exchange →
    ∃ p0 p1 p2 p3 p4 p5 p6 p7 p8 p9 p10 p11 : Byte,
      exec (.status extra) s
        = .next ((s.afterDelivery (1 + extra)).answered 0x01 .ok [p0, p1, p2, p3, p4, p5, p6, p7, p8, p9, p10, p11])
      ∧ p0.toNat
          = (match s.ctrl.state with
            | .idle => 0 | .listening => 1 | .syncing => 2 | .founding => 3 | .active => 4 | .stopped => 5 | .halted => 6)
      ∧ p1 ++ p2 ++ p3 = s.slots.cycle
      ∧ p4.toNat = s.slots.position.val
      ∧ (∀ k < 16, (p5 ++ p6 : Word16).getLsbD k = (decide (k < 9) && s.pageInstalled k))
      ∧ p7.toNat = ((List.finRange 16).filter fun g =>
          ((s.afterDelivery (1 + extra)).entry g).relation = .pending
            ∨ ((s.afterDelivery (1 + extra)).entry g).relation = .waiting
            ∨ ((s.afterDelivery (1 + extra)).entry g).relation = .held).length
      ∧ p8 = BitVec.ofNat 8 s.req.queue.length
      ∧ p9 = BitVec.ofNat 8 s.req.toYield.length
      ∧ p10 = BitVec.ofNat 8 (s.afterDelivery (1 + extra)).notices.queue.length
      ∧ p11 = BitVec.ofNat 8 s.ctrl.dropThreshold

/-- FETCH: the 8 bytes of Table 11-11 for the notice at the head, which stays; EMPTY where there is none (R131,
R150). -/
def Obligations.FetchCopiesTheHeadNotice : Prop :=
  ∀ (extra : Nat) (s : State), s.port.phase = .exchange →
    ((s.afterDelivery (1 + extra)).notices.queue = [] →
      exec (.fetch extra) s = .next ((s.afterDelivery (1 + extra)).answered 0x20 .empty []))
    ∧ ∀ (n : Notice) (rest : List Notice), (s.afterDelivery (1 + extra)).notices.queue = n :: rest →
        ∃ kind tag lock standing mode hi lo : Byte,
          exec (.fetch extra) s
            = .next ((s.afterDelivery (1 + extra)).answered 0x20 .ok
                [n.serial, kind, tag, lock, standing, mode, hi, lo])
          ∧ (∀ g l m token, n.body = .update g l m (.held token) →
              kind = 1 ∧ tag.toNat = g.val ∧ lock.toNat = l.val ∧ standing = 3 ∧ mode.toNat = (if m = .shared then 1 else 0)
              ∧ hi ++ lo = token)
          ∧ (∀ g l m p, n.body = .update g l m (.waiting p) →
              kind = 1 ∧ tag.toNat = g.val ∧ lock.toNat = l.val ∧ standing = 2 ∧ mode.toNat = (if m = .shared then 1 else 0)
              ∧ (hi ++ lo : Word16) = BitVec.ofNat 16 p)
          ∧ (∀ g l o, n.body = .ended g l o →
              kind = 2 ∧ tag.toNat = g.val ∧ lock.toNat = l.val ∧ mode = 0 ∧ hi = 0 ∧ lo = 0 ∧ standing.toNat =
                (match o with
                | .released => 1 | .cancelled => 2 | .denied => 3 | .expired => 4 | .evicted => 5 | .lost => 6 | .left => 7
                | .refused => 8))
          ∧ (n.body = .sync .syncing →
              [kind, tag, lock, standing, mode, hi, lo] = [3, 0, 0, 0, 0, 0, 2])
          ∧ (n.body = .sync .active →
              [kind, tag, lock, standing, mode, hi, lo] = [3, 0, 0, 0, 0, 0, 4])
          ∧ (n.body = .roster → [kind, tag, lock, standing, mode, hi, lo] = [4, 0, 0, 0, 0, 0, 0])
          ∧ (n.body = .tableLost → [kind, tag, lock, standing, mode, hi, lo] = [5, 0, 0, 0, 0, 0, 0])
          ∧ (∀ f, n.body = .fault f →
              [kind, tag, lock, standing, mode, hi] = [6, 0, 0, 0, 0, 0]
              ∧ lo.getLsbD 0 = f.duplicateId ∧ lo.getLsbD 1 = f.slotCountMismatch ∧ lo.getLsbD 2 = f.alienTraffic
              ∧ lo.toNat < 8)

/-- QUERY_LOCK: STATE outside ACTIVE, RANGE for a lock byte of 64 or more, else the record in participant form:
generation and count, then 8 bytes for each holder, in grant order, and each waiter, in queue order, a waiter with lease
start and token 0 (R11, R18, Tables 11-5 and 11-6). It reads back as the record. -/
def Obligations.QueryLockReturnsTheRecord : Prop :=
  ∀ (b : Byte) (extra : Nat) (s : State), s.port.phase = .exchange →
    (s.ctrl.state ≠ .active →
      exec (.queryLock b extra) s = .next ((s.afterDelivery (2 + extra)).answered 0x30 .state []))
    ∧ (s.ctrl.state = .active → 64 ≤ b.toNat →
      exec (.queryLock b extra) s = .next ((s.afterDelivery (2 + extra)).answered 0x30 .range []))
    ∧ ∀ l : LockNo, s.ctrl.state = .active → b.toNat = l.val → ∀ byte : Nat → Byte, byte = BitVec.ofNat 8 →
      ∃ payload : List Byte,
        exec (.queryLock b extra) s = .next ((s.afterDelivery (2 + extra)).answered 0x30 .ok payload)
        ∧ payload
          = [byte ((s.lock l).generation.toNat / 256), byte (s.lock l).generation.toNat,
              byte ((s.lock l).holders.length + (s.lock l).waiters.length)]
            ++ ((s.lock l).holders.flatMap fun h =>
              [byte (16 * h.station.val + if h.mode = .shared then 4 else 0),
                byte (h.leaseStart.toNat / 65536), byte (h.leaseStart.toNat / 256), byte h.leaseStart.toNat,
                byte (h.limit.toNat / 256), byte h.limit.toNat, byte (h.token.toNat / 256), byte h.token.toNat])
            ++ ((s.lock l).waiters.flatMap fun w =>
              [byte (16 * w.station.val + 8 + if w.mode = .shared then 4 else 0), 0, 0, 0,
                byte (w.limit.toNat / 256), byte w.limit.toNat, 0, 0])
        ∧ ((s.lock l).holders.length + (s.lock l).waiters.length ≤ 16 → readRecord payload = some (s.lock l, []))

/-- QUERY_ROSTER: at an ACTIVE station OK with 19 bytes, the cycle number and then the 16 entries in station-number
order; elsewhere STATE and no payload. It changes no entry and removes no notice (R86). -/
def Obligations.QueryRosterReturnsTheRoster : Prop :=
  ∀ (extra : Nat) (s : State), s.port.phase = .exchange →
    (s.ctrl.state ≠ .active →
      exec (.queryRoster extra) s = .next ((s.afterDelivery (1 + extra)).answered 0x31 .state []))
    ∧ (s.ctrl.state = .active → ∃ (c2 c1 c0 : Byte) (es : List Byte),
      exec (.queryRoster extra) s = .next ((s.afterDelivery (1 + extra)).answered 0x31 .ok (c2 :: c1 :: c0 :: es))
      ∧ c2 ++ c1 ++ c0 = s.slots.cycle
      ∧ es.length = 16
      ∧ ∀ k : StationNo, ∃ e ∈ es[k.val]?,
          (e.extractLsb' 6 2).toNat = (match (s.rosterEntry k).state with | .absent => 0 | .syncing => 1 | .active => 2)
          ∧ e.extractLsb' 3 3 = (s.rosterEntry k).misses ∧ e.extractLsb' 0 3 = 0
          ∧ (s.RosterBounded → s.ctrl.snc < k → e = 0))

/-- QUERY_TAG: TAG for a byte of 16 or more and for a FREE entry, else the entry's 8 bytes (Table 11-10), with op status
QUEUED where it has no op (R149). -/
def Obligations.QueryTagShowsTheEntry : Prop :=
  ∀ (b : Byte) (extra : Nat) (s : State), s.port.phase = .exchange →
    (16 ≤ b.toNat → exec (.queryTag b extra) s = .next ((s.afterDelivery (2 + extra)).answered 0x14 .tag []))
    ∧ ∀ g : Tag, b.toNat = g.val →
      (((s.afterDelivery (2 + extra)).entry g).relation = .free →
        exec (.queryTag b extra) s = .next ((s.afterDelivery (2 + extra)).answered 0x14 .tag []))
      ∧ ∀ e : RequestEntry, (s.afterDelivery (2 + extra)).entry g = e → e.relation ≠ .free →
        ∃ p0 p1 p2 p3 p4 p5 p6 p7 : Byte,
          exec (.queryTag b extra) s
            = .next ((s.afterDelivery (2 + extra)).answered 0x14 .ok [p0, p1, p2, p3, p4, p5, p6, p7])
          ∧ p0.toNat = (match e.relation with | .free => 0 | .pending => 1 | .waiting => 2 | .held => 3 | .ended => 4)
          ∧ p1.toNat = e.lock.val
          ∧ p2.toNat = (if e.mode = .shared then 2 else 0) + (if e.tryOnly then 1 else 0)
          ∧ (p3 ++ p4 : Word16) = e.limit.setWidth 16
          ∧ p5 ++ p6 = e.token
          ∧ (p7.extractLsb' 4 4).toNat
              = (match e.op with
                | none => 0 | some .claim => 1 | some .yield => 2 | some .downgrade => 3 | some .renew => 4)
          ∧ (p7.extractLsb' 0 4).toNat
              = (if e.op = none then 0
                else match e.opStatus with | .queued => 0 | .inFlight => 1 | .doubtful => 2)

/-! ### Commands of the life cycle -/

/-- CONFIGURE: STATE outside IDLE; RANGE for a divisor outside 1 to 64 or a drop threshold outside 2 to 7; else the
three values replace the whole configuration, the interrupt enable being bit 0 of the flags byte (R154, R166). -/
def Obligations.ConfigureReplacesTheConfiguration : Prop :=
  ∀ (divisor threshold flags : Byte) (extra : Nat) (s : State), s.port.phase = .exchange →
    (s.ctrl.state ≠ .idle →
      exec (.configure divisor threshold flags extra) s
        = .next ((s.afterDelivery (4 + extra)).answered 0x02 .state []))
    ∧ (s.ctrl.state = .idle →
        (divisor.toNat = 0 ∨ 64 < divisor.toNat ∨ threshold.toNat < 2 ∨ 7 < threshold.toNat) →
      exec (.configure divisor threshold flags extra) s
        = .next ((s.afterDelivery (4 + extra)).answered 0x02 .range []))
    ∧ (s.ctrl.state = .idle → 1 ≤ divisor.toNat → divisor.toNat ≤ 64 → 2 ≤ threshold.toNat → threshold.toNat ≤ 7 →
      exec (.configure divisor threshold flags extra) s
        = .next (({ s.afterDelivery (4 + extra) with
            ctrl := { s.ctrl with divisor := divisor.toNat, dropThreshold := threshold.toNat,
                                  intEnable := decide (flags.toNat % 2 = 1) } } : State).answered 0x02 .ok []))

/-- START: STATE outside IDLE and STOPPED; STRAPS where N is less than 2 or the own number is N or more; else LISTENING,
unaligned at position 0 and cycle 0 with the window started, no page valid, all counters 0 and JOIN pending. Records,
roster entries, requests, notices and configuration are kept (R153, R155). The quiet count and the receive buffer start
empty (the model's choice, log 11). -/
def Obligations.StartEntersListening : Prop :=
  ∀ (extra : Nat) (s : State), s.port.phase = .exchange →
    (s.ctrl.state ≠ .idle → s.ctrl.state ≠ .stopped →
      exec (.start extra) s = .next ((s.afterDelivery (1 + extra)).answered 0x03 .state []))
    ∧ ((s.ctrl.state = .idle ∨ s.ctrl.state = .stopped) → (s.ctrl.snc.val = 0 ∨ s.ctrl.snc < s.ctrl.sid) →
      exec (.start extra) s = .next ((s.afterDelivery (1 + extra)).answered 0x03 .straps []))
    ∧ ((s.ctrl.state = .idle ∨ s.ctrl.state = .stopped) → s.ctrl.snc.val ≠ 0 → s.ctrl.sid ≤ s.ctrl.snc →
      exec (.start extra) s
        = .next (({ s.afterDelivery (1 + extra) with
            ctrl := { s.ctrl with state := .listening }
            line := ⟨⟨false, [], [], false, false⟩, none, false, 0, 0, 0, 0, false, false, false⟩
            slots := ⟨false, 0, 0, .waiting, 0, some 0⟩
            repl := ⟨0, 0, 0, 0, none, true⟩ } : State).answered 0x03 .ok []))

/-- LEAVE in SYNCING, FOUNDING or ACTIVE sets leave pending and nothing else; in IDLE, STOPPED and HALTED it gives STATE
(R157, R159, R161). -/
def Obligations.LeaveSetsLeavePending : Prop :=
  ∀ (extra : Nat) (s : State), s.port.phase = .exchange →
    (s.ctrl.state.onLine = true →
      exec (.leave extra) s
        = .next (({ s.afterDelivery (1 + extra) with
            ctrl := { s.ctrl with leavePending := true } } : State).answered 0x04 .ok []))
    ∧ ((s.ctrl.state = .idle ∨ s.ctrl.state = .stopped ∨ s.ctrl.state = .halted) →
      exec (.leave extra) s = .next ((s.afterDelivery (1 + extra)).answered 0x04 .state []))

/-- LEAVE in LISTENING enters STOPPED at once (R156). -/
def Obligations.LeaveStopsAListeningStation : Prop :=
  ∀ (extra : Nat) (s : State), s.port.phase = .exchange → s.ctrl.state = .listening →
    ∃ t, exec (.leave extra) s = .next t
      ∧ t.port = ⟨⟨0x04, .ok, []⟩, false, false, .closed, none⟩ ∧ (s.afterDelivery (1 + extra)).StoppedFrom t

/-! ### Commands on request entries -/

/-- ACQUIRE with every check passed: the lowest FREE entry becomes PENDING with the operands, token 0 and a QUEUED
CLAIM, and its tag joins the tail of the queue; the payload is the tag (R112). -/
def Obligations.AcquireMakesTheLowestFreeEntryPending : Prop :=
  ∀ (lock mode : Byte) (limit : Word16) (extra : Nat) (s : State) (l : LockNo) (g : Tag),
    s.port.phase = .exchange → s.receiving = true → s.ctrl.leavePending = false →
    lock.toNat = l.val → limit.toNat ≤ 4095 →
    (∀ v, ((s.afterDelivery (5 + extra)).entry v).live = true → ((s.afterDelivery (5 + extra)).entry v).lock ≠ l) →
    ((s.afterDelivery (5 + extra)).entry g).relation = .free →
    (∀ v < g, ((s.afterDelivery (5 + extra)).entry v).relation ≠ .free) →
    exec (.acquire lock mode limit extra) s
      = .next (({ s.afterDelivery (5 + extra) with
          req.entries := (s.afterDelivery (5 + extra)).req.entries.set g.val
            ⟨.pending, l, if mode.toNat / 2 % 2 = 1 then .shared else .exclusive, decide (mode.toNat % 2 = 1),
              BitVec.ofNat 12 limit.toNat, 0, some .claim, .queued, false⟩ g.isLt
          req.queue := s.req.queue ++ [g] } : State).answered 0x10 .ok [BitVec.ofNat 8 g.val])

/-- ACQUIRE's checks in their order: STATE, RANGE, DUPLICATE, FULL; each changes nothing (R112, R145). -/
def Obligations.AcquireChecksInOrder : Prop :=
  ∀ (lock mode : Byte) (limit : Word16) (extra : Nat) (s d : State), s.port.phase = .exchange →
    s.afterDelivery (5 + extra) = d →
    ((s.receiving = false ∨ s.ctrl.leavePending = true) →
      exec (.acquire lock mode limit extra) s = .next (d.answered 0x10 .state []))
    ∧ (s.receiving = true → s.ctrl.leavePending = false → (64 ≤ lock.toNat ∨ 4096 ≤ limit.toNat) →
      exec (.acquire lock mode limit extra) s = .next (d.answered 0x10 .range []))
    ∧ (s.receiving = true → s.ctrl.leavePending = false → limit.toNat < 4096 →
        (∃ v, (d.entry v).live = true ∧ (d.entry v).lock.val = lock.toNat) →
      exec (.acquire lock mode limit extra) s = .next (d.answered 0x10 .duplicate []))
    ∧ (s.receiving = true → s.ctrl.leavePending = false → lock.toNat < 64 → limit.toNat < 4096 →
        (∀ v, (d.entry v).live = true → (d.entry v).lock.val ≠ lock.toNat) → (∀ v, (d.entry v).relation ≠ .free) →
      exec (.acquire lock mode limit extra) s = .next (d.answered 0x10 .full []))

/-- RELEASE by the op of a live entry: a QUEUED CLAIM is cancelled at once with its END, a QUEUED YIELD stands, a QUEUED
RENEW or DOWNGRADE becomes a YIELD in its queue place, no op queues a YIELD at the tail, and an op IN_FLIGHT or DOUBTFUL
gives BUSY; leave pending gives STATE, a tag of no live entry TAG (R113). That a QUEUED RENEW or DOWNGRADE of a WAITING
entry is turned into a YIELD as that of a HELD one is the model's choice (log 28). -/
def Obligations.ReleaseActsByTheEntrysOp : Prop :=
  ∀ (tag : Byte) (extra : Nat) (s d : State), s.port.phase = .exchange → s.afterDelivery (2 + extra) = d →
    (s.ctrl.leavePending = true → exec (.release tag extra) s = .next (d.answered 0x11 .state []))
    ∧ (s.ctrl.leavePending = false → (∀ g : Tag, g.val = tag.toNat → (d.entry g).live = false) →
      exec (.release tag extra) s = .next (d.answered 0x11 .tag []))
    ∧ ∀ (g : Tag) (e : RequestEntry), g.val = tag.toNat → d.entry g = e → e.live = true → s.ctrl.leavePending = false →
      (e.op = none →
        exec (.release tag extra) s
          = .next (({ d with
              req.entries := d.req.entries.set g.val { e with op := some .yield, opStatus := .queued, doubtMark := false } g.isLt
              req.queue := d.req.queue ++ [g] } : State).answered 0x11 .ok []))
      ∧ (e.op = some .claim → e.opStatus = .queued → ∃ t, exec (.release tag extra) s = .next t
          ∧ t.port = ⟨⟨0x11, .ok, []⟩, false, false, .closed, none⟩
          ∧ t.entry g = { e with relation := .ended, op := none, opStatus := .queued, doubtMark := false }
          ∧ (∀ v, v ≠ g → t.entry v = d.entry v)
          ∧ t.req.queue = d.req.queue.filter (fun v => v ≠ g)
          ∧ (∃ n ∈ t.notices.queue, n.body = .ended g e.lock .cancelled)
          ∧ { t with req := d.req, notices := d.notices, port := d.port } = d
          ∧ t.req.toYield = d.req.toYield)
      ∧ (e.op = some .yield → e.opStatus = .queued →
        exec (.release tag extra) s = .next (d.answered 0x11 .ok []))
      ∧ ((e.op = some .renew ∨ e.op = some .downgrade) → e.opStatus = .queued →
        exec (.release tag extra) s
          = .next (({ d with
              req.entries := d.req.entries.set g.val { e with op := some .yield, opStatus := .queued, doubtMark := false } g.isLt }
              : State).answered 0x11 .ok []))
      ∧ (e.op ≠ none → e.opStatus ≠ .queued → exec (.release tag extra) s = .next (d.answered 0x11 .busy []))

/-- The DOWNGRADE command: a HELD EXCLUSIVE entry with no op gets a QUEUED DOWNGRADE at the tail; its checks in order
give STATE, TAG, STATE and BUSY (R114). -/
def Obligations.DowngradeQueuesItsOp : Prop :=
  ∀ (tag : Byte) (extra : Nat) (s d : State), s.port.phase = .exchange → s.afterDelivery (2 + extra) = d →
    (s.ctrl.leavePending = true → exec (.downgrade tag extra) s = .next (d.answered 0x12 .state []))
    ∧ (s.ctrl.leavePending = false → (∀ g : Tag, g.val = tag.toNat → (d.entry g).live = false) →
      exec (.downgrade tag extra) s = .next (d.answered 0x12 .tag []))
    ∧ ∀ (g : Tag) (e : RequestEntry), g.val = tag.toNat → d.entry g = e → e.live = true → s.ctrl.leavePending = false →
      ((e.relation ≠ .held ∨ e.mode = .shared) → exec (.downgrade tag extra) s = .next (d.answered 0x12 .state []))
      ∧ (e.relation = .held → e.mode = .exclusive → e.op ≠ none →
        exec (.downgrade tag extra) s = .next (d.answered 0x12 .busy []))
      ∧ (e.relation = .held → e.mode = .exclusive → e.op = none →
        exec (.downgrade tag extra) s
          = .next (({ d with
              req.entries :=
                d.req.entries.set g.val { e with op := some .downgrade, opStatus := .queued, doubtMark := false } g.isLt
              req.queue := d.req.queue ++ [g] } : State).answered 0x12 .ok []))

/-- The RENEW command: a HELD entry with no op gets a QUEUED RENEW at the tail; a QUEUED RENEW makes it OK with no
change; its checks in order give STATE, TAG, STATE and BUSY (R115). -/
def Obligations.RenewQueuesItsOp : Prop :=
  ∀ (tag : Byte) (extra : Nat) (s d : State), s.port.phase = .exchange → s.afterDelivery (2 + extra) = d →
    (s.ctrl.leavePending = true → exec (.renew tag extra) s = .next (d.answered 0x13 .state []))
    ∧ (s.ctrl.leavePending = false → (∀ g : Tag, g.val = tag.toNat → (d.entry g).live = false) →
      exec (.renew tag extra) s = .next (d.answered 0x13 .tag []))
    ∧ ∀ (g : Tag) (e : RequestEntry), g.val = tag.toNat → d.entry g = e → e.live = true → s.ctrl.leavePending = false →
      (e.relation ≠ .held → exec (.renew tag extra) s = .next (d.answered 0x13 .state []))
      ∧ (e.relation = .held → e.op = some .renew → e.opStatus = .queued →
        exec (.renew tag extra) s = .next (d.answered 0x13 .ok []))
      ∧ (e.relation = .held → e.op ≠ none → (e.op ≠ some .renew ∨ e.opStatus ≠ .queued) →
        exec (.renew tag extra) s = .next (d.answered 0x13 .busy []))
      ∧ (e.relation = .held → e.op = none →
        exec (.renew tag extra) s
          = .next (({ d with
              req.entries :=
                d.req.entries.set g.val { e with op := some .renew, opStatus := .queued, doubtMark := false } g.isLt
              req.queue := d.req.queue ++ [g] } : State).answered 0x13 .ok []))

/-! ### Cells and transmissions -/

/-- CELL_START: with the receiver off nothing changes. Otherwise it comes after the time since the event before it, in
which the samples of the own cells are taken as they are with no event (R59). The cell begins a reception or goes on
with the one in progress: up to 1076 bytes its bit, 0 for a dominant value sample, joins the bits received, and past
them the reception is over-long (R40); a recessive phase-1 sample, a dominant phase-3 sample, or, after the first cell,
a start outside 0.9 to 1.1 bit times marks it faulty (R39), and so does a cell fault that the own transmission in
progress has read back (R59, log 10). The slot of an aligned station is a frame slot (R43), the window of a LISTENING
one restarts (R51). The time since the latest cell start begins anew (R39), the time for which the line stays dominant
from this one is kept for the quiet and for the samples of the own cells (R44, R59), and the cell counts as read back in
an own transmission (R100). The bit of a faulty cell is the model's choice (log 19), and so is the cell at which over-
long begins (log 18). -/
def Obligations.CellStartTakesTheCell : Prop :=
  ∀ (after : Nat) (phase1 value phase3 : Bool) (dominant : Nat) (s : State),
    (s.receiving = false → exec (.cellStart after phase1 value phase3 dominant) s = .next s)
    ∧ (s.receiving = true → 1 ≤ s.ctrl.divisor → s.line.rx.cells.length < 8 →
        ∀ (w : State) (old : Reception), s.elapse after = w →
        old = (if s.line.rx.inProgress then w.line.rx else ⟨false, [], [], false, false⟩) →
        ∃ t, exec (.cellStart after phase1 value phase3 dominant) s = .next t
          ∧ t.line.rx.inProgress = true
          ∧ (old.bytes.length < 1076 →
              t.line.rx.receivedBits = old.receivedBits ++ [!value] ∧ t.line.rx.cells.length < 8
              ∧ t.line.rx.overLong = old.overLong)
          ∧ (1076 ≤ old.bytes.length →
              t.line.rx.bytes = old.bytes ∧ t.line.rx.cells = old.cells ∧ t.line.rx.overLong = true)
          ∧ t.line.rx.fault
              = (old.fault || !phase1 || phase3 || (w.line.sending && w.line.ownFault)
                || (s.line.rx.inProgress
                  && decide (10 * (s.line.sinceCell + after) < 9 * (12 * s.ctrl.divisor)
                      ∨ 11 * (12 * s.ctrl.divisor) < 10 * (s.line.sinceCell + after))))
          ∧ (s.slots.aligned = true →
              t.slots.phase = .inFrame ∧ t.slots.timer = 0 ∧ (s.slots.window = none → t.slots.window = none))
          ∧ (s.slots.aligned = false →
              t.slots.window = some 0 ∧ t.slots.phase = s.slots.phase ∧ t.slots.timer = s.slots.timer)
          ∧ t.line.sinceCell = 0 ∧ t.line.dominant = dominant ∧ t.line.heard = true
          ∧ { t with
              line.rx := w.line.rx, line.sinceCell := w.line.sinceCell, line.dominant := w.line.dominant
              line.heard := w.line.heard, slots.phase := w.slots.phase, slots.timer := w.slots.timer
              slots.window := w.slots.window } = w)

/-- LISTENING_WINDOW_EXPIRY: a LISTENING station whose window has reached (N + 2 + own number) x W bit times begins a
FOUND frame with cycle number 0, no operation, no page and digest 0 at once, and stays LISTENING (R51, R58, R100). Where
the window is short of that length, as after a cell start that came together with the expiry and was taken first, it
does not expire (R51). In any other state nothing changes (log 2); that the window runs again from 0 at once is the
model's reading (log 25). -/
def Obligations.WindowExpiryBeginsAFoundFrame : Prop :=
  ∀ (s : State) (length : Nat), length = (s.ctrl.snc.val + 1 + 2 + s.ctrl.sid.val) * 12 * (12 * s.ctrl.divisor) →
    (∀ k, s.ctrl.state = .listening → s.slots.window = some k → length ≤ k → s.line.sending = false →
      exec .listeningWindowExpiry s
        = .next { s with
            slots.window := some 0
            line.own := some ⟨⟨s.ctrl.sid, s.ctrl.snc, .found, 0, 0, [], none⟩, [], true⟩
            line.sending := true, line.shift := 0, line.shiftClocks := 0, line.heard := false
            line.ownFault := false, line.mismatch := false })
    ∧ (∀ k, s.slots.window = some k → k < length → exec .listeningWindowExpiry s = .next s)
    ∧ ((s.ctrl.state ≠ .listening ∨ s.slots.window = none ∨ s.line.sending = true) →
      exec .listeningWindowExpiry s = .next s)

/-- TRANSMIT_GAP_EXPIRY begins the own frame that waits at an aligned station, whatever the line carries (R41, R45).
TRANSMISSION_END releases the line, and the shift position returns to 0 (R41); at a LISTENING station the own frame is
done, and the window runs on where a cell start was read back (R51) and starts again from 0 where none was (R100). Where
nothing waits or nothing is sent, nothing changes (log 2); that the slot timer then stands at G at least is the model's
(log 3). -/
def Obligations.OwnTransmissionBeginsAndEnds : Prop :=
  ∀ s : State,
    (∀ f tags, s.slots.aligned = true → s.line.own = some ⟨f, tags, false⟩ →
      exec .transmitGapExpiry s
        = .next { s with
            line.own := some ⟨f, tags, true⟩
            line.sending := true, line.shift := 0, line.shiftClocks := 0, line.heard := false
            line.ownFault := false, line.mismatch := false
            slots.timer := if s.slots.phase = .waiting then max s.slots.timer (48 * s.ctrl.divisor) else s.slots.timer })
    ∧ ((s.slots.aligned = false ∨ ∀ f tags, s.line.own ≠ some ⟨f, tags, false⟩) →
      exec .transmitGapExpiry s = .next s)
    ∧ (s.line.sending = true → s.ctrl.state ≠ .listening →
      exec .transmissionEnd s
        = .next { s with line.sending := false, line.shift := 0, line.shiftClocks := 0 })
    ∧ (s.line.sending = true → s.ctrl.state = .listening → s.line.heard = true →
      exec .transmissionEnd s
        = .next { s with
            line.own := none, line.sending := false, line.shift := 0, line.shiftClocks := 0
            line.ownFault := false, line.mismatch := false })
    ∧ (s.line.sending = true → s.ctrl.state = .listening → s.line.heard = false →
      exec .transmissionEnd s
        = .next { s with
            line.own := none, line.sending := false, line.shift := 0, line.shiftClocks := 0
            line.ownFault := false, line.mismatch := false, slots.window := some 0 })
    ∧ (s.line.sending = false → exec .transmissionEnd s = .next s)

/-- READBACK_MISMATCH hands the mismatch that an own value sample has found to the Frame Checker. At an aligned station
it halts the station with DUPLICATE_ID, in the middle of the slot (R60, R160). Where no own 1 has read back dominant
(R59), or the station is not aligned, nothing changes (log 2). -/
def Obligations.ReadbackMismatchHalts : Prop :=
  ∀ s : State,
    (s.slots.aligned = true → s.line.mismatch = true →
      ∃ t, exec .readbackMismatch s = .next t ∧ s.HaltedFrom t FaultSet.duplicateId)
    ∧ ((s.slots.aligned = false ∨ s.line.mismatch = false) → exec .readbackMismatch s = .next s)

/-- ARBITRATION_LOSS hands the mismatch in a cold-start FOUND frame to the Frame Checker. The station does not drive and
its frame is done; it stays LISTENING and goes on receiving, no fault is raised (R61), and its window runs on (R51).
Where no own 1 has read back dominant (R59), or the station is not LISTENING, nothing changes (log 2). -/
def Obligations.ArbitrationLossStopsDriving : Prop :=
  ∀ s : State,
    (s.ctrl.state = .listening → s.line.mismatch = true →
      exec .arbitrationLoss s
        = .next { s with
            line.own := none, line.sending := false, line.shift := 0, line.shiftClocks := 0
            line.ownFault := false, line.mismatch := false })
    ∧ ((s.ctrl.state ≠ .listening ∨ s.line.mismatch = false) → exec .arbitrationLoss s = .next s)

/-- LISTENING_RECEPTION_END, which always completes. A garbled reception ends and changes nothing else; a frame with
another slot count halts the station with SLOT_COUNT_MISMATCH; a frame with the own slot count aligns it in the frame's
slot and cycle, whose end is now (R50, R52, R67). A frame that is no FOUND takes it into SYNCING with nothing applied
(R88). A FOUND frame has the founding effects: every record empty, the founder alone ACTIVE in the roster, all pages
valid, counters 0, JOIN pending cleared, the page cursor at own number mod 9, the station ACTIVE, the to-yield set empty
(R101, R102). WAITING and HELD requests end LOST. PENDING ones keep relation, lock, mode, try and limit; a DOUBTFUL
CLAIM is QUEUED at the head of the queue, those with the mark set ahead of those with it clear, each in frame order, and
a QUEUED one stays in its place (R122; the list that keeps the frame order is the model's, log 13). The notices are
raised in the order of R103: TABLE_LOST where a request is live and only there, the END notices in ascending tag order,
and last SYNC ACTIVE. With no reception in progress nothing changes (log 2). -/
def Obligations.ListeningStationTakesAReception : Prop :=
  ∀ s : State, s.ctrl.state = .listening →
    (s.line.rx.inProgress = false → exec .listeningReceptionEnd s = .next s)
    ∧ (s.line.rx.inProgress = true → s.line.rx.frame = none →
        exec .listeningReceptionEnd s = .next { s with line.rx.inProgress := false })
    ∧ ∀ f, s.line.rx.inProgress = true → s.line.rx.frame = some f →
      (f.slotCount ≠ s.ctrl.snc →
        ∃ t, exec .listeningReceptionEnd s = .next t ∧ s.HaltedFrom t FaultSet.slotCountMismatch)
      ∧ (f.slotCount = s.ctrl.snc →
        ∃ u : State, exec .listeningReceptionEnd s = .next u.nextSlot
          ∧ u.slots.aligned = true ∧ u.slots.position = f.sender ∧ u.slots.cycle = f.cycle ∧ u.slots.window = none
          ∧ u.line.own = none ∧ u.line.sending = false ∧ u.line.rx.inProgress = false ∧ u.port = s.port
          ∧ (f.status ≠ .found →
              u.ctrl = { s.ctrl with state := .syncing } ∧ u.repl = { s.repl with orphan := 0 } ∧ u.req = s.req
              ∧ u.notices = s.notices ∧ u.roster = s.roster ∧ u.pageCursor = s.pageCursor
              ∧ (s.repl.installed = 0 → u.locks = s.locks))
          ∧ (f.status = .found →
              u.ctrl = { s.ctrl with state := .active } ∧ (∀ l, u.lock l = ⟨0, [], []⟩)
              ∧ (∀ k, u.rosterEntry k = if k = f.sender then ⟨.active, 0⟩ else ⟨.absent, 0⟩)
              ∧ u.repl = { s.repl with agree := 0, disagree := 0, orphan := 0, installed := allPages, joinPending := false }
              ∧ u.pageCursor.val = s.ctrl.sid.val % 9
              ∧ u.req.toYield = []
              ∧ u.notices = ((s.foundingNotices f.sender).foldl State.raise s).notices
              ∧ (∃ n ∈ u.notices.queue, n.body = .sync .active)
              ∧ ((∀ g, (s.entry g).live = false) → ∀ n ∈ u.notices.queue, n.body = .tableLost → n ∈ s.notices.queue)
              ∧ (s.NoticesDistinct → s.RequestLaw →
                ((∃ g, (s.entry g).live = true) → ∃ n ∈ u.notices.queue, n.body = .tableLost)
                ∧ s.FoundingHandled u f.sender)))

/-! ### Slot starts -/

/-- The start of a slot that is not the own one: position and cycle number go on, phase waiting, timer 0, no own frame,
nothing sent; an ACTIVE station computes its digest from the 16 state codes and the 64 records, any other holds none;
nothing else changes (R43, R46, R89). -/
def Obligations.SlotStartOfAnothersSlot : Prop :=
  ∀ s : State, (if s.slots.position = s.ctrl.snc then 0 else s.slots.position + 1) ≠ s.ctrl.sid →
    s.nextSlot
      = { s with
          slots.position := if s.slots.position = s.ctrl.snc then 0 else s.slots.position + 1
          slots.cycle := if s.slots.position = s.ctrl.snc then s.slots.cycle + 1 else s.slots.cycle
          slots.phase := .waiting, slots.timer := 0
          line.own := none, line.sending := false, line.shift := 0, line.shiftClocks := 0
          line.ownFault := false, line.mismatch := false
          repl.digest :=
            if s.ctrl.state = .active then
              some (crc16
                (((List.finRange 16).map fun k =>
                    match (s.rosterEntry k).state with | .absent => 0x00 | .syncing => 0x40 | .active => 0x80)
                  ++ (List.finRange 64).flatMap fun l => (s.lock l).toBytes))
            else none }

/-- The own slot start: position and cycle number go on, phase waiting, timer 0, nothing sent (R43, R46), an ACTIVE
station computes its digest from the 16 state codes and the 64 records and any other holds none (R89), and the own frame
is built and waits for G: LEAVE with leave pending, JOIN or SYNCING in SYNCING by the JOIN-pending flag, FOUND in
FOUNDING, ACTIVE in ACTIVE; header as R58 says; only an ACTIVE frame carries the digest, the drawn operations and, where
another station is SYNCING, the page under the cursor, which then advances from 8 to 0 (R45, R54 to R58). -/
def Obligations.OwnSlotStartBuildsTheFrame : Prop :=
  ∀ (s t : State) (c : CycleNo), (if s.slots.position = s.ctrl.snc then 0 else s.slots.position + 1) = s.ctrl.sid →
    c = (if s.slots.position = s.ctrl.snc then s.slots.cycle + 1 else s.slots.cycle) → s.nextSlot = t →
    (s.ctrl.state.onLine = false → t.line.own = none)
    ∧ (s.ctrl.state.onLine = true → (s.ctrl.leavePending = true ∨ s.ctrl.state ≠ .active) →
        t.line.own = some ⟨⟨s.ctrl.sid, s.ctrl.snc,
          if s.ctrl.leavePending then .leave
          else if s.ctrl.state = .founding then .found
          else if s.repl.joinPending then .join else .syncing, c, 0, [], none⟩, [], false⟩
        ∧ t.req = s.req ∧ t.pageCursor = s.pageCursor)
    ∧ (s.ctrl.state = .active → s.ctrl.leavePending = false →
        ∃ digest page, t.line.own = some ⟨⟨s.ctrl.sid, s.ctrl.snc, .active, c, digest, s.draw.1, page⟩, s.draw.2.1, false⟩
          ∧ t.repl.digest = some digest
          ∧ t.req = s.draw.2.2.req
          ∧ ((∀ k, k ≠ s.ctrl.sid → (s.rosterEntry k).state ≠ .syncing) → page = none ∧ t.pageCursor = s.pageCursor)
          ∧ ∀ k, k ≠ s.ctrl.sid → (s.rosterEntry k).state = .syncing →
              t.pageCursor.val = (s.pageCursor.val + 1) % 9
              ∧ (s.pageCursor.val = 0 → page = some (.roster s.roster.toList))
              ∧ ∀ p : Fin 8, s.pageCursor.val = p.val + 1 →
                  page = some (.locks p ((List.finRange 8).map fun j => s.lock ⟨8 * p.val + j.val, by omega⟩)))
    ∧ t.slots = { s.slots with position := s.ctrl.sid, cycle := c, phase := .waiting, timer := 0 }
    ∧ t.line = { s.line with
        own := t.line.own, sending := false, shift := 0, shiftClocks := 0, ownFault := false, mismatch := false }
    ∧ t.repl = { s.repl with
        digest :=
          if s.ctrl.state = .active then
            some (crc16
              (((List.finRange 16).map fun k =>
                  match (s.rosterEntry k).state with | .absent => 0x00 | .syncing => 0x40 | .active => 0x80)
                ++ (List.finRange 64).flatMap fun l => (s.lock l).toBytes))
          else none }
    ∧ (t.notices = s.notices ∧ t.roster = s.roster ∧ t.locks = s.locks ∧ t.ctrl = s.ctrl ∧ t.port = s.port)

/-- The draw: the first four tags of the queue whose op is no CLAIM on a lock of the to-yield set, in queue order, then
a YIELD for each of the first locks of that set in the places left; the drawn ops are IN_FLIGHT, the others stay in
their places (R56, R116). -/
def Obligations.DrawTakesTheQueueInOrder : Prop :=
  ∀ s : State, s.RequestLaw →
    s.draw.2.1
      = (s.req.queue.filter fun g =>
          ¬ ((s.entry g).op = some .claim ∧ (s.entry g).lock ∈ s.req.toYield)).take 4
    ∧ s.draw.2.2.req.queue = s.req.queue.filter (fun g => g ∉ s.draw.2.1)
    ∧ (∃ first : List Operation, s.draw.1
          = first ++ (s.req.toYield.take (4 - s.draw.2.1.length)).map
              (fun l => ⟨.yield, BitVec.ofNat 8 l.val, .exclusive, false, 0⟩)
        ∧ first.length = s.draw.2.1.length
        ∧ ∀ (i : Nat) (o : Operation) (g : Tag), first[i]? = some o → s.draw.2.1[i]? = some g →
            (s.entry g).op = some o.kind ∧ o.lock.toNat = (s.entry g).lock.val
            ∧ (o.kind = .claim → o.mode = (s.entry g).mode ∧ o.tryOnly = (s.entry g).tryOnly ∧ o.limit = (s.entry g).limit)
            ∧ (o.kind ≠ .claim → o.mode = .exclusive ∧ o.tryOnly = false ∧ o.limit = 0))
    ∧ (∀ g, s.draw.2.2.entry g
        = if g ∈ s.draw.2.1 then { s.entry g with opStatus := .inFlight, doubtMark := false } else s.entry g)
    ∧ { s.draw.2.2 with req := s.req } = s
    ∧ s.draw.2.2.req.toYield = s.req.toYield

/-! ### Slot ends -/

/-- SILENT_SLOT_END of another station's slot. At an ACTIVE station: an ABSENT owner is left; a count below D is one up,
7 staying 7; at D the owner is dropped and purged in every record, with a ROSTER notice; then the expiries where it is
slot N-1, and the next slot starts. Without drop and cycle end nothing else changes (R31, R43, R80, R85). At a SYNCING
or FOUNDING station that lacks a page the same is done to a valid roster and to the records of installed pages, with no
notice and no report, and a SYNCING one counts an orphaned slot (R13, R16, R97, R98). -/
def Obligations.SilentSlotCountsAMiss : Prop :=
  ∀ (s : State) (k : StationNo) (e : RosterEntry), s.slots.aligned = true →
    s.slots.phase = .waiting → s.line.own = none → s.slots.position = k → k ≠ s.ctrl.sid → s.rosterEntry k = e →
    (s.ctrl.state = .active → s.repl.installed = allPages →
    ∃ u : State, exec .silentSlotEnd s = .next u.nextSlot
      ∧ u.ctrl = s.ctrl ∧ u.line = s.line ∧ u.slots = s.slots ∧ u.repl = s.repl ∧ u.pageCursor = s.pageCursor
      ∧ u.port = s.port
      ∧ (∀ j, j ≠ k → u.rosterEntry j = s.rosterEntry j)
      ∧ (e.state = .absent → u.rosterEntry k = e ∧ ∀ l, u.lock l = s.endingCycle (s.lock l))
      ∧ (e.state ≠ .absent → min 7 (e.misses.toNat + 1) < s.ctrl.dropThreshold →
          (u.rosterEntry k).state = e.state ∧ (u.rosterEntry k).misses.toNat = min 7 (e.misses.toNat + 1)
          ∧ ∀ l, u.lock l = s.endingCycle (s.lock l))
      ∧ (e.state ≠ .absent → s.ctrl.dropThreshold ≤ min 7 (e.misses.toNat + 1) →
          u.rosterEntry k = ⟨.absent, 0⟩ ∧ (∃ n ∈ u.notices.queue, n.body = .roster)
          ∧ ∀ l, u.lock l = s.endingCycle ((s.lock l).purged k s.slots.cycle))
      ∧ ((e.state = .absent ∨ min 7 (e.misses.toNat + 1) < s.ctrl.dropThreshold) → k ≠ s.ctrl.snc →
          u.req = s.req ∧ u.notices = s.notices))
    ∧ ((s.ctrl.state = .syncing ∨ s.ctrl.state = .founding) → s.repl.installed ≠ allPages →
    ∃ u : State, exec .silentSlotEnd s = .next u.nextSlot ∧ s.OrphanedSlot u ∧ u.line = s.line ∧ u.notices = s.notices
      ∧ (∀ j, j ≠ k → u.rosterEntry j = s.rosterEntry j)
      ∧ ∀ missed dropped : Bool, (missed = true ↔ s.pageInstalled 0 = true ∧ e.state ≠ .absent) →
          (dropped = true ↔ missed = true ∧ s.ctrl.dropThreshold ≤ min 7 (e.misses.toNat + 1)) →
          (missed = false → u.rosterEntry k = e)
          ∧ (missed = true → dropped = false →
              (u.rosterEntry k).state = e.state ∧ (u.rosterEntry k).misses.toNat = min 7 (e.misses.toNat + 1))
          ∧ (dropped = true → u.rosterEntry k = ⟨.absent, 0⟩)
          ∧ ∀ l, u.lock l = if s.lockValid l then
              s.endingCycle (if dropped then (s.lock l).purged k s.slots.cycle else s.lock l) else s.lock l)

/-- FRAME_SLOT_END of another station's slot with a garbled reception: the owner's miss count becomes 0; at an ACTIVE
station nothing else but the expiries of a cycle end; at a SYNCING or FOUNDING one every page is uninstalled, and a
SYNCING one counts an orphaned slot and is FOUNDING at N (R68, R79, R95, R97, R98). -/
def Obligations.GarbledSlotUninstallsPages : Prop :=
  ∀ (s : State) (k : StationNo), s.ctrl.state.onLine = true → s.slots.aligned = true → s.slots.phase = .inFrame →
    s.line.own = none → s.line.rx.frame = none → s.slots.position = k → k ≠ s.ctrl.sid →
    ∃ u : State, exec .frameSlotEnd s = .next u.nextSlot
      ∧ u.line = { s.line with rx := { s.line.rx with inProgress := false } } ∧ u.slots = s.slots
      ∧ u.pageCursor = s.pageCursor ∧ u.port = s.port ∧ u.ctrl.leavePending = s.ctrl.leavePending
      ∧ (∀ j, j ≠ k → u.rosterEntry j = s.rosterEntry j)
      ∧ u.rosterEntry k = (if s.pageInstalled 0 then { s.rosterEntry k with misses := 0 } else s.rosterEntry k)
      ∧ (s.ctrl.state = .active → s.repl.installed = allPages →
          u.ctrl = s.ctrl ∧ u.repl = s.repl ∧ (∀ l, u.lock l = s.endingCycle (s.lock l))
          ∧ (k ≠ s.ctrl.snc → u.req = s.req ∧ u.notices = s.notices))
      ∧ (s.ctrl.state = .syncing →
          u.repl = { s.repl with installed := 0, orphan := s.repl.orphan + 1 }
          ∧ u.ctrl.state = (if s.ctrl.snc.val + 1 ≤ s.repl.orphan + 1 then .founding else .syncing)
          ∧ u.locks = s.locks ∧ u.req = s.req ∧ u.notices = s.notices)
      ∧ (s.ctrl.state = .founding →
          u.repl = { s.repl with installed := 0 } ∧ u.ctrl = s.ctrl ∧ u.locks = s.locks ∧ u.req = s.req
          ∧ u.notices = s.notices)

/-- FRAME_SLOT_END of another station's slot with an alien frame: a FAULT notice with ALIEN_TRAFFIC, the owner's miss
count 0 where the roster is valid, and but for the expiries of a cycle end nothing of the frame is applied (R66, R79).
At a SYNCING or FOUNDING station that lacks a page no page is uninstalled (R95), the expiries reach the installed pages
alone (R13), and a SYNCING one counts an orphaned slot (R97, R98). -/
def Obligations.AlienFrameRaisesTheFaultAlone : Prop :=
  ∀ (s : State) (f : Frame) (k : StationNo), s.slots.aligned = true →
    s.slots.phase = .inFrame → s.line.own = none → s.line.rx.frame = some f →
    s.slots.position = k → k ≠ s.ctrl.sid →
    (f.sender ≠ k ∨ f.slotCount ≠ s.ctrl.snc ∨ (f.status ≠ .found ∧ f.cycle ≠ s.slots.cycle)) →
    (s.ctrl.state = .active → s.repl.installed = allPages →
    ∃ u : State, exec .frameSlotEnd s = .next u.nextSlot
      ∧ u.ctrl = s.ctrl ∧ u.slots = s.slots ∧ u.repl = s.repl ∧ u.pageCursor = s.pageCursor ∧ u.port = s.port
      ∧ (∃ n ∈ u.notices.queue, ∃ x, n.body = .fault x ∧ x.alienTraffic = true)
      ∧ (∀ j, u.rosterEntry j = if j = k then { s.rosterEntry k with misses := 0 } else s.rosterEntry j)
      ∧ (∀ l, u.lock l = s.endingCycle (s.lock l))
      ∧ (k ≠ s.ctrl.snc → u.req = s.req))
    ∧ ((s.ctrl.state = .syncing ∨ s.ctrl.state = .founding) → s.repl.installed ≠ allPages →
    ∃ u : State, exec .frameSlotEnd s = .next u.nextSlot ∧ s.OrphanedSlot u
      ∧ (∃ n ∈ u.notices.queue, ∃ x, n.body = .fault x ∧ x.alienTraffic = true)
      ∧ (∀ j, u.rosterEntry j
          = if s.pageInstalled 0 ∧ j = k then { s.rosterEntry k with misses := 0 } else s.rosterEntry j)
      ∧ ∀ l, u.lock l = if s.lockValid l then s.endingCycle (s.lock l) else s.lock l)

/-- FRAME_SLOT_END with another station's valid ACTIVE frame at an ACTIVE station: the sender is ACTIVE with miss count
0; the operations are applied to each record in frame order, then the expiries of a cycle end; the frame's digest is
counted against the own one, up to 15; its page is not taken (R21, R31, R74, R90, R93). -/
def Obligations.ActiveFrameIsAppliedAndCounted : Prop :=
  ∀ (s : State) (f : Frame) (d : Word16), s.ctrl.state = .active → s.slots.aligned = true →
    s.slots.phase = .inFrame → s.repl.installed = allPages → s.repl.digest = some d → s.line.own = none →
    s.line.rx.frame = some f → f.status = .active → f.sender = s.slots.position → f.slotCount = s.ctrl.snc →
    f.cycle = s.slots.cycle → f.sender ≠ s.ctrl.sid →
    ∃ u : State, exec .frameSlotEnd s = .next u.nextSlot
      ∧ u.ctrl = s.ctrl ∧ u.slots = s.slots ∧ u.pageCursor = s.pageCursor ∧ u.port = s.port
      ∧ (∀ j, u.rosterEntry j = if j = f.sender then ⟨.active, 0⟩ else s.rosterEntry j)
      ∧ (∀ l, u.lock l = s.endingCycle ((s.lock l).appliedAll s.slots.cycle f.sender l f.ops))
      ∧ u.repl = { s.repl with
          agree := if f.digest = d then min 15 (s.repl.agree + 1) else s.repl.agree
          disagree := if f.digest = d then s.repl.disagree else min 15 (s.repl.disagree + 1) }

/-- FRAME_SLOT_END with another station's valid SYNCING, JOIN or LEAVE frame. At an ACTIVE station: the sender's entry
as R75 to R77 say, its purge after a JOIN where the entry was not ABSENT and after every LEAVE, then the expiries of a
cycle end; no vote is counted (R31, R75, R76, R77, R90). At a SYNCING or FOUNDING station that lacks a page the same is
done to a valid roster and to the records of installed pages, with no notice and no report, and a SYNCING one counts an
orphaned slot (R13, R16, R97, R98). -/
def Obligations.JoinAndLeaveFramesPurge : Prop :=
  ∀ (s : State) (f : Frame), s.slots.aligned = true → s.slots.phase = .inFrame →
    s.line.own = none → s.line.rx.frame = some f →
    (f.status = .syncing ∨ f.status = .join ∨ f.status = .leave) → f.sender = s.slots.position →
    f.slotCount = s.ctrl.snc → f.cycle = s.slots.cycle → f.sender ≠ s.ctrl.sid →
    ∀ record : LockRecord → LockRecord,
      (∀ r, record r = s.endingCycle
        (if f.status = .leave ∨ (f.status = .join ∧ (s.rosterEntry f.sender).state ≠ .absent) then
          r.purged f.sender s.slots.cycle else r)) →
    (s.ctrl.state = .active → s.repl.installed = allPages →
    ∃ u : State, exec .frameSlotEnd s = .next u.nextSlot
      ∧ u.ctrl = s.ctrl ∧ u.slots = s.slots ∧ u.repl = s.repl ∧ u.pageCursor = s.pageCursor ∧ u.port = s.port
      ∧ (∀ j, j ≠ f.sender → u.rosterEntry j = s.rosterEntry j)
      ∧ u.rosterEntry f.sender = (if f.status = .leave then ⟨.absent, 0⟩ else ⟨.syncing, 0⟩)
      ∧ ((u.rosterEntry f.sender).state ≠ (s.rosterEntry f.sender).state → ∃ n ∈ u.notices.queue, n.body = .roster)
      ∧ ∀ l, u.lock l = record (s.lock l))
    ∧ ((s.ctrl.state = .syncing ∨ s.ctrl.state = .founding) → s.repl.installed ≠ allPages →
        (s.pageInstalled 0 = false → s.repl.installed = 0) →
    ∃ u : State, exec .frameSlotEnd s = .next u.nextSlot ∧ s.OrphanedSlot u ∧ u.notices = s.notices
      ∧ (∀ j, u.rosterEntry j
          = if s.pageInstalled 0 ∧ j = f.sender then (if f.status = .leave then ⟨.absent, 0⟩ else ⟨.syncing, 0⟩)
            else s.rosterEntry j)
      ∧ ∀ l, u.lock l = if s.lockValid l then record (s.lock l) else s.lock l)

/-- FRAME_SLOT_END with a valid FOUND frame at a SYNCING, FOUNDING or ACTIVE station, the founder's own readback
included: every record empty, the founder alone ACTIVE in the roster, all pages valid, the frame's cycle number taken,
counters 0, the station ACTIVE with leave pending kept (R10, R57, R78, R101, R102, R104). WAITING and HELD requests end
LOST. PENDING ones keep relation, lock, mode, try and limit; a DOUBTFUL CLAIM is QUEUED at the head of the queue, those
with the mark set ahead of those with it clear, each in frame order, and a QUEUED one stays in its place (R122; the list
that keeps the frame order is the model's, log 13). The to-yield set is emptied. The notices are raised in the order of
R103: ROSTER where the station was ACTIVE and a roster state changes, TABLE_LOST where it was ACTIVE or had a live
request, the END notices in ascending tag order, and last SYNC ACTIVE where it was not ACTIVE. -/
def Obligations.FoundFrameFoundsTheTable : Prop :=
  ∀ (s : State) (f : Frame), s.ctrl.state.onLine = true → s.slots.aligned = true → s.slots.phase = .inFrame →
    (s.line.own = none ∨ ∃ g, s.line.own = some ⟨g, [], true⟩ ∧ g.status = .found) → s.line.rx.frame = some f →
    f.status = .found → f.sender = s.slots.position → f.slotCount = s.ctrl.snc →
    s.NoticesDistinct → s.RequestLaw →
    ∃ u : State, exec .frameSlotEnd s = .next u.nextSlot
      ∧ u.ctrl = { s.ctrl with state := .active }
      ∧ u.slots = { s.slots with cycle := f.cycle }
      ∧ (∀ l, u.lock l = ⟨0, [], []⟩)
      ∧ (∀ k, u.rosterEntry k = if k = f.sender then ⟨.active, 0⟩ else ⟨.absent, 0⟩)
      ∧ (u.repl.agree = 0 ∧ u.repl.disagree = 0 ∧ u.repl.orphan = 0 ∧ u.repl.installed = allPages
          ∧ u.repl.joinPending = false)
      ∧ u.pageCursor.val = s.ctrl.sid.val % 9
      ∧ u.port = s.port
      ∧ s.FoundingHandled u f.sender
      ∧ ((s.ctrl.state = .active ∨ ∃ g, (s.entry g).live = true) → ∃ n ∈ u.notices.queue, n.body = .tableLost)
      ∧ (s.ctrl.state ≠ .active → ∃ n ∈ u.notices.queue, n.body = .sync .active)

/-- The end of the own slot that carries the LEAVE frame enters STOPPED, silent or not, whatever the readback, and does
nothing else (R123, R158). That the cycle number stays in slot N-1 too is the model's reading (log 12). -/
def Obligations.LeaveSlotEndStops : Prop :=
  ∀ (s : State) (o : OwnFrame), s.slots.aligned = true → s.line.own = some o → o.frame.status = .leave →
    (s.slots.phase = .waiting → ∃ t, exec .silentSlotEnd s = .next t ∧ s.StoppedFrom t ∧ t.port = s.port)
    ∧ (s.slots.phase = .inFrame → ∃ t, exec .frameSlotEnd s = .next t ∧ s.StoppedFrom t ∧ t.port = s.port)

/-- What becomes of the own frame at its slot end: not sent, or a silent slot, returns its ops in flight to the head of
the queue in frame order; a sent frame read back valid leaves them to their results; a sent frame garbled or alien makes
them DOUBTFUL with the mark clear, after those already DOUBTFUL. A JOIN frame that was sent clears JOIN pending (R55,
R62, R63, R110, R117, R120). That a valid readback of other content counts as garbled is the model's reading (log 8),
and so is the list that keeps the frame order of the DOUBTFUL ops (log 13). The end of the own slot at an ACTIVE station
whose ACTIVE frame reads back valid: the own entry is ACTIVE with miss count 0, the own operations are applied as any
frame's, their results reach the entries, the expiries of a cycle end follow, the own digest is not counted, and the
vote is evaluated last (R63, R70, R74, R90, R91, R118). The end of the own slot at a SYNCING or FOUNDING station, LEAVE
apart, after that fate: a silent slot counts a miss on a valid own entry, and at D it is ABSENT and purged (R80, R82); a
garbled readback empties the installed-page set (R79, R95, R99); an alien reception raises its FAULT and, like a garbled
one, sets the own miss count to 0 in a valid roster (R79); an own JOIN or SYNCING frame read back valid makes a valid
own entry SYNCING with miss count 0, a JOIN purging it where it was not ABSENT (R75, R82, R94). Each is a slot end
without an ACTIVE frame: a SYNCING station counts it and is FOUNDING at N, a FOUNDING one stays so (R97, R98, R99); no
vote is evaluated and nothing is reported (R16, R91). -/
def Obligations.OwnFrameFateFollowsTheReadback : Prop :=
  ∀ (s : State) (o : OwnFrame), s.line.own = some o →
    (∀ c : SlotContent,
      ((o.sent = false ∨ c = .silent) →
        (s.settleOwnFrame c).req.queue = o.tags.filter s.inFlight ++ s.req.queue
        ∧ (∀ g, (s.settleOwnFrame c).entry g
            = if g ∈ o.tags ∧ s.inFlight g = true then { s.entry g with opStatus := .queued, doubtMark := false }
              else s.entry g)
        ∧ { s.settleOwnFrame c with req := s.req } = s)
      ∧ (o.sent = true → ∀ f, c = .valid f → f.status = o.frame.status → f.ops = o.frame.ops →
          s.settleOwnFrame c
            = { s with repl.joinPending := if o.frame.status = .join then false else s.repl.joinPending })
      ∧ (o.sent = true →
          (c = .garbled ∨ c = .alien ∨ ∃ f, c = .valid f ∧ (f.status ≠ o.frame.status ∨ f.ops ≠ o.frame.ops)) →
          (s.settleOwnFrame c).req.queue = s.req.queue
          ∧ (s.settleOwnFrame c).req.doubtOrder = s.req.doubtOrder ++ o.tags.filter s.inFlight
          ∧ (∀ g, (s.settleOwnFrame c).entry g
              = if g ∈ o.tags ∧ s.inFlight g = true then { s.entry g with opStatus := .doubtful, doubtMark := false }
                else s.entry g)
          ∧ { s.settleOwnFrame c with req := s.req }
              = { s with repl.joinPending := if o.frame.status = .join then false else s.repl.joinPending }))
    ∧ (s.ctrl.state = .active → s.slots.aligned = true → s.slots.phase = .inFrame → s.repl.installed = allPages →
        s.slots.position = s.ctrl.sid → o.sent = true → o.frame.status = .active → s.line.rx.frame = some o.frame →
        o.frame.sender = s.ctrl.sid → o.frame.slotCount = s.ctrl.snc → o.frame.cycle = s.slots.cycle →
        ∃ u : State, exec .frameSlotEnd s = .next u.evaluateVote.nextSlot
          ∧ u.ctrl = s.ctrl ∧ u.slots = s.slots ∧ u.repl = s.repl ∧ u.pageCursor = s.pageCursor ∧ u.port = s.port
          ∧ (∀ j, u.rosterEntry j = if j = s.ctrl.sid then ⟨.active, 0⟩ else s.rosterEntry j)
          ∧ (∀ l, u.lock l = s.endingCycle ((s.lock l).appliedAll s.slots.cycle s.ctrl.sid l o.frame.ops))
          ∧ u.req = ((s.applyOperations s.ctrl.sid o.frame.ops).cycleEndWork).req
          ∧ ((s.rosterEntry s.ctrl.sid).state = .active →
              u.notices = ((s.applyOperations s.ctrl.sid o.frame.ops).cycleEndWork).notices))
    ∧ ((s.ctrl.state = .syncing ∨ s.ctrl.state = .founding) → s.slots.aligned = true → o.frame.status ≠ .leave →
        ∀ (k : StationNo) (e : RosterEntry), s.slots.position = k → k = s.ctrl.sid → s.rosterEntry k = e →
        (s.slots.phase = .waiting → s.repl.installed ≠ allPages →
          ∃ u : State, exec .silentSlotEnd s = .next u.nextSlot ∧ (s.settleOwnFrame .silent).OrphanedSlot u
            ∧ u.notices = s.notices ∧ (∀ j, j ≠ k → u.rosterEntry j = s.rosterEntry j)
            ∧ ∀ missed dropped : Bool, (missed = true ↔ s.pageInstalled 0 = true ∧ e.state ≠ .absent) →
                (dropped = true ↔ missed = true ∧ s.ctrl.dropThreshold ≤ min 7 (e.misses.toNat + 1)) →
                (missed = false → u.rosterEntry k = e)
                ∧ (missed = true → dropped = false →
                    (u.rosterEntry k).state = e.state ∧ (u.rosterEntry k).misses.toNat = min 7 (e.misses.toNat + 1))
                ∧ (dropped = true → u.rosterEntry k = ⟨.absent, 0⟩)
                ∧ ∀ l, u.lock l = if s.lockValid l then
                    s.endingCycle (if dropped then (s.lock l).purged k s.slots.cycle else s.lock l) else s.lock l)
        ∧ (s.slots.phase = .inFrame → (o.sent = false ∨ s.line.rx.frame = none) →
          ∃ u : State, exec .frameSlotEnd s = .next u.nextSlot
            ∧ ({ s.settleOwnFrame .garbled with repl.installed := 0 } : State).OrphanedSlot u
            ∧ u.notices = s.notices ∧ u.locks = s.locks
            ∧ ∀ j, u.rosterEntry j = if s.pageInstalled 0 ∧ j = k then { e with misses := 0 } else s.rosterEntry j)
        ∧ (∀ f, s.slots.phase = .inFrame → o.sent = true → s.line.rx.frame = some f → s.repl.installed ≠ allPages →
          (f.sender ≠ k ∨ f.slotCount ≠ s.ctrl.snc ∨ (f.status ≠ .found ∧ f.cycle ≠ s.slots.cycle)) →
          ∃ u : State, exec .frameSlotEnd s = .next u.nextSlot ∧ (s.settleOwnFrame .alien).OrphanedSlot u
            ∧ (∃ n ∈ u.notices.queue, ∃ x, n.body = .fault x ∧ x.alienTraffic = true)
            ∧ (∀ j, u.rosterEntry j = if s.pageInstalled 0 ∧ j = k then { e with misses := 0 } else s.rosterEntry j)
            ∧ ∀ l, u.lock l = if s.lockValid l then s.endingCycle (s.lock l) else s.lock l)
        ∧ (s.slots.phase = .inFrame → o.sent = true → s.line.rx.frame = some o.frame →
          (o.frame.status = .syncing ∨ o.frame.status = .join) → o.frame.sender = k → o.frame.slotCount = s.ctrl.snc →
          o.frame.cycle = s.slots.cycle → s.repl.installed ≠ allPages → (s.pageInstalled 0 = false → s.repl.installed = 0) →
          ∃ u : State, exec .frameSlotEnd s = .next u.nextSlot ∧ (s.settleOwnFrame (.valid o.frame)).OrphanedSlot u
            ∧ u.notices = s.notices
            ∧ (∀ j, u.rosterEntry j = if s.pageInstalled 0 ∧ j = k then ⟨.syncing, 0⟩ else s.rosterEntry j)
            ∧ ∀ l, u.lock l = if s.lockValid l then
                s.endingCycle (if o.frame.status = .join ∧ e.state ≠ .absent then (s.lock l).purged k s.slots.cycle
                  else s.lock l) else s.lock l))

/-- The vote evaluation. Lost, where disagree is greater than 0 and at least agree: SYNCING with no page, no digest,
orphan counter 0 and an empty to-yield set, a SYNC notice, and every request with its op and mark as it was. Kept: the
station stays, the DOUBTFUL ops whose mark is set return to the head of the queue in frame order, and those whose mark
is clear get it set. Both counters become 0 (R91, R92, R106, R111, R120). The list that keeps the frame order is the
model's own (log 13). It is made last at the end of every own slot of an ACTIVE station, LEAVE and FOUND frames apart:
after a silent slot, whose miss the own entry counts as any owner's (R82), and after a frame slot, valid, garbled or
alien (R91). -/
def Obligations.VoteEvaluationSettlesTheDoubtful : Prop :=
  ∀ s : State,
    (s.RequestLaw → s.evaluateVote.repl.agree = 0 ∧ s.evaluateVote.repl.disagree = 0
    ∧ (0 < s.repl.disagree → s.repl.agree ≤ s.repl.disagree →
        s.evaluateVote.ctrl = { s.ctrl with state := .syncing }
        ∧ s.evaluateVote.repl
            = { s.repl with agree := 0, disagree := 0, installed := 0, orphan := 0, digest := none }
        ∧ s.evaluateVote.req = { s.req with toYield := [] }
        ∧ (∃ n ∈ s.evaluateVote.notices.queue, n.body = .sync .syncing)
        ∧ { s.evaluateVote with ctrl := s.ctrl, repl := s.repl, req := s.req, notices := s.notices } = s)
    ∧ ((s.repl.disagree = 0 ∨ s.repl.disagree < s.repl.agree) →
        (∀ g, s.evaluateVote.entry g
            = if s.doubtful g then
                (if (s.entry g).doubtMark then { s.entry g with opStatus := .queued, doubtMark := false }
                else { s.entry g with doubtMark := true })
              else s.entry g)
        ∧ s.evaluateVote.req.queue
            = (s.req.doubtOrder.filter fun g => (s.entry g).doubtMark) ++ s.req.queue
        ∧ s.evaluateVote.req.toYield = s.req.toYield
        ∧ { s.evaluateVote with repl := s.repl, req := s.req } = s))
    ∧ (s.ctrl.state = .active → s.slots.aligned = true → s.slots.position = s.ctrl.sid → s.leavingSlot = false →
        (s.slots.phase = .waiting → s.repl.installed = allPages → ∀ e, s.rosterEntry s.ctrl.sid = e →
          ∃ u : State, exec .silentSlotEnd s = .next u.evaluateVote.nextSlot
            ∧ u.ctrl = s.ctrl ∧ u.slots = s.slots ∧ u.repl = s.repl ∧ u.pageCursor = s.pageCursor ∧ u.port = s.port
            ∧ (∀ j, j ≠ s.ctrl.sid → u.rosterEntry j = s.rosterEntry j)
            ∧ (e.state = .absent → u.rosterEntry s.ctrl.sid = e)
            ∧ (e.state ≠ .absent → min 7 (e.misses.toNat + 1) < s.ctrl.dropThreshold →
                (u.rosterEntry s.ctrl.sid).state = e.state
                ∧ (u.rosterEntry s.ctrl.sid).misses.toNat = min 7 (e.misses.toNat + 1)
                ∧ (∀ l, u.lock l = s.endingCycle (s.lock l))
                ∧ u.req = (s.settleOwnFrame .silent).cycleEndWork.req)
            ∧ (e.state ≠ .absent → s.ctrl.dropThreshold ≤ min 7 (e.misses.toNat + 1) →
                u.rosterEntry s.ctrl.sid = ⟨.absent, 0⟩
                ∧ (∀ l, u.lock l = s.endingCycle ((s.lock l).purged s.ctrl.sid s.slots.cycle))
                ∧ u.req = ((s.settleOwnFrame .silent).purge s.ctrl.sid .drop).cycleEndWork.req))
        ∧ (s.slots.phase = .inFrame → s.classify.heardFound = false →
          ∃ u : State, exec .frameSlotEnd s = .next u.evaluateVote.nextSlot
            ∧ u = ((s.endReception.settleOwnFrame s.classify).slotWork s.classify).cycleEndWork
            ∧ ((s.classify = .garbled ∨ s.classify = .alien) → s.repl.installed = allPages →
                u.rosterEntry s.ctrl.sid = { s.rosterEntry s.ctrl.sid with misses := 0 }
                ∧ u.req = (s.settleOwnFrame s.classify).cycleEndWork.req)))

/-- LEASE_EXPIRY, DROP and ENTER_FOUNDING as rows of their own run the work that a slot end holds, where the state calls
for it (the model's choice, log 7): the expiries in slot N-1 of an aligned station, the drop of an owner whose count has
reached D, FOUNDING at a SYNCING station whose orphan counter has reached N (R31, R80, R98). In the own slot that
carries a LEAVE frame, slot N-1 or another, none of them is run (R35, R158). -/
def Obligations.SlotEndWorksAsRows : Prop :=
  ∀ s : State,
    (s.leavingSlot = true ↔ ∃ o, s.line.own = some o ∧ o.frame.status = .leave)
    ∧ (s.leavingSlot = true →
        exec .leaseExpiry s = .next s ∧ exec .drop s = .next s ∧ exec .enterFounding s = .next s)
    ∧ (s.slots.aligned = true → s.leavingSlot = false → s.slots.position = s.ctrl.snc → ∃ t, exec .leaseExpiry s = .next t
      ∧ (∀ l, t.lock l = if s.lockValid l then (s.lock l).expiredAt s.slots.cycle else s.lock l)
      ∧ { t with locks := s.locks, req := s.req, notices := s.notices } = s
      ∧ (s.ctrl.state ≠ .active → t.req = s.req ∧ t.notices = s.notices))
    ∧ ((s.slots.aligned = false ∨ s.slots.position ≠ s.ctrl.snc) → exec .leaseExpiry s = .next s)
    ∧ (∀ k, s.slots.aligned = true → s.leavingSlot = false → s.slots.position = k → s.pageInstalled 0 = true →
        (s.rosterEntry k).state ≠ .absent → s.ctrl.dropThreshold ≤ (s.rosterEntry k).misses.toNat →
        ∃ t, exec .drop s = .next t
          ∧ (∀ j, t.rosterEntry j = if j = k then ⟨.absent, 0⟩ else s.rosterEntry j)
          ∧ (∀ l, t.lock l = if s.lockValid l then (s.lock l).purged k s.slots.cycle else s.lock l)
          ∧ { t with roster := s.roster, locks := s.locks, req := s.req, notices := s.notices } = s)
    ∧ ((s.slots.aligned = false ∨ s.pageInstalled 0 = false ∨ (s.rosterEntry s.slots.position).state = .absent
          ∨ (s.rosterEntry s.slots.position).misses.toNat < s.ctrl.dropThreshold) → exec .drop s = .next s)
    ∧ (s.ctrl.state = .syncing → s.leavingSlot = false → s.ctrl.snc.val + 1 ≤ s.repl.orphan →
        exec .enterFounding s = .next { s with ctrl.state := .founding })
    ∧ ((s.ctrl.state ≠ .syncing ∨ s.repl.orphan < s.ctrl.snc.val + 1) → exec .enterFounding s = .next s)

/-! ### Recovery -/

/-- The page of a frame at a station that is SYNCING when it takes the page, as a FOUNDING one is that the same frame
has returned to SYNCING (R98): page 0 replaces the 16 entries, those past N-1 ABSENT, and joins the set; a lock page
replaces its 8 records and joins the set once page 0 is in it, and is ignored before; in any other state no page is
taken (R14, R83, R93). FRAME_SLOT_END with another station's valid ACTIVE frame at a SYNCING or FOUNDING station: the
station is SYNCING with orphan counter 0, the page is taken, the sender is ACTIVE in a valid roster, the operations and
the expiries of a cycle end are applied to the records of the installed pages, with no notice and no report, and
recovery is completed where all 9 pages are then installed (R13, R16, R96, R97). -/
def Obligations.PagesAreInstalledAfterPageZero : Prop :=
  ∀ s : State,
    (∀ es, s.ctrl.state = .syncing →
      (∀ k, (s.takePage (some (.roster es))).rosterEntry k
          = if k ≤ s.ctrl.snc then es.getD k.val ⟨.absent, 0⟩ else ⟨.absent, 0⟩)
      ∧ (∀ p < 9, (s.takePage (some (.roster es))).pageInstalled p = (decide (p = 0) || s.pageInstalled p))
      ∧ { s.takePage (some (.roster es)) with roster := s.roster, repl.installed := s.repl.installed } = s)
    ∧ (∀ p rs, s.ctrl.state = .syncing → s.pageInstalled 0 = true →
      (∀ l : LockNo, (s.takePage (some (.locks p rs))).lock l
          = if l.val / 8 = p.val then rs.getD (l.val % 8) ⟨0, [], []⟩ else s.lock l)
      ∧ (∀ q < 9, (s.takePage (some (.locks p rs))).pageInstalled q = (decide (q = p.val + 1) || s.pageInstalled q))
      ∧ { s.takePage (some (.locks p rs)) with locks := s.locks, repl.installed := s.repl.installed } = s)
    ∧ (∀ p rs, s.pageInstalled 0 = false → s.takePage (some (.locks p rs)) = s)
    ∧ (∀ page, s.ctrl.state ≠ .syncing → s.takePage page = s)
    ∧ s.takePage none = s
    ∧ ∀ (f : Frame) (v : State), (s.ctrl.state = .syncing ∨ s.ctrl.state = .founding) → s.slots.aligned = true →
        s.slots.phase = .inFrame → s.repl.digest = none → s.line.own = none → s.line.rx.frame = some f →
        f.status = .active → f.sender = s.slots.position → f.slotCount = s.ctrl.snc → f.cycle = s.slots.cycle →
        f.sender ≠ s.ctrl.sid → v = ({ s with ctrl.state := .syncing } : State).takePage f.page →
        ∃ u : State, exec .frameSlotEnd s = .next u.completeRecovery.nextSlot
          ∧ u.ctrl = { s.ctrl with state := .syncing } ∧ u.repl = { v.repl with orphan := 0 } ∧ u.req = s.req
          ∧ u.notices = s.notices ∧ u.slots = s.slots ∧ u.pageCursor = s.pageCursor ∧ u.port = s.port
          ∧ (∀ j, u.rosterEntry j = if v.pageInstalled 0 ∧ j = f.sender then ⟨.active, 0⟩ else v.rosterEntry j)
          ∧ ∀ l, u.lock l = if v.lockValid l then s.endingCycle ((v.lock l).appliedAll s.slots.cycle f.sender l f.ops)
              else v.lock l

/-- Reconciliation of one live entry with the own participation in its lock's record (Table 7-6): a holder makes it HELD
with the table's mode and token, a waiter makes it WAITING, a PENDING entry with no participation keeps its CLAIM, and
any other entry with none ends, RELEASED or CANCELLED where its op was YIELD, LOST where not; the op goes where the
table shows it done. No other entry changes. Reconciliation as a whole does this to every live entry, returns the
DOUBTFUL ops that are left to the head of the queue, those with the mark set ahead and each mark's in frame order (log
13), and takes the locks in whose record the own station takes part and which no live entry names into the to-yield set
(R111, R121). It runs where a SYNCING station holds all 9 pages: the station is ACTIVE with counters 0, JOIN pending
cleared and its page cursor at own number mod 9, and the last notice raised is SYNC ACTIVE; elsewhere recovery changes
nothing (R55, R57, R96). -/
def Obligations.ReconciliationFollowsTheTable : Prop :=
  (∀ (s : State) (g : Tag) (e : RequestEntry) (r : LockRecord), s.entry g = e → s.lock e.lock = r →
    (e.live = false → s.reconcileEntry g = s)
    ∧ (∀ v, v ≠ g → (s.reconcileEntry g).entry v = s.entry v)
    ∧ { s.reconcileEntry g with req := s.req, notices := s.notices } = s
    ∧ (e.live = true → ∀ h, r.holderOf s.ctrl.sid = some h →
        (s.reconcileEntry g).entry g
          = (if e.relation = .pending ∨ (e.op = some .downgrade ∧ h.mode = .shared) then
              { e with relation := .held, mode := h.mode, token := h.token, op := none, opStatus := .queued,
                       doubtMark := false }
            else { e with relation := .held, mode := h.mode, token := h.token })
        ∧ (¬ (e.relation = .held ∧ e.mode = h.mode ∧ e.token = h.token) →
            ∃ n ∈ (s.reconcileEntry g).notices.queue, n.body = .update g e.lock h.mode (.held h.token)))
    ∧ (e.live = true → r.holderOf s.ctrl.sid = none → ∀ w, r.waiterOf s.ctrl.sid = some w →
        (s.reconcileEntry g).entry g
          = (if e.relation = .pending then
              { e with relation := .waiting, mode := w.mode, token := 0, op := none, opStatus := .queued,
                       doubtMark := false }
            else { e with relation := .waiting, mode := w.mode, token := 0 })
        ∧ (¬ (e.relation = .waiting ∧ e.mode = w.mode ∧ e.token = 0) →
            ∃ n ∈ (s.reconcileEntry g).notices.queue, ∃ i, r.waiters[i]? = some w
              ∧ n.body = .update g e.lock w.mode (.waiting (i + 1))))
    ∧ (e.live = true → r.holderOf s.ctrl.sid = none → r.waiterOf s.ctrl.sid = none →
        (e.relation = .pending → s.reconcileEntry g = s)
        ∧ (e.relation ≠ .pending →
            (s.reconcileEntry g).entry g = { e with relation := .ended, op := none, opStatus := .queued, doubtMark := false }
            ∧ ∃ n ∈ (s.reconcileEntry g).notices.queue, n.body = .ended g e.lock
                (if e.op ≠ some .yield then .lost else if e.relation = .held then .released else .cancelled))))
  ∧ (∀ s : State, s.RequestLaw →
      (∀ g, s.reconcile.entry g
          = if (s.reconcileEntry g).doubtful g then
              { (s.reconcileEntry g).entry g with opStatus := .queued, doubtMark := false }
            else (s.reconcileEntry g).entry g)
      ∧ s.reconcile.req.queue
          = (s.req.doubtOrder.filter fun g => (s.reconcileEntry g).doubtful g && (s.entry g).doubtMark)
            ++ (s.req.doubtOrder.filter fun g => (s.reconcileEntry g).doubtful g && !(s.entry g).doubtMark)
            ++ s.req.queue.filter fun g => ((s.reconcileEntry g).entry g).op.isSome
      ∧ s.reconcile.req.doubtOrder = []
      ∧ (∀ l, l ∈ s.reconcile.req.toYield ↔ l ∈ s.req.toYield
          ∨ (((s.lock l).holderOf s.ctrl.sid ≠ none ∨ (s.lock l).waiterOf s.ctrl.sid ≠ none)
            ∧ ∀ g, (s.entry g).live = true → (s.entry g).lock ≠ l))
      ∧ { s.reconcile with req := s.req, notices := s.notices } = s)
  ∧ ∀ s : State,
      (s.ctrl.state = .syncing → s.repl.installed = allPages →
        s.completeRecovery.ctrl = { s.ctrl with state := .active }
        ∧ s.completeRecovery.repl = { s.repl with agree := 0, disagree := 0, orphan := 0, joinPending := false }
        ∧ s.completeRecovery.pageCursor.val = s.ctrl.sid.val % 9
        ∧ s.completeRecovery.req = s.reconcile.req
        ∧ s.completeRecovery.notices = (s.reconcile.raise (.sync .active)).notices
        ∧ s.completeRecovery.roster = s.roster ∧ s.completeRecovery.locks = s.locks ∧ s.completeRecovery.slots = s.slots)
      ∧ ((s.ctrl.state ≠ .syncing ∨ s.repl.installed ≠ allPages) → s.completeRecovery = s)

/-! ### The Lock Table -/

/-- The grant pass grants waiters from the head while each fits the holders before it, and stops at the first that does
not: k grants raise the generation by k, hand the tokens generation + 1 to generation + k in grant order, and make
holders with the current cycle as lease start; the other holders and waiters stay (R4, R5, R6). -/
def Obligations.GrantPassServesFromTheHead : Prop :=
  ∀ (r : LockRecord) (c : CycleNo), ∃ granted left, r.waiters = granted ++ left
    ∧ (r.grantPass c).waiters = left
    ∧ (r.grantPass c).generation = r.generation + BitVec.ofNat 16 granted.length
    ∧ (∃ new, (r.grantPass c).holders = r.holders ++ new ∧ new.length = granted.length
        ∧ ∀ i (h : Holder) (w : Waiter), new[i]? = some h → granted[i]? = some w →
            h = ⟨w.station, w.mode, c, w.limit, r.generation + BitVec.ofNat 16 (i + 1)⟩
            ∧ (w.mode = .exclusive → r.holders ++ new.take i = [])
            ∧ (w.mode = .shared → ∀ x ∈ r.holders ++ new.take i, x.mode = .shared))
    ∧ (∀ w ∈ left.head?, (w.mode = .exclusive → (r.grantPass c).holders ≠ [])
        ∧ (w.mode = .shared → ∃ h ∈ (r.grantPass c).holders, h.mode = .exclusive))

/-- CLAIM on a lawful record: REFUSED and unchanged where the sender takes part; else GRANTED with generation + 1 where
the queue is empty and the mode fits the holders; else, the holders, the waiters and the generation staying, QUEUED at
the tail with the queue's length, or DENIED and unchanged for a try-claim (R23, R24, R25). -/
def Obligations.ClaimGrantsQueuesDeniesOrRefuses : Prop :=
  ∀ (r : LockRecord) (c : CycleNo) (k : StationNo) (o : Operation), r.Lawful →
    (k ∈ r.stations → (r.claim c k o).record = r ∧ (r.claim c k o).result = .refused)
    ∧ (k ∉ r.stations → r.waiters = [] →
        ((o.mode = .exclusive ∧ r.holders = []) ∨ (o.mode = .shared ∧ ∀ h ∈ r.holders, h.mode = .shared)) →
        (r.claim c k o).record
          = ⟨r.generation + 1, r.holders ++ [⟨k, o.mode, c, o.limit, r.generation + 1⟩], []⟩
        ∧ (r.claim c k o).result = .granted (r.generation + 1) o.mode)
    ∧ (k ∉ r.stations →
        (r.waiters ≠ [] ∨ (o.mode = .exclusive ∧ r.holders ≠ [])
          ∨ (o.mode = .shared ∧ ∃ h ∈ r.holders, h.mode = .exclusive)) →
        (o.tryOnly = false →
          (r.claim c k o).record = { r with waiters := r.waiters ++ [⟨k, o.mode, o.limit⟩] }
          ∧ (r.claim c k o).result = .queued (r.waiters.length + 1))
        ∧ (o.tryOnly = true → (r.claim c k o).record = r ∧ (r.claim c k o).result = .denied))

/-- YIELD takes the sender out, as holder or waiter, and runs the grant pass; DOWNGRADE turns the sender's EXCLUSIVE
hold SHARED in its place and runs it; RENEW sets the sender's lease start and runs none; each does nothing for a sender
it does not apply to, with result NO_EFFECT (R26 to R30). -/
def Obligations.YieldDowngradeAndRenewActOnTheSender : Prop :=
  ∀ (r : LockRecord) (c : CycleNo) (k : StationNo) (before after : List Holder) (h : Holder) (front back : List Waiter)
    (w : Waiter), r.Lawful →
    (r.holders = before ++ h :: after → h.station = k →
      (r.yield c k).record = LockRecord.grantPass { r with holders := before ++ after } c
      ∧ (r.yield c k).result = .released
      ∧ (r.renew c k).record = { r with holders := before ++ { h with leaseStart := c } :: after }
      ∧ (r.renew c k).result = .renewed
      ∧ (h.mode = .exclusive →
          (r.downgrade c k).record
            = LockRecord.grantPass { r with holders := before ++ { h with mode := .shared } :: after } c
          ∧ (r.downgrade c k).result = .downgraded)
      ∧ (h.mode = .shared → (r.downgrade c k).record = r ∧ (r.downgrade c k).result = .noEffect))
    ∧ (r.waiters = front ++ w :: back → w.station = k →
      (r.yield c k).record = LockRecord.grantPass { r with waiters := front ++ back } c
      ∧ (r.yield c k).result = .withdrawn
      ∧ (r.downgrade c k).record = r ∧ (r.downgrade c k).result = .noEffect
      ∧ (r.renew c k).record = r ∧ (r.renew c k).result = .noEffect)
    ∧ (k ∉ r.stations →
      (r.downgrade c k).record = r ∧ (r.downgrade c k).result = .noEffect
      ∧ (r.renew c k).record = r ∧ (r.renew c k).result = .noEffect)

/-- A YIELD whose sender does not appear in the record changes nothing: no grant pass runs, and the result is NO_EFFECT
(R28). -/
def Obligations.YieldOfAStrangerChangesNothing : Prop :=
  ∀ (r : LockRecord) (c : CycleNo) (k : StationNo) (o : Operation), o.kind = .yield → k ∉ r.stations →
    (r.apply c k o).record = r ∧ (r.apply c k o).result = .noEffect

/-- The reports of the Lock Table at the Request Engine of an ACTIVE station. The grant of the own waiter makes the
WAITING entry HELD with its mode and token and raises its UPDATE, and does nothing for a HELD entry with the same token
or for a lock to yield. A removal ends a HELD entry, or by a purge a WAITING one, and a lock to yield leaves its set
with no notice (R118, R119, Table 7-4). Where Table 7-4 has no row the entry stays as it is, by the model's choice (log
30): a grant that meets a PENDING entry or another token, a removal that meets a PENDING one, an expiry that meets a
WAITING one. The result of an op in flight acts as Table 7-3 says; any result of an orphan YIELD takes its lock out of
the to-yield set with no notice, and a result that belongs to nothing is ignored. Who hands what: an operation of the
own station its result and another station's operation none (R22), a purge or an expiry of the own station a removal,
DROP with EVICTED, JOIN and LEAVE with LOST, an expiry with EXPIRED (R9, R34); a grant pass the grant of the own waiter
(R7); a station that is not ACTIVE nothing (R16). -/
def Obligations.ReportsActOnTheLiveEntry : Prop :=
  (∀ (s : State) (l : LockNo) (g : Tag) (e : RequestEntry), s.RequestLaw → s.entry g = e → e.live = true → e.lock = l →
    (l ∉ s.req.toYield →
        (∀ m token, e.relation ≠ .waiting → s.grantReport l m token = s)
        ∧ (∀ m token, e.relation = .waiting →
            (s.grantReport l m token).entry g = { e with relation := .held, mode := m, token := token }
            ∧ (∃ n ∈ (s.grantReport l m token).notices.queue, n.body = .update g l m (.held token))
            ∧ (s.grantReport l m token).req.queue = s.req.queue)
        ∧ (∀ o, (e.relation = .pending ∨ (e.relation = .waiting ∧ o = .expired)) → s.removalReport l o = s)
        ∧ ∀ o, (e.relation = .held ∨ (e.relation = .waiting ∧ o ≠ .expired)) →
            (s.removalReport l o).entry g
              = { e with relation := .ended, op := none, opStatus := .queued, doubtMark := false }
            ∧ (∃ n ∈ (s.removalReport l o).notices.queue, n.body = .ended g l o)
            ∧ (s.removalReport l o).req.queue = s.req.queue.filter (fun x => x ≠ g))
    ∧ (∀ (k : OpKind) (res : OpResult) (after : RequestEntry) (notice : Option NoticeBody),
        s.inFlight g = true → e.op = some k →
        (k, res, after, notice) ∈
          [(.claim, res, { e with relation := .ended }, some (.ended g l (if res = .denied then .denied else .refused))),
           (.yield, res, { e with relation := .ended },
             some (.ended g l (if res = .withdrawn then .cancelled else .released))),
           (.downgrade, .downgraded, { e with mode := .shared }, some (.update g l .shared (.held e.token))),
           (.downgrade, .noEffect, e, none),
           (.renew, .renewed, e, some (.update g l e.mode (.held e.token))),
           (.renew, .noEffect, e, none)] →
        (k = .claim → res = .denied ∨ res = .refused) →
        (k = .yield → res = .released ∨ res = .withdrawn ∨ res = .noEffect) →
        (s.resultReport k l res).entry g = { after with op := none, opStatus := .queued, doubtMark := false }
        ∧ (∀ b ∈ notice, ∃ n ∈ (s.resultReport k l res).notices.queue, n.body = b)
        ∧ (notice = none → (s.resultReport k l res).notices = s.notices))
    ∧ (s.inFlight g = true → e.op = some .claim →
        (∀ token m, (s.resultReport .claim l (.granted token m)).entry g
            = { e with relation := .held, mode := m, token := token, op := none, opStatus := .queued, doubtMark := false }
          ∧ ∃ n ∈ (s.resultReport .claim l (.granted token m)).notices.queue, n.body = .update g l m (.held token))
        ∧ ∀ p, (s.resultReport .claim l (.queued p)).entry g
            = { e with relation := .waiting, op := none, opStatus := .queued, doubtMark := false }
          ∧ ∃ n ∈ (s.resultReport .claim l (.queued p)).notices.queue, n.body = .update g l e.mode (.waiting p)))
  ∧ (∀ (s : State) (l : LockNo),
      (l ∈ s.req.toYield → (∀ m token, s.grantReport l m token = s)
        ∧ ∀ o, s.removalReport l o = { s with req.toYield := s.req.toYield.filter (fun x => x ≠ l) })
      ∧ (l ∉ s.req.toYield → (∀ g, (s.entry g).live = true → (s.entry g).lock ≠ l) →
          (∀ m token, s.grantReport l m token = s) ∧ ∀ o, s.removalReport l o = s)
      ∧ ∀ k, (∀ g, s.inFlight g = true → (s.entry g).op = some k → (s.entry g).lock ≠ l) → ∀ res,
          s.resultReport k l res
            = if k = .yield then { s with req.toYield := s.req.toYield.filter (fun x => x ≠ l) } else s)
  ∧ ∀ (s : State) (l : LockNo) (r : LockRecord), s.lock l = r → s.lockValid l = true →
      (∀ (k : StationNo) (o : Operation), o.lock.toNat = l.val →
        (s.ctrl.state ≠ .active → (s.applyOperation k o).req = s.req ∧ (s.applyOperation k o).notices = s.notices)
        ∧ (s.ctrl.state = .active → r.Lawful → s.RequestLaw → k ≠ s.ctrl.sid →
            s.GrantHandedOn (s.applyOperation k o) l (r.apply s.slots.cycle k o).record)
        ∧ (s.ctrl.state = .active → r.Lawful → s.RequestLaw → k = s.ctrl.sid →
            (o.kind = .yield ∨ ∃ g, s.inFlight g = true ∧ (s.entry g).op = some o.kind ∧ (s.entry g).lock = l) →
            (s.applyOperation k o).req = (s.resultReport o.kind l (r.apply s.slots.cycle k o).result).req
            ∧ (s.applyOperation k o).notices = (s.resultReport o.kind l (r.apply s.slots.cycle k o).result).notices))
      ∧ (∀ (k : StationNo) (cause : PurgeCause) (outcome : EndOutcome),
        (cause, outcome) ∈ [(PurgeCause.drop, EndOutcome.evicted), (.join, .lost), (.leave, .lost)] →
        (s.ctrl.state ≠ .active → (s.purgeLock k cause l).req = s.req ∧ (s.purgeLock k cause l).notices = s.notices)
        ∧ (s.ctrl.state = .active → r.Lawful → s.RequestLaw → k ≠ s.ctrl.sid →
            s.GrantHandedOn (s.purgeLock k cause l) l (r.purged k s.slots.cycle))
        ∧ (s.ctrl.state = .active → k = s.ctrl.sid → k ∈ r.stations →
            (s.purgeLock k cause l).req = (s.removalReport l outcome).req
            ∧ (s.purgeLock k cause l).notices = (s.removalReport l outcome).notices))
      ∧ (s.ctrl.state ≠ .active → (s.expireLock l).req = s.req ∧ (s.expireLock l).notices = s.notices)
      ∧ (s.ctrl.state = .active → r.Lawful → s.RequestLaw →
          ((∀ h ∈ r.holders, h.station = s.ctrl.sid → h.expired s.slots.cycle = false) →
            s.GrantHandedOn (s.expireLock l) l (r.expiredAt s.slots.cycle))
          ∧ (∀ h ∈ r.holders, h.station = s.ctrl.sid → h.expired s.slots.cycle = true →
              (s.expireLock l).req = (s.removalReport l .expired).req
              ∧ (s.expireLock l).notices = (s.removalReport l .expired).notices))

/-! ### Layouts -/

/-- A frame whose sender is a slot of its line, with at most 4 operations, operations and page in an ACTIVE frame alone,
a page of 16 entries or of 8 records of at most 16 participants: its bytes pass every check of R64 and R65 and read back
as the same frame. The bytes are those of Tables 11-1 and 11-2, a page body the 16 roster bytes of Table 11-4 or the 8
records, and the two of the CRC, preset to ones and fed most significant bit first with x^16 + x^12 + x^5 + 1 (R59,
R164, R165). And nothing else is read: bytes that read as a frame have at least 12 bytes, the CRC of those before the
last two in the last two, a status of Table 11-1, a sender that is a slot, at most 4 operations, operations or a page
with ACTIVE alone, a page index of at most 8, index and body length 0 without a page, the length that the header
implies, and a body that matches its index; a reception with a fault, over-long, or with bits past its last byte reads
as none (R64, R65). -/
def Obligations.FrameReadsBack : Prop :=
  (∀ f : Frame, f.sender ≤ f.slotCount → f.ops.length ≤ 4 →
    (f.status ≠ .active → f.ops = [] ∧ f.page = none) →
    (∀ es, f.page = some (.roster es) → es.length = 16) →
    (∀ p rs, f.page = some (.locks p rs) →
      rs.length = 8 ∧ ∀ r ∈ rs, r.holders.length + r.waiters.length ≤ 16) →
    readFrame f.toBytes = some f)
  ∧ (∀ (f : Frame) (byte : Nat → Byte) (body content : List Byte), byte = BitVec.ofNat 8 →
      (∀ es, f.page = some (.roster es) → body = es.map fun e => byte
        (64 * (match e.state with | .absent => 0 | .syncing => 1 | .active => 2) + 8 * e.misses.toNat)) →
      (∀ p rs, f.page = some (.locks p rs) → body = rs.flatMap LockRecord.toBytes) →
      (f.page = none → body = []) →
      content
        = [byte (16 * f.sender.val + f.slotCount.val),
            byte (32 * (match f.status with | .active => 0 | .syncing => 1 | .join => 2 | .found => 3 | .leave => 4)
              + 4 * f.ops.length + if f.page.isSome then 2 else 0),
            byte (f.cycle.toNat / 65536), byte (f.cycle.toNat / 256), byte f.cycle.toNat,
            byte (f.digest.toNat / 256), byte f.digest.toNat,
            byte (match f.page with | some (.locks p _) => p.val + 1 | _ => 0),
            byte (body.length / 256), byte body.length]
          ++ (f.ops.flatMap fun o =>
            [byte (64 * (match o.kind with | .claim => 0 | .yield => 1 | .downgrade => 2 | .renew => 3)
                + (if o.mode = .shared then 32 else 0) + if o.tryOnly then 16 else 0),
              o.lock, byte (o.limit.toNat / 256), byte o.limit.toNat])
          ++ body →
      f.toBytes = content ++ [byte ((crc16 content).toNat / 256), byte (crc16 content).toNat])
  ∧ (crc16 [] = 0xFFFF ∧ ∀ (bs : List Byte) (b : Byte), crc16 (bs ++ [b])
      = (List.range 8).foldl (fun (c : Word16) i => if c.getLsbD 15 = b.getLsbD (7 - i) then c <<< 1 else (c <<< 1) ^^^ 0x1021)
          (crc16 bs))
  ∧ (∀ (bs : List Byte) (f : Frame), readFrame bs = some f →
      ∃ (front body : List Byte) (b0 b1 c2 c1 c0 d1 d0 index l1 l0 k1 k0 : Byte) (ops : List Byte),
        bs = front ++ [k1, k0] ∧ k1 ++ k0 = crc16 front
        ∧ front = [b0, b1, c2, c1, c0, d1, d0, index, l1, l0] ++ ops ++ body
        ∧ b1.toNat / 32 ≤ 4 ∧ b0.toNat / 16 ≤ b0.toNat % 16 ∧ ops.length = 4 * (b1.toNat / 4 % 8) ∧ ops.length ≤ 16
        ∧ body.length = (l1 ++ l0 : Word16).toNat
        ∧ ((ops ≠ [] ∨ b1.getLsbD 1 = true) → b1.toNat / 32 = 0)
        ∧ (b1.getLsbD 1 = false → index = 0 ∧ body = [])
        ∧ (b1.getLsbD 1 = true → index = 0 → body.length = 16 ∧ ∀ x ∈ body, x.toNat / 64 ≤ 2)
        ∧ (b1.getLsbD 1 = true → index ≠ 0 → index.toNat ≤ 8
            ∧ ∃ rs : List LockRecord, rs.length = 8 ∧ (∀ r ∈ rs, r.holders.length + r.waiters.length ≤ 16)
              ∧ body.length = (rs.map fun r => 3 + 8 * (r.holders.length + r.waiters.length)).sum
              ∧ f.page = some (.locks (Fin.ofNat 8 (index.toNat - 1)) rs)))
  ∧ ∀ rx : Reception,
      ((rx.fault = true ∨ rx.overLong = true ∨ rx.cells ≠ []) → rx.frame = none)
      ∧ (rx.fault = false → rx.overLong = false → rx.cells = [] → rx.frame = readFrame rx.bytes)

/-! ### Invariants -/

/-- Every step keeps the Notice Queue at one notice per tag and one of each station kind, so at most 20 notices
(R125). -/
def Obligations.NoticesStayDistinct : Prop :=
  (∀ s t : State, s.NoticesDistinct → step s = .next t → t.NoticesDistinct)
  ∧ ∀ s : State, s.NoticesDistinct → s.notices.queue.length ≤ 20

/-- Every step keeps the laws of the request entries: PENDING exactly with a CLAIM, one live entry per lock, ENDED
exactly with an unread END, the queue exactly the QUEUED ops, and the to-yield set without repetition (R108 to R111), in
the ascending order in which the draw takes it (R116). That the tags of the DOUBTFUL ops are kept in frame order is the
model's own field (log 13). -/
def Obligations.RequestsStayLawful : Prop :=
  ∀ s t : State, s.NoticesDistinct → s.RequestLaw → s.ToYieldAscending → step s = .next t →
    t.RequestLaw ∧ t.ToYieldAscending

/-- Every step keeps what the station state says of alignment, pages, digest, counters, leave pending, window and line
driver, the ranges of the configuration, and the slot position and roster within N (R42, R53, R72, R73, R87, R89, R90,
R97, R98, R152). -/
def Obligations.StationStaysLawful : Prop :=
  ∀ s t : State, s.StationLaw → s.RosterBounded → step s = .next t → t.StationLaw ∧ t.RosterBounded

/-- From an ACTIVE station with lawful tables every step keeps them: each record's holders EXCLUSIVE alone or all
SHARED, each station at most once, no grantable head, no hold past its limit, no participant ABSENT in the roster (R1,
R2, R6, R9, R31). -/
def Obligations.TablesStayLawful : Prop :=
  ∀ s t : State, s.StationLaw → s.ctrl.state = .active → s.TableLaw → step s = .next t → t.TableLaw

/-- The laws hold at the station after reset. -/
def Obligations.ResetStationIsLawful : Prop :=
  State.reset.NoticesDistinct ∧ State.reset.RequestLaw ∧ State.reset.StationLaw ∧ State.reset.RosterBounded
  ∧ State.reset.TableLaw ∧ State.reset.ToYieldAscending
end

