-- ==== Sys2Proof/Laws/Bytes.lean ====
section
/-! SUPPORT. What the layouts of chapter 11 write reads back: fields, operations, roster entries, participants,
records and pages. -/

namespace Sys2Proof.Machine

/-! ### Fields -/

theorem word16_hiByte_loByte (w : Word16) : word16 (hiByte w) (loByte w) = w := by
  unfold word16 hiByte loByte
  apply BitVec.eq_of_getLsbD_eq
  intro i hi
  rw [BitVec.getLsbD_append]
  split
  · simp [*]
  · simp only [BitVec.getLsbD_extractLsb']
    rw [show 8 + (i - 8) = i by omega]
    simp [show i - 8 < 8 by omega]

theorem cycleBytes_join (c : CycleNo) :
    c.extractLsb' 16 8 ++ c.extractLsb' 8 8 ++ c.extractLsb' 0 8 = c := by
  apply BitVec.eq_of_getLsbD_eq
  intro i hi
  rw [BitVec.getLsbD_append]
  split
  · simp [*]
  · rw [BitVec.getLsbD_append]
    split
    · simp only [BitVec.getLsbD_extractLsb']
      rw [show 8 + (i - 8) = i by omega]
      simp [*]
    · simp only [BitVec.getLsbD_extractLsb']
      rw [show 16 + (i - 8 - 8) = i by omega]
      simp [show i - 8 - 8 < 8 by omega]

theorem limitOfBytes_limitBytes (lim : Limit) :
    limitOfBytes (hiByte (lim.setWidth 16)) (loByte (lim.setWidth 16)) = lim := by
  unfold limitOfBytes
  rw [word16_hiByte_loByte]
  apply BitVec.eq_of_getLsbD_eq
  intro i hi
  simp only [BitVec.getLsbD_setWidth]
  simp [hi, show i < 16 by omega]

theorem tagOfByte_eq {b : Byte} {g : Tag} (h : b.toNat = g.val) : tagOfByte b = some g := by
  unfold tagOfByte
  rw [dif_pos (by omega)]
  exact congrArg some (Fin.ext h)

theorem lockOfByte_eq {b : Byte} {l : LockNo} (h : b.toNat = l.val) : lockOfByte b = some l := by
  unfold lockOfByte
  rw [dif_pos (by omega)]
  exact congrArg some (Fin.ext h)

theorem lockOfByte_none {b : Byte} (h : 64 ≤ b.toNat) : lockOfByte b = none := by
  unfold lockOfByte
  rw [dif_neg (by omega)]

theorem tagOfByte_none {b : Byte} (h : 16 ≤ b.toNat) : tagOfByte b = none := by
  unfold tagOfByte
  rw [dif_neg (by omega)]

theorem countByte_toNat {n : Nat} (h : n < 256) : (countByte n).toNat = n := by
  rw [countByte, BitVec.toNat_ofNat]; omega

/-! ### Roster entries -/

theorem rosterEntryOfByte_toByte (e : RosterEntry) : rosterEntryOfByte e.toByte = some e := by
  obtain ⟨st, m⟩ := e
  cases st <;> revert m <;> decide

theorem rosterEntriesOfBytes_map (es : List RosterEntry) :
    rosterEntriesOfBytes (es.map RosterEntry.toByte) = some es := by
  induction es with
  | nil => rfl
  | cons e es ih => rw [List.map_cons, rosterEntriesOfBytes, rosterEntryOfByte_toByte, ih]

/-! ### Participants -/

theorem participantHead_station (k : StationNo) (role : Nat) (m : Mode) (h : role < 2) :
    Fin.ofNat 16 ((participantHead k role m).toNat / 16) = k := by
  have hm : modeCode m < 2 := by cases m <;> decide
  unfold participantHead
  rw [BitVec.toNat_ofNat]
  apply Fin.ext
  simp only [Fin.ofNat]
  omega

theorem participantHead_role (k : StationNo) (m : Mode) :
    (participantHead k 0 m).getLsbD 3 = false ∧ (participantHead k 1 m).getLsbD 3 = true := by
  cases m <;> revert k <;> decide

theorem participantHead_mode (k : StationNo) (role : Nat) (m : Mode) (h : role < 2) :
    modeOfBit ((participantHead k role m).getLsbD 2) = m := by
  have : role = 0 ∨ role = 1 := by omega
  rcases this with rfl | rfl <;> cases m <;> revert k <;> decide

theorem Participant.toBytes_length (p : Participant) : p.toBytes.length = 8 := by
  cases p <;> rfl

theorem readParticipants_toBytes (ps : List Participant) (left : List Byte) :
    readParticipants ps.length (ps.flatMap Participant.toBytes ++ left) = some (ps, left) := by
  induction ps with
  | nil => rfl
  | cons p ps ih =>
    cases p with
    | holder h =>
      obtain ⟨k, m, c, lim, tok⟩ := h
      simp only [List.length_cons, List.flatMap_cons, Participant.toBytes, cycleBytes, limitBytes, List.cons_append,
        List.nil_append, readParticipants, ih]
      simp only [participantOfBytes, participantHead_station k 0 m (by omega), (participantHead_role k m).1,
        participantHead_mode k 0 m (by omega), limitOfBytes_limitBytes, word16_hiByte_loByte, cycleBytes_join]
      rfl
    | waiter w =>
      obtain ⟨k, m, lim⟩ := w
      simp only [List.length_cons, List.flatMap_cons, Participant.toBytes, cycleBytes, limitBytes, List.cons_append,
        List.nil_append, readParticipants, ih]
      simp only [participantOfBytes, participantHead_station k 1 m (by omega), (participantHead_role k m).2,
        participantHead_mode k 1 m (by omega), limitOfBytes_limitBytes]
      rfl

/-! ### Records -/

theorem recordOfParticipants_participants (r : LockRecord) :
    recordOfParticipants r.generation r.participants = r := by
  obtain ⟨g, hs, ws⟩ := r
  simp [recordOfParticipants, LockRecord.participants, List.filterMap_append, List.filterMap_map]

theorem LockRecord.participants_length (r : LockRecord) :
    r.participants.length = r.holders.length + r.waiters.length := by
  simp [LockRecord.participants]

theorem flatMap_participants_length (ps : List Participant) :
    (ps.flatMap Participant.toBytes).length = 8 * ps.length := by
  induction ps with
  | nil => rfl
  | cons p ps ih => rw [List.flatMap_cons, List.length_append, ih, p.toBytes_length, List.length_cons]; omega

theorem LockRecord.toBytes_length (r : LockRecord) :
    r.toBytes.length = 3 + 8 * (r.holders.length + r.waiters.length) := by
  rw [LockRecord.toBytes, ← r.participants_length]
  simp only [List.length_cons, flatMap_participants_length]
  omega

/-- A record of at most 16 participants reads back from its participant form (R11). -/
theorem readRecord_toBytes {r : LockRecord} (h : r.participants.length ≤ 16) (left : List Byte) :
    readRecord (r.toBytes ++ left) = some (r, left) := by
  have hc : (countByte r.participants.length).toNat = r.participants.length := countByte_toNat (by omega)
  simp only [LockRecord.toBytes, List.cons_append, readRecord, hc, readParticipants_toBytes, word16_hiByte_loByte,
    recordOfParticipants_participants]
  rw [if_neg (by omega)]

theorem readRecords_toBytes (rs : List LockRecord) (h : ∀ r ∈ rs, r.participants.length ≤ 16) (left : List Byte) :
    readRecords rs.length (rs.flatMap LockRecord.toBytes ++ left) = some (rs, left) := by
  induction rs with
  | nil => rfl
  | cons r rs ih =>
    rw [List.flatMap_cons, List.append_assoc, List.length_cons, readRecords,
      readRecord_toBytes (h r (List.mem_cons_self ..))]
    simp only [ih fun x hx => h x (List.mem_cons_of_mem _ hx)]

/-! ### Pages and operations -/

/-- A page of the form that R65 asks for: 16 roster entries, or 8 records of at most 16 participants. -/
theorem readPage_body_roster {es : List RosterEntry} (h : es.length = 16) :
    readPage 0 (Page.roster es).body = some (.roster es) := by
  simp [readPage, Page.body, h, rosterEntriesOfBytes_map]

theorem readPage_body_locks {k : Fin 8} {rs : List LockRecord} (h : rs.length = 8)
    (hp : ∀ r ∈ rs, r.participants.length ≤ 16) : readPage (k.val + 1) (Page.locks k rs).body = some (.locks k rs) := by
  have hr := readRecords_toBytes rs hp []
  rw [List.append_nil, h] at hr
  simp only [readPage, Page.body, Nat.add_sub_cancel]
  rw [if_neg (by omega), dif_pos k.isLt]
  simp only [hr]

theorem operationOfBytes_toBytes (o : Operation) :
    operationOfBytes (BitVec.ofNat 8 (64 * kindCode o.kind + 32 * modeCode o.mode + 16 * o.tryOnly.toNat)) o.lock
      (hiByte (o.limit.setWidth 16)) (loByte (o.limit.setWidth 16)) = o := by
  obtain ⟨k, l, m, t, lim⟩ := o
  simp only [operationOfBytes, limitOfBytes_limitBytes]
  cases k <;> cases m <;> cases t <;> rfl

theorem readOperations_toBytes (ops : List Operation) (left : List Byte) :
    readOperations ops.length (ops.flatMap Operation.toBytes ++ left) = ops := by
  induction ops with
  | nil => rfl
  | cons o ops ih =>
    simp only [List.length_cons, List.flatMap_cons, Operation.toBytes, limitBytes, List.cons_append, List.nil_append,
      readOperations, operationOfBytes_toBytes, ih]

theorem flatMap_operations_length (ops : List Operation) :
    (ops.flatMap Operation.toBytes).length = 4 * ops.length := by
  induction ops with
  | nil => rfl
  | cons o ops ih =>
    rw [List.flatMap_cons, List.length_append, ih, List.length_cons]
    show 4 + _ = _
    omega

/-- Eight bits read as a byte are its bits (R37, R40). -/
theorem byteBits_byteOfBits : ∀ bs : List Bool, bs.length = 8 → byteBits (byteOfBits bs) = bs := by
  intro bs h
  rcases bs with _ | ⟨a, _ | ⟨b, _ | ⟨c, _ | ⟨d, _ | ⟨e, _ | ⟨f, _ | ⟨g, _ | ⟨i, _ | ⟨j, r⟩⟩⟩⟩⟩⟩⟩⟩⟩ <;> simp at h
  revert a b c d e f g i; decide

theorem byteOfBits_byteBits (b : Byte) : byteOfBits (byteBits b) = b := by
  revert b
  decide +kernel

/-- Bits shorter than a byte make none (R136). -/
theorem bytesOfBits_short (bits : List Bool) (h : bits.length < 8) : bytesOfBits bits = [] := by
  unfold bytesOfBits
  split
  · simp at h; omega
  · rfl

/-- The whole bytes of the bits of bytes are those bytes, whatever bits of an unfinished one follow (R136). -/
theorem bytesOfBits_flatMap : ∀ (bytes : List Byte) (bits : List Bool), bits.length < 8 →
    bytesOfBits (bytes.flatMap byteBits ++ bits) = bytes
  | [], bits, h => bytesOfBits_short bits h
  | b :: bytes, bits, h => by
    show byteOfBits (byteBits b) :: bytesOfBits (bytes.flatMap byteBits ++ bits) = b :: bytes
    rw [byteOfBits_byteBits, bytesOfBits_flatMap bytes bits h]

/-- Bit `i` of bytes sent most significant bit first (R37). -/
theorem getElem?_flatMap_byteBits : ∀ (bytes : List Byte) (i : Nat),
    (bytes.flatMap byteBits)[i]? = (bytes[i / 8]?).map fun b => b.getLsbD (7 - i % 8)
  | [], i => by simp
  | b :: bytes, i => by
    rw [List.flatMap_cons]
    by_cases hi : i < 8
    · rw [List.getElem?_append_left (by simp [byteBits]; omega), show i / 8 = 0 by omega]
      have : i = 0 ∨ i = 1 ∨ i = 2 ∨ i = 3 ∨ i = 4 ∨ i = 5 ∨ i = 6 ∨ i = 7 := by omega
      rcases this with h | h | h | h | h | h | h | h <;> subst h <;> simp [byteBits, BitVec.getMsbD]
    · have e := getElem?_flatMap_byteBits bytes (i - 8)
      rw [show (i - 8) % 8 = i % 8 by omega] at e
      rw [List.getElem?_append_right (by simp [byteBits]; omega), show (byteBits b).length = 8 by simp [byteBits], e,
        show i / 8 = (i - 8) / 8 + 1 by omega, List.getElem?_cons_succ]

/-- The number of whole bytes (R136). -/
theorem bytesOfBits_length : ∀ bits : List Bool, (bytesOfBits bits).length = bits.length / 8
  | _ :: _ :: _ :: _ :: _ :: _ :: _ :: _ :: bits => by
    simp only [bytesOfBits, List.length_cons, bytesOfBits_length bits]; omega
  | [] | [_] | [_, _] | [_, _, _] | [_, _, _, _] | [_, _, _, _, _] | [_, _, _, _, _, _] | [_, _, _, _, _, _, _] => by
    rw [bytesOfBits_short _ (by simp)]; simp

end Sys2Proof.Machine
end

