-- ==== Sys2Proof/Laws/State.lean ====
section
/-! SUPPORT. What each named update of State leaves in each field: one lemma for each field, true by rfl. -/

namespace Sys2Proof.Machine

variable (s : State)

section
variable (l : LockNo) (r : LockRecord)

@[simp] theorem State.setLock_ctrl : (s.setLock l r).ctrl = s.ctrl := rfl
@[simp] theorem State.setLock_line : (s.setLock l r).line = s.line := rfl
@[simp] theorem State.setLock_slots : (s.setLock l r).slots = s.slots := rfl
@[simp] theorem State.setLock_pageCursor : (s.setLock l r).pageCursor = s.pageCursor := rfl
@[simp] theorem State.setLock_roster : (s.setLock l r).roster = s.roster := rfl
@[simp] theorem State.setLock_locks : (s.setLock l r).locks = s.locks.set l.val r l.isLt := rfl
@[simp] theorem State.setLock_repl : (s.setLock l r).repl = s.repl := rfl
@[simp] theorem State.setLock_req : (s.setLock l r).req = s.req := rfl
@[simp] theorem State.setLock_notices : (s.setLock l r).notices = s.notices := rfl
@[simp] theorem State.setLock_port : (s.setLock l r).port = s.port := rfl
@[simp] theorem State.setLock_pending : (s.setLock l r).pending = s.pending := rfl
@[simp] theorem State.setLock_spi : (s.setLock l r).spi = s.spi := rfl

end

section
variable (k : StationNo) (e : RosterEntry)

@[simp] theorem State.setRosterEntry_ctrl : (s.setRosterEntry k e).ctrl = s.ctrl := rfl
@[simp] theorem State.setRosterEntry_line : (s.setRosterEntry k e).line = s.line := rfl
@[simp] theorem State.setRosterEntry_slots : (s.setRosterEntry k e).slots = s.slots := rfl
@[simp] theorem State.setRosterEntry_pageCursor : (s.setRosterEntry k e).pageCursor = s.pageCursor := rfl
@[simp] theorem State.setRosterEntry_roster : (s.setRosterEntry k e).roster = s.roster.set k.val e k.isLt := rfl
@[simp] theorem State.setRosterEntry_locks : (s.setRosterEntry k e).locks = s.locks := rfl
@[simp] theorem State.setRosterEntry_repl : (s.setRosterEntry k e).repl = s.repl := rfl
@[simp] theorem State.setRosterEntry_req : (s.setRosterEntry k e).req = s.req := rfl
@[simp] theorem State.setRosterEntry_notices : (s.setRosterEntry k e).notices = s.notices := rfl
@[simp] theorem State.setRosterEntry_port : (s.setRosterEntry k e).port = s.port := rfl
@[simp] theorem State.setRosterEntry_pending : (s.setRosterEntry k e).pending = s.pending := rfl
@[simp] theorem State.setRosterEntry_spi : (s.setRosterEntry k e).spi = s.spi := rfl

end

section
variable (t : Tag) (e : RequestEntry)

@[simp] theorem State.setEntry_ctrl : (s.setEntry t e).ctrl = s.ctrl := rfl
@[simp] theorem State.setEntry_line : (s.setEntry t e).line = s.line := rfl
@[simp] theorem State.setEntry_slots : (s.setEntry t e).slots = s.slots := rfl
@[simp] theorem State.setEntry_pageCursor : (s.setEntry t e).pageCursor = s.pageCursor := rfl
@[simp] theorem State.setEntry_roster : (s.setEntry t e).roster = s.roster := rfl
@[simp] theorem State.setEntry_locks : (s.setEntry t e).locks = s.locks := rfl
@[simp] theorem State.setEntry_repl : (s.setEntry t e).repl = s.repl := rfl
@[simp] theorem State.setEntry_req_entries : (s.setEntry t e).req.entries = s.req.entries.set t.val e t.isLt := rfl
@[simp] theorem State.setEntry_req_queue : (s.setEntry t e).req.queue = s.req.queue := rfl
@[simp] theorem State.setEntry_req_toYield : (s.setEntry t e).req.toYield = s.req.toYield := rfl
@[simp] theorem State.setEntry_req_doubtOrder : (s.setEntry t e).req.doubtOrder = s.req.doubtOrder := rfl
@[simp] theorem State.setEntry_notices : (s.setEntry t e).notices = s.notices := rfl
@[simp] theorem State.setEntry_port : (s.setEntry t e).port = s.port := rfl
@[simp] theorem State.setEntry_pending : (s.setEntry t e).pending = s.pending := rfl
@[simp] theorem State.setEntry_spi : (s.setEntry t e).spi = s.spi := rfl

end

section
variable (st : StationState)

@[simp] theorem State.setStation_ctrl_state : (s.setStation st).ctrl.state = st := rfl
@[simp] theorem State.setStation_ctrl_leavePending : (s.setStation st).ctrl.leavePending = s.ctrl.leavePending := rfl
@[simp] theorem State.setStation_ctrl_divisor : (s.setStation st).ctrl.divisor = s.ctrl.divisor := rfl
@[simp] theorem State.setStation_ctrl_dropThreshold :
    (s.setStation st).ctrl.dropThreshold = s.ctrl.dropThreshold := rfl
@[simp] theorem State.setStation_ctrl_intEnable : (s.setStation st).ctrl.intEnable = s.ctrl.intEnable := rfl
@[simp] theorem State.setStation_ctrl_sid : (s.setStation st).ctrl.sid = s.ctrl.sid := rfl
@[simp] theorem State.setStation_ctrl_snc : (s.setStation st).ctrl.snc = s.ctrl.snc := rfl
@[simp] theorem State.setStation_line : (s.setStation st).line = s.line := rfl
@[simp] theorem State.setStation_slots : (s.setStation st).slots = s.slots := rfl
@[simp] theorem State.setStation_pageCursor : (s.setStation st).pageCursor = s.pageCursor := rfl
@[simp] theorem State.setStation_roster : (s.setStation st).roster = s.roster := rfl
@[simp] theorem State.setStation_locks : (s.setStation st).locks = s.locks := rfl
@[simp] theorem State.setStation_repl : (s.setStation st).repl = s.repl := rfl
@[simp] theorem State.setStation_req : (s.setStation st).req = s.req := rfl
@[simp] theorem State.setStation_notices : (s.setStation st).notices = s.notices := rfl
@[simp] theorem State.setStation_port : (s.setStation st).port = s.port := rfl
@[simp] theorem State.setStation_pending : (s.setStation st).pending = s.pending := rfl
@[simp] theorem State.setStation_spi : (s.setStation st).spi = s.spi := rfl

end

section
variable (pages : BitVec 9)

@[simp] theorem State.setInstalled_ctrl : (s.setInstalled pages).ctrl = s.ctrl := rfl
@[simp] theorem State.setInstalled_line : (s.setInstalled pages).line = s.line := rfl
@[simp] theorem State.setInstalled_slots : (s.setInstalled pages).slots = s.slots := rfl
@[simp] theorem State.setInstalled_pageCursor : (s.setInstalled pages).pageCursor = s.pageCursor := rfl
@[simp] theorem State.setInstalled_roster : (s.setInstalled pages).roster = s.roster := rfl
@[simp] theorem State.setInstalled_locks : (s.setInstalled pages).locks = s.locks := rfl
@[simp] theorem State.setInstalled_repl_agree : (s.setInstalled pages).repl.agree = s.repl.agree := rfl
@[simp] theorem State.setInstalled_repl_disagree : (s.setInstalled pages).repl.disagree = s.repl.disagree := rfl
@[simp] theorem State.setInstalled_repl_installed : (s.setInstalled pages).repl.installed = pages := rfl
@[simp] theorem State.setInstalled_repl_orphan : (s.setInstalled pages).repl.orphan = s.repl.orphan := rfl
@[simp] theorem State.setInstalled_repl_digest : (s.setInstalled pages).repl.digest = s.repl.digest := rfl
@[simp] theorem State.setInstalled_repl_joinPending :
    (s.setInstalled pages).repl.joinPending = s.repl.joinPending := rfl
@[simp] theorem State.setInstalled_req : (s.setInstalled pages).req = s.req := rfl
@[simp] theorem State.setInstalled_notices : (s.setInstalled pages).notices = s.notices := rfl
@[simp] theorem State.setInstalled_port : (s.setInstalled pages).port = s.port := rfl
@[simp] theorem State.setInstalled_pending : (s.setInstalled pages).pending = s.pending := rfl
@[simp] theorem State.setInstalled_spi : (s.setInstalled pages).spi = s.spi := rfl

end

section
variable (p : Nat)

@[simp] theorem State.addInstalled_ctrl : (s.addInstalled p).ctrl = s.ctrl := rfl
@[simp] theorem State.addInstalled_line : (s.addInstalled p).line = s.line := rfl
@[simp] theorem State.addInstalled_slots : (s.addInstalled p).slots = s.slots := rfl
@[simp] theorem State.addInstalled_pageCursor : (s.addInstalled p).pageCursor = s.pageCursor := rfl
@[simp] theorem State.addInstalled_roster : (s.addInstalled p).roster = s.roster := rfl
@[simp] theorem State.addInstalled_locks : (s.addInstalled p).locks = s.locks := rfl
@[simp] theorem State.addInstalled_repl_agree : (s.addInstalled p).repl.agree = s.repl.agree := rfl
@[simp] theorem State.addInstalled_repl_disagree : (s.addInstalled p).repl.disagree = s.repl.disagree := rfl
@[simp] theorem State.addInstalled_repl_installed :
    (s.addInstalled p).repl.installed = s.repl.installed ||| BitVec.twoPow 9 p := rfl
@[simp] theorem State.addInstalled_repl_orphan : (s.addInstalled p).repl.orphan = s.repl.orphan := rfl
@[simp] theorem State.addInstalled_repl_digest : (s.addInstalled p).repl.digest = s.repl.digest := rfl
@[simp] theorem State.addInstalled_repl_joinPending : (s.addInstalled p).repl.joinPending = s.repl.joinPending := rfl
@[simp] theorem State.addInstalled_req : (s.addInstalled p).req = s.req := rfl
@[simp] theorem State.addInstalled_notices : (s.addInstalled p).notices = s.notices := rfl
@[simp] theorem State.addInstalled_port : (s.addInstalled p).port = s.port := rfl
@[simp] theorem State.addInstalled_pending : (s.addInstalled p).pending = s.pending := rfl
@[simp] theorem State.addInstalled_spi : (s.addInstalled p).spi = s.spi := rfl

end

@[simp] theorem State.uninstallAll_ctrl : (s.uninstallAll).ctrl = s.ctrl := rfl
@[simp] theorem State.uninstallAll_line : (s.uninstallAll).line = s.line := rfl
@[simp] theorem State.uninstallAll_slots : (s.uninstallAll).slots = s.slots := rfl
@[simp] theorem State.uninstallAll_pageCursor : (s.uninstallAll).pageCursor = s.pageCursor := rfl
@[simp] theorem State.uninstallAll_roster : (s.uninstallAll).roster = s.roster := rfl
@[simp] theorem State.uninstallAll_locks : (s.uninstallAll).locks = s.locks := rfl
@[simp] theorem State.uninstallAll_repl_agree : (s.uninstallAll).repl.agree = s.repl.agree := rfl
@[simp] theorem State.uninstallAll_repl_disagree : (s.uninstallAll).repl.disagree = s.repl.disagree := rfl
@[simp] theorem State.uninstallAll_repl_installed : (s.uninstallAll).repl.installed = 0 := rfl
@[simp] theorem State.uninstallAll_repl_orphan : (s.uninstallAll).repl.orphan = s.repl.orphan := rfl
@[simp] theorem State.uninstallAll_repl_digest : (s.uninstallAll).repl.digest = s.repl.digest := rfl
@[simp] theorem State.uninstallAll_repl_joinPending : (s.uninstallAll).repl.joinPending = s.repl.joinPending := rfl
@[simp] theorem State.uninstallAll_req : (s.uninstallAll).req = s.req := rfl
@[simp] theorem State.uninstallAll_notices : (s.uninstallAll).notices = s.notices := rfl
@[simp] theorem State.uninstallAll_port : (s.uninstallAll).port = s.port := rfl
@[simp] theorem State.uninstallAll_pending : (s.uninstallAll).pending = s.pending := rfl
@[simp] theorem State.uninstallAll_spi : (s.uninstallAll).spi = s.spi := rfl

section
variable (n : Nat)

@[simp] theorem State.setOrphan_ctrl : (s.setOrphan n).ctrl = s.ctrl := rfl
@[simp] theorem State.setOrphan_line : (s.setOrphan n).line = s.line := rfl
@[simp] theorem State.setOrphan_slots : (s.setOrphan n).slots = s.slots := rfl
@[simp] theorem State.setOrphan_pageCursor : (s.setOrphan n).pageCursor = s.pageCursor := rfl
@[simp] theorem State.setOrphan_roster : (s.setOrphan n).roster = s.roster := rfl
@[simp] theorem State.setOrphan_locks : (s.setOrphan n).locks = s.locks := rfl
@[simp] theorem State.setOrphan_repl_agree : (s.setOrphan n).repl.agree = s.repl.agree := rfl
@[simp] theorem State.setOrphan_repl_disagree : (s.setOrphan n).repl.disagree = s.repl.disagree := rfl
@[simp] theorem State.setOrphan_repl_installed : (s.setOrphan n).repl.installed = s.repl.installed := rfl
@[simp] theorem State.setOrphan_repl_orphan : (s.setOrphan n).repl.orphan = n := rfl
@[simp] theorem State.setOrphan_repl_digest : (s.setOrphan n).repl.digest = s.repl.digest := rfl
@[simp] theorem State.setOrphan_repl_joinPending : (s.setOrphan n).repl.joinPending = s.repl.joinPending := rfl
@[simp] theorem State.setOrphan_req : (s.setOrphan n).req = s.req := rfl
@[simp] theorem State.setOrphan_notices : (s.setOrphan n).notices = s.notices := rfl
@[simp] theorem State.setOrphan_port : (s.setOrphan n).port = s.port := rfl
@[simp] theorem State.setOrphan_pending : (s.setOrphan n).pending = s.pending := rfl
@[simp] theorem State.setOrphan_spi : (s.setOrphan n).spi = s.spi := rfl

end

@[simp] theorem State.clearVote_ctrl : (s.clearVote).ctrl = s.ctrl := rfl
@[simp] theorem State.clearVote_line : (s.clearVote).line = s.line := rfl
@[simp] theorem State.clearVote_slots : (s.clearVote).slots = s.slots := rfl
@[simp] theorem State.clearVote_pageCursor : (s.clearVote).pageCursor = s.pageCursor := rfl
@[simp] theorem State.clearVote_roster : (s.clearVote).roster = s.roster := rfl
@[simp] theorem State.clearVote_locks : (s.clearVote).locks = s.locks := rfl
@[simp] theorem State.clearVote_repl_agree : (s.clearVote).repl.agree = 0 := rfl
@[simp] theorem State.clearVote_repl_disagree : (s.clearVote).repl.disagree = 0 := rfl
@[simp] theorem State.clearVote_repl_installed : (s.clearVote).repl.installed = s.repl.installed := rfl
@[simp] theorem State.clearVote_repl_orphan : (s.clearVote).repl.orphan = s.repl.orphan := rfl
@[simp] theorem State.clearVote_repl_digest : (s.clearVote).repl.digest = s.repl.digest := rfl
@[simp] theorem State.clearVote_repl_joinPending : (s.clearVote).repl.joinPending = s.repl.joinPending := rfl
@[simp] theorem State.clearVote_req : (s.clearVote).req = s.req := rfl
@[simp] theorem State.clearVote_notices : (s.clearVote).notices = s.notices := rfl
@[simp] theorem State.clearVote_port : (s.clearVote).port = s.port := rfl
@[simp] theorem State.clearVote_pending : (s.clearVote).pending = s.pending := rfl
@[simp] theorem State.clearVote_spi : (s.clearVote).spi = s.spi := rfl

section
variable (b : Bool)

@[simp] theorem State.setJoinPending_ctrl : (s.setJoinPending b).ctrl = s.ctrl := rfl
@[simp] theorem State.setJoinPending_line : (s.setJoinPending b).line = s.line := rfl
@[simp] theorem State.setJoinPending_slots : (s.setJoinPending b).slots = s.slots := rfl
@[simp] theorem State.setJoinPending_pageCursor : (s.setJoinPending b).pageCursor = s.pageCursor := rfl
@[simp] theorem State.setJoinPending_roster : (s.setJoinPending b).roster = s.roster := rfl
@[simp] theorem State.setJoinPending_locks : (s.setJoinPending b).locks = s.locks := rfl
@[simp] theorem State.setJoinPending_repl_agree : (s.setJoinPending b).repl.agree = s.repl.agree := rfl
@[simp] theorem State.setJoinPending_repl_disagree : (s.setJoinPending b).repl.disagree = s.repl.disagree := rfl
@[simp] theorem State.setJoinPending_repl_installed : (s.setJoinPending b).repl.installed = s.repl.installed := rfl
@[simp] theorem State.setJoinPending_repl_orphan : (s.setJoinPending b).repl.orphan = s.repl.orphan := rfl
@[simp] theorem State.setJoinPending_repl_digest : (s.setJoinPending b).repl.digest = s.repl.digest := rfl
@[simp] theorem State.setJoinPending_repl_joinPending : (s.setJoinPending b).repl.joinPending = b := rfl
@[simp] theorem State.setJoinPending_req : (s.setJoinPending b).req = s.req := rfl
@[simp] theorem State.setJoinPending_notices : (s.setJoinPending b).notices = s.notices := rfl
@[simp] theorem State.setJoinPending_port : (s.setJoinPending b).port = s.port := rfl
@[simp] theorem State.setJoinPending_pending : (s.setJoinPending b).pending = s.pending := rfl
@[simp] theorem State.setJoinPending_spi : (s.setJoinPending b).spi = s.spi := rfl

end

@[simp] theorem State.startCursor_ctrl : (s.startCursor).ctrl = s.ctrl := rfl
@[simp] theorem State.startCursor_line : (s.startCursor).line = s.line := rfl
@[simp] theorem State.startCursor_slots : (s.startCursor).slots = s.slots := rfl
@[simp] theorem State.startCursor_pageCursor : (s.startCursor).pageCursor = Fin.ofNat 9 s.ctrl.sid.val := rfl
@[simp] theorem State.startCursor_roster : (s.startCursor).roster = s.roster := rfl
@[simp] theorem State.startCursor_locks : (s.startCursor).locks = s.locks := rfl
@[simp] theorem State.startCursor_repl : (s.startCursor).repl = s.repl := rfl
@[simp] theorem State.startCursor_req : (s.startCursor).req = s.req := rfl
@[simp] theorem State.startCursor_notices : (s.startCursor).notices = s.notices := rfl
@[simp] theorem State.startCursor_port : (s.startCursor).port = s.port := rfl
@[simp] theorem State.startCursor_pending : (s.startCursor).pending = s.pending := rfl
@[simp] theorem State.startCursor_spi : (s.startCursor).spi = s.spi := rfl

@[simp] theorem State.releaseLine_ctrl : (s.releaseLine).ctrl = s.ctrl := rfl
@[simp] theorem State.releaseLine_line_rx : (s.releaseLine).line.rx = s.line.rx := rfl
@[simp] theorem State.releaseLine_line_own : (s.releaseLine).line.own = s.line.own := rfl
@[simp] theorem State.releaseLine_line_sending : (s.releaseLine).line.sending = false := rfl
@[simp] theorem State.releaseLine_line_shift : (s.releaseLine).line.shift = 0 := rfl
@[simp] theorem State.releaseLine_line_shiftClocks : (s.releaseLine).line.shiftClocks = 0 := rfl
@[simp] theorem State.releaseLine_line_sinceCell : (s.releaseLine).line.sinceCell = s.line.sinceCell := rfl
@[simp] theorem State.releaseLine_line_dominant : (s.releaseLine).line.dominant = s.line.dominant := rfl
@[simp] theorem State.releaseLine_line_heard : (s.releaseLine).line.heard = s.line.heard := rfl
@[simp] theorem State.releaseLine_line_ownFault : (s.releaseLine).line.ownFault = s.line.ownFault := rfl
@[simp] theorem State.releaseLine_line_mismatch : (s.releaseLine).line.mismatch = s.line.mismatch := rfl
@[simp] theorem State.releaseLine_slots : (s.releaseLine).slots = s.slots := rfl
@[simp] theorem State.releaseLine_pageCursor : (s.releaseLine).pageCursor = s.pageCursor := rfl
@[simp] theorem State.releaseLine_roster : (s.releaseLine).roster = s.roster := rfl
@[simp] theorem State.releaseLine_locks : (s.releaseLine).locks = s.locks := rfl
@[simp] theorem State.releaseLine_repl : (s.releaseLine).repl = s.repl := rfl
@[simp] theorem State.releaseLine_req : (s.releaseLine).req = s.req := rfl
@[simp] theorem State.releaseLine_notices : (s.releaseLine).notices = s.notices := rfl
@[simp] theorem State.releaseLine_port : (s.releaseLine).port = s.port := rfl
@[simp] theorem State.releaseLine_pending : (s.releaseLine).pending = s.pending := rfl
@[simp] theorem State.releaseLine_spi : (s.releaseLine).spi = s.spi := rfl

@[simp] theorem State.dropOwnFrame_ctrl : (s.dropOwnFrame).ctrl = s.ctrl := rfl
@[simp] theorem State.dropOwnFrame_line_rx : (s.dropOwnFrame).line.rx = s.line.rx := rfl
@[simp] theorem State.dropOwnFrame_line_own : (s.dropOwnFrame).line.own = none := rfl
@[simp] theorem State.dropOwnFrame_line_sending : (s.dropOwnFrame).line.sending = s.line.sending := rfl
@[simp] theorem State.dropOwnFrame_line_shift : (s.dropOwnFrame).line.shift = s.line.shift := rfl
@[simp] theorem State.dropOwnFrame_line_shiftClocks : (s.dropOwnFrame).line.shiftClocks = s.line.shiftClocks := rfl
@[simp] theorem State.dropOwnFrame_line_sinceCell : (s.dropOwnFrame).line.sinceCell = s.line.sinceCell := rfl
@[simp] theorem State.dropOwnFrame_line_dominant : (s.dropOwnFrame).line.dominant = s.line.dominant := rfl
@[simp] theorem State.dropOwnFrame_line_heard : (s.dropOwnFrame).line.heard = s.line.heard := rfl
@[simp] theorem State.dropOwnFrame_line_ownFault : (s.dropOwnFrame).line.ownFault = false := rfl
@[simp] theorem State.dropOwnFrame_line_mismatch : (s.dropOwnFrame).line.mismatch = false := rfl
@[simp] theorem State.dropOwnFrame_slots : (s.dropOwnFrame).slots = s.slots := rfl
@[simp] theorem State.dropOwnFrame_pageCursor : (s.dropOwnFrame).pageCursor = s.pageCursor := rfl
@[simp] theorem State.dropOwnFrame_roster : (s.dropOwnFrame).roster = s.roster := rfl
@[simp] theorem State.dropOwnFrame_locks : (s.dropOwnFrame).locks = s.locks := rfl
@[simp] theorem State.dropOwnFrame_repl : (s.dropOwnFrame).repl = s.repl := rfl
@[simp] theorem State.dropOwnFrame_req : (s.dropOwnFrame).req = s.req := rfl
@[simp] theorem State.dropOwnFrame_notices : (s.dropOwnFrame).notices = s.notices := rfl
@[simp] theorem State.dropOwnFrame_port : (s.dropOwnFrame).port = s.port := rfl
@[simp] theorem State.dropOwnFrame_pending : (s.dropOwnFrame).pending = s.pending := rfl
@[simp] theorem State.dropOwnFrame_spi : (s.dropOwnFrame).spi = s.spi := rfl

@[simp] theorem State.endReception_ctrl : (s.endReception).ctrl = s.ctrl := rfl
@[simp] theorem State.endReception_line_rx : (s.endReception).line.rx = { s.line.rx with inProgress := false } := rfl
@[simp] theorem State.endReception_line_own : (s.endReception).line.own = s.line.own := rfl
@[simp] theorem State.endReception_line_sending : (s.endReception).line.sending = s.line.sending := rfl
@[simp] theorem State.endReception_line_shift : (s.endReception).line.shift = s.line.shift := rfl
@[simp] theorem State.endReception_line_shiftClocks : (s.endReception).line.shiftClocks = s.line.shiftClocks := rfl
@[simp] theorem State.endReception_line_sinceCell : (s.endReception).line.sinceCell = s.line.sinceCell := rfl
@[simp] theorem State.endReception_line_dominant : (s.endReception).line.dominant = s.line.dominant := rfl
@[simp] theorem State.endReception_line_heard : (s.endReception).line.heard = s.line.heard := rfl
@[simp] theorem State.endReception_line_ownFault : (s.endReception).line.ownFault = s.line.ownFault := rfl
@[simp] theorem State.endReception_line_mismatch : (s.endReception).line.mismatch = s.line.mismatch := rfl
@[simp] theorem State.endReception_slots : (s.endReception).slots = s.slots := rfl
@[simp] theorem State.endReception_pageCursor : (s.endReception).pageCursor = s.pageCursor := rfl
@[simp] theorem State.endReception_roster : (s.endReception).roster = s.roster := rfl
@[simp] theorem State.endReception_locks : (s.endReception).locks = s.locks := rfl
@[simp] theorem State.endReception_repl : (s.endReception).repl = s.repl := rfl
@[simp] theorem State.endReception_req : (s.endReception).req = s.req := rfl
@[simp] theorem State.endReception_notices : (s.endReception).notices = s.notices := rfl
@[simp] theorem State.endReception_port : (s.endReception).port = s.port := rfl
@[simp] theorem State.endReception_pending : (s.endReception).pending = s.pending := rfl
@[simp] theorem State.endReception_spi : (s.endReception).spi = s.spi := rfl

@[simp] theorem State.beginSending_ctrl : (s.beginSending).ctrl = s.ctrl := rfl
@[simp] theorem State.beginSending_line_rx : (s.beginSending).line.rx = s.line.rx := rfl
@[simp] theorem State.beginSending_line_own :
    (s.beginSending).line.own = s.line.own.map fun o => { o with sent := true } := rfl
@[simp] theorem State.beginSending_line_sending : (s.beginSending).line.sending = true := rfl
@[simp] theorem State.beginSending_line_shift : (s.beginSending).line.shift = 0 := rfl
@[simp] theorem State.beginSending_line_shiftClocks : (s.beginSending).line.shiftClocks = 0 := rfl
@[simp] theorem State.beginSending_line_sinceCell : (s.beginSending).line.sinceCell = s.line.sinceCell := rfl
@[simp] theorem State.beginSending_line_dominant : (s.beginSending).line.dominant = s.line.dominant := rfl
@[simp] theorem State.beginSending_line_heard : (s.beginSending).line.heard = false := rfl
@[simp] theorem State.beginSending_line_ownFault : (s.beginSending).line.ownFault = false := rfl
@[simp] theorem State.beginSending_line_mismatch : (s.beginSending).line.mismatch = false := rfl
@[simp] theorem State.beginSending_slots : (s.beginSending).slots = s.slots := rfl
@[simp] theorem State.beginSending_pageCursor : (s.beginSending).pageCursor = s.pageCursor := rfl
@[simp] theorem State.beginSending_roster : (s.beginSending).roster = s.roster := rfl
@[simp] theorem State.beginSending_locks : (s.beginSending).locks = s.locks := rfl
@[simp] theorem State.beginSending_repl : (s.beginSending).repl = s.repl := rfl
@[simp] theorem State.beginSending_req : (s.beginSending).req = s.req := rfl
@[simp] theorem State.beginSending_notices : (s.beginSending).notices = s.notices := rfl
@[simp] theorem State.beginSending_port : (s.beginSending).port = s.port := rfl
@[simp] theorem State.beginSending_pending : (s.beginSending).pending = s.pending := rfl
@[simp] theorem State.beginSending_spi : (s.beginSending).spi = s.spi := rfl

section
variable (b : NoticeBody)

@[simp] theorem State.raise_ctrl : (s.raise b).ctrl = s.ctrl := rfl
@[simp] theorem State.raise_line : (s.raise b).line = s.line := rfl
@[simp] theorem State.raise_slots : (s.raise b).slots = s.slots := rfl
@[simp] theorem State.raise_pageCursor : (s.raise b).pageCursor = s.pageCursor := rfl
@[simp] theorem State.raise_roster : (s.raise b).roster = s.roster := rfl
@[simp] theorem State.raise_locks : (s.raise b).locks = s.locks := rfl
@[simp] theorem State.raise_repl : (s.raise b).repl = s.repl := rfl
@[simp] theorem State.raise_req : (s.raise b).req = s.req := rfl
@[simp] theorem State.raise_notices_queue :
    (s.raise b).notices.queue = raiseOnto (s.notices.serial + 1) b s.notices.queue := rfl
@[simp] theorem State.raise_notices_serial : (s.raise b).notices.serial = s.notices.serial + 1 := rfl
@[simp] theorem State.raise_port : (s.raise b).port = s.port := rfl
@[simp] theorem State.raise_pending : (s.raise b).pending = s.pending := rfl
@[simp] theorem State.raise_spi : (s.raise b).spi = s.spi := rfl

end

section
variable (t : Tag)

@[simp] theorem State.dequeue_ctrl : (s.dequeue t).ctrl = s.ctrl := rfl
@[simp] theorem State.dequeue_line : (s.dequeue t).line = s.line := rfl
@[simp] theorem State.dequeue_slots : (s.dequeue t).slots = s.slots := rfl
@[simp] theorem State.dequeue_pageCursor : (s.dequeue t).pageCursor = s.pageCursor := rfl
@[simp] theorem State.dequeue_roster : (s.dequeue t).roster = s.roster := rfl
@[simp] theorem State.dequeue_locks : (s.dequeue t).locks = s.locks := rfl
@[simp] theorem State.dequeue_repl : (s.dequeue t).repl = s.repl := rfl
@[simp] theorem State.dequeue_req_entries : (s.dequeue t).req.entries = s.req.entries := rfl
@[simp] theorem State.dequeue_req_queue : (s.dequeue t).req.queue = s.req.queue.filter (· ≠ t) := rfl
@[simp] theorem State.dequeue_req_toYield : (s.dequeue t).req.toYield = s.req.toYield := rfl
@[simp] theorem State.dequeue_req_doubtOrder : (s.dequeue t).req.doubtOrder = s.req.doubtOrder.filter (· ≠ t) := rfl
@[simp] theorem State.dequeue_notices : (s.dequeue t).notices = s.notices := rfl
@[simp] theorem State.dequeue_port : (s.dequeue t).port = s.port := rfl
@[simp] theorem State.dequeue_pending : (s.dequeue t).pending = s.pending := rfl
@[simp] theorem State.dequeue_spi : (s.dequeue t).spi = s.spi := rfl

end

section
variable (t : Tag)

@[simp] theorem State.enqueue_ctrl : (s.enqueue t).ctrl = s.ctrl := rfl
@[simp] theorem State.enqueue_line : (s.enqueue t).line = s.line := rfl
@[simp] theorem State.enqueue_slots : (s.enqueue t).slots = s.slots := rfl
@[simp] theorem State.enqueue_pageCursor : (s.enqueue t).pageCursor = s.pageCursor := rfl
@[simp] theorem State.enqueue_roster : (s.enqueue t).roster = s.roster := rfl
@[simp] theorem State.enqueue_locks : (s.enqueue t).locks = s.locks := rfl
@[simp] theorem State.enqueue_repl : (s.enqueue t).repl = s.repl := rfl
@[simp] theorem State.enqueue_req_entries : (s.enqueue t).req.entries = s.req.entries := rfl
@[simp] theorem State.enqueue_req_queue : (s.enqueue t).req.queue = s.req.queue ++ [t] := rfl
@[simp] theorem State.enqueue_req_toYield : (s.enqueue t).req.toYield = s.req.toYield := rfl
@[simp] theorem State.enqueue_req_doubtOrder : (s.enqueue t).req.doubtOrder = s.req.doubtOrder := rfl
@[simp] theorem State.enqueue_notices : (s.enqueue t).notices = s.notices := rfl
@[simp] theorem State.enqueue_port : (s.enqueue t).port = s.port := rfl
@[simp] theorem State.enqueue_pending : (s.enqueue t).pending = s.pending := rfl
@[simp] theorem State.enqueue_spi : (s.enqueue t).spi = s.spi := rfl

end

@[simp] theorem State.clearToYield_ctrl : (s.clearToYield).ctrl = s.ctrl := rfl
@[simp] theorem State.clearToYield_line : (s.clearToYield).line = s.line := rfl
@[simp] theorem State.clearToYield_slots : (s.clearToYield).slots = s.slots := rfl
@[simp] theorem State.clearToYield_pageCursor : (s.clearToYield).pageCursor = s.pageCursor := rfl
@[simp] theorem State.clearToYield_roster : (s.clearToYield).roster = s.roster := rfl
@[simp] theorem State.clearToYield_locks : (s.clearToYield).locks = s.locks := rfl
@[simp] theorem State.clearToYield_repl : (s.clearToYield).repl = s.repl := rfl
@[simp] theorem State.clearToYield_req_entries : (s.clearToYield).req.entries = s.req.entries := rfl
@[simp] theorem State.clearToYield_req_queue : (s.clearToYield).req.queue = s.req.queue := rfl
@[simp] theorem State.clearToYield_req_toYield : (s.clearToYield).req.toYield = [] := rfl
@[simp] theorem State.clearToYield_req_doubtOrder : (s.clearToYield).req.doubtOrder = s.req.doubtOrder := rfl
@[simp] theorem State.clearToYield_notices : (s.clearToYield).notices = s.notices := rfl
@[simp] theorem State.clearToYield_port : (s.clearToYield).port = s.port := rfl
@[simp] theorem State.clearToYield_pending : (s.clearToYield).pending = s.pending := rfl
@[simp] theorem State.clearToYield_spi : (s.clearToYield).spi = s.spi := rfl

section
variable (l : LockNo)

@[simp] theorem State.unyield_ctrl : (s.unyield l).ctrl = s.ctrl := rfl
@[simp] theorem State.unyield_line : (s.unyield l).line = s.line := rfl
@[simp] theorem State.unyield_slots : (s.unyield l).slots = s.slots := rfl
@[simp] theorem State.unyield_pageCursor : (s.unyield l).pageCursor = s.pageCursor := rfl
@[simp] theorem State.unyield_roster : (s.unyield l).roster = s.roster := rfl
@[simp] theorem State.unyield_locks : (s.unyield l).locks = s.locks := rfl
@[simp] theorem State.unyield_repl : (s.unyield l).repl = s.repl := rfl
@[simp] theorem State.unyield_req_entries : (s.unyield l).req.entries = s.req.entries := rfl
@[simp] theorem State.unyield_req_queue : (s.unyield l).req.queue = s.req.queue := rfl
@[simp] theorem State.unyield_req_toYield : (s.unyield l).req.toYield = s.req.toYield.filter (· ≠ l) := rfl
@[simp] theorem State.unyield_req_doubtOrder : (s.unyield l).req.doubtOrder = s.req.doubtOrder := rfl
@[simp] theorem State.unyield_notices : (s.unyield l).notices = s.notices := rfl
@[simp] theorem State.unyield_port : (s.unyield l).port = s.port := rfl
@[simp] theorem State.unyield_pending : (s.unyield l).pending = s.pending := rfl
@[simp] theorem State.unyield_spi : (s.unyield l).spi = s.spi := rfl

end

section
variable (t : Tag) (st : OpStatus) (mark : Bool)

@[simp] theorem State.setOpStatus_ctrl : (s.setOpStatus t st mark).ctrl = s.ctrl := rfl
@[simp] theorem State.setOpStatus_line : (s.setOpStatus t st mark).line = s.line := rfl
@[simp] theorem State.setOpStatus_slots : (s.setOpStatus t st mark).slots = s.slots := rfl
@[simp] theorem State.setOpStatus_pageCursor : (s.setOpStatus t st mark).pageCursor = s.pageCursor := rfl
@[simp] theorem State.setOpStatus_roster : (s.setOpStatus t st mark).roster = s.roster := rfl
@[simp] theorem State.setOpStatus_locks : (s.setOpStatus t st mark).locks = s.locks := rfl
@[simp] theorem State.setOpStatus_repl : (s.setOpStatus t st mark).repl = s.repl := rfl
@[simp] theorem State.setOpStatus_req_entries :
    (s.setOpStatus t st mark).req.entries = s.req.entries.set t.val { s.entry t with opStatus := st, doubtMark := mark } t.isLt := rfl
@[simp] theorem State.setOpStatus_req_queue : (s.setOpStatus t st mark).req.queue = s.req.queue := rfl
@[simp] theorem State.setOpStatus_req_toYield : (s.setOpStatus t st mark).req.toYield = s.req.toYield := rfl
@[simp] theorem State.setOpStatus_req_doubtOrder : (s.setOpStatus t st mark).req.doubtOrder = s.req.doubtOrder := rfl
@[simp] theorem State.setOpStatus_notices : (s.setOpStatus t st mark).notices = s.notices := rfl
@[simp] theorem State.setOpStatus_port : (s.setOpStatus t st mark).port = s.port := rfl
@[simp] theorem State.setOpStatus_pending : (s.setOpStatus t st mark).pending = s.pending := rfl
@[simp] theorem State.setOpStatus_spi : (s.setOpStatus t st mark).spi = s.spi := rfl

end

@[simp] theorem State.clearTable_ctrl : (s.clearTable).ctrl = s.ctrl := rfl
@[simp] theorem State.clearTable_line : (s.clearTable).line = s.line := rfl
@[simp] theorem State.clearTable_slots : (s.clearTable).slots = s.slots := rfl
@[simp] theorem State.clearTable_pageCursor : (s.clearTable).pageCursor = s.pageCursor := rfl
@[simp] theorem State.clearTable_roster : (s.clearTable).roster = s.roster := rfl
@[simp] theorem State.clearTable_locks : (s.clearTable).locks = .replicate 64 .empty := rfl
@[simp] theorem State.clearTable_repl : (s.clearTable).repl = s.repl := rfl
@[simp] theorem State.clearTable_req : (s.clearTable).req = s.req := rfl
@[simp] theorem State.clearTable_notices : (s.clearTable).notices = s.notices := rfl
@[simp] theorem State.clearTable_port : (s.clearTable).port = s.port := rfl
@[simp] theorem State.clearTable_pending : (s.clearTable).pending = s.pending := rfl
@[simp] theorem State.clearTable_spi : (s.clearTable).spi = s.spi := rfl

section
variable (k : Fin 8) (rs : List LockRecord)

@[simp] theorem State.installLocks_ctrl : (s.installLocks k rs).ctrl = s.ctrl := rfl
@[simp] theorem State.installLocks_line : (s.installLocks k rs).line = s.line := rfl
@[simp] theorem State.installLocks_slots : (s.installLocks k rs).slots = s.slots := rfl
@[simp] theorem State.installLocks_pageCursor : (s.installLocks k rs).pageCursor = s.pageCursor := rfl
@[simp] theorem State.installLocks_roster : (s.installLocks k rs).roster = s.roster := rfl
@[simp] theorem State.installLocks_locks : (s.installLocks k rs).locks = s.locks.mapFinIdx fun l r _ => if l / 8 = k.val then rs.getD (l % 8) .empty else r := rfl
@[simp] theorem State.installLocks_repl : (s.installLocks k rs).repl = s.repl := rfl
@[simp] theorem State.installLocks_req : (s.installLocks k rs).req = s.req := rfl
@[simp] theorem State.installLocks_notices : (s.installLocks k rs).notices = s.notices := rfl
@[simp] theorem State.installLocks_port : (s.installLocks k rs).port = s.port := rfl
@[simp] theorem State.installLocks_pending : (s.installLocks k rs).pending = s.pending := rfl
@[simp] theorem State.installLocks_spi : (s.installLocks k rs).spi = s.spi := rfl

end

section
variable (es : List RosterEntry)

@[simp] theorem State.installRoster_ctrl : (s.installRoster es).ctrl = s.ctrl := rfl
@[simp] theorem State.installRoster_line : (s.installRoster es).line = s.line := rfl
@[simp] theorem State.installRoster_slots : (s.installRoster es).slots = s.slots := rfl
@[simp] theorem State.installRoster_pageCursor : (s.installRoster es).pageCursor = s.pageCursor := rfl
@[simp] theorem State.installRoster_roster : (s.installRoster es).roster = s.roster.mapFinIdx fun k _ _ => if k ≤ s.ctrl.snc.val then es.getD k .absent else .absent := rfl
@[simp] theorem State.installRoster_locks : (s.installRoster es).locks = s.locks := rfl
@[simp] theorem State.installRoster_repl : (s.installRoster es).repl = s.repl := rfl
@[simp] theorem State.installRoster_req : (s.installRoster es).req = s.req := rfl
@[simp] theorem State.installRoster_notices : (s.installRoster es).notices = s.notices := rfl
@[simp] theorem State.installRoster_port : (s.installRoster es).port = s.port := rfl
@[simp] theorem State.installRoster_pending : (s.installRoster es).pending = s.pending := rfl
@[simp] theorem State.installRoster_spi : (s.installRoster es).spi = s.spi := rfl

end

section
variable (n : Nat)

@[simp] theorem State.shiftOut_ctrl : (s.shiftOut n).ctrl = s.ctrl := rfl
@[simp] theorem State.shiftOut_line : (s.shiftOut n).line = s.line := rfl
@[simp] theorem State.shiftOut_slots : (s.shiftOut n).slots = s.slots := rfl
@[simp] theorem State.shiftOut_pageCursor : (s.shiftOut n).pageCursor = s.pageCursor := rfl
@[simp] theorem State.shiftOut_roster : (s.shiftOut n).roster = s.roster := rfl
@[simp] theorem State.shiftOut_locks : (s.shiftOut n).locks = s.locks := rfl
@[simp] theorem State.shiftOut_repl : (s.shiftOut n).repl = s.repl := rfl
@[simp] theorem State.shiftOut_req : (s.shiftOut n).req = s.req := rfl
@[simp] theorem State.shiftOut_notices : (s.shiftOut n).notices = s.notices := rfl
@[simp] theorem State.shiftOut_port_held : (s.shiftOut n).port.held = s.port.held := rfl
@[simp] theorem State.shiftOut_port_delivered :
    (s.shiftOut n).port.delivered = decide (3 + s.port.held.payload.length ≤ n) := rfl
@[simp] theorem State.shiftOut_port_truncated : (s.shiftOut n).port.truncated = s.port.truncated := rfl
@[simp] theorem State.shiftOut_port_phase : (s.shiftOut n).port.phase = s.port.phase := rfl
@[simp] theorem State.shiftOut_port_status : (s.shiftOut n).port.status = s.port.status := rfl
@[simp] theorem State.shiftOut_pending : (s.shiftOut n).pending = s.pending := rfl
@[simp] theorem State.shiftOut_spi : (s.shiftOut n).spi = s.spi := rfl

end

section
variable (c : Byte) (r : Reply)

@[simp] theorem State.holdResponse_ctrl : (s.holdResponse c r).ctrl = s.ctrl := rfl
@[simp] theorem State.holdResponse_line : (s.holdResponse c r).line = s.line := rfl
@[simp] theorem State.holdResponse_slots : (s.holdResponse c r).slots = s.slots := rfl
@[simp] theorem State.holdResponse_pageCursor : (s.holdResponse c r).pageCursor = s.pageCursor := rfl
@[simp] theorem State.holdResponse_roster : (s.holdResponse c r).roster = s.roster := rfl
@[simp] theorem State.holdResponse_locks : (s.holdResponse c r).locks = s.locks := rfl
@[simp] theorem State.holdResponse_repl : (s.holdResponse c r).repl = s.repl := rfl
@[simp] theorem State.holdResponse_req : (s.holdResponse c r).req = s.req := rfl
@[simp] theorem State.holdResponse_notices : (s.holdResponse c r).notices = s.notices := rfl
@[simp] theorem State.holdResponse_port_held : (s.holdResponse c r).port.held = ⟨c, r.result, r.payload⟩ := rfl
@[simp] theorem State.holdResponse_port_delivered : (s.holdResponse c r).port.delivered = s.port.delivered := rfl
@[simp] theorem State.holdResponse_port_truncated : (s.holdResponse c r).port.truncated = s.port.truncated := rfl
@[simp] theorem State.holdResponse_port_phase : (s.holdResponse c r).port.phase = s.port.phase := rfl
@[simp] theorem State.holdResponse_port_status : (s.holdResponse c r).port.status = s.port.status := rfl
@[simp] theorem State.holdResponse_pending : (s.holdResponse c r).pending = s.pending := rfl
@[simp] theorem State.holdResponse_spi : (s.holdResponse c r).spi = s.spi := rfl

end

section
variable (b : Bool)

@[simp] theorem State.setTruncated_ctrl : (s.setTruncated b).ctrl = s.ctrl := rfl
@[simp] theorem State.setTruncated_line : (s.setTruncated b).line = s.line := rfl
@[simp] theorem State.setTruncated_slots : (s.setTruncated b).slots = s.slots := rfl
@[simp] theorem State.setTruncated_pageCursor : (s.setTruncated b).pageCursor = s.pageCursor := rfl
@[simp] theorem State.setTruncated_roster : (s.setTruncated b).roster = s.roster := rfl
@[simp] theorem State.setTruncated_locks : (s.setTruncated b).locks = s.locks := rfl
@[simp] theorem State.setTruncated_repl : (s.setTruncated b).repl = s.repl := rfl
@[simp] theorem State.setTruncated_req : (s.setTruncated b).req = s.req := rfl
@[simp] theorem State.setTruncated_notices : (s.setTruncated b).notices = s.notices := rfl
@[simp] theorem State.setTruncated_port_held : (s.setTruncated b).port.held = s.port.held := rfl
@[simp] theorem State.setTruncated_port_delivered : (s.setTruncated b).port.delivered = s.port.delivered := rfl
@[simp] theorem State.setTruncated_port_truncated : (s.setTruncated b).port.truncated = b := rfl
@[simp] theorem State.setTruncated_port_phase : (s.setTruncated b).port.phase = s.port.phase := rfl
@[simp] theorem State.setTruncated_port_status : (s.setTruncated b).port.status = s.port.status := rfl
@[simp] theorem State.setTruncated_pending : (s.setTruncated b).pending = s.pending := rfl
@[simp] theorem State.setTruncated_spi : (s.setTruncated b).spi = s.spi := rfl

end

@[simp] theorem State.closeExchange_ctrl : (s.closeExchange).ctrl = s.ctrl := rfl
@[simp] theorem State.closeExchange_line : (s.closeExchange).line = s.line := rfl
@[simp] theorem State.closeExchange_slots : (s.closeExchange).slots = s.slots := rfl
@[simp] theorem State.closeExchange_pageCursor : (s.closeExchange).pageCursor = s.pageCursor := rfl
@[simp] theorem State.closeExchange_roster : (s.closeExchange).roster = s.roster := rfl
@[simp] theorem State.closeExchange_locks : (s.closeExchange).locks = s.locks := rfl
@[simp] theorem State.closeExchange_repl : (s.closeExchange).repl = s.repl := rfl
@[simp] theorem State.closeExchange_req : (s.closeExchange).req = s.req := rfl
@[simp] theorem State.closeExchange_notices : (s.closeExchange).notices = s.notices := rfl
@[simp] theorem State.closeExchange_port_held : (s.closeExchange).port.held = s.port.held := rfl
@[simp] theorem State.closeExchange_port_delivered : (s.closeExchange).port.delivered = false := rfl
@[simp] theorem State.closeExchange_port_truncated : (s.closeExchange).port.truncated = s.port.truncated := rfl
@[simp] theorem State.closeExchange_port_phase : (s.closeExchange).port.phase = .closed := rfl
@[simp] theorem State.closeExchange_port_status : (s.closeExchange).port.status = none := rfl
@[simp] theorem State.closeExchange_pending : (s.closeExchange).pending = s.pending := rfl
@[simp] theorem State.closeExchange_spi : (s.closeExchange).spi = s.spi := rfl

end Sys2Proof.Machine
end

