-- ==== Sys2Proof/Laws/Reads.lean ====
section
/-! SUPPORT. What the named reads give after the named writes: an entry after a write of an entry, a record after a
write of a record, a roster entry after a write of a roster entry, and the reads that a write leaves alone. -/

namespace Sys2Proof.Machine

variable (s : State)

/-! ### The lists of all tags and all locks -/

@[simp] theorem mem_allTags (t : Tag) : t ∈ allTags := by simp [allTags]
@[simp] theorem mem_allLocks (l : LockNo) : l ∈ allLocks := by simp [allLocks]
theorem nodup_allTags : allTags.Nodup := by unfold allTags; exact List.nodup_finRange 16
theorem nodup_allLocks : allLocks.Nodup := by unfold allLocks; exact List.nodup_finRange 64

/-! ### Request entries -/

@[simp] theorem State.entry_setEntry (t u : Tag) (e : RequestEntry) :
    (s.setEntry t e).entry u = if u = t then e else s.entry u := by
  simp only [State.entry, State.setEntry, Fin.getElem_fin, Vector.getElem_set, Fin.ext_iff, eq_comm]

theorem State.entry_setEntry_self (t : Tag) (e : RequestEntry) : (s.setEntry t e).entry t = e := by simp

@[simp] theorem State.entry_setOpStatus (t u : Tag) (st : OpStatus) (mark : Bool) :
    (s.setOpStatus t st mark).entry u
      = if u = t then { s.entry t with opStatus := st, doubtMark := mark } else s.entry u := by
  simp [State.setOpStatus]

/-- Entries depend on the Request Engine's entries alone. -/
theorem State.entry_congr {s s' : State} (h : s'.req.entries = s.req.entries) (t : Tag) :
    s'.entry t = s.entry t := by
  simp only [State.entry, h]

@[simp] theorem State.entry_raise (b : NoticeBody) (t : Tag) : (s.raise b).entry t = s.entry t := rfl
@[simp] theorem State.entry_dequeue (t u : Tag) : (s.dequeue t).entry u = s.entry u := rfl
@[simp] theorem State.entry_enqueue (t u : Tag) : (s.enqueue t).entry u = s.entry u := rfl
@[simp] theorem State.entry_unyield (l : LockNo) (u : Tag) : (s.unyield l).entry u = s.entry u := rfl
@[simp] theorem State.entry_clearToYield (u : Tag) : s.clearToYield.entry u = s.entry u := rfl
@[simp] theorem State.entry_setLock (l : LockNo) (r : LockRecord) (u : Tag) :
    (s.setLock l r).entry u = s.entry u := rfl

@[simp] theorem RequestEntry.noOp_op (e : RequestEntry) : e.noOp.op = none := rfl
@[simp] theorem RequestEntry.noOp_relation (e : RequestEntry) : e.noOp.relation = e.relation := rfl
@[simp] theorem RequestEntry.noOp_lock (e : RequestEntry) : e.noOp.lock = e.lock := rfl
@[simp] theorem RequestEntry.noOp_opStatus (e : RequestEntry) : e.noOp.opStatus = .queued := rfl
@[simp] theorem RequestEntry.noOp_mode (e : RequestEntry) : e.noOp.mode = e.mode := rfl
@[simp] theorem RequestEntry.noOp_token (e : RequestEntry) : e.noOp.token = e.token := rfl
@[simp] theorem RequestEntry.withOp_op (e : RequestEntry) (k : OpKind) : (e.withOp k).op = some k := rfl
@[simp] theorem RequestEntry.withOp_opStatus (e : RequestEntry) (k : OpKind) : (e.withOp k).opStatus = .queued := rfl
@[simp] theorem RequestEntry.withOp_relation (e : RequestEntry) (k : OpKind) :
    (e.withOp k).relation = e.relation := rfl
@[simp] theorem RequestEntry.withOp_lock (e : RequestEntry) (k : OpKind) : (e.withOp k).lock = e.lock := rfl

/-! ### Records -/

@[simp] theorem State.lock_setLock (l m : LockNo) (r : LockRecord) :
    (s.setLock l r).lock m = if m = l then r else s.lock m := by
  simp only [State.lock, State.setLock, Fin.getElem_fin, Vector.getElem_set, Fin.ext_iff, eq_comm]

/-- Records depend on the table alone. -/
theorem State.lock_congr {s s' : State} (h : s'.locks = s.locks) (l : LockNo) : s'.lock l = s.lock l := by
  simp only [State.lock, h]

@[simp] theorem State.lock_clearTable (l : LockNo) : s.clearTable.lock l = .empty := by
  simp [State.lock, State.clearTable]

theorem State.lock_installLocks (k : Fin 8) (rs : List LockRecord) (l : LockNo) :
    (s.installLocks k rs).lock l = if l.val / 8 = k.val then rs.getD (l.val % 8) .empty else s.lock l := by
  simp [State.lock, State.installLocks]

/-! ### Roster entries -/

@[simp] theorem State.rosterEntry_setRosterEntry (k j : StationNo) (e : RosterEntry) :
    (s.setRosterEntry k e).rosterEntry j = if j = k then e else s.rosterEntry j := by
  simp only [State.rosterEntry, State.setRosterEntry, Fin.getElem_fin, Vector.getElem_set, Fin.ext_iff, eq_comm]

/-- Roster entries depend on the roster alone. -/
theorem State.rosterEntry_congr {s s' : State} (h : s'.roster = s.roster) (k : StationNo) :
    s'.rosterEntry k = s.rosterEntry k := by
  simp only [State.rosterEntry, h]

theorem State.rosterEntry_installRoster (es : List RosterEntry) (k : StationNo) :
    (s.installRoster es).rosterEntry k = if k ≤ s.ctrl.snc then es.getD k.val .absent else .absent := by
  simp [State.rosterEntry, State.installRoster]

theorem foundRoster_entry (k j : StationNo) :
    (foundRoster k)[j] = if j = k then ⟨.active, 0⟩ else .absent := by
  simp only [foundRoster, Fin.getElem_fin, Vector.getElem_set, Fin.ext_iff, eq_comm, Vector.getElem_replicate]

/-! ### Pages -/

theorem State.pageInstalled_addInstalled (p q : Nat) (hp : p < 9) :
    (s.addInstalled p).pageInstalled q = (decide (q = p) || s.pageInstalled q) := by
  simp only [State.pageInstalled, State.addInstalled_repl_installed, BitVec.getLsbD_or, BitVec.getLsbD_twoPow]
  by_cases h : q = p
  · subst h; simp [hp]
  · simp [h, Ne.symm h]

end Sys2Proof.Machine
end

