-- ==== Sys2Proof/Laws/Frames.lean ====
section
/-! SUPPORT. The frames of the shared operations: which blocks of the station each one can change at all. -/

namespace Sys2Proof.Machine

/-- A reflexive and transitive relation that each step of a fold keeps holds from its start to its end. -/
theorem foldl_keeps {α β : Type} {R : β → β → Prop} (hr : ∀ s, R s s) (ht : ∀ {a b c}, R a b → R b c → R a c)
    {f : β → α → β} (hf : ∀ s x, R s (f s x)) (xs : List α) (s : β) : R s (xs.foldl f s) := by
  induction xs generalizing s with
  | nil => exact hr s
  | cons x xs ih => exact ht (hf s x) (ih (f s x))

/-! ### The three frames -/

/-- `t` differs from `s` at most in the Request Engine and the Notice Queue. -/
def State.OnlyRequests (s t : State) : Prop := { t with req := s.req, notices := s.notices } = s

/-- `t` differs from `s` at most in the lock records, the Request Engine and the Notice Queue. -/
def State.OnlyTables (s t : State) : Prop :=
  { t with locks := s.locks, req := s.req, notices := s.notices } = s

/-- `t` differs from `s` at most in roster, lock records, Request Engine and Notice Queue. -/
def State.OnlyRosterTables (s t : State) : Prop :=
  { t with roster := s.roster, locks := s.locks, req := s.req, notices := s.notices } = s

variable {s t u : State}

theorem State.OnlyRequests.refl (s : State) : s.OnlyRequests s := rfl
theorem State.OnlyTables.refl (s : State) : s.OnlyTables s := rfl
theorem State.OnlyRosterTables.refl (s : State) : s.OnlyRosterTables s := rfl

theorem State.OnlyRequests.trans (h : s.OnlyRequests t) (h' : t.OnlyRequests u) : s.OnlyRequests u := by
  rw [State.OnlyRequests, ← h, ← h']

theorem State.OnlyTables.trans (h : s.OnlyTables t) (h' : t.OnlyTables u) : s.OnlyTables u := by
  rw [State.OnlyTables, ← h, ← h']

theorem State.OnlyRosterTables.trans (h : s.OnlyRosterTables t) (h' : t.OnlyRosterTables u) :
    s.OnlyRosterTables u := by
  rw [State.OnlyRosterTables, ← h, ← h']

theorem State.OnlyRequests.tables (h : s.OnlyRequests t) : s.OnlyTables t := by
  rw [State.OnlyTables, ← h]

theorem State.OnlyTables.rosterTables (h : s.OnlyTables t) : s.OnlyRosterTables t := by
  rw [State.OnlyRosterTables, ← h]

theorem State.OnlyRosterTables.ctrl (h : s.OnlyRosterTables t) : t.ctrl = s.ctrl := by rw [← h]
theorem State.OnlyRosterTables.line (h : s.OnlyRosterTables t) : t.line = s.line := by rw [← h]
theorem State.OnlyRosterTables.slots (h : s.OnlyRosterTables t) : t.slots = s.slots := by rw [← h]
theorem State.OnlyRosterTables.pageCursor (h : s.OnlyRosterTables t) : t.pageCursor = s.pageCursor := by rw [← h]
theorem State.OnlyRosterTables.repl (h : s.OnlyRosterTables t) : t.repl = s.repl := by rw [← h]
theorem State.OnlyRosterTables.port (h : s.OnlyRosterTables t) : t.port = s.port := by rw [← h]
theorem State.OnlyRosterTables.spi (h : s.OnlyRosterTables t) : t.spi = s.spi := by rw [← h]
theorem State.OnlyRosterTables.pending (h : s.OnlyRosterTables t) : t.pending = s.pending := by rw [← h]
theorem State.OnlyTables.roster (h : s.OnlyTables t) : t.roster = s.roster := by rw [← h]
theorem State.OnlyRequests.locks (h : s.OnlyRequests t) : t.locks = s.locks := by rw [← h]

/-! ### Request Engine and Notice Queue -/

namespace Touches

variable (s : State)

theorem setEntry (t : Tag) (e : RequestEntry) : s.OnlyRequests (s.setEntry t e) := rfl
theorem setOpStatus (t : Tag) (st : OpStatus) (m : Bool) : s.OnlyRequests (s.setOpStatus t st m) := rfl
theorem dequeue (t : Tag) : s.OnlyRequests (s.dequeue t) := rfl
theorem enqueue (t : Tag) : s.OnlyRequests (s.enqueue t) := rfl
theorem discardOp (t : Tag) : s.OnlyRequests (s.discardOp t) := rfl
theorem queueOp (t : Tag) (k : OpKind) : s.OnlyRequests (s.queueOp t k) := rfl
theorem raise (b : NoticeBody) : s.OnlyRequests (s.raise b) := rfl
theorem raiseHeld (t : Tag) : s.OnlyRequests (s.raiseHeld t) := rfl
theorem raiseWaiting (t : Tag) (n : Nat) : s.OnlyRequests (s.raiseWaiting t n) := rfl
theorem endEntry (t : Tag) (o : EndOutcome) : s.OnlyRequests (s.endEntry t o) := rfl
theorem unyield (l : LockNo) : s.OnlyRequests (s.unyield l) := rfl
theorem clearToYield : s.OnlyRequests s.clearToYield := rfl
theorem supersede (t : Tag) : s.OnlyRequests (s.supersede t) := rfl
theorem fillToYield : s.OnlyRequests s.fillToYield := rfl

/-- A fold of steps that keep to the Request Engine and the Notice Queue keeps to them. -/
theorem foldl_requests {α : Type} {f : State → α → State} (hf : ∀ (s : State) (x : α), s.OnlyRequests (f s x)) (xs : List α)
    (s : State) : s.OnlyRequests (xs.foldl f s) :=
  foldl_keeps State.OnlyRequests.refl State.OnlyRequests.trans hf xs s

theorem foldl_tables {α : Type} {f : State → α → State} (hf : ∀ (s : State) (x : α), s.OnlyTables (f s x)) (xs : List α)
    (s : State) : s.OnlyTables (xs.foldl f s) :=
  foldl_keeps State.OnlyTables.refl State.OnlyTables.trans hf xs s

/-- Any content of the Request Engine may stand beside. -/
theorem withReq {s t : State} (h : s.OnlyRequests t) (r : RequestEngine) : s.OnlyRequests { t with req := r } := h

theorem endLive (o : EndOutcome) (t : Tag) : s.OnlyRequests (State.endLive o s t) := by
  unfold State.endLive
  split <;> rfl

theorem endAll (o : EndOutcome) : s.OnlyRequests (s.endAll o) := by
  unfold State.endAll
  exact withReq (foldl_requests (fun s t => endLive s o t) allTags s) _

theorem returnToHead (ts : List Tag) : s.OnlyRequests (s.returnToHead ts) :=
  withReq (foldl_requests (fun s t => setOpStatus s t .queued false) ts s) _

theorem returnDrawn (ts : List Tag) : s.OnlyRequests (s.returnDrawn ts) := returnToHead s _

theorem doubtDrawn (ts : List Tag) : s.OnlyRequests (s.doubtDrawn ts) :=
  withReq (foldl_requests (fun s t => setOpStatus s t .doubtful false) (ts.filter s.inFlight) s) _

theorem requeueDoubtful : s.OnlyRequests s.requeueDoubtful :=
  withReq (returnToHead s (s.doubtfulMarked true ++ s.doubtfulMarked false)) _

theorem settleDoubtful : s.OnlyRequests s.settleDoubtful :=
  (withReq (returnToHead s (s.doubtfulMarked true)) _).trans
    (foldl_requests (fun s t => setOpStatus s t .doubtful true) _ _)

theorem entryResult (t : Tag) (k : OpKind) (r : OpResult) : s.OnlyRequests (s.entryResult t k r) := by
  unfold State.entryResult
  dsimp only
  split <;> rfl

theorem resultReport (k : OpKind) (l : LockNo) (r : OpResult) : s.OnlyRequests (s.resultReport k l r) := by
  unfold State.resultReport
  split
  · exact entryResult s _ k r
  · split <;> rfl

theorem grantReport (l : LockNo) (m : Mode) (tok : Word16) : s.OnlyRequests (s.grantReport l m tok) := by
  unfold State.grantReport
  split
  · rfl
  · split
    · rfl
    · split <;> rfl

theorem removalReport (l : LockNo) (o : EndOutcome) : s.OnlyRequests (s.removalReport l o) := by
  unfold State.removalReport
  split
  · rfl
  · split
    · rfl
    · split <;> rfl

theorem foundEntry (t : Tag) : s.OnlyRequests (s.foundEntry t) := by
  unfold State.foundEntry
  split <;> rfl

theorem foundHandling : s.OnlyRequests s.foundHandling := by
  unfold State.foundHandling
  exact ((foldl_requests foundEntry allTags s).trans (requeueDoubtful _)).trans (clearToYield _)

theorem reconcileEntry (t : Tag) : s.OnlyRequests (s.reconcileEntry t) := by
  unfold State.reconcileEntry
  dsimp only
  repeat' split
  all_goals rfl

theorem reconcile : s.OnlyRequests s.reconcile := by
  unfold State.reconcile
  exact ((foldl_requests reconcileEntry allTags s).trans (requeueDoubtful _)).trans (fillToYield _)

theorem draw : s.OnlyRequests s.draw.2.2 :=
  (show s.OnlyRequests { s with req.queue := (drawFrom s.heldBack Config.frameOps s.req.queue).2 } from rfl).trans
    (foldl_requests (fun s t => setOpStatus s t .inFlight false) _ _)

theorem removeHead (n : Byte) : s.OnlyRequests (s.removeHead n) := by
  unfold State.removeHead
  split
  · rfl
  · split
    · dsimp only
      split <;> rfl
    · rfl

/-! ### The Lock Table -/

theorem setLock (l : LockNo) (r : LockRecord) : s.OnlyTables (s.setLock l r) := rfl

theorem reportGrant (l : LockNo) (a b : LockRecord) : s.OnlyRequests (s.reportGrant l a b) := by
  unfold State.reportGrant
  split
  · split
    · exact grantReport s l _ _
    · rfl
  · rfl

theorem applyOperation (k : StationNo) (o : Operation) : s.OnlyTables (s.applyOperation k o) := by
  unfold State.applyOperation
  split
  · rfl
  · split
    · dsimp only
      split
      · split
        · exact (setLock s _ _).trans (((resultReport _ _ _ _).trans (reportGrant _ _ _ _)).tables)
        · exact (setLock s _ _).trans (reportGrant _ _ _ _).tables
      · rfl
    · rfl

theorem applyOperations (k : StationNo) (ops : List Operation) : s.OnlyTables (s.applyOperations k ops) :=
  foldl_tables (fun s o => applyOperation s k o) ops s

theorem purgeLock (k : StationNo) (c : PurgeCause) (l : LockNo) : s.OnlyTables (s.purgeLock k c l) := by
  unfold State.purgeLock
  split
  · dsimp only
    split
    · split
      · exact (setLock s _ _).trans (((removalReport _ _ _).trans (reportGrant _ _ _ _)).tables)
      · exact (setLock s _ _).trans (reportGrant _ _ _ _).tables
    · rfl
  · rfl

theorem purge (k : StationNo) (c : PurgeCause) : s.OnlyTables (s.purge k c) :=
  foldl_tables (fun s l => purgeLock s k c l) allLocks s

theorem expireLock (l : LockNo) : s.OnlyTables (s.expireLock l) := by
  unfold State.expireLock
  dsimp only
  split
  · split
    · split
      · exact (setLock s _ _).trans (((removalReport _ _ _).trans (reportGrant _ _ _ _)).tables)
      · exact (setLock s _ _).trans (reportGrant _ _ _ _).tables
    · rfl
  · rfl

theorem expireAll : s.OnlyTables s.expireAll := foldl_tables expireLock allLocks s

theorem cycleEndWork : s.OnlyTables s.cycleEndWork := by
  unfold State.cycleEndWork
  split
  · exact expireAll s
  · rfl

/-! ### The Roster -/

theorem setRosterEntry (k : StationNo) (e : RosterEntry) : s.OnlyRosterTables (s.setRosterEntry k e) := rfl

theorem putRoster (k : StationNo) (e : RosterEntry) : s.OnlyRosterTables (s.putRoster k e) := by
  unfold State.putRoster
  dsimp only
  split <;> rfl

theorem rosterFrame (k : StationNo) (st : FrameStatus) : s.OnlyRosterTables (s.rosterFrame k st) := by
  unfold State.rosterFrame
  split
  · split
    · exact putRoster s k _
    · exact putRoster s k _
    · dsimp only
      split
      · exact putRoster s k _
      · exact (putRoster s k _).trans (purge _ k _).rosterTables
    · exact (putRoster s k _).trans (purge _ k _).rosterTables
    · rfl
  · rfl

theorem rosterActivity (k : StationNo) : s.OnlyRosterTables (s.rosterActivity k) := by
  unfold State.rosterActivity
  split <;> rfl

theorem dropStation (k : StationNo) : s.OnlyRosterTables (s.dropStation k) :=
  (putRoster s k _).trans (purge _ k _).rosterTables

theorem rosterSilence (k : StationNo) : s.OnlyRosterTables (s.rosterSilence k) := by
  unfold State.rosterSilence
  split
  · dsimp only
    split
    · exact (setRosterEntry s k _).trans (dropStation _ k)
    · rfl
  · rfl

end Touches

end Sys2Proof.Machine
end

