-- ==== Sys2Proof/Laws/Notices.lean ====
section
/-! SUPPORT. The Notice Queue: what one raise does to the queue, and which operations do nothing to it but raise. -/

namespace Sys2Proof.Machine

/-! ### One raise -/

@[simp] theorem NoticeBody.owner_coalesce (a b : NoticeBody) (h : a.owner = b.owner) :
    (a.coalesce b).owner = b.owner := by
  cases a <;> cases b <;> simp_all [NoticeBody.coalesce, NoticeBody.owner]

/-- The owners after a raise: the same ones in the same order, the raised one joining at the tail where it is new
(R128, R129). -/
theorem owners_raiseOnto (sr : Byte) (b : NoticeBody) (q : List Notice) :
    (raiseOnto sr b q).map (fun n => n.body.owner)
      = if b.owner ∈ q.map (fun n => n.body.owner) then q.map (fun n => n.body.owner)
        else q.map (fun n => n.body.owner) ++ [b.owner] := by
  induction q with
  | nil => simp [raiseOnto]
  | cons n q ih =>
    by_cases h : n.body.owner = b.owner
    · simp [raiseOnto, h, NoticeBody.owner_coalesce n.body b h]
    · have h' : ¬ b.owner = n.body.owner := fun e => h e.symm
      simp only [raiseOnto, h, if_false, List.map_cons, ih, List.mem_cons, h', false_or]
      split <;> simp_all

/-- A raise leaves every notice of another owner, and adds none of another owner. -/
theorem mem_raiseOnto_other {sr : Byte} {b : NoticeBody} {q : List Notice} {n : Notice}
    (h : n.body.owner ≠ b.owner) : n ∈ raiseOnto sr b q ↔ n ∈ q := by
  induction q with
  | nil =>
    simp only [raiseOnto, List.mem_singleton, List.not_mem_nil, iff_false]
    rintro rfl
    exact h rfl
  | cons m q ih =>
    by_cases hm : m.body.owner = b.owner
    · simp only [raiseOnto, hm, if_true, List.mem_cons]
      constructor
      · rintro (rfl | hn)
        · exact absurd (NoticeBody.owner_coalesce m.body b hm) h
        · exact .inr hn
      · rintro (rfl | hn)
        · exact absurd hm h
        · exact .inr hn
    · simp only [raiseOnto, hm, if_false, List.mem_cons, ih]

/-- The raised notice is in the queue, with the new serial and, unless it is a FAULT, with the body raised. -/
theorem mem_raiseOnto_self (sr : Byte) {b : NoticeBody} (hb : b.owner ≠ .fault) (q : List Notice) :
    ⟨sr, b⟩ ∈ raiseOnto sr b q := by
  induction q with
  | nil => simp [raiseOnto]
  | cons m q ih =>
    by_cases hm : m.body.owner = b.owner
    · have : m.body.coalesce b = b := by
        cases hb' : b <;> cases hm' : m.body <;> simp_all [NoticeBody.coalesce, NoticeBody.owner]
      simp [raiseOnto, hm, this]
    · simp [raiseOnto, hm, ih]

/-- Where every owner has at most one notice, the raised owner's one is the notice raised. -/
theorem eq_of_mem_raiseOnto {sr : Byte} {b : NoticeBody} (hb : b.owner ≠ .fault) {q : List Notice}
    (hq : (q.map fun n => n.body.owner).Nodup) {n : Notice} (hn : n ∈ raiseOnto sr b q)
    (ho : n.body.owner = b.owner) : n = ⟨sr, b⟩ := by
  have hnd : ((raiseOnto sr b q).map fun n => n.body.owner).Nodup := by
    rw [owners_raiseOnto]
    split
    · exact hq
    · rename_i h
      exact List.Nodup.append hq (by simp) (by simpa using h)
  exact List.inj_on_of_nodup_map hnd hn (mem_raiseOnto_self sr hb q) ho

/-! ### The queue after any number of raises -/

/-- `t`'s Notice Queue comes from `s`'s by raises alone. -/
inductive State.Raised (s : State) : State → Prop where
  | same {t : State} : t.notices = s.notices → s.Raised t
  | raised {t u : State} (b : NoticeBody) : s.Raised t → u.notices = (t.raise b).notices → s.Raised u

theorem State.Raised.refl (s : State) : s.Raised s := .same rfl

theorem State.Raised.trans {s t u : State} (h : s.Raised t) (h' : t.Raised u) : s.Raised u := by
  induction h' with
  | same e =>
    cases h with
    | same e' => exact .same (e.trans e')
    | raised b hr e' => exact .raised b hr (e.trans e')
  | raised b _ e ih => exact .raised b ih e

/-- One raise. -/
theorem State.Raised.one {s t : State} (b : NoticeBody) (h : t.notices = (s.raise b).notices) : s.Raised t :=
  .raised b (.refl s) h

/-- Raises keep the law of R125. -/
theorem State.Raised.distinct {s t : State} (h : s.Raised t) (hs : s.NoticesDistinct) : t.NoticesDistinct := by
  induction h with
  | same e => rw [State.NoticesDistinct, e]; exact hs
  | raised b _ e ih =>
    rw [State.NoticesDistinct, e, State.raise_notices_queue, owners_raiseOnto]
    split
    · exact ih
    · rename_i hn
      exact List.Nodup.append ih (by simp) (by simpa using hn)

/-- A queue with at most one notice of each owner holds at most 20 (R125). -/
theorem notices_le_twenty {q : List Notice} (h : (q.map fun n => n.body.owner).Nodup) : q.length ≤ 20 := by
  let all : List NoticeOwner := (List.finRange 16).map .tag ++ [.sync, .roster, .tableLost, .fault]
  have hsub : (q.map fun n => n.body.owner) ⊆ all := by
    intro o _
    cases o <;> simp [all]
  have := (h.subperm hsub).length_le
  simpa [all] using this

namespace Raises

variable (s : State)

theorem foldl_raised {α : Type} {f : State → α → State} (hf : ∀ (s : State) (x : α), s.Raised (f s x)) (xs : List α)
    (s : State) : s.Raised (xs.foldl f s) :=
  foldl_keeps State.Raised.refl State.Raised.trans hf xs s

theorem raise (b : NoticeBody) : s.Raised (s.raise b) := .one b rfl
theorem setOpStatus (t : Tag) (st : OpStatus) (m : Bool) : s.Raised (s.setOpStatus t st m) := .same rfl
theorem setEntry (t : Tag) (e : RequestEntry) : s.Raised (s.setEntry t e) := .same rfl
theorem endEntry (t : Tag) (o : EndOutcome) : s.Raised (s.endEntry t o) := .one _ rfl
theorem raiseHeld (t : Tag) : s.Raised (s.raiseHeld t) := .one _ rfl
theorem raiseWaiting (t : Tag) (n : Nat) : s.Raised (s.raiseWaiting t n) := .one _ rfl
theorem clearToYield : s.Raised s.clearToYield := .same rfl
theorem fillToYield : s.Raised s.fillToYield := .same rfl
theorem clearVote : s.Raised s.clearVote := .same rfl
theorem clearTable : s.Raised s.clearTable := .same rfl
theorem setInstalled (p : BitVec 9) : s.Raised (s.setInstalled p) := .same rfl
theorem becomeActive : s.Raised s.becomeActive := .same rfl

/-- A raise that a condition decides. -/
theorem raiseIf {s t : State} (h : s.Raised t) (b : Bool) (n : NoticeBody) :
    s.Raised (if b then t.raise n else t) := by
  split
  · exact h.trans (raise t n)
  · exact h

/-- Another Request Engine beside the same Notice Queue. -/
theorem withReq {s t : State} (h : s.Raised t) (r : RequestEngine) : s.Raised { t with req := r } :=
  h.trans (.same rfl)

theorem endAll (o : EndOutcome) : s.Raised (s.endAll o) := by
  unfold State.endAll
  refine withReq (foldl_raised ?_ allTags s) _
  intro s t
  unfold State.endLive
  split
  · exact endEntry s t o
  · exact .refl s

theorem returnToHead (ts : List Tag) : s.Raised (s.returnToHead ts) :=
  withReq (foldl_raised (fun s t => setOpStatus s t .queued false) ts s) _

theorem returnDrawn (ts : List Tag) : s.Raised (s.returnDrawn ts) := returnToHead s _

theorem doubtDrawn (ts : List Tag) : s.Raised (s.doubtDrawn ts) :=
  withReq (foldl_raised (fun s t => setOpStatus s t .doubtful false) (ts.filter s.inFlight) s) _

theorem requeueDoubtful : s.Raised s.requeueDoubtful :=
  withReq (returnToHead s (s.doubtfulMarked true ++ s.doubtfulMarked false)) _

theorem settleDoubtful : s.Raised s.settleDoubtful :=
  (withReq (returnToHead s (s.doubtfulMarked true)) _).trans
    (foldl_raised (fun s t => setOpStatus s t .doubtful true) _ _)

theorem draw : s.Raised s.draw.2.2 :=
  (withReq (.refl s) { s.req with queue := (drawFrom s.heldBack Config.frameOps s.req.queue).2 }).trans
    (foldl_raised (fun s t => setOpStatus s t .inFlight false) _ _)

theorem entryResult (t : Tag) (k : OpKind) (r : OpResult) : s.Raised (s.entryResult t k r) := by
  unfold State.entryResult
  dsimp only
  split <;> first | exact .one _ rfl | exact .same rfl

theorem resultReport (k : OpKind) (l : LockNo) (r : OpResult) : s.Raised (s.resultReport k l r) := by
  unfold State.resultReport
  split
  · exact entryResult s _ k r
  · split <;> exact .same rfl

theorem grantReport (l : LockNo) (m : Mode) (tok : Word16) : s.Raised (s.grantReport l m tok) := by
  unfold State.grantReport
  repeat' split
  all_goals first | exact .same rfl | exact .one _ rfl

theorem removalReport (l : LockNo) (o : EndOutcome) : s.Raised (s.removalReport l o) := by
  unfold State.removalReport
  repeat' split
  all_goals first | exact .same rfl | exact .one _ rfl

theorem foundEntry (t : Tag) : s.Raised (s.foundEntry t) := by
  unfold State.foundEntry
  split
  · exact endEntry s t _
  · exact .refl s

theorem foundHandling : s.Raised s.foundHandling := by
  unfold State.foundHandling
  exact ((foldl_raised foundEntry allTags s).trans (requeueDoubtful _)).trans (clearToYield _)

theorem reconcileEntry (t : Tag) : s.Raised (s.reconcileEntry t) := by
  unfold State.reconcileEntry
  dsimp only
  repeat' split
  all_goals first | exact .same rfl | exact .one _ rfl

theorem reconcile : s.Raised s.reconcile := by
  unfold State.reconcile
  exact ((foldl_raised reconcileEntry allTags s).trans (requeueDoubtful _)).trans (fillToYield _)

theorem reportGrant (l : LockNo) (a b : LockRecord) : s.Raised (s.reportGrant l a b) := by
  unfold State.reportGrant
  split
  · split
    · exact grantReport s l _ _
    · exact .refl s
  · exact .refl s

theorem setLock (l : LockNo) (r : LockRecord) : s.Raised (s.setLock l r) := .same rfl

theorem applyOperation (k : StationNo) (o : Operation) : s.Raised (s.applyOperation k o) := by
  unfold State.applyOperation
  split
  · exact .refl s
  · split
    · dsimp only
      split
      · split
        · exact (setLock s _ _).trans ((resultReport _ _ _ _).trans (reportGrant _ _ _ _))
        · exact (setLock s _ _).trans (reportGrant _ _ _ _)
      · exact setLock s _ _
    · exact .refl s

theorem applyOperations (k : StationNo) (ops : List Operation) : s.Raised (s.applyOperations k ops) :=
  foldl_raised (fun s o => applyOperation s k o) ops s

theorem purgeLock (k : StationNo) (c : PurgeCause) (l : LockNo) : s.Raised (s.purgeLock k c l) := by
  unfold State.purgeLock
  split
  · dsimp only
    split
    · split
      · exact (setLock s _ _).trans ((removalReport _ _ _).trans (reportGrant _ _ _ _))
      · exact (setLock s _ _).trans (reportGrant _ _ _ _)
    · exact setLock s _ _
  · exact .refl s

theorem purge (k : StationNo) (c : PurgeCause) : s.Raised (s.purge k c) :=
  foldl_raised (fun s l => purgeLock s k c l) allLocks s

theorem expireLock (l : LockNo) : s.Raised (s.expireLock l) := by
  unfold State.expireLock
  dsimp only
  split
  · split
    · split
      · exact (setLock s _ _).trans ((removalReport _ _ _).trans (reportGrant _ _ _ _))
      · exact (setLock s _ _).trans (reportGrant _ _ _ _)
    · exact setLock s _ _
  · exact .refl s

theorem expireAll : s.Raised s.expireAll := foldl_raised expireLock allLocks s

theorem cycleEndWork : s.Raised s.cycleEndWork := by
  unfold State.cycleEndWork
  split
  · exact expireAll s
  · exact .refl s

theorem setRosterEntry (k : StationNo) (e : RosterEntry) : s.Raised (s.setRosterEntry k e) := .same rfl

theorem putRoster (k : StationNo) (e : RosterEntry) : s.Raised (s.putRoster k e) := by
  unfold State.putRoster
  dsimp only
  split
  · exact .one _ rfl
  · exact .same rfl

theorem rosterFrame (k : StationNo) (st : FrameStatus) : s.Raised (s.rosterFrame k st) := by
  unfold State.rosterFrame
  split
  · split
    · exact putRoster s k _
    · exact putRoster s k _
    · dsimp only
      split
      · exact putRoster s k _
      · exact (putRoster s k _).trans (purge _ k _)
    · exact (putRoster s k _).trans (purge _ k _)
    · exact .refl s
  · exact .refl s

theorem rosterActivity (k : StationNo) : s.Raised (s.rosterActivity k) := by
  unfold State.rosterActivity
  split <;> exact .same rfl

theorem dropStation (k : StationNo) : s.Raised (s.dropStation k) := (putRoster s k _).trans (purge _ k _)

theorem rosterSilence (k : StationNo) : s.Raised (s.rosterSilence k) := by
  unfold State.rosterSilence
  split
  · dsimp only
    split
    · exact (setRosterEntry s k _).trans (dropStation _ k)
    · exact setRosterEntry s k _
  · exact .refl s

theorem goOffLine (st : StationState) : s.Raised (s.goOffLine st) := .same rfl

theorem halt (f : FaultSet) : s.Raised (s.halt f) :=
  ((goOffLine s .halted).trans (raise _ _)).trans (endAll _ _)

theorem stop : s.Raised s.stop := (endAll s _).trans (goOffLine _ _)

/-- The notices of R103 that come before FOUND handling, and FOUND handling. -/
theorem foundNotices {s t : State} (h : s.Raised t) (a b : Bool) :
    s.Raised
      (if b then (if a then t.raise .roster else t).raise .tableLost
        else (if a then t.raise .roster else t)).foundHandling :=
  (raiseIf (raiseIf h a _) b _).trans (foundHandling _)

theorem found (f : Frame) : s.Raised (s.found f) := by
  have h : s.Raised { s with roster := foundRoster f.sender, slots.cycle := f.cycle } := .same rfl
  have h' := foundNotices (((h.trans (clearTable _)).trans (setInstalled _ allPages)).trans (becomeActive _))
    (s.isActive && s.rosterChanges (foundRoster f.sender)) (s.isActive || decide (0 < s.liveCount))
  unfold State.found
  dsimp only
  split
  · exact h'
  · exact h'.trans (raise _ _)

theorem evaluateVote : s.Raised s.evaluateVote := by
  unfold State.evaluateVote
  split
  · exact .one _ rfl
  · exact (clearVote s).trans (settleDoubtful _)

theorem completeRecovery : s.Raised s.completeRecovery := by
  unfold State.completeRecovery
  split
  · exact ((becomeActive s).trans (reconcile _)).trans (raise _ _)
  · exact .refl s

end Raises

/-! ### One raise in the queue -/

/-- A raised notice is in the queue, unless it is a FAULT, whose content may be joined to an unread one (R128). -/
theorem State.raise_mem_self (s : State) (b : NoticeBody) (h : b.owner ≠ .fault) :
    ∃ n ∈ (s.raise b).notices.queue, n.body = b :=
  ⟨_, by rw [State.raise_notices_queue]; exact mem_raiseOnto_self _ h _, rfl⟩

/-- A raise leaves the notices of every other owner in the queue. -/
theorem State.raise_mem_other {s : State} {b : NoticeBody} {n : Notice} (h : n ∈ s.notices.queue)
    (ho : n.body.owner ≠ b.owner) : n ∈ (s.raise b).notices.queue := by
  rw [State.raise_notices_queue]
  exact (mem_raiseOnto_other ho).2 h

end Sys2Proof.Machine
end

