-- ==== Sys2Proof/Laws/Requests.lean ====
section
/-! SUPPORT. The Request Engine: every operation keeps the laws of R108 to R110 and the law of R125, which stand
together here because an END notice and its entry come and go together (R109). -/

namespace Sys2Proof.Machine

/-- The laws of the request entries beside the law of the Notice Queue. -/
structure State.RequestNoticeLaw (s : State) : Prop where
  distinct : s.NoticesDistinct
  law : s.RequestLaw

variable {s u : State}

/-! ### END notices after a raise -/

theorem State.endUnread_congr (h : u.notices.queue = s.notices.queue) (t : Tag) :
    u.EndUnread t ↔ s.EndUnread t := by
  simp only [State.EndUnread, h]

theorem State.endUnread_raise_other (b : NoticeBody) (t : Tag) (h : b.owner ≠ .tag t) :
    (s.raise b).EndUnread t ↔ s.EndUnread t := by
  simp only [State.EndUnread, State.raise_notices_queue]
  refine exists_congr fun n => ?_
  constructor
  · rintro ⟨hn, l, o, e⟩
    exact ⟨(mem_raiseOnto_other (by rw [e]; exact fun e' => h e'.symm)).1 hn, l, o, e⟩
  · rintro ⟨hn, l, o, e⟩
    exact ⟨(mem_raiseOnto_other (by rw [e]; exact fun e' => h e'.symm)).2 hn, l, o, e⟩

theorem State.endUnread_raise_ended (t : Tag) (l : LockNo) (o : EndOutcome) :
    (s.raise (.ended t l o)).EndUnread t :=
  ⟨_, mem_raiseOnto_self _ (by simp [NoticeBody.owner]) _, l, o, rfl⟩

theorem State.not_endUnread_raise_update (hs : s.NoticesDistinct) (t : Tag) (l : LockNo) (m : Mode)
    (st : Standing) : ¬ (s.raise (.update t l m st)).EndUnread t := by
  rintro ⟨n, hn, l', o, e⟩
  have := eq_of_mem_raiseOnto (b := .update t l m st) (by simp [NoticeBody.owner]) hs hn (by rw [e]; rfl)
  rw [this] at e
  simp at e

/-! ### A change at one entry -/

/-- A change at the entry of one tag, with the places of that tag in the queue, in the doubt order and in the
notice queue, keeps the law where the tag's own items fit together. -/
theorem State.RequestLaw.change (h : s.RequestLaw) (t : Tag) (others : ∀ v, v ≠ t → u.entry v = s.entry v)
    (pending : (u.entry t).relation = .pending ↔ (u.entry t).op = some .claim)
    (opLive : (u.entry t).op.isSome = true → (u.entry t).live = true)
    (live : (u.entry t).live = true →
      ∀ v, v ≠ t → (s.entry v).live = true → (s.entry v).lock ≠ (u.entry t).lock)
    (ended : (u.entry t).relation = .ended ↔ u.EndUnread t)
    (endedOthers : ∀ v, v ≠ t → (u.EndUnread v ↔ s.EndUnread v))
    (queueOnce : u.req.queue.Nodup)
    (queue : t ∈ u.req.queue ↔ (u.entry t).op.isSome = true ∧ (u.entry t).opStatus = .queued)
    (queueOthers : ∀ v, v ≠ t → (v ∈ u.req.queue ↔ v ∈ s.req.queue))
    (doubtOnce : u.req.doubtOrder.Nodup)
    (doubt : t ∈ u.req.doubtOrder ↔ u.doubtful t = true)
    (doubtOthers : ∀ v, v ≠ t → (v ∈ u.req.doubtOrder ↔ v ∈ s.req.doubtOrder))
    (own : u.line.own = s.line.own) : u.RequestLaw where
  pendingClaim v := by
    by_cases hv : v = t
    · subst hv; exact pending
    · rw [others v hv]; exact h.pendingClaim v
  opLive v := by
    by_cases hv : v = t
    · subst hv; exact opLive
    · rw [others v hv]; exact h.opLive v
  oneLock v w hv hw he := by
    by_cases hvt : v = t <;> by_cases hwt : w = t
    · rw [hvt, hwt]
    · subst hvt
      rw [others w hwt] at hw he
      exact absurd he.symm (live hv w hwt hw)
    · subst hwt
      rw [others v hvt] at hv he
      exact absurd he (live hw v hvt hv)
    · rw [others v hvt] at hv he
      rw [others w hwt] at hw he
      exact h.oneLock v w hv hw he
  endNotice v := by
    by_cases hv : v = t
    · subst hv; exact ended
    · rw [others v hv, endedOthers v hv]; exact h.endNotice v
  queueOnce := queueOnce
  queueOps v := by
    by_cases hv : v = t
    · subst hv; exact queue
    · rw [queueOthers v hv, others v hv]; exact h.queueOps v
  doubtOnce := doubtOnce
  doubtOps v := by
    by_cases hv : v = t
    · subst hv; exact doubt
    · rw [doubtOthers v hv, h.doubtOps v, State.doubtful, State.doubtful, others v hv]
  ownOnce := by rw [own]; exact h.ownOnce

/-- The law depends on the entries, the queue, the doubt order, the notice queue and the own frame. -/
theorem State.RequestLaw.congr (h : s.RequestLaw) (entries : u.req.entries = s.req.entries)
    (queue : u.req.queue = s.req.queue) (doubt : u.req.doubtOrder = s.req.doubtOrder)
    (ended : ∀ t, u.EndUnread t ↔ s.EndUnread t) (own : ∀ o ∈ u.line.own, o.tags.Nodup) : u.RequestLaw := by
  have he := State.entry_congr entries
  constructor
  · intro t; rw [he]; exact h.pendingClaim t
  · intro t; rw [he]; exact h.opLive t
  · intro t v; rw [he, he]; exact h.oneLock t v
  · intro t; rw [he, ended]; exact h.endNotice t
  · rw [queue]; exact h.queueOnce
  · intro t; rw [he, queue]; exact h.queueOps t
  · rw [doubt]; exact h.doubtOnce
  · intro t; rw [doubt, h.doubtOps t, State.doubtful, State.doubtful, he]
  · exact own

/-- A change outside Request Engine, Notice Queue and own frame keeps both laws. -/
theorem State.RequestNoticeLaw.congr (h : s.RequestNoticeLaw) (req : u.req = s.req)
    (notices : u.notices = s.notices) (own : u.line.own = s.line.own) : u.RequestNoticeLaw where
  distinct := by rw [State.NoticesDistinct, notices]; exact h.distinct
  law := h.law.congr (by rw [req]) (by rw [req]) (by rw [req]) (State.endUnread_congr (by rw [notices]))
    (by rw [own]; exact h.law.ownOnce)

/-- A raise of a station kind keeps both laws. -/
theorem State.RequestNoticeLaw.raise (h : s.RequestNoticeLaw) (b : NoticeBody) (hb : ∀ t, b.owner ≠ .tag t) :
    (s.raise b).RequestNoticeLaw where
  distinct := (Raises.raise s b).distinct h.distinct
  law := h.law.congr rfl rfl rfl (fun t => State.endUnread_raise_other b t (hb t)) h.law.ownOnce

/-! ### Entries -/

/-- A live entry has no unread END. -/
theorem State.RequestLaw.not_endUnread (h : s.RequestLaw) {t : Tag} (ht : (s.entry t).live = true) :
    ¬ s.EndUnread t := by
  rw [← h.endNotice t]
  intro e
  simp [RequestEntry.live, Relation.live, e] at ht

theorem live_of_relation {e : RequestEntry} :
    e.live = true ↔ e.relation = .pending ∨ e.relation = .waiting ∨ e.relation = .held := by
  cases h : e.relation <;> simp [RequestEntry.live, Relation.live, h]

/-- Another live entry names another lock. -/
theorem State.RequestLaw.otherLock (h : s.RequestLaw) {t v : Tag} (ht : (s.entry t).live = true) (hv : v ≠ t)
    (hlv : (s.entry v).live = true) : (s.entry v).lock ≠ (s.entry t).lock :=
  fun e => hv (h.oneLock v t hlv ht e)

theorem State.RequestNoticeLaw.endEntry (h : s.RequestNoticeLaw) {t : Tag} (o : EndOutcome) :
    (s.endEntry t o).RequestNoticeLaw where
  distinct := (Raises.endEntry s t o).distinct h.distinct
  law := by
    refine h.law.change t ?_ ?_ ?_ ?_ ?_ ?_ ?_ ?_ ?_ ?_ ?_ ?_ ?_
    · intro v hv; simp [State.endEntry, hv]
    · simp [State.endEntry]
    · simp [State.endEntry]
    · simp [State.endEntry, RequestEntry.live, Relation.live]
    · have : (s.endEntry t o).EndUnread t := State.endUnread_raise_ended t _ o
      simp [this]; simp [State.endEntry]
    · intro v hv
      refine (State.endUnread_raise_other _ v ?_).trans (State.endUnread_congr rfl v)
      simpa [NoticeBody.owner] using fun e => hv e.symm
    · exact h.law.queueOnce.filter _
    · simp [State.endEntry]
    · intro v hv; simp [State.endEntry, hv]
    · exact h.law.doubtOnce.filter _
    · simp [State.endEntry, State.doubtful]
    · intro v hv; simp [State.endEntry, hv]
    · rfl

/-- A live entry takes another relation, mode and token of a live entry that is not PENDING, its op discarded. -/
theorem State.RequestNoticeLaw.settle (h : s.RequestNoticeLaw) {t : Tag} (e : RequestEntry)
    (hl : (s.entry t).live = true) (hop : e.op = none) (hr : e.relation = .waiting ∨ e.relation = .held)
    (hlock : e.lock = (s.entry t).lock) : ((s.dequeue t).setEntry t e).RequestNoticeLaw where
  distinct := h.distinct
  law := by
    refine h.law.change t ?_ ?_ ?_ ?_ ?_ ?_ ?_ ?_ ?_ ?_ ?_ ?_ ?_
    · intro v hv; simp [hv]
    · rcases hr with hr | hr <;> simp [hr, hop]
    · simp [hop]
    · intro _ v hv hlv
      simp only [State.entry_setEntry, if_true, hlock]
      exact h.law.otherLock hl hv hlv
    · have := h.law.not_endUnread hl
      rw [State.endUnread_congr (u := (s.dequeue t).setEntry t e) (s := s) rfl t]
      rcases hr with hr | hr <;> simp [hr, this]
    · intro v _; exact State.endUnread_congr rfl v
    · exact h.law.queueOnce.filter _
    · simp [hop]
    · intro v hv; simp [hv]
    · exact h.law.doubtOnce.filter _
    · simp [hop, State.doubtful]
    · intro v hv; simp [hv]
    · rfl

/-- A live entry changes relation among WAITING and HELD, with mode and token; its op stays. -/
theorem State.RequestNoticeLaw.restand (h : s.RequestNoticeLaw) {t : Tag} (e : RequestEntry)
    (hl : (s.entry t).live = true) (hp : (s.entry t).relation ≠ .pending) (hop : e.op = (s.entry t).op)
    (hst : e.opStatus = (s.entry t).opStatus)
    (hr : e.relation = .waiting ∨ e.relation = .held) (hlock : e.lock = (s.entry t).lock) :
    (s.setEntry t e).RequestNoticeLaw where
  distinct := h.distinct
  law := by
    have hc : (s.entry t).op ≠ some .claim := fun e => hp ((h.law.pendingClaim t).2 e)
    refine h.law.change t ?_ ?_ ?_ ?_ ?_ ?_ ?_ ?_ ?_ ?_ ?_ ?_ ?_
    · intro v hv; simp [hv]
    · rcases hr with hr | hr <;> simp [hr, hop, hc]
    · intro _; rcases hr with hr | hr <;> simp [RequestEntry.live, Relation.live, hr]
    · intro _ v hv hlv
      simp only [State.entry_setEntry, if_true, hlock]
      exact h.law.otherLock hl hv hlv
    · have := h.law.not_endUnread hl
      rw [State.endUnread_congr (u := s.setEntry t e) (s := s) rfl t]
      rcases hr with hr | hr <;> simp [hr, this]
    · intro v _; exact State.endUnread_congr rfl v
    · exact h.law.queueOnce
    · simp [hop, hst, h.law.queueOps t]
    · intro v _; simp
    · exact h.law.doubtOnce
    · simp [h.law.doubtOps t, State.doubtful, hop, hst]
    · intro v _; simp
    · rfl

/-- An UPDATE notice of a live entry keeps both laws. -/
theorem State.RequestNoticeLaw.update (h : s.RequestNoticeLaw) {t : Tag} (hl : (s.entry t).live = true)
    (l : LockNo) (m : Mode) (st : Standing) : (s.raise (.update t l m st)).RequestNoticeLaw where
  distinct := (Raises.raise s _).distinct h.distinct
  law := by
    refine h.law.congr rfl rfl rfl ?_ h.law.ownOnce
    intro v
    by_cases hv : v = t
    · subst hv
      simp [State.not_endUnread_raise_update h.distinct, h.law.not_endUnread hl]
    · exact State.endUnread_raise_other _ v (by simpa [NoticeBody.owner] using fun e => hv e.symm)

theorem State.RequestNoticeLaw.raiseHeld (h : s.RequestNoticeLaw) {t : Tag} (hl : (s.entry t).live = true) :
    (s.raiseHeld t).RequestNoticeLaw := h.update hl _ _ _

theorem State.RequestNoticeLaw.raiseWaiting (h : s.RequestNoticeLaw) {t : Tag} (hl : (s.entry t).live = true)
    (n : Nat) : (s.raiseWaiting t n).RequestNoticeLaw := h.update hl _ _ _

/-! ### Op statuses -/

/-- A run of op-status changes: the listed tags take the status and the mark, and no other field moves. -/
theorem State.entry_foldl_setOpStatus (st : OpStatus) (mark : Bool) (ts : List Tag) (s : State) (v : Tag) :
    (ts.foldl (fun s t => s.setOpStatus t st mark) s).entry v
      = if v ∈ ts then { s.entry v with opStatus := st, doubtMark := mark } else s.entry v := by
  induction ts generalizing s with
  | nil => simp
  | cons t ts ih =>
    rw [List.foldl_cons, ih]
    by_cases hv : v = t <;> by_cases hm : v ∈ ts <;> simp [hv, hm]

theorem State.req_foldl_setOpStatus (st : OpStatus) (mark : Bool) (ts : List Tag) (s : State) :
    (ts.foldl (fun s t => s.setOpStatus t st mark) s).req
      = { s.req with entries := (ts.foldl (fun s t => s.setOpStatus t st mark) s).req.entries } := by
  induction ts generalizing s with
  | nil => rfl
  | cons t ts ih => rw [List.foldl_cons, ih (s.setOpStatus t st mark)]; rfl

/-- Entries that keep relation, op and lock keep the law where queue and doubt order fit the new statuses. -/
theorem State.RequestLaw.restatus (h : s.RequestLaw)
    (same : ∀ v, (u.entry v).relation = (s.entry v).relation ∧ (u.entry v).op = (s.entry v).op
      ∧ (u.entry v).lock = (s.entry v).lock)
    (ended : ∀ t, u.EndUnread t ↔ s.EndUnread t)
    (queueOnce : u.req.queue.Nodup)
    (queueOps : ∀ t, t ∈ u.req.queue ↔ (u.entry t).op.isSome = true ∧ (u.entry t).opStatus = .queued)
    (doubtOnce : u.req.doubtOrder.Nodup)
    (doubtOps : ∀ t, t ∈ u.req.doubtOrder ↔ u.doubtful t = true)
    (own : ∀ o ∈ u.line.own, o.tags.Nodup) : u.RequestLaw where
  pendingClaim v := by rw [(same v).1, (same v).2.1]; exact h.pendingClaim v
  opLive v := by
    rw [(same v).2.1, RequestEntry.live, (same v).1]; exact h.opLive v
  oneLock v w hv hw he := by
    rw [RequestEntry.live, (same _).1] at hv hw
    rw [(same v).2.2, (same w).2.2] at he
    exact h.oneLock v w hv hw he
  endNotice v := by rw [(same v).1, ended]; exact h.endNotice v
  queueOnce := queueOnce
  queueOps := queueOps
  doubtOnce := doubtOnce
  doubtOps := doubtOps
  ownOnce := own

/-- What returnToHead does to the entries and to the queue. -/
theorem State.returnToHead_entry (s : State) (ts : List Tag) (v : Tag) :
    (s.returnToHead ts).entry v
      = if v ∈ ts then { s.entry v with opStatus := .queued, doubtMark := false } else s.entry v :=
  State.entry_foldl_setOpStatus .queued false ts s v

theorem State.returnToHead_queue (s : State) (ts : List Tag) :
    (s.returnToHead ts).req.queue = ts ++ s.req.queue := by
  show ts ++ (ts.foldl (fun s t => s.setOpStatus t .queued false) s).req.queue = _
  rw [State.req_foldl_setOpStatus]

theorem State.returnToHead_doubtOrder (s : State) (ts : List Tag) :
    (s.returnToHead ts).req.doubtOrder = s.req.doubtOrder := by
  show (ts.foldl (fun s t => s.setOpStatus t .queued false) s).req.doubtOrder = _
  rw [State.req_foldl_setOpStatus]

theorem State.returnToHead_notices (s : State) (ts : List Tag) : (s.returnToHead ts).notices = s.notices := by
  show (ts.foldl (fun s t => s.setOpStatus t .queued false) s).notices = _
  induction ts generalizing s with
  | nil => rfl
  | cons t ts ih => exact ih (s.setOpStatus t .queued false)

theorem State.foldl_setOpStatus_notices (st : OpStatus) (mark : Bool) (ts : List Tag) (s : State) :
    (ts.foldl (fun s t => s.setOpStatus t st mark) s).notices = s.notices := by
  induction ts generalizing s with
  | nil => rfl
  | cons t ts ih => exact ih (s.setOpStatus t st mark)

theorem State.foldl_setOpStatus_line (st : OpStatus) (mark : Bool) (ts : List Tag) (s : State) :
    (ts.foldl (fun s t => s.setOpStatus t st mark) s).line = s.line :=
  (Touches.foldl_requests (fun s t => Touches.setOpStatus s t st mark) ts s).tables.rosterTables.line

/-- Ops that are not in the queue come back to its head, those of them that were in doubt leaving the doubt order. -/
theorem State.RequestNoticeLaw.toHead (h : s.RequestNoticeLaw) (ts : List Tag) (rest : List Tag)
    (hnd : ts.Nodup) (hop : ∀ t ∈ ts, (s.entry t).op.isSome = true ∧ (s.entry t).opStatus ≠ .queued)
    (hrest : rest.Nodup) (hr : ∀ t, t ∈ rest ↔ s.doubtful t = true ∧ t ∉ ts) :
    State.RequestNoticeLaw { s.returnToHead ts with req.doubtOrder := rest } where
  distinct := by
    rw [State.NoticesDistinct]
    show ((s.returnToHead ts).notices.queue.map _).Nodup
    rw [State.returnToHead_notices]; exact h.distinct
  law := by
    have he : ∀ v, State.entry { s.returnToHead ts with req.doubtOrder := rest } v
        = if v ∈ ts then { s.entry v with opStatus := .queued, doubtMark := false } else s.entry v :=
      State.returnToHead_entry s ts
    refine h.law.restatus ?_ ?_ ?_ ?_ hrest ?_ ?_
    · intro v; rw [he]; split <;> exact ⟨rfl, rfl, rfl⟩
    · intro t
      refine State.endUnread_congr ?_ t
      show (s.returnToHead ts).notices.queue = _
      rw [State.returnToHead_notices]
    · show (s.returnToHead ts).req.queue.Nodup
      rw [State.returnToHead_queue]
      refine List.Nodup.append hnd h.law.queueOnce ?_
      intro t ht hq
      exact (hop t ht).2 ((h.law.queueOps t).1 hq).2
    · intro t
      show t ∈ (s.returnToHead ts).req.queue ↔ _
      rw [State.returnToHead_queue, he, List.mem_append, h.law.queueOps t]
      by_cases ht : t ∈ ts
      · simp [ht, (hop t ht).1]
      · simp [ht]
    · intro t
      show t ∈ rest ↔ _
      rw [hr, State.doubtful, State.doubtful, he]
      by_cases ht : t ∈ ts <;> simp [ht]
    · intro o ho
      refine h.law.ownOnce o ?_
      have : (s.returnToHead ts).line = s.line := (Touches.returnToHead s ts).tables.rosterTables.line
      rw [← this]; exact ho

theorem State.inFlight_iff (s : State) (t : Tag) :
    s.inFlight t = true ↔ (s.entry t).op.isSome = true ∧ (s.entry t).opStatus = .inFlight := by
  simp [State.inFlight]

theorem State.doubtful_iff (s : State) (t : Tag) :
    s.doubtful t = true ↔ (s.entry t).op.isSome = true ∧ (s.entry t).opStatus = .doubtful := by
  simp [State.doubtful]

theorem State.RequestNoticeLaw.returnDrawn (h : s.RequestNoticeLaw) {ts : List Tag} (hnd : ts.Nodup) :
    (s.returnDrawn ts).RequestNoticeLaw := by
  have := h.toHead (ts.filter s.inFlight) s.req.doubtOrder (hnd.filter _)
    (by
      intro t ht
      have := (s.inFlight_iff t).1 (List.mem_filter.1 ht).2
      exact ⟨this.1, by rw [this.2]; decide⟩)
    h.law.doubtOnce
    (by
      intro t
      rw [h.law.doubtOps t, List.mem_filter, s.inFlight_iff, s.doubtful_iff]
      constructor
      · rintro ⟨h1, h2⟩
        exact ⟨⟨h1, h2⟩, fun h => by rw [h2] at h; exact absurd h.2.2 (by decide)⟩
      · exact fun h => h.1)
  refine this.congr ?_ rfl rfl
  show (s.returnDrawn ts).req = { (s.returnToHead (ts.filter s.inFlight)).req with doubtOrder := s.req.doubtOrder }
  rw [← State.returnToHead_doubtOrder s (ts.filter s.inFlight)]
  rfl

theorem State.mem_doubtfulMarked (h : s.RequestLaw) (mark : Bool) (t : Tag) :
    t ∈ s.doubtfulMarked mark ↔ s.doubtful t = true ∧ (s.entry t).doubtMark = mark := by
  simp only [State.doubtfulMarked, List.mem_filter, h.doubtOps t, Bool.and_eq_true, beq_iff_eq]
  tauto

theorem State.nodup_doubtfulMarked (h : s.RequestLaw) (mark : Bool) : (s.doubtfulMarked mark).Nodup :=
  h.doubtOnce.filter _

theorem State.doubtful_op {t : Tag} (h : s.doubtful t = true) :
    (s.entry t).op.isSome = true ∧ (s.entry t).opStatus ≠ .queued := by
  have := (s.doubtful_iff t).1 h
  exact ⟨this.1, by rw [this.2]; decide⟩

theorem State.RequestNoticeLaw.requeueDoubtful (h : s.RequestNoticeLaw) : s.requeueDoubtful.RequestNoticeLaw := by
  refine h.toHead (s.doubtfulMarked true ++ s.doubtfulMarked false) [] ?_ ?_ List.nodup_nil ?_
  · refine List.Nodup.append (State.nodup_doubtfulMarked h.law _) (State.nodup_doubtfulMarked h.law _) ?_
    intro t h1 h2
    rw [State.mem_doubtfulMarked h.law] at h1 h2
    rw [h1.2] at h2
    exact absurd h2.2 (by decide)
  · intro t ht
    rw [List.mem_append, State.mem_doubtfulMarked h.law, State.mem_doubtfulMarked h.law] at ht
    exact State.doubtful_op (by tauto)
  · intro t
    simp only [List.not_mem_nil, false_iff, List.mem_append, State.mem_doubtfulMarked h.law, not_and, not_not]
    intro hd
    cases (s.entry t).doubtMark <;> simp [hd]

theorem State.RequestNoticeLaw.settleDoubtful (h : s.RequestNoticeLaw) : s.settleDoubtful.RequestNoticeLaw := by
  have h1 := h.toHead (s.doubtfulMarked true) (s.doubtfulMarked false) (State.nodup_doubtfulMarked h.law _)
    (by intro t ht; exact State.doubtful_op ((State.mem_doubtfulMarked h.law _ t).1 ht).1)
    (State.nodup_doubtfulMarked h.law _)
    (by
      intro t
      rw [State.mem_doubtfulMarked h.law, State.mem_doubtfulMarked h.law]
      cases (s.entry t).doubtMark <;> simp)
  have hfr : ∀ t ∈ s.doubtfulMarked false, State.doubtful
      { s.returnToHead (s.doubtfulMarked true) with req.doubtOrder := s.doubtfulMarked false } t = true :=
    fun t ht => (h1.law.doubtOps t).1 ht
  show State.RequestNoticeLaw ((s.doubtfulMarked false).foldl (fun s t => s.setOpStatus t .doubtful true)
    { s.returnToHead (s.doubtfulMarked true) with req.doubtOrder := s.doubtfulMarked false })
  generalize { s.returnToHead (s.doubtfulMarked true) with req.doubtOrder := s.doubtfulMarked false } = w at h1 hfr
  generalize s.doubtfulMarked false = ts at hfr
  have he := State.entry_foldl_setOpStatus .doubtful true ts w
  have hreq := State.req_foldl_setOpStatus .doubtful true ts w
  constructor
  · rw [State.NoticesDistinct, State.foldl_setOpStatus_notices]; exact h1.distinct
  · refine h1.law.restatus ?_ ?_ ?_ ?_ ?_ ?_ ?_
    · intro v; rw [he]; split <;> exact ⟨rfl, rfl, rfl⟩
    · intro t; exact State.endUnread_congr (by rw [State.foldl_setOpStatus_notices]) t
    · rw [hreq]; exact h1.law.queueOnce
    · intro t
      rw [hreq, he]
      show t ∈ w.req.queue ↔ _
      rw [h1.law.queueOps t]
      split
      · rename_i ht
        have := State.doubtful_op (hfr t ht)
        simp [this.2]
      · rfl
    · rw [hreq]; exact h1.law.doubtOnce
    · intro t
      rw [hreq]
      show t ∈ w.req.doubtOrder ↔ _
      rw [h1.law.doubtOps t, State.doubtful, State.doubtful, he]
      split
      · rename_i ht
        have := (w.doubtful_iff t).1 (hfr t ht)
        simp [this.1, this.2]
      · rfl
    · rw [State.foldl_setOpStatus_line]; exact h1.law.ownOnce

theorem State.RequestNoticeLaw.doubtDrawn (h : s.RequestNoticeLaw) {ts : List Tag} (hnd : ts.Nodup) :
    (s.doubtDrawn ts).RequestNoticeLaw := by
  have hfl : ∀ t, t ∈ ts.filter s.inFlight → (s.entry t).op.isSome = true ∧ (s.entry t).opStatus = .inFlight :=
    fun t ht => (s.inFlight_iff t).1 (List.mem_filter.1 ht).2
  have hnf := hnd.filter s.inFlight
  show State.RequestNoticeLaw
    { (ts.filter s.inFlight).foldl (fun s t => s.setOpStatus t .doubtful false) s with
      req.doubtOrder := ((ts.filter s.inFlight).foldl (fun s t => s.setOpStatus t .doubtful false) s).req.doubtOrder
        ++ ts.filter s.inFlight }
  generalize ts.filter s.inFlight = fs at hfl hnf
  have he := State.entry_foldl_setOpStatus .doubtful false fs s
  have hq : (fs.foldl (fun s t => s.setOpStatus t .doubtful false) s).req.queue = s.req.queue := by
    rw [State.req_foldl_setOpStatus]
  have hd : (fs.foldl (fun s t => s.setOpStatus t .doubtful false) s).req.doubtOrder = s.req.doubtOrder := by
    rw [State.req_foldl_setOpStatus]
  have hn := State.foldl_setOpStatus_notices .doubtful false fs s
  have hli := State.foldl_setOpStatus_line .doubtful false fs s
  generalize fs.foldl (fun s t => s.setOpStatus t .doubtful false) s = w at he hq hd hn hli
  have he' : ∀ v, State.entry { w with req.doubtOrder := w.req.doubtOrder ++ fs } v = _ := he
  constructor
  · rw [State.NoticesDistinct]
    show (w.notices.queue.map _).Nodup
    rw [hn]; exact h.distinct
  · refine h.law.restatus ?_ ?_ ?_ ?_ ?_ ?_ ?_
    · intro v; rw [he']; split <;> exact ⟨rfl, rfl, rfl⟩
    · intro t
      refine State.endUnread_congr ?_ t
      show w.notices.queue = _
      rw [hn]
    · show w.req.queue.Nodup
      rw [hq]; exact h.law.queueOnce
    · intro t
      show t ∈ w.req.queue ↔ _
      rw [he', hq, h.law.queueOps t]
      split
      · rename_i ht
        have := hfl t ht
        simp [this.2]
      · rfl
    · show (w.req.doubtOrder ++ fs).Nodup
      rw [hd]
      refine List.Nodup.append h.law.doubtOnce hnf ?_
      intro t h1 h2
      have h3 := (s.doubtful_iff t).1 ((h.law.doubtOps t).1 h1)
      rw [(hfl t h2).2] at h3
      exact absurd h3.2 (by decide)
    · intro t
      show t ∈ w.req.doubtOrder ++ fs ↔ _
      rw [State.doubtful, he', hd, List.mem_append, h.law.doubtOps t, State.doubtful]
      by_cases ht : t ∈ fs
      · have := hfl t ht
        simp [ht, this.1]
      · simp [ht]
    · intro o ho
      refine h.law.ownOnce o ?_
      rw [← hli]; exact ho

end Sys2Proof.Machine
end

