-- ==== Sys2Proof/Laws/Reports.lean ====
section
/-! SUPPORT. The Request Engine's work at slot ends and on host commands keeps the laws of its entries: the draw,
reports, FOUND handling, reconciliation, the end of all entries, and the four commands on entries. -/

namespace Sys2Proof.Machine

variable {s u : State}

/-! ### The end of every entry -/

/-- A property that each step of a fold keeps holds at its end. -/
theorem foldl_holds {α β : Type} {P : β → Prop} {f : β → α → β} (hf : ∀ s x, P s → P (f s x)) (xs : List α) (s : β)
    (h : P s) : P (xs.foldl f s) := by
  induction xs generalizing s with
  | nil => exact h
  | cons x xs ih => exact ih _ (hf s x h)

theorem State.endLive_entry (o : EndOutcome) (s : State) (t v : Tag) :
    (State.endLive o s t).entry v
      = if v = t ∧ (s.entry t).live = true then { (s.entry t).noOp with relation := .ended } else s.entry v := by
  unfold State.endLive
  by_cases h : (s.entry t).live <;> simp [h, State.endEntry]

/-- Every live entry ends; an entry that is not live stays (R109, R123, R124). -/
theorem State.entry_endAll (s : State) (o : EndOutcome) (v : Tag) :
    (s.endAll o).entry v
      = if (s.entry v).live then { (s.entry v).noOp with relation := .ended } else s.entry v := by
  have key : ∀ (ts : List Tag) (s : State), (ts.foldl (State.endLive o) s).entry v
      = if v ∈ ts ∧ (s.entry v).live = true then { (s.entry v).noOp with relation := .ended } else s.entry v := by
    intro ts
    induction ts with
    | nil => simp
    | cons t ts ih =>
      intro s
      rw [List.foldl_cons, ih, State.endLive_entry]
      by_cases hv : v = t
      · subst hv
        cases hl : (s.entry v).live
        · simp [hl]
        · have hd : ({ (s.entry v).noOp with relation := .ended } : RequestEntry).live = false := rfl
          simp only [and_self, if_true, hd, Bool.false_eq_true, and_false, if_false, List.mem_cons, true_or]
      · simp [hv]
  have := key allTags s
  simp only [mem_allTags, true_and] at this
  unfold State.endAll
  generalize allTags.foldl (State.endLive o) s = w at this
  exact this

theorem State.endAll_live (s : State) (o : EndOutcome) (v : Tag) : ((s.endAll o).entry v).live = false := by
  rw [State.entry_endAll]
  split
  · rfl
  · rename_i h; simpa using h

theorem State.RequestNoticeLaw.endAll (h : s.RequestNoticeLaw) (o : EndOutcome) :
    (s.endAll o).RequestNoticeLaw := by
  have h1 : (allTags.foldl (State.endLive o) s).RequestNoticeLaw := by
    refine foldl_holds (P := State.RequestNoticeLaw) ?_ allTags s h
    intro s t hs
    unfold State.endLive
    split
    · exact hs.endEntry o
    · exact hs
  have hl : ∀ v, ((allTags.foldl (State.endLive o) s).entry v).live = false := by
    have := s.endAll_live o
    unfold State.endAll at this
    generalize allTags.foldl (State.endLive o) s = w at this
    exact this
  have hop : ∀ v, ((allTags.foldl (State.endLive o) s).entry v).op = none := by
    intro v
    by_contra hc
    have := h1.law.opLive v (Option.isSome_iff_ne_none.2 hc)
    rw [hl v] at this
    exact absurd this (by decide)
  unfold State.endAll
  dsimp only
  generalize allTags.foldl (State.endLive o) s = w at h1 hop
  have he : ∀ v, State.entry { w with req.queue := [], req.toYield := [], req.doubtOrder := [] } v = w.entry v :=
    fun _ => rfl
  refine ⟨h1.distinct, h1.law.restatus (fun v => ⟨rfl, rfl, rfl⟩) (fun t => State.endUnread_congr rfl t)
    List.nodup_nil ?_ List.nodup_nil ?_ h1.law.ownOnce⟩
  · intro t; rw [he, hop]; simp
  · intro t; rw [State.doubtful, he, hop]; simp

/-! ### The draw -/

/-- What the walk of R116 takes and what it leaves: the same tags, in their order, none twice. -/
theorem drawFrom_perm (held : Tag → Bool) (n : Nat) (q : List Tag) :
    ((drawFrom held n q).1 ++ (drawFrom held n q).2).Perm q := by
  induction q generalizing n with
  | nil => cases n <;> simp [drawFrom]
  | cons t q ih =>
    cases n with
    | zero => simp [drawFrom]
    | succ n =>
      unfold drawFrom
      split
      · exact List.perm_middle.trans ((ih (n + 1)).cons t)
      · exact (ih n).cons t

/-- At most `n` tags are taken. -/
theorem drawFrom_length (held : Tag → Bool) (n : Nat) (q : List Tag) : (drawFrom held n q).1.length ≤ n := by
  induction q generalizing n with
  | nil => cases n <;> simp [drawFrom]
  | cons t q ih =>
    cases n with
    | zero => simp [drawFrom]
    | succ n =>
      unfold drawFrom
      split
      · exact ih (n + 1)
      · simpa using ih n

/-- No tag held back is taken. -/
theorem drawFrom_taken (held : Tag → Bool) (n : Nat) (q : List Tag) :
    ∀ t ∈ (drawFrom held n q).1, held t = false := by
  induction q generalizing n with
  | nil => cases n <;> simp [drawFrom]
  | cons t q ih =>
    cases n with
    | zero => simp [drawFrom]
    | succ n =>
      unfold drawFrom
      split
      · exact ih (n + 1)
      · rename_i ht
        intro v hv
        rcases List.mem_cons.1 hv with rfl | hv
        · simpa using ht
        · exact ih n v hv

/-- Where fewer than `n` tags are taken, every tag left was held back. -/
theorem drawFrom_left (held : Tag → Bool) (n : Nat) (q : List Tag) (h : (drawFrom held n q).1.length < n) :
    ∀ t ∈ (drawFrom held n q).2, held t = true := by
  induction q generalizing n with
  | nil => cases n <;> simp [drawFrom]
  | cons t q ih =>
    cases n with
    | zero => simp at h
    | succ n =>
      unfold drawFrom at h ⊢
      split
      · rename_i ht
        simp only [ht, if_true] at h
        intro v hv
        rcases List.mem_cons.1 hv with rfl | hv
        · exact ht
        · exact ih (n + 1) h v hv
      · rename_i ht
        simp only [ht] at h
        exact ih n (by simpa using h)

/-- The tags taken: the first `n` that are not held back, in queue order. -/
theorem drawFrom_fst (held : Tag → Bool) (n : Nat) (q : List Tag) :
    (drawFrom held n q).1 = (q.filter fun t => !held t).take n := by
  induction q generalizing n with
  | nil => cases n <;> simp [drawFrom]
  | cons t q ih =>
    cases n with
    | zero => simp [drawFrom]
    | succ n =>
      unfold drawFrom
      cases ht : held t <;> simp [ht, ih]

/-- The tags left: the others, in queue order. -/
theorem drawFrom_snd (held : Tag → Bool) (n : Nat) (q : List Tag) (hq : q.Nodup) :
    (drawFrom held n q).2 = q.filter fun t => t ∉ (drawFrom held n q).1 := by
  induction q generalizing n with
  | nil => cases n <;> simp [drawFrom]
  | cons t q ih =>
    cases n with
    | zero => simp [drawFrom]
    | succ n =>
      have hn := (List.nodup_cons.1 hq)
      have sub : ∀ n, ∀ v ∈ (drawFrom held n q).1, v ∈ q := fun n v hv =>
        (drawFrom_perm held n q).mem_iff.1 (List.mem_append_left _ hv)
      unfold drawFrom
      cases ht : held t
      · simp only [Bool.false_eq_true, if_false]
        rw [ih n hn.2, List.filter_cons_of_neg (by simp)]
        refine List.filter_congr fun v hv => ?_
        have : v ≠ t := fun e => hn.1 (e ▸ hv)
        simp [this]
      · simp only [if_true]
        rw [List.filter_cons_of_pos (by simpa using fun h => hn.1 (sub _ _ h)), ← ih (n + 1) hn.2]

/-- The tags that a draw takes. -/
theorem State.draw_tags (s : State) :
    s.draw.2.1 = (drawFrom s.heldBack Config.frameOps s.req.queue).1 := rfl

/-- The entries after a draw: the taken ops are IN_FLIGHT. -/
theorem State.draw_entry (s : State) (v : Tag) :
    s.draw.2.2.entry v
      = if v ∈ s.draw.2.1 then { s.entry v with opStatus := .inFlight, doubtMark := false } else s.entry v :=
  State.entry_foldl_setOpStatus .inFlight false _ _ v

theorem State.draw_queue (s : State) :
    s.draw.2.2.req.queue = (drawFrom s.heldBack Config.frameOps s.req.queue).2 := by
  unfold State.draw
  dsimp only
  rw [State.req_foldl_setOpStatus]

theorem State.draw_doubtOrder (s : State) : s.draw.2.2.req.doubtOrder = s.req.doubtOrder := by
  unfold State.draw
  dsimp only
  rw [State.req_foldl_setOpStatus]

theorem State.draw_toYield (s : State) : s.draw.2.2.req.toYield = s.req.toYield := by
  unfold State.draw
  dsimp only
  rw [State.req_foldl_setOpStatus]

theorem State.draw_notices (s : State) : s.draw.2.2.notices = s.notices := by
  unfold State.draw
  dsimp only
  rw [State.foldl_setOpStatus_notices]

theorem State.draw_nodup (h : s.RequestLaw) : (s.draw.2.1 ++ s.draw.2.2.req.queue).Nodup := by
  rw [State.draw_tags, State.draw_queue]
  exact (drawFrom_perm _ _ _).nodup_iff.2 h.queueOnce

theorem State.RequestNoticeLaw.draw (h : s.RequestNoticeLaw) : s.draw.2.2.RequestNoticeLaw := by
  have hmem : ∀ t, t ∈ s.req.queue ↔ t ∈ s.draw.2.1 ∨ t ∈ s.draw.2.2.req.queue := by
    intro t
    rw [State.draw_tags, State.draw_queue, ← List.mem_append]
    exact (drawFrom_perm _ _ _).mem_iff.symm
  have hnd := List.nodup_append.1 (State.draw_nodup h.law)
  constructor
  · rw [State.NoticesDistinct, State.draw_notices]; exact h.distinct
  · refine h.law.restatus ?_ ?_ hnd.2.1 ?_ ?_ ?_ ?_
    · intro v; rw [State.draw_entry]; split <;> exact ⟨rfl, rfl, rfl⟩
    · intro t; exact State.endUnread_congr (by rw [State.draw_notices]) t
    · intro t
      rw [State.draw_entry]
      split
      · rename_i ht
        simp only [reduceCtorEq, and_false, iff_false]
        exact fun hq => hnd.2.2 t ht t hq rfl
      · rename_i ht
        rw [← h.law.queueOps t, hmem]
        simp [ht]
    · rw [State.draw_doubtOrder]; exact h.law.doubtOnce
    · intro t
      rw [State.draw_doubtOrder, h.law.doubtOps t, State.doubtful, State.doubtful, State.draw_entry]
      split
      · rename_i ht
        have := (h.law.queueOps t).1 ((hmem t).2 (.inl ht))
        simp [this.2]
      · rfl
    · intro o ho
      refine h.law.ownOnce o ?_
      rw [← (Touches.draw s).tables.rosterTables.line]; exact ho

/-! ### Reports -/

/-- An op that is neither in the queue nor in doubt leaves both lists alone when its tag is taken out of them. -/
theorem State.dequeue_eq_self (h : s.RequestLaw) {t : Tag} (hq : (s.entry t).op = none ∨ s.inFlight t = true) :
    s.dequeue t = s := by
  have h1 : t ∉ s.req.queue := by
    rw [h.queueOps t]
    rcases hq with hq | hq
    · simp [hq]
    · simp [((s.inFlight_iff t).1 hq).2]
  have h2 : t ∉ s.req.doubtOrder := by
    rw [h.doubtOps t, s.doubtful_iff]
    rcases hq with hq | hq
    · simp [hq]
    · simp [((s.inFlight_iff t).1 hq).2]
  have f1 : s.req.queue.filter (· ≠ t) = s.req.queue :=
    List.filter_eq_self.2 fun a ha => by simpa using fun e : a = t => h1 (e ▸ ha)
  have f2 : s.req.doubtOrder.filter (· ≠ t) = s.req.doubtOrder :=
    List.filter_eq_self.2 fun a ha => by simpa using fun e : a = t => h2 (e ▸ ha)
  rw [State.dequeue, f1, f2]

theorem State.RequestNoticeLaw.settleFlown (h : s.RequestNoticeLaw) {t : Tag} (e : RequestEntry)
    (hf : s.inFlight t = true) (hop : e.op = none) (hr : e.relation = .waiting ∨ e.relation = .held)
    (hlock : e.lock = (s.entry t).lock) : (s.setEntry t e).RequestNoticeLaw := by
  have := h.settle e (h.law.opLive t ((s.inFlight_iff t).1 hf).1) hop hr hlock
  rwa [State.dequeue_eq_self h.law (.inr hf)] at this

/-- A live entry stays live after a write that keeps it so. -/
theorem State.live_setEntry {t : Tag} {e : RequestEntry} (hr : e.relation = .waiting ∨ e.relation = .held) :
    ((s.setEntry t e).entry t).live = true := by
  rw [State.entry_setEntry_self, live_of_relation]; tauto

/-- An op in flight that is no CLAIM belongs to a WAITING or HELD entry. -/
theorem State.RequestLaw.standing (h : s.RequestLaw) {t : Tag} {k : OpKind} (hk : (s.entry t).op = some k)
    (hc : k ≠ .claim) : (s.entry t).relation = .waiting ∨ (s.entry t).relation = .held := by
  have hl := live_of_relation.1 (h.opLive t (by simp [hk]))
  rcases hl with hl | hl | hl
  · rw [h.pendingClaim t, hk] at hl
    exact absurd (Option.some.inj hl) hc
  · exact .inl hl
  · exact .inr hl

theorem State.RequestNoticeLaw.entryResult (h : s.RequestNoticeLaw) {t : Tag} {k : OpKind} (r : OpResult)
    (hf : s.inFlight t = true) (hk : (s.entry t).op = some k) : (s.entryResult t k r).RequestNoticeLaw := by
  unfold State.entryResult
  dsimp only
  split
  · exact State.RequestNoticeLaw.raiseHeld (h.settleFlown _ hf (by rfl) (by exact .inr rfl) (by rfl)) (State.live_setEntry (by exact .inr rfl))
  · exact State.RequestNoticeLaw.raiseWaiting (h.settleFlown _ hf (by rfl) (by exact .inl rfl) (by rfl)) (State.live_setEntry (by exact .inl rfl)) _
  · exact h.endEntry _
  · exact h.endEntry _
  · exact h.endEntry _
  · exact h.endEntry _
  · exact h.endEntry _
  · have hs := h.law.standing hk (by decide)
    exact State.RequestNoticeLaw.raiseHeld (h.settleFlown _ hf (by rfl) (by exact hs) (by rfl)) (State.live_setEntry (by exact hs))
  · exact h.settleFlown _ hf rfl (h.law.standing hk (by decide)) rfl
  · have hs := h.law.standing hk (by decide)
    exact State.RequestNoticeLaw.raiseHeld (h.settleFlown _ hf (by rfl) (by exact hs) (by rfl)) (State.live_setEntry (by exact hs))
  · exact h.settleFlown _ hf rfl (h.law.standing hk (by decide)) rfl
  · exact h

/-- The reported entry's op is in flight, of the reported kind and lock (R118). -/
theorem State.reportedTag_some {k : OpKind} {l : LockNo} {t : Tag} (h : s.reportedTag k l = some t) :
    s.inFlight t = true ∧ (s.entry t).op = some k ∧ (s.entry t).lock = l := by
  have := List.find?_some h
  simpa [and_assoc] using this

theorem State.RequestNoticeLaw.unyield (h : s.RequestNoticeLaw) (l : LockNo) : (s.unyield l).RequestNoticeLaw :=
  ⟨h.distinct, h.law.congr rfl rfl rfl (fun t => State.endUnread_congr rfl t) h.law.ownOnce⟩

theorem State.RequestNoticeLaw.clearToYield (h : s.RequestNoticeLaw) : s.clearToYield.RequestNoticeLaw :=
  ⟨h.distinct, h.law.congr rfl rfl rfl (fun t => State.endUnread_congr rfl t) h.law.ownOnce⟩

theorem State.RequestNoticeLaw.fillToYield (h : s.RequestNoticeLaw) : s.fillToYield.RequestNoticeLaw :=
  ⟨h.distinct, h.law.congr rfl rfl rfl (fun t => State.endUnread_congr rfl t) h.law.ownOnce⟩

theorem State.RequestNoticeLaw.resultReport (h : s.RequestNoticeLaw) (k : OpKind) (l : LockNo) (r : OpResult) :
    (s.resultReport k l r).RequestNoticeLaw := by
  unfold State.resultReport
  split
  · rename_i t ht
    have := State.reportedTag_some ht
    exact h.entryResult r this.1 this.2.1
  · split
    · exact h.unyield l
    · exact h

/-- The live tag of a lock is live and names it (R108). -/
theorem State.liveTag_some {l : LockNo} {t : Tag} (h : s.liveTag l = some t) :
    (s.entry t).live = true ∧ (s.entry t).lock = l := by
  have := List.find?_some h
  simpa using this

theorem State.RequestNoticeLaw.grantReport (h : s.RequestNoticeLaw) (l : LockNo) (m : Mode) (tok : Word16) :
    (s.grantReport l m tok).RequestNoticeLaw := by
  unfold State.grantReport
  split
  · exact h
  · split
    · exact h
    · rename_i t ht
      split
      · rename_i hw
        have hl := (State.liveTag_some ht).1
        exact State.RequestNoticeLaw.raiseHeld (h.restand _ hl (by simp [hw]) (by rfl) (by rfl) (by exact .inr rfl) (by rfl))
          (State.live_setEntry (by exact .inr rfl))
      · exact h

theorem State.RequestNoticeLaw.removalReport (h : s.RequestNoticeLaw) (l : LockNo) (o : EndOutcome) :
    (s.removalReport l o).RequestNoticeLaw := by
  unfold State.removalReport
  split
  · exact h.unyield l
  · split
    · exact h
    · split
      · exact h.endEntry o
      · exact h

theorem State.RequestNoticeLaw.reportGrant (h : s.RequestNoticeLaw) (l : LockNo) (a b : LockRecord) :
    (s.reportGrant l a b).RequestNoticeLaw := by
  unfold State.reportGrant
  split
  · split
    · exact h.grantReport l _ _
    · exact h
  · exact h

/-! ### FOUND handling and reconciliation -/

theorem State.RequestNoticeLaw.foundHandling (h : s.RequestNoticeLaw) : s.foundHandling.RequestNoticeLaw := by
  unfold State.foundHandling
  refine State.RequestNoticeLaw.clearToYield (State.RequestNoticeLaw.requeueDoubtful ?_)
  refine foldl_holds (P := State.RequestNoticeLaw) ?_ allTags s h
  intro s t hs
  unfold State.foundEntry
  split
  · exact hs.endEntry _
  · exact hs

theorem State.RequestNoticeLaw.reconcileEntry (h : s.RequestNoticeLaw) (t : Tag) :
    (s.reconcileEntry t).RequestNoticeLaw := by
  unfold State.reconcileEntry
  dsimp only
  by_cases hl : (s.entry t).live = true
  · simp only [hl, Bool.not_true, Bool.false_eq_true, if_false]
    -- the record shows the station: its op is discarded or kept, and the entry takes what the table shows
    have stands : ∀ (c : Prop) [Decidable c] (e : RequestEntry → RequestEntry),
        ((s.entry t).relation = .pending → c) →
        (∀ e', (e e').op = e'.op ∧ (e e').opStatus = e'.opStatus ∧ (e e').lock = e'.lock
          ∧ ((e e').relation = .waiting ∨ (e e').relation = .held)) →
        ((if c then s.discardOp t else s).setEntry t (e ((if c then s.discardOp t else s).entry t))).RequestNoticeLaw := by
      intro c _ e hp hee
      by_cases hc : c
      · simp only [hc, if_true]
        have hd : (s.discardOp t).setEntry t (e ((s.discardOp t).entry t))
            = (s.dequeue t).setEntry t (e (s.entry t).noOp) := by
          rw [State.discardOp, State.entry_setEntry_self]
          simp [State.setEntry]
        rw [hd]
        have := hee (s.entry t).noOp
        exact h.settle _ hl (by rw [this.1]; rfl) this.2.2.2 (by rw [this.2.2.1]; rfl)
      · simp only [hc, if_false]
        have := hee (s.entry t)
        exact h.restand _ hl (fun e => hc (hp e)) this.1 this.2.1 this.2.2.2 this.2.2.1
    split
    · rename_i hd _
      have h2 := stands ((s.entry t).relation = .pending ∨ downgradeDone (s.entry t) hd = true)
        (fun e => { e with relation := .held, mode := hd.mode, token := hd.token }) .inl
        (fun e' => ⟨rfl, rfl, rfl, .inr rfl⟩)
      split
      · exact h2
      · exact h2.raiseHeld (State.live_setEntry (by exact .inr rfl))
    · rename_i w p _
      have h2 := stands ((s.entry t).relation = .pending)
        (fun e => { e with relation := .waiting, mode := w.mode, token := 0 }) id
        (fun e' => ⟨rfl, rfl, rfl, .inl rfl⟩)
      split
      · exact h2
      · exact h2.raiseWaiting (State.live_setEntry (by exact .inl rfl)) _
    · split
      · exact h
      · split
        · exact h.endEntry _
        · exact h.endEntry _
  · simp only [hl, Bool.not_false, if_true]
    exact h

theorem State.RequestNoticeLaw.reconcile (h : s.RequestNoticeLaw) : s.reconcile.RequestNoticeLaw := by
  unfold State.reconcile
  refine State.RequestNoticeLaw.fillToYield (State.RequestNoticeLaw.requeueDoubtful ?_)
  exact foldl_holds (P := State.RequestNoticeLaw) (fun s t hs => hs.reconcileEntry t) allTags s h

/-! ### Host commands and deliveries -/

/-- The removal of the head notice, with the freeing of the entry of a removed END, keeps both laws (R132, R133). -/
theorem State.RequestNoticeLaw.removeHead (h : s.RequestNoticeLaw) (sr : Byte) :
    (s.removeHead sr).RequestNoticeLaw := by
  unfold State.removeHead
  split
  · exact h
  · rename_i n rest hq
    split
    · dsimp only
      have hd : (n.body.owner :: rest.map fun n => n.body.owner).Nodup := by
        have := h.distinct; rw [State.NoticesDistinct, hq] at this; exact this
      have hend : ∀ t, s.EndUnread t ↔ (∃ l o, n.body = .ended t l o) ∨ ∃ m ∈ rest, ∃ l o, m.body = .ended t l o := by
        intro t; simp only [State.EndUnread, hq, List.exists_mem_cons_iff]
      split
      · rename_i t ht
        obtain ⟨l, o, hb⟩ : ∃ l o, n.body = .ended t l o := by
          cases hb : n.body <;> simp_all [NoticeBody.endedTag]
        refine ⟨(List.nodup_cons.1 hd).2, ?_⟩
        have hnot : ¬ ∃ m ∈ rest, ∃ l o, m.body = .ended t l o := by
          rintro ⟨m, hm, l', o', e⟩
          refine (List.nodup_cons.1 hd).1 (List.mem_map.2 ⟨m, hm, ?_⟩)
          rw [e, hb]; rfl
        have hrel : (s.entry t).relation = .ended := (h.law.endNotice t).2 ((hend t).2 (.inl ⟨l, o, hb⟩))
        have hop : (s.entry t).op = none := by
          by_contra hc
          have := h.law.opLive t (Option.isSome_iff_ne_none.2 hc)
          simp [RequestEntry.live, Relation.live, hrel] at this
        refine h.law.change t ?_ ?_ ?_ ?_ ?_ ?_ ?_ ?_ ?_ ?_ ?_ ?_ ?_
        · intro v hv
          show (State.setEntry _ t _).entry v = _
          rw [State.entry_setEntry]; simp [hv]; rfl
        · show ((State.setEntry _ t _).entry t).relation = _ ↔ ((State.setEntry _ t _).entry t).op = _
          rw [State.entry_setEntry_self]
          show Relation.free = .pending ↔ (s.entry t).op = some .claim
          simp [hop]
        · show ((State.setEntry _ t _).entry t).op.isSome = true → _
          rw [State.entry_setEntry_self]
          show (s.entry t).op.isSome = true → _
          simp [hop]
        · show ((State.setEntry _ t _).entry t).live = true → _
          rw [State.entry_setEntry_self]
          show Relation.live .free = true → _
          simp [Relation.live]
        · show ((State.setEntry _ t _).entry t).relation = .ended ↔ _
          rw [State.entry_setEntry_self]
          show Relation.free = .ended ↔ ∃ m ∈ rest, ∃ l o, m.body = .ended t l o
          simpa using hnot
        · intro v hv
          rw [hend v]
          show (∃ m ∈ rest, ∃ l o, m.body = .ended v l o) ↔ _
          have : ¬ ∃ l o, n.body = .ended v l o := by
            rintro ⟨l', o', e⟩
            rw [hb] at e
            injection e with e1
            exact hv e1.symm
          simp [this]
        · exact h.law.queueOnce
        · show t ∈ s.req.queue ↔ ((State.setEntry _ t _).entry t).op.isSome = true ∧ _
          rw [State.entry_setEntry_self, h.law.queueOps t]
          show _ ↔ (s.entry t).op.isSome = true ∧ _
          simp [hop]
        · intro v _; rfl
        · exact h.law.doubtOnce
        · show t ∈ s.req.doubtOrder ↔ _
          rw [h.law.doubtOps t, State.doubtful, State.doubtful]
          show _ ↔ (((State.setEntry _ t _).entry t).op.isSome && _) = true
          rw [State.entry_setEntry_self]
          show _ ↔ ((s.entry t).op.isSome && _) = true
          simp [hop]
        · intro v _; rfl
        · rfl
      · rename_i hne
        refine ⟨(List.nodup_cons.1 hd).2, h.law.congr rfl rfl rfl ?_ h.law.ownOnce⟩
        intro t
        rw [hend t]
        show (∃ m ∈ rest, ∃ l o, m.body = .ended t l o) ↔ _
        have : ¬ ∃ l o, n.body = .ended t l o := by
          rintro ⟨l, o, e⟩
          simp [e, NoticeBody.endedTag] at hne
        simp [this]
    · exact h

/-! ### All entries ended -/

/-- What the end of every live entry leaves (R123, R124). -/
theorem State.endsAll_endAll (s : State) (o : EndOutcome) : s.EndsAll o (s.endAll o) := by
  have key : ∀ (ts : List Tag) (s : State), ts.Nodup → 
      (∀ g ∈ ts, (s.entry g).live = true → ∃ n ∈ (ts.foldl (State.endLive o) s).notices.queue, n.body = .ended g (s.entry g).lock o)
      ∧ (∀ n ∈ s.notices.queue, (∀ g ∈ ts, (s.entry g).live = true → n.body.owner ≠ .tag g) → n ∈ (ts.foldl (State.endLive o) s).notices.queue) := by
    intro ts
    induction ts with
    | nil => intro s _; exact ⟨by simp, fun n hn _ => hn⟩
    | cons t ts ih =>
      intro s hnd
      have hnd' := List.nodup_cons.1 hnd
      obtain ⟨i1, i2⟩ := ih (State.endLive o s t) hnd'.2
      rw [List.foldl_cons]
      have hent : ∀ g ∈ ts, (State.endLive o s t).entry g = s.entry g := by
        intro g hg; rw [State.endLive_entry, if_neg]; rintro ⟨rfl, -⟩; exact hnd'.1 hg
      refine ⟨?_, ?_⟩
      · intro g hg hl
        rcases List.mem_cons.1 hg with rfl | hg'
        · have : ∃ n ∈ (State.endLive o s g).notices.queue, n.body = .ended g (s.entry g).lock o := by
            unfold State.endLive; rw [if_pos hl]; exact State.raise_mem_self _ _ (by simp [NoticeBody.owner])
          obtain ⟨n, h1, h2⟩ := this
          refine ⟨n, i2 n h1 ?_, h2⟩
          intro v hv _; rw [h2]; rintro ⟨⟩; exact hnd'.1 hv
        · have := i1 g hg' (by rw [hent g hg']; exact hl)
          rwa [hent g hg'] at this
      · intro n hn ho
        refine i2 n ?_ ?_
        · unfold State.endLive; split
          · rename_i hl
            exact State.raise_mem_other hn (ho t (List.mem_cons_self ..) hl)
          · exact hn
        · intro g hg hl; rw [hent g hg] at hl; exact ho g (List.mem_cons_of_mem _ hg) hl
  obtain ⟨k1, k2⟩ := key allTags s nodup_allTags
  constructor
  · intro g hl; rw [State.entry_endAll, if_pos hl]; rfl
  · intro g hl; rw [State.entry_endAll, if_neg (by simp [hl])]
  · intro g hl; unfold State.endAll; generalize allTags.foldl (State.endLive o) s = w at k1; exact k1 g (mem_allTags g) hl
  · intro n hn ho _; unfold State.endAll; generalize allTags.foldl (State.endLive o) s = w at k2; exact k2 n hn (fun g _ => ho g)
  · unfold State.endAll; generalize allTags.foldl (State.endLive o) s = w; rfl
  · unfold State.endAll; generalize allTags.foldl (State.endLive o) s = w; rfl

end Sys2Proof.Machine
end

