-- ==== Sys2Proof/Laws/HostCommands.lean ====
section
/-! SUPPORT. The host's commands: what their checks find, what they keep, and what a complete exchange leaves in the
port. -/

namespace Sys2Proof.Machine

variable {s u : State}

/-! ### Searches of the request table -/

/-- A tag byte names a live entry where it lies in 0 to 15 and that entry is live (R113, R145). -/
theorem State.liveOfByte_some {b : Byte} {t : Tag} (h : s.liveOfByte b = some t) :
    tagOfByte b = some t ∧ (s.entry t).live = true := by
  unfold State.liveOfByte at h
  split at h
  · rename_i v hv
    split at h
    · rename_i hl; exact ⟨by rw [hv]; exact h, by rw [← Option.some.inj h]; exact hl⟩
    · exact absurd h (by simp)
  · exact absurd h (by simp)

/-- The lowest FREE entry is FREE, and no lower one is (R112). -/
theorem State.lowestFree_some {t : Tag} (h : s.lowestFree = some t) : (s.entry t).relation = .free := by
  simpa using List.find?_some h

theorem State.lowestFree_none (h : s.lowestFree = none) (t : Tag) : (s.entry t).relation ≠ .free := by
  simpa using List.find?_eq_none.1 h t (mem_allTags t)

/-- No live entry names a lock whose search finds none (R108). -/
theorem State.liveTag_none {l : LockNo} (h : s.liveTag l = none) (t : Tag) (ht : (s.entry t).live = true) :
    (s.entry t).lock ≠ l := by
  have := List.find?_eq_none.1 h t (mem_allTags t)
  simpa [ht] using this

/-! ### The commands on entries keep the laws -/

theorem State.RequestNoticeLaw.acquireEntry (h : s.RequestNoticeLaw) {t : Tag} (hf : (s.entry t).relation = .free)
    {l : LockNo} (hl : s.liveTag l = none) (m : Mode) (tr : Bool) (lim : Limit) :
    ((s.setEntry t (acquiredEntry l m tr lim)).enqueue t).RequestNoticeLaw where
  distinct := h.distinct
  law := by
    have hdead : (s.entry t).live = false := by simp [RequestEntry.live, Relation.live, hf]
    have hop : (s.entry t).op = none := by
      by_contra hc
      have := h.law.opLive t (Option.isSome_iff_ne_none.2 hc)
      rw [hdead] at this
      exact absurd this (by decide)
    have hq : t ∉ s.req.queue := by rw [h.law.queueOps t, hop]; simp
    have hd : t ∉ s.req.doubtOrder := by rw [h.law.doubtOps t, s.doubtful_iff, hop]; simp
    refine h.law.change t ?_ ?_ ?_ ?_ ?_ ?_ ?_ ?_ ?_ ?_ ?_ ?_ ?_
    · intro v hv; simp [hv]
    · simp [acquiredEntry]
    · simp [acquiredEntry, RequestEntry.live, Relation.live]
    · intro _ v _ hlv
      simpa [acquiredEntry] using State.liveTag_none hl v hlv
    · have : ¬ s.EndUnread t := by rw [← h.law.endNotice t, hf]; decide
      rw [State.endUnread_congr (u := (s.setEntry t (acquiredEntry l m tr lim)).enqueue t) (s := s) rfl t]
      simp [acquiredEntry, this]
    · intro v _; exact State.endUnread_congr rfl v
    · exact List.Nodup.append h.law.queueOnce (by simp) (by simpa using hq)
    · simp [acquiredEntry]
    · intro v hv; simp [hv]
    · exact h.law.doubtOnce
    · simp [acquiredEntry, State.doubtful, hd]
    · intro v _; rfl
    · rfl

/-- A live entry that is not PENDING takes a QUEUED op other than CLAIM; its tag is in the new queue, and no other
tag moves into or out of it. -/
theorem State.RequestNoticeLaw.takeOp (h : s.RequestNoticeLaw) {t : Tag} (hl : (s.entry t).live = true)
    (hp : (s.entry t).relation ≠ .pending) {k : OpKind} (hk : k ≠ .claim) (hst : s.doubtful t = false)
    {q : List Tag} (hnd : q.Nodup) (hin : t ∈ q) (hq : ∀ v, v ≠ t → (v ∈ q ↔ v ∈ s.req.queue)) :
    State.RequestNoticeLaw { s.setEntry t ((s.entry t).withOp k) with req.queue := q } where
  distinct := h.distinct
  law := by
    have he : ∀ v, State.entry { s.setEntry t ((s.entry t).withOp k) with req.queue := q } v
        = if v = t then (s.entry t).withOp k else s.entry v := fun v => s.entry_setEntry t v _
    have het : State.entry { s.setEntry t ((s.entry t).withOp k) with req.queue := q } t = (s.entry t).withOp k := by
      rw [he]; simp
    refine h.law.change t ?_ ?_ ?_ ?_ ?_ ?_ hnd ?_ hq h.law.doubtOnce ?_ ?_ rfl
    · intro v hv; rw [he]; simp [hv]
    · rw [het]; simp [hp, hk]
    · rw [het]; exact fun _ => hl
    · rw [het]; intro _ v hv hlv; exact h.law.otherLock hl hv hlv
    · rw [het]
      have := h.law.not_endUnread hl
      rw [← h.law.endNotice t] at this
      have h2 : ¬ State.EndUnread { s.setEntry t ((s.entry t).withOp k) with req.queue := q } t :=
        h.law.not_endUnread hl
      exact iff_of_false this h2
    · intro v _; exact State.endUnread_congr rfl v
    · rw [het]; simp [hin]
    · rw [State.doubtful, het]
      show t ∈ s.req.doubtOrder ↔ _
      rw [h.law.doubtOps t, hst]
      simp
    · intro v _; rfl

theorem State.RequestNoticeLaw.queueOp (h : s.RequestNoticeLaw) {t : Tag} (hl : (s.entry t).live = true)
    (hop : (s.entry t).op = none) {k : OpKind} (hk : k ≠ .claim) : (s.queueOp t k).RequestNoticeLaw := by
  have hq : t ∉ s.req.queue := by rw [h.law.queueOps t, hop]; simp
  refine h.takeOp hl ?_ hk (by simp [State.doubtful, hop]) (q := s.req.queue ++ [t]) ?_ (by simp) ?_
  · rw [ne_eq, h.law.pendingClaim t, hop]; simp
  · exact List.Nodup.append h.law.queueOnce (by simp) (by simpa using hq)
  · intro v hv; simp [hv]

theorem State.RequestNoticeLaw.supersede (h : s.RequestNoticeLaw) {t : Tag} {k : OpKind}
    (hop : (s.entry t).op = some k) (hst : (s.entry t).opStatus = .queued) (hk : k ≠ .claim) :
    (s.supersede t).RequestNoticeLaw := by
  have hin : t ∈ s.req.queue := by rw [h.law.queueOps t, hop, hst]; simp
  refine h.takeOp (h.law.opLive t (by simp [hop])) ?_ (k := .yield) (by decide)
    (by simp [State.doubtful, hst]) h.law.queueOnce hin ?_
  · rw [ne_eq, h.law.pendingClaim t, hop]; simpa using hk
  · intro v _; rfl

theorem State.RequestNoticeLaw.releaseTag (h : s.RequestNoticeLaw) {t : Tag} (hl : (s.entry t).live = true) :
    (s.releaseTag t).1.RequestNoticeLaw := by
  unfold State.releaseTag
  split
  · rename_i hop; exact h.queueOp hl hop (by decide)
  · exact h.endEntry _
  · exact h
  · rename_i hop hst; exact h.supersede hop hst (by decide)
  · rename_i hop hst; exact h.supersede hop hst (by decide)
  · exact h
  · exact h

theorem State.RequestNoticeLaw.acquire (h : s.RequestNoticeLaw) (l m : Byte) (lim : Word16) :
    (State.acquire l m lim s).1.RequestNoticeLaw := by
  unfold State.acquire
  split
  · exact h
  · split
    · exact h
    · split
      · exact h
      · split
        · exact h
        · rename_i hd
          split
          · exact h
          · rename_i t ht
            exact h.acquireEntry (State.lowestFree_some ht) (by simpa using hd) _ _ _

theorem State.RequestNoticeLaw.release (h : s.RequestNoticeLaw) (b : Byte) :
    (State.release b s).1.RequestNoticeLaw := by
  unfold State.release
  split
  · exact h
  · split
    · exact h
    · rename_i t ht
      exact h.releaseTag (State.liveOfByte_some ht).2

theorem State.RequestNoticeLaw.downgradeTag (h : s.RequestNoticeLaw) (b : Byte) :
    (State.downgradeTag b s).1.RequestNoticeLaw := by
  unfold State.downgradeTag
  split
  · exact h
  · split
    · exact h
    · rename_i t ht
      split
      · exact h
      · split
        · exact h
        · rename_i hop
          exact h.queueOp (State.liveOfByte_some ht).2 (by simpa using hop) (by decide)

theorem State.RequestNoticeLaw.renewTag (h : s.RequestNoticeLaw) (b : Byte) :
    (State.renewTag b s).1.RequestNoticeLaw := by
  unfold State.renewTag
  split
  · exact h
  · split
    · exact h
    · rename_i t ht
      split
      · exact h
      · split
        · exact h
        · split
          · exact h
          · rename_i hop
            exact h.queueOp (State.liveOfByte_some ht).2 (by simpa using hop) (by decide)

/-! ### Deliveries -/

/-- A delivery removes the head notice at most (R132, R140). -/
theorem State.deliver_eq (s : State) :
    s.deliver = { s with port.delivered := false } ∨
      ∃ sr, s.port.held.fetchSerial = some sr ∧ s.port.delivered = true ∧
        s.deliver = { s.removeHead sr with port.delivered := false } := by
  unfold State.deliver
  dsimp only
  split
  · rename_i hd
    split
    · rename_i sr hs; exact .inr ⟨sr, hs, hd, rfl⟩
    · exact .inl rfl
  · exact .inl rfl

theorem State.RequestNoticeLaw.deliver (h : s.RequestNoticeLaw) : s.deliver.RequestNoticeLaw := by
  rcases s.deliver_eq with e | ⟨sr, -, -, e⟩
  · rw [e]; exact h.congr rfl rfl rfl
  · rw [e]; exact (h.removeHead sr).congr rfl rfl rfl

/-- A complete exchange keeps both laws where its command does. -/
theorem State.RequestNoticeLaw.endComplete (h : s.RequestNoticeLaw) {c : Command}
    (hc : ∀ s : State, s.RequestNoticeLaw → (c s).1.RequestNoticeLaw) (code : Byte) (n : Nat) :
    (s.endComplete code n c).RequestNoticeLaw := by
  unfold State.endComplete
  split
  · exact h.congr rfl rfl rfl
  · have h1 : (s.shiftOut n).RequestNoticeLaw := h.congr rfl rfl rfl
    exact State.RequestNoticeLaw.congr (hc _ h1.deliver) rfl rfl rfl

/-! ### Searches that succeed -/

/-- The live entry of a lock is found (R108). -/
theorem State.liveTag_eq (h : s.RequestLaw) (g : Tag) (hl : (s.entry g).live = true) :
    s.liveTag (s.entry g).lock = some g := by
  cases e : s.liveTag (s.entry g).lock with
  | none => exact absurd rfl (State.liveTag_none e g hl)
  | some t =>
    have := State.liveTag_some e
    rw [h.oneLock t g this.1 hl this.2]

/-- A report is attributed to the entry whose op is in flight (R118). -/
theorem State.reportedTag_eq (h : s.RequestLaw) (g : Tag) (k : OpKind) (hf : s.inFlight g = true)
    (ho : (s.entry g).op = some k) :
    s.reportedTag k (s.entry g).lock = some g := by
  have hl : (s.entry g).live = true := h.opLive g (by rw [ho]; rfl)
  cases e : s.reportedTag k (s.entry g).lock with
  | none =>
    unfold State.reportedTag at e
    rw [List.find?_eq_none] at e
    have := e g (by simp)
    simp [hf, ho] at this
  | some t =>
    have := State.reportedTag_some e
    have hl' : (s.entry t).live = true := h.opLive t (by rw [this.2.1]; rfl)
    rw [h.oneLock t g hl' hl this.2.2]

/-- No live entry names a lock. -/
theorem State.liveTag_of_none {d : State} {l : LockNo} (h : ∀ v, (d.entry v).live = true → (d.entry v).lock ≠ l) :
    d.liveTag l = none := by
  unfold State.liveTag; rw [List.find?_eq_none]; intro v _; have := h v; simp; exact this

/-- The lowest FREE entry is found (R112). -/
theorem State.lowestFree_eq {d : State} {g : Tag} (h : (d.entry g).relation = .free)
    (h2 : ∀ v < g, (d.entry v).relation ≠ .free) : d.lowestFree = some g := by
  unfold State.lowestFree allTags
  have : ∀ g : Fin 16, List.finRange 16 = (List.finRange 16).take g.val ++ g :: (List.finRange 16).drop (g.val+1) := by decide
  have h3 : ∀ g : Fin 16, ∀ v ∈ (List.finRange 16).take g.val, v < g := by decide
  rw [this g, List.find?_append]
  have : ((List.finRange 16).take g.val).find? (fun t => (d.entry t).relation == .free) = none := by
    rw [List.find?_eq_none]; intro v hv; simpa using h2 v (h3 g v hv)
  rw [this]; simp [h]

end Sys2Proof.Machine
end

