-- ==== Sys2Proof/Laws/Records.lean ====
section
/-! SUPPORT. One lock record: what the grant pass and the four operations do to it, and that each keeps its law. -/

namespace Sys2Proof.Machine

/-! ### The grant pass (R6) -/

/-- The holder entries that a pass makes of these waiters in turn, from this generation on (R4, R6). -/
def grantRun (c : CycleNo) : Word16 → List Waiter → List Holder
  | _, [] => []
  | gen, w :: ws => w.grantedAt c (gen + 1) :: grantRun c (gen + 1) ws

@[simp] theorem grantRun_length (c : CycleNo) (gen : Word16) (ws : List Waiter) :
    (grantRun c gen ws).length = ws.length := by
  induction ws generalizing gen with
  | nil => rfl
  | cons w ws ih => simp [grantRun, ih]

/-- Entry `j` of a run is waiter `j` as holder, with lease start the current cycle and token generation + 1 + j. -/
theorem grantRun_getElem (c : CycleNo) (gen : Word16) (ws : List Waiter) (j : Nat) (hj : j < ws.length) :
    (grantRun c gen ws)[j]'(by simpa using hj) = ws[j].grantedAt c (gen + 1 + BitVec.ofNat 16 j) := by
  induction ws generalizing gen j with
  | nil => simp at hj
  | cons w ws ih =>
    cases j with
    | zero => simp [grantRun]
    | succ j =>
      have hj' : j < ws.length := by simpa using hj
      have := ih (gen + 1) j hj'
      simp only [grantRun, List.getElem_cons_succ, this]
      congr 1
      rw [BitVec.ofNat_add, BitVec.add_comm (BitVec.ofNat 16 j), ← BitVec.add_assoc]
      rfl

@[simp] theorem grantRun_station (c : CycleNo) (gen : Word16) (ws : List Waiter) :
    (grantRun c gen ws).map (·.station) = ws.map (·.station) := by
  induction ws generalizing gen with
  | nil => rfl
  | cons w ws ih => simp [grantRun, ih, Waiter.grantedAt]

theorem grantRun_leaseStart (c : CycleNo) (gen : Word16) (ws : List Waiter) :
    ∀ h ∈ grantRun c gen ws, h.leaseStart = c := by
  induction ws generalizing gen with
  | nil => simp [grantRun]
  | cons w ws ih => simpa [grantRun, Waiter.grantedAt] using ih (gen + 1)

/-- All that a grant pass can do: some number k of waiters leave the head of the queue and become holders at the
tail, the generation goes up by k, and the waiter then at the head is not grantable (R4, R6). -/
theorem grantLoop_eq (c : CycleNo) (gen : Word16) (hs : List Holder) (ws : List Waiter) :
    ∃ k, k ≤ ws.length ∧
      grantLoop c gen hs ws
        = ⟨gen + BitVec.ofNat 16 k, hs ++ grantRun c gen (ws.take k), ws.drop k⟩ ∧
      (∀ w ∈ (ws.drop k).head?, grantable (hs ++ grantRun c gen (ws.take k)) w.mode = false) ∧
      ∀ j (_ : j < k) (hj' : j < ws.length),
        grantable (hs ++ grantRun c gen (ws.take j)) ws[j].mode = true := by
  induction ws generalizing gen hs with
  | nil => exact ⟨0, by simp, by simp [grantLoop, grantRun], by simp, by simp⟩
  | cons w ws ih =>
    unfold grantLoop
    by_cases hg : grantable hs w.mode = true
    · obtain ⟨k, hk, he, hb, hgr⟩ := ih (gen + 1) (hs ++ [w.grantedAt c (gen + 1)])
      refine ⟨k + 1, by simpa using hk, ?_, ?_, ?_⟩
      · simp only [hg, if_true, he, List.take_succ_cons, grantRun, List.drop_succ_cons, List.append_assoc,
          List.singleton_append, LockRecord.mk.injEq, and_true]
        rw [BitVec.ofNat_add, BitVec.add_comm (BitVec.ofNat 16 k), ← BitVec.add_assoc]
        rfl
      · simpa [grantRun, List.append_assoc] using hb
      · intro j hj hj'
        cases j with
        | zero => simpa [grantRun] using hg
        | succ j =>
          have := hgr j (by omega) (by simpa using hj')
          simpa [grantRun, List.append_assoc] using this
    · refine ⟨0, by simp, by simp [hg, grantRun], ?_, by simp⟩
      simpa [grantRun] using hg

/-- A pass whose head waiter is not grantable changes nothing (R6). -/
theorem grantPass_blocked (r : LockRecord) (c : CycleNo)
    (h : ∀ w ∈ r.waiters.head?, grantable r.holders w.mode = false) : r.grantPass c = r := by
  obtain ⟨g, hs, ws⟩ := r
  cases ws with
  | nil => rfl
  | cons w ws => simp [LockRecord.grantPass, grantLoop, h w (by simp)]

/-- A pass keeps the list of participants, holders first. -/
theorem stations_grantPass (r : LockRecord) (c : CycleNo) : (r.grantPass c).stations = r.stations := by
  obtain ⟨k, -, he, -, -⟩ := grantLoop_eq c r.generation r.holders r.waiters
  rw [LockRecord.grantPass, he]
  simp only [LockRecord.stations, List.map_append, grantRun_station, List.append_assoc]
  rw [← List.map_append, List.take_append_drop]

/-- After a pass the head waiter is not grantable (R6). -/
theorem blocked_grantPass (r : LockRecord) (c : CycleNo) :
    ∀ w ∈ (r.grantPass c).waiters.head?, grantable (r.grantPass c).holders w.mode = false := by
  obtain ⟨k, -, he, hb, -⟩ := grantLoop_eq c r.generation r.holders r.waiters
  rw [LockRecord.grantPass, he]
  exact hb

theorem grantable_iff (hs : List Holder) (m : Mode) :
    grantable hs m = true ↔ hs = [] ∨ (m = .shared ∧ ∀ h ∈ hs, h.mode = .shared) := by
  cases m <;> cases hs <;> simp [grantable]

/-- A pass keeps R2's holder list. -/
theorem holdersLaw_grantLoop (c : CycleNo) (gen : Word16) (hs : List Holder) (ws : List Waiter) (h : HoldersLaw hs) :
    HoldersLaw (grantLoop c gen hs ws).holders := by
  induction ws generalizing gen hs with
  | nil => exact h
  | cons w ws ih =>
    unfold grantLoop
    split
    · rename_i hg
      refine ih _ _ ?_
      rcases (grantable_iff hs w.mode).1 hg with rfl | ⟨hm, hall⟩
      · cases hw : w.mode
        · exact .inl ⟨_, rfl, hw⟩
        · right; simpa [Waiter.grantedAt] using hw
      · right
        intro x hx
        rcases List.mem_append.1 hx with hx | hx
        · exact hall x hx
        · rw [List.mem_singleton.1 hx]; exact hm
    · exact h

theorem holdersLaw_grantPass (r : LockRecord) (c : CycleNo) (h : HoldersLaw r.holders) :
    HoldersLaw (r.grantPass c).holders := holdersLaw_grantLoop c _ _ _ h

/-- R2 and R1 on a record before its pass give the whole law after it. -/
theorem lawful_grantPass (r : LockRecord) (c : CycleNo) (hh : HoldersLaw r.holders) (ho : r.stations.Nodup) :
    (r.grantPass c).Lawful :=
  ⟨holdersLaw_grantPass r c hh, by rw [stations_grantPass]; exact ho, blocked_grantPass r c⟩

/-- The leases after a pass: those before it, and those it started now. -/
theorem leases_grantPass (r : LockRecord) (c : CycleNo) (h : r.LeasesRun c) : (r.grantPass c).LeasesRun c := by
  obtain ⟨k, -, he, -, -⟩ := grantLoop_eq c r.generation r.holders r.waiters
  rw [LockRecord.grantPass, he]
  intro x hx
  rcases List.mem_append.1 hx with hx | hx
  · exact h x hx
  · intro _; rw [grantRun_leaseStart c _ _ x hx]; simp

/-! ### Removals -/

theorem HoldersLaw.sublist {hs ks : List Holder} (h : HoldersLaw hs) (hk : ks.Sublist hs) : HoldersLaw ks := by
  rcases h with ⟨x, rfl, hx⟩ | hall
  · rcases List.sublist_singleton.1 hk with rfl | rfl
    · right; simp
    · exact .inl ⟨x, rfl, hx⟩
  · exact .inr fun x hx => hall x (hk.subset hx)

theorem LockRecord.holdersLaw_dropHolder (r : LockRecord) (st : StationNo) (h : HoldersLaw r.holders) :
    HoldersLaw (r.dropHolder st).holders := h.sublist List.filter_sublist

theorem LockRecord.stations_dropHolder (r : LockRecord) (st : StationNo) :
    ((r.dropHolder st).stations).Sublist r.stations :=
  (List.filter_sublist.map _).append (List.Sublist.refl _)

theorem LockRecord.stations_dropWaiter (r : LockRecord) (st : StationNo) :
    ((r.dropWaiter st).stations).Sublist r.stations :=
  (List.Sublist.refl _).append (List.filter_sublist.map _)

theorem LockRecord.stations_dropExpired (r : LockRecord) (c : CycleNo) :
    ((r.dropExpired c).stations).Sublist r.stations :=
  (List.filter_sublist.map _).append (List.Sublist.refl _)

/-- A station takes part in a record exactly when it is among its stations. -/
theorem LockRecord.participates_iff (r : LockRecord) (st : StationNo) :
    r.participates st = true ↔ st ∈ r.stations := by
  simp [LockRecord.participates, LockRecord.holderOf, LockRecord.waiterOf, LockRecord.stations]

/-! ### The four operations -/

/-- An operation adds no station but its sender (R24, R26, R27, R29, R30). -/
theorem LockRecord.stations_apply (r : LockRecord) (c : CycleNo) (st : StationNo) (o : Operation) :
    ∀ x ∈ (r.apply c st o).record.stations, x = st ∨ x ∈ r.stations := by
  have hclaim : ∀ x ∈ (r.claim c st o).record.stations, x = st ∨ x ∈ r.stations := by
    intro x hx
    have hj : ∀ y, y ∈ ({ r with waiters := r.waiters ++ [Waiter.mk st o.mode o.limit] } : LockRecord).stations →
        y = st ∨ y ∈ r.stations := by
      intro y hy
      simp only [LockRecord.stations, List.map_append, List.mem_append, List.map_cons, List.map_nil,
        List.mem_singleton] at hy ⊢
      tauto
    unfold LockRecord.claim at hx
    dsimp only at hx
    split at hx
    · exact .inr hx
    · split at hx
      · rw [stations_grantPass] at hx; exact hj x hx
      · split at hx
        · refine hj x ?_
          rw [← stations_grantPass _ c]
          exact ((List.Sublist.refl _).append ((List.dropLast_sublist _).map _)).subset hx
        · rw [stations_grantPass] at hx; exact hj x hx
  have hyield : ∀ x ∈ (r.yield c st).record.stations, x ∈ r.stations := by
    intro x hx
    unfold LockRecord.yield at hx
    split at hx
    · rw [stations_grantPass] at hx; exact (r.stations_dropHolder st).subset hx
    · split at hx
      · rw [stations_grantPass] at hx; exact (r.stations_dropWaiter st).subset hx
      · exact hx
  have hdown : (r.downgrade c st).record.stations = r.stations := by
    unfold LockRecord.downgrade
    split
    · rw [stations_grantPass]
      simp only [LockRecord.stations, LockRecord.shareHolder, List.map_map]
      congr 1
      refine List.map_congr_left fun h _ => ?_
      simp only [Function.comp_apply]; split <;> rfl
    · rfl
  have hrenew : (r.renew c st).record.stations = r.stations := by
    unfold LockRecord.renew
    split
    · simp only [LockRecord.stations, LockRecord.renewHolder, List.map_map]
      congr 1
      refine List.map_congr_left fun h _ => ?_
      simp only [Function.comp_apply]; split <;> rfl
    · rfl
  intro x hx
  unfold LockRecord.apply at hx
  split at hx
  · exact hclaim x hx
  · exact .inr (hyield x hx)
  · rw [hdown] at hx; exact .inr hx
  · rw [hrenew] at hx; exact .inr hx

theorem LockRecord.Lawful.claim {r : LockRecord} (h : r.Lawful) (c : CycleNo) (st : StationNo) (o : Operation) :
    (r.claim c st o).record.Lawful := by
  unfold LockRecord.claim
  dsimp only
  split
  · exact h
  · rename_i hp
    have hnot : st ∉ r.stations := by rwa [← r.participates_iff]
    have hj : (({ r with waiters := r.waiters ++ [Waiter.mk st o.mode o.limit] } : LockRecord).grantPass c).Lawful := by
      refine lawful_grantPass _ c h.holders ?_
      simp only [LockRecord.stations, List.map_append, List.map_cons, List.map_nil, ← List.append_assoc]
      exact List.Nodup.append h.once (by simp) (by
        rw [List.disjoint_singleton]; exact hnot)
    split
    · exact hj
    · split
      · -- the last waiter is taken away again: the head, where one is left, is still blocked
        refine ⟨hj.holders, hj.once.sublist ((List.Sublist.refl _).append ((List.dropLast_sublist _).map _)), ?_⟩
        intro w hw
        refine hj.blocked w ?_
        generalize (LockRecord.grantPass _ c).waiters = ws at hw ⊢
        cases ws with
        | nil => simp at hw
        | cons a ws =>
          cases ws with
          | nil => simp at hw
          | cons b ws => simpa using hw
      · exact hj

theorem LockRecord.Lawful.yield {r : LockRecord} (h : r.Lawful) (c : CycleNo) (st : StationNo) :
    (r.yield c st).record.Lawful := by
  unfold LockRecord.yield
  split
  · exact lawful_grantPass _ c (r.holdersLaw_dropHolder st h.holders) (h.once.sublist (r.stations_dropHolder st))
  · split
    · exact lawful_grantPass _ c h.holders (h.once.sublist (r.stations_dropWaiter st))
    · exact h

theorem LockRecord.Lawful.downgrade {r : LockRecord} (h : r.Lawful) (c : CycleNo) (st : StationNo) :
    (r.downgrade c st).record.Lawful := by
  unfold LockRecord.downgrade
  split
  · rename_i hx
    refine lawful_grantPass _ c ?_ ?_
    · right
      obtain ⟨x, hx, he⟩ := List.any_eq_true.1 hx
      simp only [Bool.and_eq_true, beq_iff_eq] at he
      rcases h.holders with ⟨y, hy, hm⟩ | hall
      · rw [hy, List.mem_singleton] at hx
        subst hx
        simp [LockRecord.shareHolder, hy, he.1]
      · rw [hall x hx] at he; exact absurd he.2 (by decide)
    · have : (r.shareHolder st).stations = r.stations := by
        simp only [LockRecord.stations, LockRecord.shareHolder, List.map_map]
        congr 1
        refine List.map_congr_left fun h _ => ?_
        simp only [Function.comp_apply]; split <;> rfl
      rw [this]; exact h.once
  · exact h

theorem grantable_congr {hs ks : List Holder} (h : hs.map (·.mode) = ks.map (·.mode)) (m : Mode) :
    grantable hs m = grantable ks m := by
  cases m
  · cases hs <;> cases ks <;> simp_all [grantable]
  · have e : ∀ xs : List Holder, xs.all (·.mode == .shared) = (xs.map (·.mode)).all (· == .shared) := by
      intro xs; simp [List.all_map, Function.comp_def]
    simp only [grantable, e, h]

theorem LockRecord.renewHolder_modes (r : LockRecord) (c : CycleNo) (st : StationNo) :
    (r.renewHolder c st).holders.map (·.mode) = r.holders.map (·.mode) := by
  simp only [LockRecord.renewHolder, List.map_map]
  refine List.map_congr_left fun h _ => ?_
  simp only [Function.comp_apply]; split <;> rfl

theorem LockRecord.Lawful.renew {r : LockRecord} (h : r.Lawful) (c : CycleNo) (st : StationNo) :
    (r.renew c st).record.Lawful := by
  unfold LockRecord.renew
  split
  · refine ⟨?_, ?_, ?_⟩
    · rcases h.holders with ⟨y, hy, hm⟩ | hall
      · left
        refine ⟨if y.station = st then { y with leaseStart := c } else y, by simp [LockRecord.renewHolder, hy], ?_⟩
        split <;> exact hm
      · right
        intro x hx
        obtain ⟨y, hy, rfl⟩ := List.mem_map.1 hx
        have := hall y hy
        split <;> exact this
    · have : (r.renewHolder c st).stations = r.stations := by
        simp only [LockRecord.stations, LockRecord.renewHolder, List.map_map]
        congr 1
        refine List.map_congr_left fun h _ => ?_
        simp only [Function.comp_apply]; split <;> rfl
      rw [this]; exact h.once
    · intro w hw
      rw [grantable_congr (r.renewHolder_modes c st)]
      exact h.blocked w hw
  · exact h

/-- Every operation keeps the law of a record (R1, R2, R6). -/
theorem LockRecord.Lawful.apply {r : LockRecord} (h : r.Lawful) (c : CycleNo) (st : StationNo) (o : Operation) :
    (r.apply c st o).record.Lawful := by
  unfold LockRecord.apply
  split
  · exact h.claim c st o
  · exact h.yield c st
  · exact h.downgrade c st
  · exact h.renew c st

/-! ### Leases -/

theorem LockRecord.LeasesRun.apply {r : LockRecord} {c : CycleNo} (h : r.LeasesRun c) (st : StationNo)
    (o : Operation) : (r.apply c st o).record.LeasesRun c := by
  unfold LockRecord.apply
  split
  · unfold LockRecord.claim
    dsimp only
    have hj := leases_grantPass { r with waiters := r.waiters ++ [Waiter.mk st o.mode o.limit] } c h
    split
    · exact h
    · split
      · exact hj
      · split <;> exact hj
  · unfold LockRecord.yield
    split
    · exact leases_grantPass _ c fun x hx => h x (List.mem_of_mem_filter hx)
    · split
      · exact leases_grantPass _ c h
      · exact h
  · unfold LockRecord.downgrade
    split
    · refine leases_grantPass _ c ?_
      intro x hx
      obtain ⟨y, hy, rfl⟩ := List.mem_map.1 hx
      have := h y hy
      split <;> exact this
    · exact h
  · unfold LockRecord.renew
    split
    · intro x hx
      obtain ⟨y, hy, rfl⟩ := List.mem_map.1 hx
      have := h y hy
      split
      · intro _; simp
      · exact this
    · exact h

/-- A hold with a limit that has not expired at the end of cycle c has run less than its limit (R31). -/
theorem Holder.not_expired {h : Holder} {c : CycleNo} (he : h.expired c = false) (hl : 0 < h.limit.toNat) :
    (c - h.leaseStart).toNat < h.limit.toNat := by
  simp only [Holder.expired, decide_eq_false_iff_not, not_and, not_le] at he
  exact he hl

/-- Leases that have run less than their limits have run at most their limits one cycle later (R31). -/
theorem lease_succ {c start : CycleNo} {limit : Limit} (h : (c - start).toNat < limit.toNat) :
    (c + 1 - start).toNat ≤ limit.toNat := by
  have h1 := limit.isLt
  bv_omega

/-- A station that takes no part holds no entry. -/
theorem LockRecord.holderOf_none {r : LockRecord} {k : StationNo} (h : k ∉ r.stations) : r.holderOf k = none := by
  unfold LockRecord.holderOf; rw [List.find?_eq_none]; intro x hx; simp; rintro rfl
  exact h (List.mem_append_left _ (List.mem_map_of_mem hx))

@[inherit_doc LockRecord.holderOf_none]
theorem LockRecord.waiterOf_none {r : LockRecord} {k : StationNo} (h : k ∉ r.stations) : r.waiterOf k = none := by
  unfold LockRecord.waiterOf; rw [List.find?_eq_none]; intro x hx; simp; rintro rfl
  exact h (List.mem_append_right _ (List.mem_map_of_mem hx))

end Sys2Proof.Machine
end

