-- ==== Sys2Proof/Laws/Table.lean ====
section
/-! SUPPORT. The whole table: what a purge and the expiries of a cycle end leave in each record, and that every work of
a slot end keeps the laws of the table. -/

namespace Sys2Proof.Machine

variable {s : State}

/-! ### Reports leave the table alone -/

@[simp] theorem State.lock_resultReport (s : State) (k : OpKind) (l m : LockNo) (r : OpResult) :
    (s.resultReport k l r).lock m = s.lock m :=
  State.lock_congr (Touches.resultReport s k l r).locks m

@[simp] theorem State.lock_removalReport (s : State) (l m : LockNo) (o : EndOutcome) :
    (s.removalReport l o).lock m = s.lock m :=
  State.lock_congr (Touches.removalReport s l o).locks m

@[simp] theorem State.lock_reportGrant (s : State) (l m : LockNo) (a b : LockRecord) :
    (s.reportGrant l a b).lock m = s.lock m :=
  State.lock_congr (Touches.reportGrant s l a b).locks m

/-! ### One operation -/

/-- The table after one operation of a frame: the named record takes the operation where its page is valid; every
other record, and every record under a void or skipped operation, is unchanged (R13, R19, R21). -/
theorem State.lock_applyOperation (s : State) (k : StationNo) (o : Operation) (m : LockNo) :
    (s.applyOperation k o).lock m
      = if lockOfByte o.lock = some m ∧ s.lockValid m = true then ((s.lock m).apply s.slots.cycle k o).record
        else s.lock m := by
  unfold State.applyOperation
  split
  · rename_i h; simp [h]
  · rename_i l h
    rw [h]
    by_cases hv : s.lockValid l = true
    · have hlock : ∀ t : State, t.locks = (s.setLock l ((s.lock l).apply s.slots.cycle k o).record).locks →
          t.lock m = if m = l then ((s.lock l).apply s.slots.cycle k o).record else s.lock m := by
        intro t ht
        rw [State.lock_congr ht, State.lock_setLock]
      have goal : ∀ t : State, t.lock m = (if m = l then ((s.lock l).apply s.slots.cycle k o).record else s.lock m) →
          t.lock m = if some l = some m ∧ s.lockValid m = true then ((s.lock m).apply s.slots.cycle k o).record
            else s.lock m := by
        intro t ht
        rw [ht]
        by_cases hm : m = l
        · subst hm; simp [hv]
        · have : l ≠ m := fun e => hm e.symm
          simp [hm, this]
      simp only [hv, if_true]
      apply goal
      apply hlock
      split
      · rw [(Touches.reportGrant _ _ _ _).locks]
        split
        · rw [(Touches.resultReport _ _ _ _).locks]
        · rfl
      · rfl
    · simp only [hv]
      by_cases hm : l = m
      · subst hm; simp [hv]
      · simp [hm]

/-! ### Purge and expiry, record by record -/

theorem State.lock_purgeLock (s : State) (st : StationNo) (cause : PurgeCause) (l m : LockNo) :
    (s.purgeLock st cause l).lock m
      = if m = l then (if s.lockValid l then (s.lock l).purged st s.slots.cycle else s.lock l) else s.lock m := by
  unfold State.purgeLock
  by_cases hv : s.lockValid l = true
  · by_cases hp : (s.lock l).participates st = true
    · simp only [hv, hp, Bool.and_true, if_true, LockRecord.purged]
      split
      · rw [State.lock_reportGrant]
        split <;> simp
      · simp
    · simp only [hv, hp, Bool.and_false, LockRecord.purged]
      by_cases hm : m = l <;> simp [hm]
  · simp only [hv, Bool.false_and]
    by_cases hm : m = l <;> simp [hm]

theorem State.lock_expireLock (s : State) (l m : LockNo) :
    (s.expireLock l).lock m
      = if m = l then (if s.lockValid l then (s.lock l).expiredAt s.slots.cycle else s.lock l) else s.lock m := by
  unfold State.expireLock
  dsimp only
  by_cases hv : s.lockValid l = true
  · by_cases hp : (s.lock l).holders.any (·.expired s.slots.cycle) = true
    · simp only [hv, hp, Bool.and_true, if_true, LockRecord.expiredAt]
      split
      · rw [State.lock_reportGrant]
        split <;> simp
      · simp
    · simp only [hv, hp, Bool.and_false, LockRecord.expiredAt]
      by_cases hm : m = l <;> simp [hm]
  · simp only [hv, Bool.false_and]
    by_cases hm : m = l <;> simp [hm]

/-- A fold over locks, each step changing its own record alone, by a rule that depends on what the steps keep. -/
theorem lock_foldl {f : State → LockNo → State} (g : SlotTracker → Replication → LockNo → LockRecord → LockRecord)
    (ho : ∀ (s : State) (l : LockNo), s.OnlyTables (f s l))
    (hf : ∀ (s : State) (l m : LockNo), (f s l).lock m = if m = l then g s.slots s.repl l (s.lock l) else s.lock m)
    (xs : List LockNo) (hx : xs.Nodup) (s : State) (m : LockNo) :
    (xs.foldl f s).lock m = if m ∈ xs then g s.slots s.repl m (s.lock m) else s.lock m := by
  induction xs generalizing s with
  | nil => simp
  | cons l xs ih =>
    rw [List.foldl_cons, ih (List.nodup_cons.1 hx).2, (ho s l).rosterTables.slots, (ho s l).rosterTables.repl, hf]
    have hl := (List.nodup_cons.1 hx).1
    by_cases hm : m = l
    · subst hm; simp [hl]
    · simp [hm]

/-- The table after a purge (R8, R13). -/
theorem State.lock_purge (s : State) (st : StationNo) (cause : PurgeCause) (l : LockNo) :
    (s.purge st cause).lock l
      = if s.lockValid l then (s.lock l).purged st s.slots.cycle else s.lock l := by
  have := lock_foldl (f := fun s l => s.purgeLock st cause l)
    (fun sl rp l r => if rp.installed.getLsbD (lockPage l) then r.purged st sl.cycle else r)
    (fun s l => Touches.purgeLock s st cause l) (fun s l m => s.lock_purgeLock st cause l m) allLocks nodup_allLocks s l
  rw [if_pos (mem_allLocks l)] at this
  exact this

/-- The table after the expiries of a cycle end (R13, R31). -/
theorem State.lock_expireAll (s : State) (l : LockNo) :
    s.expireAll.lock l = if s.lockValid l then (s.lock l).expiredAt s.slots.cycle else s.lock l := by
  have := lock_foldl (f := State.expireLock)
    (fun sl rp l r => if rp.installed.getLsbD (lockPage l) then r.expiredAt sl.cycle else r)
    Touches.expireLock State.lock_expireLock allLocks nodup_allLocks s l
  rw [if_pos (mem_allLocks l)] at this
  exact this

/-! ### The laws of a record under purge and expiry -/

theorem LockRecord.Lawful.purged {r : LockRecord} (h : r.Lawful) (st : StationNo) (c : CycleNo) :
    (r.purged st c).Lawful := by
  unfold LockRecord.purged
  split
  · exact lawful_grantPass _ c (r.holdersLaw_dropHolder st h.holders)
      ((h.once.sublist (r.stations_dropHolder st)).sublist ((r.dropHolder st).stations_dropWaiter st))
  · exact h

theorem LockRecord.LeasesRun.purged {r : LockRecord} {c : CycleNo} (h : r.LeasesRun c) (st : StationNo) :
    (r.purged st c).LeasesRun c := by
  unfold LockRecord.purged
  split
  · exact leases_grantPass _ c fun x hx => h x (List.mem_of_mem_filter hx)
  · exact h

/-- A purged record has the stations it had, the purged one gone. -/
theorem LockRecord.stations_purged (r : LockRecord) (st : StationNo) (c : CycleNo) :
    ∀ x ∈ (r.purged st c).stations, x ≠ st ∧ x ∈ r.stations := by
  intro x hx
  unfold LockRecord.purged at hx
  split at hx
  · rw [stations_grantPass] at hx
    refine ⟨?_, (r.stations_dropHolder st).subset (((r.dropHolder st).stations_dropWaiter st).subset hx)⟩
    simp only [LockRecord.stations, LockRecord.dropHolder, LockRecord.dropWaiter, List.mem_append, List.mem_map,
      List.mem_filter, decide_eq_true_eq] at hx
    rcases hx with ⟨y, hy, rfl⟩ | ⟨y, hy, rfl⟩ <;> exact hy.2
  · rename_i hp
    refine ⟨?_, hx⟩
    rintro rfl
    exact hp ((r.participates_iff x).2 hx)

theorem LockRecord.Lawful.expiredAt {r : LockRecord} (h : r.Lawful) (c : CycleNo) : (r.expiredAt c).Lawful := by
  unfold LockRecord.expiredAt
  split
  · exact lawful_grantPass _ c (h.holders.sublist List.filter_sublist) (h.once.sublist (r.stations_dropExpired c))
  · exact h

theorem LockRecord.stations_expiredAt (r : LockRecord) (c : CycleNo) :
    ∀ x ∈ (r.expiredAt c).stations, x ∈ r.stations := by
  intro x hx
  unfold LockRecord.expiredAt at hx
  split at hx
  · rw [stations_grantPass] at hx; exact (r.stations_dropExpired c).subset hx
  · exact hx

/-- After the expiries of cycle `c` every lease has run less than its limit (R31). -/
theorem LockRecord.leases_expiredAt (r : LockRecord) (c : CycleNo) :
    ∀ h ∈ (r.expiredAt c).holders, 0 < h.limit.toNat → (c - h.leaseStart).toNat < h.limit.toNat := by
  intro x hx hl
  unfold LockRecord.expiredAt at hx
  split at hx
  · obtain ⟨k, -, he, -, -⟩ := grantLoop_eq c (r.dropExpired c).generation (r.dropExpired c).holders
      (r.dropExpired c).waiters
    rw [LockRecord.grantPass, he] at hx
    rcases List.mem_append.1 hx with hx | hx
    · have := (List.mem_filter.1 hx).2
      exact Holder.not_expired (by simpa using this) hl
    · rw [grantRun_leaseStart c _ _ x hx]; simpa using hl
  · rename_i hn
    refine Holder.not_expired ?_ hl
    by_contra hc
    exact hn (List.any_eq_true.2 ⟨x, hx, by simpa using hc⟩)

/-! ### The laws of the table -/

theorem lockValid_of_all {s : State} (h : s.repl.installed = allPages) (l : LockNo) : s.lockValid l = true := by
  have hl : lockPage l < 9 := by
    have := l.isLt
    unfold lockPage
    omega
  simp only [State.lockValid, State.pageInstalled, h, allPages, BitVec.getLsbD_allOnes, hl, decide_true]

/-- The law depends on records, cycle number and roster. -/
theorem State.TableLaw.congr {s u : State} (h : s.TableLaw) (locks : u.locks = s.locks)
    (cycle : u.slots.cycle = s.slots.cycle) (roster : u.roster = s.roster) : u.TableLaw where
  lawful l := by rw [State.lock_congr locks]; exact h.lawful l
  leases l := by rw [State.lock_congr locks, cycle]; exact h.leases l
  present l st hst := by
    rw [State.rosterEntry_congr roster]
    rw [State.lock_congr locks] at hst
    exact h.present l st hst

theorem State.TableLaw.requests {s u : State} (h : s.TableLaw) (hu : s.OnlyRequests u) : u.TableLaw :=
  h.congr hu.locks (by rw [hu.tables.rosterTables.slots]) hu.tables.roster

theorem State.TableLaw.applyOperation (h : s.TableLaw) {k : StationNo} (hk : (s.rosterEntry k).state ≠ .absent)
    (o : Operation) : (s.applyOperation k o).TableLaw := by
  have ho := (Touches.applyOperation s k o)
  refine ⟨fun l => ?_, fun l => ?_, fun l st hst => ?_⟩
  · rw [State.lock_applyOperation]
    split
    · exact (h.lawful l).apply _ _ _
    · exact h.lawful l
  · rw [State.lock_applyOperation, ho.rosterTables.slots]
    split
    · exact (h.leases l).apply _ _
    · exact h.leases l
  · rw [State.rosterEntry_congr ho.roster]
    rw [State.lock_applyOperation] at hst
    split at hst
    · rcases LockRecord.stations_apply _ _ _ _ st hst with rfl | hst
      · exact hk
      · exact h.present l st hst
    · exact h.present l st hst

theorem State.TableLaw.applyOperations (h : s.TableLaw) {k : StationNo} (hk : (s.rosterEntry k).state ≠ .absent)
    (ops : List Operation) : (s.applyOperations k ops).TableLaw := by
  unfold State.applyOperations
  induction ops generalizing s with
  | nil => exact h
  | cons o ops ih =>
    refine ih (h.applyOperation hk o) ?_
    rw [State.rosterEntry_congr (Touches.applyOperation s k o).roster]
    exact hk

/-- With every page valid, a purge restores the law where only the purged station was ABSENT with participations. -/
theorem State.TableLaw.ofPurge (st : StationNo) (cause : PurgeCause) (all : s.repl.installed = allPages)
    (lawful : ∀ l, (s.lock l).Lawful) (leases : ∀ l, (s.lock l).LeasesRun s.slots.cycle)
    (present : ∀ l, ∀ x ∈ (s.lock l).stations, x ≠ st → (s.rosterEntry x).state ≠ .absent) :
    (s.purge st cause).TableLaw := by
  have ho := Touches.purge s st cause
  have hlock : ∀ l, (s.purge st cause).lock l = (s.lock l).purged st s.slots.cycle := by
    intro l; rw [State.lock_purge, lockValid_of_all all]; simp
  refine ⟨fun l => ?_, fun l => ?_, fun l x hx => ?_⟩
  · rw [hlock]; exact (lawful l).purged _ _
  · rw [hlock, ho.rosterTables.slots]; exact (leases l).purged _
  · rw [State.rosterEntry_congr ho.roster]
    rw [hlock] at hx
    have := (s.lock l).stations_purged st _ x hx
    exact present l x this.2 this.1

theorem State.TableLaw.expireAll (h : s.TableLaw) : s.expireAll.TableLaw := by
  have ho := Touches.expireAll s
  refine ⟨fun l => ?_, fun l => ?_, fun l x hx => ?_⟩
  · rw [State.lock_expireAll]; split
    · exact (h.lawful l).expiredAt _
    · exact h.lawful l
  · rw [State.lock_expireAll, ho.rosterTables.slots]; split
    · intro x hx hl; exact le_of_lt ((s.lock l).leases_expiredAt _ x hx hl)
    · exact h.leases l
  · rw [State.rosterEntry_congr ho.roster]
    rw [State.lock_expireAll] at hx
    split at hx
    · exact h.present l x ((s.lock l).stations_expiredAt _ x hx)
    · exact h.present l x hx

/-- The law after the expiries of a cycle end and the increment of the cycle number (R31, R46). -/
theorem State.TableLaw.nextCycle (h : s.TableLaw) (all : s.repl.installed = allPages) :
    State.TableLaw { s.expireAll with slots.cycle := s.expireAll.slots.cycle + 1 } := by
  have h' := h.expireAll
  refine ⟨h'.lawful, fun l x hx hl => ?_, h'.present⟩
  have hx' : x ∈ (s.expireAll.lock l).holders := hx
  rw [State.lock_expireAll, lockValid_of_all all] at hx'
  show (s.expireAll.slots.cycle + 1 - x.leaseStart).toNat ≤ x.limit.toNat
  rw [(Touches.expireAll s).rosterTables.slots]
  exact lease_succ ((s.lock l).leases_expiredAt _ x (by simpa using hx') hl)

/-! ### Roster works and purges -/

theorem State.rosterEntry_putRoster (s : State) (k j : StationNo) (e : RosterEntry) :
    (s.putRoster k e).rosterEntry j = if j = k then e else s.rosterEntry j := by
  unfold State.putRoster
  dsimp only
  split
  · exact s.rosterEntry_setRosterEntry k j e
  · exact s.rosterEntry_setRosterEntry k j e

theorem State.locks_putRoster (s : State) (k : StationNo) (e : RosterEntry) : (s.putRoster k e).locks = s.locks := by
  unfold State.putRoster
  dsimp only
  split <;> rfl

/-- A roster entry that becomes SYNCING or ACTIVE keeps the law. -/
theorem State.TableLaw.putRoster (h : s.TableLaw) (k : StationNo) (e : RosterEntry) (he : e.state ≠ .absent) :
    (s.putRoster k e).TableLaw := by
  have ho := Touches.putRoster s k e
  refine ⟨fun l => ?_, fun l => ?_, fun l x hx => ?_⟩
  · rw [State.lock_congr (s.locks_putRoster k e)]; exact h.lawful l
  · rw [State.lock_congr (s.locks_putRoster k e), ho.slots]; exact h.leases l
  · rw [State.lock_congr (s.locks_putRoster k e)] at hx
    rw [State.rosterEntry_putRoster]
    split
    · exact he
    · exact h.present l x hx

/-- A roster entry that becomes ABSENT, with the purge that goes with it, keeps the law (R9). -/
theorem State.TableLaw.putPurge (h : s.TableLaw) (all : s.repl.installed = allPages) (k : StationNo) (e : RosterEntry)
    (cause : PurgeCause) : ((s.putRoster k e).purge k cause).TableLaw := by
  have ho := Touches.putRoster s k e
  refine State.TableLaw.ofPurge k cause (by rw [ho.repl]; exact all) (fun l => ?_) (fun l => ?_) (fun l x hx hne => ?_)
  · rw [State.lock_congr (s.locks_putRoster k e)]; exact h.lawful l
  · rw [State.lock_congr (s.locks_putRoster k e), ho.slots]; exact h.leases l
  · rw [State.lock_congr (s.locks_putRoster k e)] at hx
    rw [State.rosterEntry_putRoster, if_neg hne]
    exact h.present l x hx

theorem State.TableLaw.setMisses (h : s.TableLaw) (k : StationNo) (m : BitVec 3) :
    (s.setRosterEntry k { s.rosterEntry k with misses := m }).TableLaw := by
  refine ⟨h.lawful, h.leases, fun l x hx => ?_⟩
  rw [State.rosterEntry_setRosterEntry]
  split
  · rename_i e; subst e; exact h.present l x hx
  · exact h.present l x hx

theorem State.TableLaw.rosterActivity (h : s.TableLaw) (k : StationNo) : (s.rosterActivity k).TableLaw := by
  unfold State.rosterActivity
  split
  · exact h.setMisses k 0
  · exact h

theorem State.TableLaw.dropStation (h : s.TableLaw) (all : s.repl.installed = allPages) (k : StationNo) :
    (s.dropStation k).TableLaw := h.putPurge all k _ _

theorem State.TableLaw.rosterSilence (h : s.TableLaw) (all : s.repl.installed = allPages) (k : StationNo) :
    (s.rosterSilence k).TableLaw := by
  unfold State.rosterSilence
  split
  · dsimp only
    split
    · exact (h.setMisses k _).dropStation all k
    · exact h.setMisses k _
  · exact h

theorem State.TableLaw.rosterFrame (h : s.TableLaw) (all : s.repl.installed = allPages) (k : StationNo)
    (st : FrameStatus) : (s.rosterFrame k st).TableLaw := by
  unfold State.rosterFrame
  split
  · split
    · exact h.putRoster k _ (by decide)
    · exact h.putRoster k _ (by decide)
    · dsimp only
      split
      · exact h.putRoster k _ (by decide)
      · exact h.putPurge all k _ _
    · exact h.putPurge all k _ _
    · exact h
  · exact h

/-- An empty table obeys the laws whatever the roster holds (R10). -/
theorem State.TableLaw.ofEmpty (h : ∀ l, s.lock l = .empty) : s.TableLaw := by
  refine ⟨fun l => ?_, fun l => ?_, fun l => ?_⟩
  · rw [h l]
    exact ⟨.inr (by simp [LockRecord.empty]), by simp [LockRecord.stations, LockRecord.empty],
      by simp [LockRecord.empty]⟩
  · rw [h l]; simp [LockRecord.LeasesRun, LockRecord.empty]
  · rw [h l]; simp [LockRecord.stations, LockRecord.empty]

end Sys2Proof.Machine
end

