-- ==== Sys2Proof/Laws/SlotEnds.lean ====
section
/-! SUPPORT. Slot starts and slot ends: the Notice Queue is only raised onto, the laws of the request entries stay, and
what the parts of a slot end leave of the other blocks. -/

namespace Sys2Proof.Machine

variable {s : State}

/-! ### Slot start -/

/-- The state in which the own frame of a slot is built, where the slot is the own one. -/
def State.slotOpened (s : State) : State :=
  { (s.releaseLine.dropOwnFrame) with
    slots.phase := .waiting
    slots.timer := 0
    repl.digest := if s.isActive then some s.computeDigest else none }

theorem State.slotStart_eq (s : State) :
    s.slotStart = if s.inOwnSlot then s.slotOpened.buildOwnFrame else s.slotOpened := rfl

/-- All that building the own frame can do: none where the station has no own slot start; an ACTIVE frame with the
draw and the cursor; a frame of another status, with no operation and no page (R55 to R58). -/
theorem State.buildOwnFrame_cases (s : State) :
    (s.ownStatus = none ∧ s.buildOwnFrame = s) ∨
    (s.ownStatus = some .active ∧ ∃ f cursor, f.sender = s.ctrl.sid ∧ f.slotCount = s.ctrl.snc ∧ f.status = .active
      ∧ f.ops = s.draw.1
      ∧ s.buildOwnFrame = { s.draw.2.2 with line.own := some ⟨f, s.draw.2.1, false⟩, pageCursor := cursor }) ∨
    (∃ st, s.ownStatus = some st ∧ st ≠ .active
      ∧ s.buildOwnFrame = { s with line.own := some ⟨s.plainFrame st s.slots.cycle, [], false⟩ }) := by
  unfold State.buildOwnFrame
  split
  · rename_i h; exact .inl ⟨h, rfl⟩
  · rename_i h; exact .inr (.inl ⟨h, _, _, rfl, rfl, rfl, rfl, rfl⟩)
  · rename_i st hne h; exact .inr (.inr ⟨st, h, hne, rfl⟩)

theorem State.RequestNoticeLaw.buildOwnFrame (h : s.RequestNoticeLaw) : s.buildOwnFrame.RequestNoticeLaw := by
  rcases s.buildOwnFrame_cases with ⟨-, e⟩ | ⟨-, f, c, -, -, -, -, e⟩ | ⟨st, -, -, e⟩
  · rw [e]; exact h
  · rw [e]
    have hd := h.draw
    refine ⟨hd.distinct, hd.law.congr rfl rfl rfl (fun t => State.endUnread_congr rfl t) ?_⟩
    intro o ho
    have : o = ⟨f, s.draw.2.1, false⟩ := (Option.some.inj ho).symm
    rw [this]
    exact (List.nodup_append.1 (State.draw_nodup h.law)).1
  · rw [e]
    refine ⟨h.distinct, h.law.congr rfl rfl rfl (fun t => State.endUnread_congr rfl t) ?_⟩
    intro o ho
    have : o = ⟨s.plainFrame st s.slots.cycle, [], false⟩ := (Option.some.inj ho).symm
    rw [this]
    exact List.nodup_nil

/-- Forgetting the own frame keeps both laws. -/
theorem State.RequestNoticeLaw.noOwn {u : State} (h : s.RequestNoticeLaw) (req : u.req = s.req)
    (notices : u.notices = s.notices) (own : u.line.own = none) : u.RequestNoticeLaw where
  distinct := by rw [State.NoticesDistinct, notices]; exact h.distinct
  law := h.law.congr (by rw [req]) (by rw [req]) (by rw [req]) (State.endUnread_congr (by rw [notices]))
    (by rw [own]; simp)

theorem State.RequestNoticeLaw.slotStart (h : s.RequestNoticeLaw) : s.slotStart.RequestNoticeLaw := by
  have h1 : s.slotOpened.RequestNoticeLaw := h.noOwn rfl rfl rfl
  rw [State.slotStart_eq]
  split
  · exact h1.buildOwnFrame
  · exact h1

theorem State.nextPosition_eq (s : State) :
    ∃ p c, s.nextPosition = { s with slots.position := p, slots.cycle := c } := by
  unfold State.nextPosition
  split
  · exact ⟨_, _, rfl⟩
  · exact ⟨_, _, rfl⟩

theorem State.RequestNoticeLaw.nextSlot (h : s.RequestNoticeLaw) : s.nextSlot.RequestNoticeLaw := by
  obtain ⟨p, c, e⟩ := s.nextPosition_eq
  unfold State.nextSlot
  rw [e]
  exact State.RequestNoticeLaw.slotStart (h.congr rfl rfl rfl)

/-! ### The works of a slot end -/

theorem State.RequestNoticeLaw.applyOperation (h : s.RequestNoticeLaw) (k : StationNo) (o : Operation) :
    (s.applyOperation k o).RequestNoticeLaw := by
  unfold State.applyOperation
  split
  · exact h
  · rename_i l _
    split
    · have h1 : (s.setLock l ((s.lock l).apply s.slots.cycle k o).record).RequestNoticeLaw := h.congr rfl rfl rfl
      dsimp only
      split
      · refine State.RequestNoticeLaw.reportGrant ?_ _ _ _
        split
        · exact h1.resultReport _ _ _
        · exact h1
      · exact h1
    · exact h

theorem State.RequestNoticeLaw.applyOperations (h : s.RequestNoticeLaw) (k : StationNo) (ops : List Operation) :
    (s.applyOperations k ops).RequestNoticeLaw :=
  foldl_holds (P := State.RequestNoticeLaw) (fun _ o hs => hs.applyOperation k o) ops s h

theorem State.RequestNoticeLaw.purgeLock (h : s.RequestNoticeLaw) (k : StationNo) (c : PurgeCause) (l : LockNo) :
    (s.purgeLock k c l).RequestNoticeLaw := by
  unfold State.purgeLock
  split
  · have h1 : (s.setLock l ((((s.lock l).dropHolder k).dropWaiter k).grantPass s.slots.cycle)).RequestNoticeLaw :=
      h.congr rfl rfl rfl
    dsimp only
    split
    · refine State.RequestNoticeLaw.reportGrant ?_ _ _ _
      split
      · exact h1.removalReport _ _
      · exact h1
    · exact h1
  · exact h

theorem State.RequestNoticeLaw.purge (h : s.RequestNoticeLaw) (k : StationNo) (c : PurgeCause) :
    (s.purge k c).RequestNoticeLaw :=
  foldl_holds (P := State.RequestNoticeLaw) (fun _ l hs => hs.purgeLock k c l) allLocks s h

theorem State.RequestNoticeLaw.expireLock (h : s.RequestNoticeLaw) (l : LockNo) :
    (s.expireLock l).RequestNoticeLaw := by
  unfold State.expireLock
  dsimp only
  split
  · have h1 : (s.setLock l (((s.lock l).dropExpired s.slots.cycle).grantPass s.slots.cycle)).RequestNoticeLaw :=
      h.congr rfl rfl rfl
    split
    · refine State.RequestNoticeLaw.reportGrant ?_ _ _ _
      split
      · exact h1.removalReport _ _
      · exact h1
    · exact h1
  · exact h

theorem State.RequestNoticeLaw.expireAll (h : s.RequestNoticeLaw) : s.expireAll.RequestNoticeLaw :=
  foldl_holds (P := State.RequestNoticeLaw) (fun _ l hs => hs.expireLock l) allLocks s h

theorem State.RequestNoticeLaw.cycleEndWork (h : s.RequestNoticeLaw) : s.cycleEndWork.RequestNoticeLaw := by
  unfold State.cycleEndWork
  split
  · exact h.expireAll
  · exact h

theorem State.RequestNoticeLaw.putRoster (h : s.RequestNoticeLaw) (k : StationNo) (e : RosterEntry) :
    (s.putRoster k e).RequestNoticeLaw := by
  have h1 : (s.setRosterEntry k e).RequestNoticeLaw := h.congr rfl rfl rfl
  unfold State.putRoster
  dsimp only
  split
  · exact h1.raise _ (by simp [NoticeBody.owner])
  · exact h1

theorem State.RequestNoticeLaw.rosterFrame (h : s.RequestNoticeLaw) (k : StationNo) (st : FrameStatus) :
    (s.rosterFrame k st).RequestNoticeLaw := by
  unfold State.rosterFrame
  split
  · split
    · exact h.putRoster k _
    · exact h.putRoster k _
    · dsimp only
      split
      · exact h.putRoster k _
      · exact (h.putRoster k _).purge k _
    · exact (h.putRoster k _).purge k _
    · exact h
  · exact h

theorem State.RequestNoticeLaw.rosterActivity (h : s.RequestNoticeLaw) (k : StationNo) :
    (s.rosterActivity k).RequestNoticeLaw := by
  unfold State.rosterActivity
  split
  · exact h.congr rfl rfl rfl
  · exact h

theorem State.RequestNoticeLaw.dropStation (h : s.RequestNoticeLaw) (k : StationNo) :
    (s.dropStation k).RequestNoticeLaw := (h.putRoster k _).purge k _

theorem State.RequestNoticeLaw.rosterSilence (h : s.RequestNoticeLaw) (k : StationNo) :
    (s.rosterSilence k).RequestNoticeLaw := by
  unfold State.rosterSilence
  split
  · have h1 : (s.setRosterEntry k { s.rosterEntry k with misses := oneMiss (s.rosterEntry k).misses }).RequestNoticeLaw :=
      h.congr rfl rfl rfl
    dsimp only
    split
    · exact h1.dropStation k
    · exact h1
  · exact h

theorem State.RequestNoticeLaw.goOffLine (h : s.RequestNoticeLaw) (st : StationState) :
    (s.goOffLine st).RequestNoticeLaw := h.noOwn rfl rfl rfl

theorem State.RequestNoticeLaw.halt (h : s.RequestNoticeLaw) (f : FaultSet) : (s.halt f).RequestNoticeLaw :=
  ((h.goOffLine .halted).raise _ (by simp [NoticeBody.owner])).endAll _

theorem State.RequestNoticeLaw.stop (h : s.RequestNoticeLaw) : s.stop.RequestNoticeLaw := (h.endAll _).goOffLine _

theorem State.RequestNoticeLaw.found (h : s.RequestNoticeLaw) (f : Frame) : (s.found f).RequestNoticeLaw := by
  have h1 : State.RequestNoticeLaw { s with roster := foundRoster f.sender, slots.cycle := f.cycle } :=
    h.congr rfl rfl rfl
  have h2 : (({ s with roster := foundRoster f.sender, slots.cycle := f.cycle } : State).clearTable.setInstalled
      allPages).becomeActive.RequestNoticeLaw := h1.congr rfl rfl rfl
  have raiseIf : ∀ {t : State} (b : Bool) (n : NoticeBody), (∀ v, n.owner ≠ .tag v) → t.RequestNoticeLaw →
      (if b then t.raise n else t).RequestNoticeLaw := by
    intro t b n hn ht
    split
    · exact ht.raise n hn
    · exact ht
  have h3 := (raiseIf (s.isActive || decide (0 < s.liveCount)) .tableLost (by simp [NoticeBody.owner])
    (raiseIf (s.isActive && s.rosterChanges (foundRoster f.sender)) .roster (by simp [NoticeBody.owner]) h2)).foundHandling
  unfold State.found
  dsimp only
  split
  · exact h3
  · exact h3.raise _ (by simp [NoticeBody.owner])

theorem State.RequestNoticeLaw.evaluateVote (h : s.RequestNoticeLaw) : s.evaluateVote.RequestNoticeLaw := by
  unfold State.evaluateVote
  split
  · have h1 : State.RequestNoticeLaw ({ (s.setStation .syncing).uninstallAll.setOrphan 0 with repl.digest := none }) :=
      h.congr rfl rfl rfl
    have h2 := h1.clearToYield.raise (.sync .syncing) (by simp [NoticeBody.owner])
    exact h2.congr rfl rfl rfl
  · have h1 : s.clearVote.RequestNoticeLaw := h.congr rfl rfl rfl
    exact h1.settleDoubtful

theorem State.RequestNoticeLaw.completeRecovery (h : s.RequestNoticeLaw) : s.completeRecovery.RequestNoticeLaw := by
  unfold State.completeRecovery
  split
  · have h1 : s.becomeActive.RequestNoticeLaw := h.congr rfl rfl rfl
    exact h1.reconcile.raise _ (by simp [NoticeBody.owner])
  · exact h

/-- What a count of the vote, a page install, a return to SYNCING and the orphan counter leave alone. -/
theorem State.countVote_eq (s : State) (f : Frame) :
    ∃ a d, s.countVote f = { s with repl.agree := a, repl.disagree := d } := by
  unfold State.countVote
  split
  · exact ⟨_, _, rfl⟩
  · split
    · exact ⟨_, _, rfl⟩
    · split
      · exact ⟨_, _, rfl⟩
      · exact ⟨_, _, rfl⟩

theorem State.takePage_eq (s : State) (p : Option Page) :
    ∃ r l i, s.takePage p = { s with roster := r, locks := l, repl.installed := i } := by
  unfold State.takePage
  split
  · split
    · unfold State.installPage
      split
      · exact ⟨_, _, _, rfl⟩
      · split
        · exact ⟨_, _, _, rfl⟩
        · exact ⟨_, _, _, rfl⟩
    · exact ⟨_, _, _, rfl⟩
  · exact ⟨_, _, _, rfl⟩

theorem State.returnToSyncing_eq (s : State) :
    ∃ st n, s.returnToSyncing = { s with ctrl.state := st, repl.orphan := n } := by
  unfold State.returnToSyncing
  split
  · exact ⟨_, _, rfl⟩
  · exact ⟨_, _, rfl⟩

theorem State.foundIfOrphaned_eq (s : State) : ∃ st, s.foundIfOrphaned = { s with ctrl.state := st } := by
  unfold State.foundIfOrphaned
  split
  · exact ⟨_, rfl⟩
  · exact ⟨_, rfl⟩

theorem State.countOrphan_eq (s : State) (b : Bool) :
    ∃ st n, s.countOrphan b = { s with ctrl.state := st, repl.orphan := n } := by
  unfold State.countOrphan
  split
  · split
    · exact ⟨_, _, rfl⟩
    · obtain ⟨st, e⟩ := (s.setOrphan (s.repl.orphan + 1)).foundIfOrphaned_eq
      rw [e]
      exact ⟨_, _, rfl⟩
  · exact ⟨_, _, rfl⟩

theorem State.RequestNoticeLaw.countOrphan (h : s.RequestNoticeLaw) (b : Bool) :
    (s.countOrphan b).RequestNoticeLaw := by
  obtain ⟨st, n, e⟩ := s.countOrphan_eq b
  rw [e]
  exact h.congr rfl rfl rfl

/-- The works of a valid ACTIVE frame before its roster effects (R21, R90, R93, R98). -/
theorem State.RequestNoticeLaw.beforeRoster (h : s.RequestNoticeLaw) (f : Frame) :
    ((s.returnToSyncing.countVote f).takePage f.page).RequestNoticeLaw := by
  obtain ⟨st, n, e1⟩ := s.returnToSyncing_eq
  obtain ⟨a, d, e2⟩ := s.returnToSyncing.countVote_eq f
  obtain ⟨r, l, i, e3⟩ := (s.returnToSyncing.countVote f).takePage_eq f.page
  rw [e3]
  refine State.RequestNoticeLaw.congr (s := s.returnToSyncing.countVote f) ?_ rfl rfl rfl
  rw [e2]
  refine State.RequestNoticeLaw.congr (s := s.returnToSyncing) ?_ rfl rfl rfl
  rw [e1]
  exact h.congr rfl rfl rfl

theorem State.RequestNoticeLaw.handFrame (h : s.RequestNoticeLaw) (f : Frame) : (s.handFrame f).RequestNoticeLaw := by
  unfold State.handFrame
  split
  · exact ((h.beforeRoster f).rosterFrame _ _).applyOperations _ _
  · exact h.rosterFrame _ _
  · exact h.rosterFrame _ _
  · exact h.rosterFrame _ _
  · exact h.found f

theorem State.RequestNoticeLaw.slotWork (h : s.RequestNoticeLaw) (c : SlotContent) :
    (s.slotWork c).RequestNoticeLaw := by
  unfold State.slotWork
  split
  · exact h.rosterSilence _
  · have h1 := h.rosterActivity s.slots.position
    dsimp only
    split
    · exact h1.congr rfl rfl rfl
    · exact h1
  · exact (h.raise _ (by simp [NoticeBody.owner])).rosterActivity _
  · exact h.handFrame _

theorem State.RequestNoticeLaw.settleOwnFrame (h : s.RequestNoticeLaw) (c : SlotContent) :
    (s.settleOwnFrame c).RequestNoticeLaw := by
  unfold State.settleOwnFrame
  split
  · exact h
  · rename_i o ho
    have hnd : o.tags.Nodup := h.law.ownOnce o (by simp [ho])
    split
    · exact h.returnDrawn hnd
    · have h1 : (if o.frame.status = .join then s.setJoinPending false else s).RequestNoticeLaw := by
        split
        · exact h.congr rfl rfl rfl
        · exact h
      dsimp only
      split
      · exact h1
      · exact h1.doubtDrawn hnd

theorem State.RequestNoticeLaw.slotEnd (h : s.RequestNoticeLaw) (c : SlotContent) : (s.slotEnd c).RequestNoticeLaw := by
  unfold State.slotEnd
  split
  · exact h.stop
  · have h1 := (((h.settleOwnFrame c).slotWork c).cycleEndWork).completeRecovery
    dsimp only
    have h2 : (if s.inState .syncing then
        ((s.settleOwnFrame c).slotWork c).cycleEndWork.completeRecovery.countOrphan c.heardActive
        else ((s.settleOwnFrame c).slotWork c).cycleEndWork.completeRecovery).RequestNoticeLaw := by
      split
      · exact h1.countOrphan _
      · exact h1
    generalize (if s.inState .syncing then
        ((s.settleOwnFrame c).slotWork c).cycleEndWork.completeRecovery.countOrphan c.heardActive
        else ((s.settleOwnFrame c).slotWork c).cycleEndWork.completeRecovery) = w at h2 ⊢
    refine State.RequestNoticeLaw.nextSlot ?_
    split
    · exact h2.evaluateVote
    · exact h2

theorem State.RequestNoticeLaw.align (h : s.RequestNoticeLaw) (f : Frame) : (s.align f).RequestNoticeLaw := by
  have h1 : State.RequestNoticeLaw
      { s.releaseLine.dropOwnFrame with
        slots.aligned := true
        slots.position := f.sender
        slots.cycle := f.cycle
        slots.window := none } := h.noOwn rfl rfl rfl
  unfold State.align
  dsimp only
  refine State.RequestNoticeLaw.nextSlot (State.RequestNoticeLaw.cycleEndWork ?_)
  split
  · exact h1.found f
  · exact h1.congr rfl rfl rfl

end Sys2Proof.Machine
end

