-- ==== Sys2Proof/Laws/Slots.lean ====
section
/-! SUPPORT. The end of a slot at an ACTIVE station: which of its works run, and what the expiries leave. -/

namespace Sys2Proof.Machine

variable {s : State}

/-- The end of another station's slot at a station that its content leaves ACTIVE. -/
theorem State.slotEnd_other (c : SlotContent) (hown : s.line.own = none) (hp : s.slots.position ≠ s.ctrl.sid)
    (hs : s.ctrl.state = .active) (hw : (s.slotWork c).ctrl = s.ctrl) :
    s.slotEnd c = (s.slotWork c).cycleEndWork.nextSlot := by
  have h1 : s.leavingSlot = false := by unfold State.leavingSlot; rw [hown]
  have h2 : s.settleOwnFrame c = s := by unfold State.settleOwnFrame; rw [hown]
  have h3 : ((s.slotWork c).cycleEndWork).ctrl.state = .active := by
    rw [(Touches.cycleEndWork _).rosterTables.ctrl, hw, hs]
  have h4 : (s.slotWork c).cycleEndWork.completeRecovery = (s.slotWork c).cycleEndWork := by
    unfold State.completeRecovery State.inState; rw [h3]; rfl
  have h5 : s.inOwnSlot = false := by unfold State.inOwnSlot; simpa using hp
  have h6 : s.inState .syncing = false := by unfold State.inState; rw [hs]; rfl
  unfold State.slotEnd
  simp only [h1, h2, h4, h5, h6, Bool.false_and, Bool.false_eq_true, if_false]

/-- The table after a slot end's expiries, where every page is valid (R31, R46). -/
theorem State.lock_cycleEndWork (all : s.repl.installed = allPages) (l : LockNo) :
    s.cycleEndWork.lock l = s.endingCycle (s.lock l) := by
  unfold State.cycleEndWork State.endingCycle State.inLastSlot
  by_cases h : s.slots.position = s.ctrl.snc
  · simp only [h, beq_self_eq_true, if_true]
    rw [State.lock_expireAll]
    simp [lockValid_of_all all]
  · simp [h]

/-- No expiry before slot N-1. -/
theorem State.cycleEndWork_of_ne (h : s.slots.position ≠ s.ctrl.snc) : s.cycleEndWork = s := by
  unfold State.cycleEndWork State.inLastSlot; simp [h]

/-! ### A station that is not ACTIVE (R16) -/

/-- A fold over the tables at a station that is not ACTIVE, each step leaving Request Engine and Notice Queue alone. -/
theorem foldl_unreported {α : Type} {f : State → α → State} (ht : ∀ (s : State) (x : α), s.OnlyTables (f s x))
    (hf : ∀ s : State, s.isActive = false → ∀ x, (f s x).req = s.req ∧ (f s x).notices = s.notices) (xs : List α)
    (s : State) (h : s.isActive = false) :
    (xs.foldl f s).req = s.req ∧ (xs.foldl f s).notices = s.notices := by
  induction xs generalizing s with
  | nil => exact ⟨rfl, rfl⟩
  | cons x xs ih =>
    have := ih (f s x) (by rw [State.isActive, (ht s x).rosterTables.ctrl]; exact h)
    rw [List.foldl_cons, this.1, this.2]
    exact hf s h x

/-- No operation is reported (R16). -/
theorem State.applyOperations_unreported (h : s.isActive = false) (k : StationNo) (ops : List Operation) :
    (s.applyOperations k ops).req = s.req ∧ (s.applyOperations k ops).notices = s.notices := by
  refine foldl_unreported (fun s o => Touches.applyOperation s k o) (fun s h o => ?_) ops s h
  unfold State.applyOperation
  split
  · exact ⟨rfl, rfl⟩
  · split
    · simp [h]
    · exact ⟨rfl, rfl⟩

/-- No purge is reported (R16). -/
theorem State.purge_unreported (h : s.isActive = false) (k : StationNo) (c : PurgeCause) :
    (s.purge k c).req = s.req ∧ (s.purge k c).notices = s.notices := by
  refine foldl_unreported (fun s l => Touches.purgeLock s k c l) (fun s h l => ?_) allLocks s h
  unfold State.purgeLock
  split
  · simp [h]
  · exact ⟨rfl, rfl⟩

/-- No expiry is reported (R16). -/
theorem State.cycleEndWork_unreported (h : s.isActive = false) :
    s.cycleEndWork.req = s.req ∧ s.cycleEndWork.notices = s.notices := by
  unfold State.cycleEndWork
  split
  · refine foldl_unreported Touches.expireLock (fun s h l => ?_) allLocks s h
    unfold State.expireLock
    dsimp only
    split
    · simp [h]
    · exact ⟨rfl, rfl⟩
  · exact ⟨rfl, rfl⟩

/-- No roster change is reported (R85). -/
theorem State.putRoster_unreported (h : s.isActive = false) (k : StationNo) (e : RosterEntry) :
    s.putRoster k e = s.setRosterEntry k e := by
  unfold State.putRoster; simp [h]

/-! ### Slot ends -/

/-- The records after a slot end's expiries: those of installed pages alone change (R13, R31, R46). -/
theorem State.lock_cycleEndWork_valid (l : LockNo) :
    s.cycleEndWork.lock l = if s.lockValid l then s.endingCycle (s.lock l) else s.lock l := by
  unfold State.cycleEndWork State.endingCycle State.inLastSlot
  by_cases h : s.slots.position = s.ctrl.snc
  · simp only [h, beq_self_eq_true, if_true]
    rw [State.lock_expireAll]
  · simp [h]

theorem State.endingCycle_congr {u : State} (ctrl : u.ctrl = s.ctrl) (slots : u.slots = s.slots) (r : LockRecord) :
    u.endingCycle r = s.endingCycle r := by
  unfold State.endingCycle; rw [ctrl, slots]

/-- A FRAME_SLOT_END that the state calls for is the slot end with what the reception is classed as. -/
theorem exec_frameSlotEnd (ha : s.slots.aligned = true) (hph : s.slots.phase = .inFrame) :
    exec .frameSlotEnd s = .next (s.endReception.slotEnd s.classify) := by
  show execFrameSlotEnd s = _
  unfold execFrameSlotEnd; simp [ha, hph]

/-- A SILENT_SLOT_END that the state calls for is the silent slot end. -/
theorem exec_silentSlotEnd (ha : s.slots.aligned = true) (hph : s.slots.phase = .waiting) :
    exec .silentSlotEnd s = .next (s.slotEnd .silent) := by
  show execSilentSlotEnd s = _
  unfold execSilentSlotEnd; simp [ha, hph]

/-- What the fate of the own frame leaves of the other blocks (R55, R62, R63). -/
theorem State.settleOwnFrame_keeps (s : State) (c : SlotContent) :
    (s.settleOwnFrame c).ctrl = s.ctrl ∧ (s.settleOwnFrame c).slots = s.slots
    ∧ (s.settleOwnFrame c).roster = s.roster ∧ (s.settleOwnFrame c).locks = s.locks
    ∧ (s.settleOwnFrame c).repl.installed = s.repl.installed
    ∧ (s.settleOwnFrame c).repl.digest = s.repl.digest ∧ (s.settleOwnFrame c).notices = s.notices := by
  have returned : ∀ ts, (s.returnDrawn ts).notices = s.notices := by
    intro ts; unfold State.returnDrawn; rw [State.returnToHead_notices]
  have doubted : ∀ (u : State) ts, (u.doubtDrawn ts).notices = u.notices := by
    intro u ts; unfold State.doubtDrawn; dsimp only; rw [State.foldl_setOpStatus_notices]
  unfold State.settleOwnFrame
  split
  · exact ⟨rfl, rfl, rfl, rfl, rfl, rfl, rfl⟩
  · rename_i o _
    split
    · have T := Touches.returnDrawn s o.tags
      have R := T.tables.rosterTables
      exact ⟨R.ctrl, R.slots, T.tables.roster, T.locks, by rw [R.repl], by rw [R.repl], returned _⟩
    · dsimp only
      have join : ∀ u : State, (u = s.setJoinPending false ∨ u = s) →
          (u.doubtDrawn o.tags).ctrl = s.ctrl ∧ (u.doubtDrawn o.tags).slots = s.slots
          ∧ (u.doubtDrawn o.tags).roster = s.roster ∧ (u.doubtDrawn o.tags).locks = s.locks
          ∧ (u.doubtDrawn o.tags).repl.installed = s.repl.installed
          ∧ (u.doubtDrawn o.tags).repl.digest = s.repl.digest ∧ (u.doubtDrawn o.tags).notices = s.notices := by
        intro u hu
        have T := Touches.doubtDrawn u o.tags
        have R := T.tables.rosterTables
        rw [R.ctrl, R.slots, T.tables.roster, T.locks, R.repl, doubted]
        rcases hu with rfl | rfl <;> exact ⟨rfl, rfl, rfl, rfl, rfl, rfl, rfl⟩
      split
      · split <;> exact ⟨rfl, rfl, rfl, rfl, rfl, rfl, rfl⟩
      · split
        · exact join _ (.inl rfl)
        · exact join _ (.inr rfl)

/-- The end of the reception and a change of op statuses do not meet. -/
theorem foldl_setOpStatus_endReception (ts : List Tag) (st : OpStatus) (mark : Bool) (s : State) :
    ts.foldl (fun s t => s.setOpStatus t st mark) s.endReception
      = (ts.foldl (fun s t => s.setOpStatus t st mark) s).endReception := by
  induction ts generalizing s with
  | nil => rfl
  | cons t ts ih => exact ih (s.setOpStatus t st mark)

/-- The fate of the own frame at a FRAME_SLOT_END, where the reception has ended before it. -/
theorem State.settleOwnFrame_endReception (s : State) (c : SlotContent) :
    s.endReception.settleOwnFrame c = (s.settleOwnFrame c).endReception := by
  have returned : ∀ ts, s.endReception.returnDrawn ts = (s.returnDrawn ts).endReception := by
    intro ts; unfold State.returnDrawn State.returnToHead; rw [foldl_setOpStatus_endReception]; rfl
  have doubted : ∀ (u : State) ts, u.endReception.doubtDrawn ts = (u.doubtDrawn ts).endReception := by
    intro u ts; unfold State.doubtDrawn; dsimp only; rw [foldl_setOpStatus_endReception]; rfl
  unfold State.settleOwnFrame
  simp only [State.endReception_line_own]
  split
  · rfl
  · split
    · exact returned _
    · split
      · split <;> rfl
      · split
        · exact doubted (s.setJoinPending false) _
        · exact doubted s _

/-- The end of a slot without a valid ACTIVE frame at a station in recovery that stays there, the own slot included but
for its LEAVE frame: what the slot brought is worked on after the own frame's fate `v`, and the slot counts as orphaned. -/
theorem State.slotEnd_recovering (c : SlotContent) (hl : s.leavingSlot = false) {v : State} (hv : s.settleOwnFrame c = v)
    (hs : s.ctrl.state = .syncing ∨ s.ctrl.state = .founding) (hc : c.heardActive = false)
    (ctrl : (v.slotWork c).ctrl = v.ctrl) (hn : (v.slotWork c).repl.installed ≠ allPages) :
    ∃ u : State, s.slotEnd c = u.nextSlot ∧ (v.slotWork c).OrphanedSlot u
      ∧ u.roster = (v.slotWork c).roster ∧ u.locks = (v.slotWork c).cycleEndWork.locks
      ∧ u.notices = (v.slotWork c).notices ∧ u.line = (v.slotWork c).line := by
  have hx : (v.slotWork c).ctrl = s.ctrl := by rw [ctrl, ← hv, (s.settleOwnFrame_keeps c).1]
  have T := (Touches.cycleEndWork (v.slotWork c)).rosterTables
  have off : (v.slotWork c).isActive = false := by
    unfold State.isActive; rw [hx]; rcases hs with h | h <;> rw [h] <;> rfl
  have N := State.cycleEndWork_unreported off
  have h4 : (v.slotWork c).cycleEndWork.completeRecovery = (v.slotWork c).cycleEndWork := by
    unfold State.completeRecovery
    rw [if_neg]; rw [T.repl]; simp [hn]
  have h5 : s.isActive = false := by unfold State.isActive; rcases hs with h | h <;> rw [h] <;> rfl
  unfold State.slotEnd
  simp only [hl, hv, h4, h5, hc, Bool.false_and, Bool.and_false, Bool.false_eq_true, if_false]
  rw [← (Touches.cycleEndWork (v.slotWork c)).roster, ← N.2, ← T.line]
  have O : ∀ u, (v.slotWork c).cycleEndWork.OrphanedSlot u → (v.slotWork c).OrphanedSlot u := by
    intro u h
    have a := h.ctrl; have b := h.repl; have d := h.kept
    rw [T.ctrl, T.repl] at a; rw [T.ctrl, T.repl] at b; rw [N.1, T.slots, T.pageCursor, T.port] at d
    exact ⟨a, b, d⟩
  rw [← T.ctrl] at hx
  generalize (v.slotWork c).cycleEndWork = w at hx O ⊢
  refine ⟨_, rfl, ?_⟩
  have hsnc : w.ctrl.snc = s.ctrl.snc := by rw [hx]
  have hst : w.ctrl.state = s.ctrl.state := by rw [hx]
  rcases hs with hs | hs
  · have h6 : s.inState .syncing = true := by unfold State.inState; rw [hs]; rfl
    have h7 : w.inState .syncing = true := by unfold State.inState; rw [hst, hs]; rfl
    have e : w.countOrphan false
        = if w.ctrl.snc.val + 1 ≤ w.repl.orphan + 1 then (w.setOrphan (w.repl.orphan + 1)).setStation .founding
          else w.setOrphan (w.repl.orphan + 1) := by
      unfold State.countOrphan State.foundIfOrphaned
      rw [if_pos h7]
      have a : (w.setOrphan (w.repl.orphan + 1)).inState .syncing = true := h7
      rw [a]
      simp only [Bool.false_eq_true, if_false, Bool.true_and, decide_eq_true_eq]
      rfl
    rw [if_pos h6, e]
    split
    · rename_i hb
      refine ⟨O _ ⟨?_, ?_, rfl, rfl, rfl, rfl⟩, rfl, rfl, rfl, rfl⟩
      · rw [if_pos ⟨hst.trans hs, hb⟩]; rfl
      · rw [if_pos (hst.trans hs)]; rfl
    · rename_i hb
      refine ⟨O _ ⟨?_, ?_, rfl, rfl, rfl, rfl⟩, rfl, rfl, rfl, rfl⟩
      · rw [if_neg fun h => hb h.2]; rfl
      · rw [if_pos (hst.trans hs)]; rfl
  · have h6 : s.inState .syncing = false := by unfold State.inState; rw [hs]; rfl
    rw [h6, if_neg Bool.false_ne_true]
    have hne : w.ctrl.state ≠ .syncing := by rw [hst, hs]; simp
    refine ⟨O _ ⟨?_, ?_, rfl, rfl, rfl, rfl⟩, rfl, rfl, rfl, rfl⟩
    · rw [if_neg fun h => hne h.1]
    · rw [if_neg hne]

/-- At an ACTIVE station no content but a FOUND frame changes the controller. -/
theorem State.slotWork_ctrl (hs : s.ctrl.state = .active) (c : SlotContent) (hc : c.heardFound = false) :
    (s.slotWork c).ctrl = s.ctrl := by
  unfold State.slotWork
  split
  · exact (Touches.rosterSilence s _).ctrl
  · have h := (Touches.rosterActivity s s.slots.position).ctrl
    dsimp only
    split <;> exact h
  · rw [(Touches.rosterActivity _ _).ctrl]; rfl
  · rename_i f
    unfold State.handFrame
    split
    · rw [(Touches.applyOperations _ _ _).rosterTables.ctrl, (Touches.rosterFrame _ _ _).ctrl]
      obtain ⟨r, l, i, e3⟩ := (s.returnToSyncing.countVote f).takePage_eq f.page
      obtain ⟨a, d, e2⟩ := s.returnToSyncing.countVote_eq f
      have e1 : s.returnToSyncing = s := by unfold State.returnToSyncing State.inState; rw [hs]; rfl
      rw [e3, e2]
      show s.returnToSyncing.ctrl = _; rw [e1]
    · exact (Touches.rosterFrame _ _ _).ctrl
    · exact (Touches.rosterFrame _ _ _).ctrl
    · exact (Touches.rosterFrame _ _ _).ctrl
    · rename_i h; unfold SlotContent.heardFound at hc; simp [h] at hc

/-- The end of the own slot at an ACTIVE station, LEAVE and FOUND frames apart: the vote is evaluated last (R91). -/
theorem State.slotEnd_own (c : SlotContent) (hs : s.ctrl.state = .active) (hp : s.slots.position = s.ctrl.sid)
    (hl : s.leavingSlot = false) (hc : c.heardFound = false) :
    s.slotEnd c = ((s.settleOwnFrame c).slotWork c).cycleEndWork.evaluateVote.nextSlot := by
  have h0 := (s.settleOwnFrame_keeps c).1
  have h3 : ((s.settleOwnFrame c).slotWork c).cycleEndWork.ctrl.state = .active := by
    rw [(Touches.cycleEndWork _).rosterTables.ctrl, State.slotWork_ctrl (by rw [h0]; exact hs) c hc, h0, hs]
  unfold State.slotEnd
  generalize ((s.settleOwnFrame c).slotWork c).cycleEndWork = w at h3 ⊢
  have h4 : w.completeRecovery = w := by unfold State.completeRecovery State.inState; rw [h3]; rfl
  have h5 : s.inOwnSlot = true := by unfold State.inOwnSlot; simpa using hp
  have h6 : s.inState .syncing = false := by unfold State.inState; rw [hs]; rfl
  have h7 : s.isActive = true := by unfold State.isActive; rw [hs]; rfl
  have h8 : w.isActive = true := by unfold State.isActive; rw [h3]; rfl
  simp only [hl, h4, h5, h6, h7, h8, hc, Bool.and_true, Bool.not_false, Bool.false_eq_true, if_false, if_true]

end Sys2Proof.Machine
end

