-- ==== Sys2Proof/Laws/Founding.lean ====
section
/-! SUPPORT. The founding effects at the Request Engine and in the Notice Queue: which entries end, which CLAIMs stand
where in the queue, and the notices in their order of raising (R103, R122). -/

namespace Sys2Proof.Machine

variable {s : State}

/-! ### Raises one after the other -/

theorem State.notices_foldl_raise (bs : List NoticeBody) {s t : State} (h : s.notices = t.notices) :
    (bs.foldl State.raise s).notices = (bs.foldl State.raise t).notices := by
  induction bs generalizing s t with
  | nil => exact h
  | cons b bs ih => exact ih (by simp only [State.raise, h])

theorem State.entry_foldl_raise (bs : List NoticeBody) (s : State) (g : Tag) :
    (bs.foldl State.raise s).entry g = s.entry g := by
  induction bs generalizing s with
  | nil => rfl
  | cons b bs ih => exact ih (s.raise b)

/-- Raises of distinct owners leave each of their notices in the queue, a FAULT apart. -/
theorem State.mem_foldl_raise {bs : List NoticeBody} (hd : (bs.map (·.owner)).Nodup) (s : State) {b : NoticeBody} (hb : b ∈ bs)
    (hf : b.owner ≠ .fault) : ∃ n ∈ (bs.foldl State.raise s).notices.queue, n.body = b := by
  have stays : ∀ (bs : List NoticeBody) (s : State), b.owner ∉ bs.map (·.owner) →
      (∃ n ∈ s.notices.queue, n.body = b) → ∃ n ∈ (bs.foldl State.raise s).notices.queue, n.body = b := by
    intro bs
    induction bs with
    | nil => exact fun _ _ h => h
    | cons c bs ih =>
      rintro s hn ⟨n, hn', rfl⟩
      rw [List.map_cons, List.mem_cons, not_or] at hn
      exact ih (s.raise c) hn.2 ⟨n, State.raise_mem_other hn' hn.1, rfl⟩
  induction bs generalizing s with
  | nil => cases hb
  | cons c bs ih =>
    rw [List.map_cons, List.nodup_cons] at hd
    rcases List.mem_cons.mp hb with rfl | hb
    · exact stays bs _ hd.1 (State.raise_mem_self _ _ hf)
    · exact ih hd.2 (s.raise c) hb

/-- Notices of station kinds leave the request entries lawful. -/
theorem State.RequestLaw.foldl_raise (h : s.RequestLaw) {bs : List NoticeBody} (hb : ∀ b ∈ bs, ∀ t, b.owner ≠ .tag t) :
    (bs.foldl State.raise s).RequestLaw := by
  induction bs generalizing s with
  | nil => exact h
  | cons b bs ih =>
    refine ih ?_ fun c hc => hb c (List.mem_cons_of_mem _ hc)
    exact h.congr rfl rfl rfl (fun t => State.endUnread_raise_other b t (hb b List.mem_cons_self t)) h.ownOnce

theorem State.req_foldl_raise (bs : List NoticeBody) (s : State) : (bs.foldl State.raise s).req = s.req := by
  induction bs generalizing s with
  | nil => rfl
  | cons b bs ih => exact ih (s.raise b)

/-! ### FOUND handling -/

/-- FOUND handling ends the entry (R122). -/
def RequestEntry.endsByFounding (e : RequestEntry) : Bool := decide (e.relation = .waiting ∨ e.relation = .held)

/-- All that FOUND handling of the entries of distinct tags does (R122). -/
theorem State.foldl_foundEntry {ts : List Tag} (hd : ts.Nodup) (s : State) :
    (∀ g, (ts.foldl State.foundEntry s).entry g
      = if g ∈ ts ∧ (s.entry g).endsByFounding then { (s.entry g).noOp with relation := .ended } else s.entry g)
    ∧ (ts.foldl State.foundEntry s).req.queue = s.req.queue.filter (fun g => ¬ (g ∈ ts ∧ (s.entry g).endsByFounding))
    ∧ (ts.foldl State.foundEntry s).req.doubtOrder
      = s.req.doubtOrder.filter (fun g => ¬ (g ∈ ts ∧ (s.entry g).endsByFounding))
    ∧ (ts.foldl State.foundEntry s).notices
      = (((ts.filter fun g => (s.entry g).endsByFounding).map fun g => .ended g (s.entry g).lock .lost).foldl
          State.raise s).notices := by
  induction ts generalizing s with
  | nil => simp
  | cons t ts ih =>
    obtain ⟨hnt, hnd⟩ := List.nodup_cons.mp hd
    obtain ⟨h1, h2, h3, h4⟩ := ih hnd (s.foundEntry t)
    have hne : ∀ g, g ∈ ts → g ≠ t := fun g hg e => hnt (e ▸ hg)
    by_cases he : (s.entry t).endsByFounding = true
    · have e : s.foundEntry t = s.endEntry t .lost := by
        unfold State.foundEntry; rw [if_pos (by simpa [RequestEntry.endsByFounding] using he)]
      rw [e] at h1 h2 h3 h4
      have hen : ∀ g, (s.endEntry t .lost).entry g
          = if g = t then { (s.entry t).noOp with relation := .ended } else s.entry g := fun g => by
        unfold State.endEntry; simp
      have hq : (s.endEntry t .lost).req.queue = s.req.queue.filter (· ≠ t) := rfl
      have hdo : (s.endEntry t .lost).req.doubtOrder = s.req.doubtOrder.filter (· ≠ t) := rfl
      have hno : (s.endEntry t .lost).notices = (s.raise (.ended t (s.entry t).lock .lost)).notices := rfl
      simp only [List.foldl_cons, e]
      refine ⟨fun g => ?_, ?_, ?_, ?_⟩
      · rw [h1, hen]
        by_cases hg : g = t
        · subst hg; simp [hnt, he]
        · simp [hg]
      · rw [h2, hq, List.filter_filter]
        refine List.filter_congr fun g _ => ?_
        rw [hen]
        by_cases hg : g = t
        · subst hg; simp [he]
        · simp [hg]
      · rw [h3, hdo, List.filter_filter]
        refine List.filter_congr fun g _ => ?_
        rw [hen]
        by_cases hg : g = t
        · subst hg; simp [he]
        · simp [hg]
      · rw [h4, List.filter_cons, if_pos he, List.map_cons, List.foldl_cons]
        have e1 : (ts.filter fun g => ((s.endEntry t .lost).entry g).endsByFounding)
            = ts.filter fun g => (s.entry g).endsByFounding :=
          List.filter_congr fun g hg => by rw [hen, if_neg (hne g hg)]
        have e2 : ∀ g ∈ ts.filter (fun g => (s.entry g).endsByFounding),
            NoticeBody.ended g ((s.endEntry t .lost).entry g).lock .lost = .ended g (s.entry g).lock .lost :=
          fun g hg => by rw [hen, if_neg (hne g (List.mem_filter.mp hg).1)]
        rw [e1, List.map_congr_left e2]
        exact State.notices_foldl_raise _ hno
    · have e : s.foundEntry t = s := by
        unfold State.foundEntry; rw [if_neg (by simpa [RequestEntry.endsByFounding] using he)]
      rw [e] at h1 h2 h3 h4
      simp only [List.foldl_cons, e]
      refine ⟨fun g => ?_, ?_, ?_, ?_⟩
      · rw [h1]
        by_cases hg : g = t
        · subst hg; simp [he]
        · simp [hg]
      · rw [h2]
        refine List.filter_congr fun g _ => ?_
        by_cases hg : g = t
        · subst hg; simp [he]
        · simp [hg]
      · rw [h3]
        refine List.filter_congr fun g _ => ?_
        by_cases hg : g = t
        · subst hg; simp [he]
        · simp [hg]
      · rw [h4, List.filter_cons, if_neg he]

/-- All that FOUND handling does: entries, queue and notices (R122). -/
theorem State.RequestLaw.foundHandling (h : s.RequestLaw) :
    (∀ g, s.foundHandling.entry g
      = if (s.entry g).endsByFounding then { (s.entry g).noOp with relation := .ended }
        else if s.doubtful g then { s.entry g with opStatus := .queued, doubtMark := false } else s.entry g)
    ∧ s.foundHandling.req.queue
      = s.req.doubtOrder.filter (fun g => (s.entry g).relation = .pending ∧ (s.entry g).doubtMark = true)
        ++ s.req.doubtOrder.filter (fun g => (s.entry g).relation = .pending ∧ (s.entry g).doubtMark = false)
        ++ s.req.queue.filter (fun g => (s.entry g).relation = .pending)
    ∧ s.foundHandling.req.toYield = [] ∧ s.foundHandling.req.doubtOrder = []
    ∧ s.foundHandling.notices
      = (((allTags.filter fun g => (s.entry g).endsByFounding).map fun g => .ended g (s.entry g).lock .lost).foldl
          State.raise s).notices := by
  obtain ⟨h1, h2, h3, h4⟩ := State.foldl_foundEntry nodup_allTags s
  have hw : s.foundHandling = ((allTags.foldl State.foundEntry s).requeueDoubtful).clearToYield := rfl
  rw [hw]
  generalize allTags.foldl State.foundEntry s = w at *
  simp only [mem_allTags, true_and] at h1 h2 h3
  have hop : ∀ g, (s.entry g).op.isSome = true →
      ((s.entry g).endsByFounding = false ↔ (s.entry g).relation = .pending) := fun g hg => by
    have := live_of_relation.mp (h.opLive g hg)
    rcases this with e | e | e <;> simp [RequestEntry.endsByFounding, e]
  have hdb : ∀ g, w.doubtful g = true ↔ s.doubtful g = true ∧ (s.entry g).endsByFounding = false := fun g => by
    unfold State.doubtful
    rw [h1]
    by_cases he : (s.entry g).endsByFounding = true <;> simp [he, RequestEntry.noOp]
  have hmark : ∀ mark, w.doubtfulMarked mark
      = s.req.doubtOrder.filter (fun g => (s.entry g).relation = .pending ∧ (s.entry g).doubtMark = mark) := fun mark => by
    unfold State.doubtfulMarked
    rw [h3, List.filter_filter]
    refine List.filter_congr fun g hg => ?_
    have hg := (h.doubtOps g).mp hg
    have hr := hop g ((s.doubtful_iff g).mp hg).1
    rw [Bool.eq_iff_iff]
    simp only [Bool.and_eq_true, hdb, hg, true_and, beq_iff_eq, decide_eq_true_eq, hr, Bool.not_eq_true, h1]
    constructor
    · rintro ⟨⟨a, b⟩, -⟩
      rw [if_neg (by simp [hr.mpr a])] at b
      exact ⟨a, b⟩
    · rintro ⟨a, b⟩
      rw [if_neg (by simp [hr.mpr a])]
      exact ⟨⟨a, b⟩, a⟩
  refine ⟨fun g => ?_, ?_, rfl, rfl, ?_⟩
  · show (w.returnToHead (w.doubtfulMarked true ++ w.doubtfulMarked false)).entry g = _
    rw [State.returnToHead_entry, hmark, hmark, h1]
    by_cases he : (s.entry g).endsByFounding = true
    · have hnp : (s.entry g).relation ≠ .pending := by
        intro e; simp [RequestEntry.endsByFounding, e] at he
      simp [he, hnp]
    · simp only [he, if_false, Bool.false_eq_true]
      by_cases hdg : s.doubtful g = true
      · have hp := (hop g ((s.doubtful_iff g).mp hdg).1).mp (by simpa using he)
        have hm := (h.doubtOps g).mpr hdg
        rw [if_pos hdg, if_pos]
        cases hb : (s.entry g).doubtMark <;> simp [hm, hp, hb]
      · have hm := mt (h.doubtOps g).mp hdg
        rw [if_neg hdg, if_neg (by simp [hm])]
  · show (w.returnToHead (w.doubtfulMarked true ++ w.doubtfulMarked false)).req.queue = _
    rw [State.returnToHead_queue, hmark, hmark, h2]
    congr 1
    refine List.filter_congr fun g hg => ?_
    have := hop g ((h.queueOps g).mp hg).1
    simp only [Bool.not_eq_true, this]
  · show (w.returnToHead (w.doubtfulMarked true ++ w.doubtfulMarked false)).notices = _
    rw [State.returnToHead_notices, h4]

/-- A station with lawful requests takes the founding effects as R103 and R122 say. -/
theorem State.RequestLaw.found (h : s.RequestLaw) (f : Frame) : s.FoundingHandled (s.found f) f.sender := by
  have hlive : decide (0 < s.liveCount) = decide (∃ g, (s.entry g).live = true) := by
    rw [decide_eq_decide, State.liveCount, List.length_pos_iff_exists_mem]
    simp
  have hros : s.rosterChanges (foundRoster f.sender)
      = decide (∃ k, (s.rosterEntry k).state ≠ (if k = f.sender then .active else .absent)) := by
    rw [Bool.eq_iff_iff, decide_eq_true_eq, State.rosterChanges, List.any_eq_true]
    refine ⟨fun ⟨k, _, hk⟩ => ⟨k, ?_⟩, fun ⟨k, hk⟩ => ⟨k, List.mem_finRange k, ?_⟩⟩
    · rw [foundRoster_entry] at hk
      split at hk <;> rename_i e <;> simpa [e, RosterEntry.absent] using hk
    · rw [foundRoster_entry]
      split at hk <;> rename_i e <;> simpa [e, RosterEntry.absent] using hk
  have hact : s.isActive = decide (s.ctrl.state = .active) := by
    unfold State.isActive; rw [Bool.eq_iff_iff]; simp
  have hends : (allTags.filter fun g => (s.entry g).endsByFounding)
      = (List.finRange 16).filter fun g => (s.entry g).relation = .waiting ∨ (s.entry g).relation = .held := by
    unfold allTags; rfl
  -- the station before FOUND handling
  generalize hb : ((({ s with roster := foundRoster f.sender, slots.cycle := f.cycle } : State).clearTable.setInstalled
      allPages).becomeActive) = w0
  have q0 : w0.req = s.req ∧ w0.notices = s.notices ∧ w0.line = s.line := by rw [← hb]; exact ⟨rfl, rfl, rfl⟩
  have hfound : s.found f = (if s.isActive then (if s.isActive || decide (0 < s.liveCount) then
        (if s.isActive && s.rosterChanges (foundRoster f.sender) then w0.raise .roster else w0).raise .tableLost
      else if s.isActive && s.rosterChanges (foundRoster f.sender) then w0.raise .roster else w0).foundHandling
    else ((if s.isActive || decide (0 < s.liveCount) then
        (if s.isActive && s.rosterChanges (foundRoster f.sender) then w0.raise .roster else w0).raise .tableLost
      else if s.isActive && s.rosterChanges (foundRoster f.sender) then w0.raise .roster else w0).foundHandling).raise
        (.sync .active)) := by rw [← hb]; rfl
  generalize hx1 : (if s.isActive && s.rosterChanges (foundRoster f.sender) then [NoticeBody.roster] else []) = b1
  generalize hx2 : (if s.isActive || decide (0 < s.liveCount) then [NoticeBody.tableLost] else []) = b2
  generalize hx4 : (if s.isActive then [] else [NoticeBody.sync .active]) = b4
  have hfn : s.foundingNotices f.sender
      = b1 ++ b2 ++ ((allTags.filter fun g => (s.entry g).endsByFounding).map fun g => .ended g (s.entry g).lock .lost) ++ b4 := by
    unfold State.foundingNotices
    rw [← hx1, ← hx2, ← hx4, hends, hlive, hros, hact]
    simp only [Bool.and_eq_true, Bool.or_eq_true, decide_eq_true_eq]
  have hfound : s.found f = b4.foldl State.raise ((b2.foldl State.raise (b1.foldl State.raise w0)).foundHandling) := by
    rw [hfound, ← hx1, ← hx2, ← hx4]
    cases s.isActive <;> cases decide (0 < s.liveCount) <;> cases s.rosterChanges (foundRoster f.sender) <;> rfl
  have hb12 : ∀ b ∈ b1 ++ b2, ∀ t, b.owner ≠ .tag t := by
    rw [← hx1, ← hx2]
    intro b hb t
    rcases List.mem_append.mp hb with hb | hb <;> split at hb <;> simp at hb <;> subst hb <;> simp [NoticeBody.owner]
  have hl0 : w0.RequestLaw := by
    refine h.congr (by rw [q0.1]) (by rw [q0.1]) (by rw [q0.1]) (State.endUnread_congr (by rw [q0.2.1])) ?_
    rw [q0.2.2]; exact h.ownOnce
  have hlv : ((b1 ++ b2).foldl State.raise w0).RequestLaw := hl0.foldl_raise hb12
  have hreq : ((b1 ++ b2).foldl State.raise w0).req = s.req := by rw [State.req_foldl_raise, q0.1]
  have hent : ∀ g, ((b1 ++ b2).foldl State.raise w0).entry g = s.entry g := State.entry_congr (by rw [hreq])
  have hdbt : ∀ g, ((b1 ++ b2).foldl State.raise w0).doubtful g = s.doubtful g := fun g => by
    simp only [State.doubtful, hent]
  obtain ⟨k1, k2, k3, k4, k5⟩ := hlv.foundHandling
  simp only [hent, hdbt, hreq] at k1 k2 k5
  rw [← List.foldl_append] at hfound
  have hnot : (s.found f).notices = ((s.foundingNotices f.sender).foldl State.raise s).notices := by
    rw [hfound, hfn]
    simp only [List.foldl_append] at k5 ⊢
    exact State.notices_foldl_raise b4 (k5.trans (State.notices_foldl_raise _
      (State.notices_foldl_raise b2 (State.notices_foldl_raise b1 q0.2.1))))
  have he : ∀ g, (s.found f).entry g = _ := fun g => by
    rw [hfound, State.entry_foldl_raise, k1 g]
  have hq : (s.found f).req = ((b1 ++ b2).foldl State.raise w0).foundHandling.req := by
    rw [hfound, State.req_foldl_raise]
  refine ⟨fun g hg => ?_, fun g hg => ⟨?_, ?_⟩, fun g hg => ?_, by rw [hq, k2], by rw [hq]; exact ⟨k3, k4⟩, hnot⟩
  · rw [he, if_neg (by simp [RequestEntry.endsByFounding, hg])]
  · rw [he, if_pos (by simpa [RequestEntry.endsByFounding] using hg)]; rfl
  · rw [hnot]
    refine State.mem_foldl_raise ?_ s (b := .ended g (s.entry g).lock .lost) ?_ (by simp [NoticeBody.owner])
    · have hall : ((allTags.filter fun g => (s.entry g).endsByFounding).map NoticeOwner.tag).Nodup :=
        (nodup_allTags.filter _).map fun a b e => by simpa using e
      rw [hfn, ← hx1, ← hx2, ← hx4]
      simp only [List.map_append, List.map_map]
      rw [show (NoticeBody.owner ∘ fun g => NoticeBody.ended g (s.entry g).lock .lost) = NoticeOwner.tag from rfl]
      have htag : ∀ o, (∀ t, o ≠ NoticeOwner.tag t) →
          o ∉ (allTags.filter fun g => (s.entry g).endsByFounding).map NoticeOwner.tag := by
        intro o ho hm
        obtain ⟨t, -, e⟩ := List.mem_map.mp hm
        exact ho t e.symm
      have n1 := htag .roster (by simp)
      have n2 := htag .tableLost (by simp)
      have n3 := htag .sync (by simp)
      generalize (allTags.filter fun g => (s.entry g).endsByFounding).map NoticeOwner.tag = l at hall n1 n2 n3
      cases s.isActive <;> cases decide (0 < s.liveCount) <;> cases s.rosterChanges (foundRoster f.sender) <;>
        simp [NoticeBody.owner, List.nodup_append, hall, n1, n2] <;> exact fun o ho e => n3 (e ▸ ho)
    · rw [hfn]
      simp only [List.mem_append, List.mem_map, List.mem_filter, mem_allTags, true_and]
      exact .inl (.inr ⟨g, by simpa [RequestEntry.endsByFounding] using hg, rfl⟩)
  · have hno : (s.entry g).op = none := by
      cases ho : (s.entry g).op with
      | none => rfl
      | some k => have := h.opLive g (by simp [ho]); rw [hg] at this; cases this
    rw [he, if_neg, if_neg]
    · simp [State.doubtful, hno]
    · intro hc
      have : (s.entry g).live = true := live_of_relation.mpr (.inr (by simpa [RequestEntry.endsByFounding] using hc))
      rw [hg] at this; cases this

end Sys2Proof.Machine
end

