-- ==== Sys2Proof/Laws/Handed.lean ====
section
/-! SUPPORT. What the Lock Table hands to the Request Engine: the grant of the own waiter, and that results and removals
do not look at the records. -/

namespace Sys2Proof.Machine

variable {s : State}

/-! ### One record -/

theorem LockRecord.holderOf_mem {r : LockRecord} {k : StationNo} {h : Holder} (e : r.holderOf k = some h) :
    h ∈ r.holders ∧ h.station = k :=
  ⟨List.mem_of_find?_eq_some e, by simpa using List.find?_some e⟩

theorem LockRecord.waiterOf_mem {r : LockRecord} {k : StationNo} {w : Waiter} (e : r.waiterOf k = some w) :
    w ∈ r.waiters ∧ w.station = k :=
  ⟨List.mem_of_find?_eq_some e, by simpa using List.find?_some e⟩

/-- In a lawful record a holder is no waiter (R1). -/
theorem LockRecord.Lawful.not_both {r : LockRecord} (hr : r.Lawful) {k : StationNo} {h : Holder}
    (hh : h ∈ r.holders) (hk : h.station = k) : r.waiterOf k = none := by
  cases e : r.waiterOf k with
  | none => rfl
  | some w =>
    have b := LockRecord.waiterOf_mem e
    exact absurd rfl ((List.nodup_append.1 hr.once).2.2 k (List.mem_map.2 ⟨h, hh, hk⟩) k
      (List.mem_map.2 ⟨w, b.1, b.2⟩))

/-- Dropping one station's waiters leaves another's. -/
theorem LockRecord.waiterOf_dropWaiter {r : LockRecord} {k j : StationNo} (h : k ≠ j) :
    (r.dropWaiter k).waiterOf j = r.waiterOf j := by
  unfold LockRecord.waiterOf LockRecord.dropWaiter
  rw [List.find?_filter]
  refine congrArg (fun p => List.find? p r.waiters) (funext fun w => ?_)
  by_cases hw : w.station = k
  · have : w.station ≠ j := fun e => h (hw.symm.trans e)
    simp [hw, h]
  · by_cases hj : w.station = j <;> simp [hw, hj, h.symm]

/-- The record that an operation's grant pass enters has the waiters of every other station that it had. -/
theorem LockRecord.waiterOf_entering (r : LockRecord) (c : CycleNo) {k j : StationNo} (o : Operation) (h : k ≠ j) :
    (r.apply c k o).entering.waiterOf j = r.waiterOf j := by
  unfold LockRecord.apply
  split
  · unfold LockRecord.claim
    split
    · rfl
    · have e : ({ r with waiters := r.waiters ++ [Waiter.mk k o.mode o.limit] } : LockRecord).waiterOf j
          = r.waiterOf j := by
        unfold LockRecord.waiterOf; simp [List.find?_append, h]
      dsimp only
      split
      · exact e
      · split <;> exact e
  · unfold LockRecord.yield
    split
    · rfl
    · split
      · exact LockRecord.waiterOf_dropWaiter h
      · rfl
  · unfold LockRecord.downgrade; split <;> rfl
  · unfold LockRecord.renew; split <;> rfl

/-! ### Grants, results and removals -/

/-- Nothing is granted where the own station does not wait, or does not hold afterwards (R7). -/
theorem State.reportGrant_idle {l : LockNo} {entering after : LockRecord}
    (h : entering.waiterOf s.ctrl.sid = none ∨ after.holderOf s.ctrl.sid = none) :
    s.reportGrant l entering after = s := by
  unfold State.reportGrant
  rcases h with h | h
  · simp [h]
  · rw [h]; simp

/-- All that the report of a grant pass does, where the own station waits in the record it enters exactly where it
waited before (R7, R119). -/
theorem State.grantHandedOn_reportGrant {l : LockNo} {entering after : LockRecord} (hrl : s.RequestLaw)
    (he : entering.waiterOf s.ctrl.sid = none ↔ (s.lock l).waiterOf s.ctrl.sid = none) :
    s.GrantHandedOn ((s.setLock l after).reportGrant l entering after) l after := by
  constructor
  · intro h g e hw hh hy hg hlk hrel
    have waits : (entering.waiterOf s.ctrl.sid).isSome = true := by
      cases e2 : entering.waiterOf s.ctrl.sid with
      | none => exact absurd (he.1 e2) hw
      | some _ => rfl
    have tag : s.liveTag l = some g := by
      have := State.liveTag_eq hrl g (by rw [hg, RequestEntry.live, hrel]; rfl)
      rw [hg, hlk] at this; exact this
    have hr : (s.setLock l after).reportGrant l entering after
        = ((s.setLock l after).setEntry g { e with relation := .held, mode := h.mode, token := h.token }).raiseHeld g := by
      unfold State.reportGrant
      show (if (entering.waiterOf s.ctrl.sid).isSome = true then
        (match after.holderOf s.ctrl.sid with | some h => _ | none => _) else _) = _
      rw [if_pos waits, hh]
      unfold State.grantReport
      have c : (s.setLock l after).req.toYield.contains l = false := by
        show s.req.toYield.contains l = false
        simpa using hy
      have t : (s.setLock l after).liveTag l = some g := tag
      have u : (s.setLock l after).entry g = e := hg
      simp only [c, t, u, hrel]
      rfl
    rw [hr]
    refine ⟨by simp [State.raiseHeld], ?_⟩
    unfold State.raiseHeld
    rw [State.entry_setEntry_self, ← hlk]
    exact State.raise_mem_self _ _ (by simp [NoticeBody.owner])
  · intro h
    rw [State.reportGrant_idle (s := s.setLock l after) (h.imp he.2 id)]
    exact ⟨rfl, rfl⟩

/-- A result acts on the entries whatever the records hold. -/
theorem State.resultReport_setLock (s : State) (l m : LockNo) (r : LockRecord) (k : OpKind) (res : OpResult) :
    (s.setLock l r).resultReport k m res = (s.resultReport k m res).setLock l r := by
  have tag : (s.setLock l r).reportedTag k m = s.reportedTag k m := rfl
  have entry : ∀ t, (s.setLock l r).entry t = s.entry t := fun _ => rfl
  unfold State.resultReport
  rw [tag]
  split
  · unfold State.entryResult
    simp only [entry]
    split <;> rfl
  · split <;> rfl

/-- A removal acts on the entries whatever the records hold. -/
theorem State.removalReport_setLock (s : State) (l m : LockNo) (r : LockRecord) (o : EndOutcome) :
    (s.setLock l r).removalReport m o = (s.removalReport m o).setLock l r := by
  have tag : (s.setLock l r).liveTag m = s.liveTag m := rfl
  have req : (s.setLock l r).req = s.req := rfl
  have entry : ∀ t, (s.setLock l r).entry t = s.entry t := fun _ => rfl
  unfold State.removalReport
  rw [tag, req]
  split
  · rfl
  · split
    · rfl
    · simp only [entry]
      split <;> rfl

end Sys2Proof.Machine
end

