-- ==== Sys2Proof/Laws/OwnCells.lean ====
section
/-! SUPPORT. The passing of time: what it does to every timer, which samples of the own cells are taken in it, and what
an own transmission makes of them (R38, R41, R59). -/

namespace Sys2Proof.Machine

variable (s : State)

/-! ### The samples of the own cells -/

/-- The own cell `k` carries bit `k` of the frame handed over (R37, R41). -/
theorem State.ownBits_getElem? (k : Nat) :
    s.ownBits[k]? = s.line.own.bind fun o => (o.frame.toBytes[k / 8]?).map fun b => b.getLsbD (7 - k % 8) := by
  unfold State.ownBits
  split
  · rename_i o ho; rw [ho, getElem?_flatMap_byteBits]; rfl
  · rename_i ho; rw [ho]; simp

theorem State.pointClocks_lt (hd : 1 ≤ s.ctrl.divisor) (p : SamplePoint) : s.pointClocks p < s.bitTime := by
  have hb : s.bitTime = 12 * s.ctrl.divisor := rfl
  cases p <;> simp only [State.pointClocks] <;> omega

/-- The sample points lie 2, 6 and 10 times the divisor after the start of a cell (R38, Table 3-1). -/
theorem State.pointClocks_eq (p : SamplePoint) :
    s.pointClocks p = (match p with | .phase1 => 2 | .value => 6 | .phase3 => 10) * s.ctrl.divisor := by
  have hb : s.bitTime = 12 * s.ctrl.divisor := rfl
  cases p <;> simp only [State.pointClocks] <;> omega

/-- Which samples the next `n` CLKIN periods hold: those whose moment, counted from the start of the cell at the shift
position, lies in them, each with the value of its cell and the level of the line then (R59). -/
theorem State.mem_ownSamples (hd : 1 ≤ s.ctrl.divisor) (hs : s.line.shiftClocks < s.bitTime) (n : Nat) (x : OwnSample) :
    x ∈ s.ownSamples n ↔ x.clocks < n
      ∧ (∃ k, s.ownBits[k]? = some x.bit
          ∧ s.bitTime * s.line.shift + s.line.shiftClocks + x.clocks = s.bitTime * k + s.pointClocks x.point)
      ∧ x.dominant = decide (s.line.sinceCell + x.clocks < s.line.dominant) := by
  have hp := s.pointClocks_lt hd
  have hb : 0 < s.bitTime := by omega
  unfold State.ownSamples
  simp only [List.mem_flatMap, List.mem_filterMap, Prod.exists, List.mk_mem_zipIdx_iff_getElem?, List.getElem?_take,
    List.getElem?_drop]
  constructor
  · rintro ⟨bit, j, hj, p, -, hx⟩
    split at hj <;> [skip; cases hj]
    split at hx <;> [skip; cases hx]
    rename_i hlt hm
    cases hx
    refine ⟨hm.2, ⟨s.line.shift + j, hj, ?_⟩, rfl⟩
    dsimp only
    rw [Nat.mul_add, Nat.mul_comm s.bitTime j]
    omega
  · rintro ⟨hn, ⟨k, hk, he⟩, hdom⟩
    have hpk := hp x.point
    have hge : s.line.shift ≤ k := by
      by_contra hlt
      have : s.bitTime * (k + 1) ≤ s.bitTime * s.line.shift := Nat.mul_le_mul_left _ (by omega)
      rw [Nat.mul_add] at this
      omega
    obtain ⟨j, rfl⟩ := Nat.exists_eq_add_of_le hge
    rw [Nat.mul_add] at he
    have hj : j < n / s.bitTime + 2 := by
      by_contra hge
      have h1 : s.bitTime * (n / s.bitTime + 2) ≤ s.bitTime * j := Nat.mul_le_mul_left _ (by omega)
      have h2 := Nat.div_add_mod n s.bitTime
      have h3 := Nat.mod_lt n hb
      rw [Nat.mul_add] at h1
      omega
    have hc : j * s.bitTime + s.pointClocks x.point - s.line.shiftClocks = x.clocks := by
      rw [Nat.mul_comm j]; omega
    refine ⟨x.bit, j, ?_, x.point, by cases x.point <;> simp, ?_⟩
    · rw [if_pos hj]; exact hk
    · rw [hc, if_pos ⟨by rw [Nat.mul_comm j]; omega, hn⟩, ← hdom]

/-- The samples come in the order of time, no two at one moment (R59). -/
theorem State.ownSamples_increasing (hd : 1 ≤ s.ctrl.divisor) (n : Nat) :
    (s.ownSamples n).Pairwise fun x y => x.clocks < y.clocks := by
  have hb : s.bitTime = 12 * s.ctrl.divisor := rfl
  unfold State.ownSamples
  rw [List.pairwise_flatMap]
  constructor
  · rintro ⟨bit, j⟩ -
    dsimp only
    rw [List.pairwise_filterMap]
    refine List.Pairwise.cons ?_ (List.Pairwise.cons ?_ (List.Pairwise.cons ?_ .nil)) <;> intro p hp <;> simp at hp
    all_goals
      (try rcases hp with rfl | rfl) <;> intro x hx y hy <;> simp only [State.pointClocks_eq] at hx hy <;>
        split at hx <;> (try cases hx) <;> split at hy <;> (try cases hy) <;> dsimp only <;> omega
  · have hz : ((((s.ownBits.drop s.line.shift).take (n / s.bitTime + 2)).zipIdx).map (·.2)).Pairwise (· < ·) := by
      rw [List.zipIdx_map_snd]; exact List.pairwise_lt_range' (step := 1)
    rw [List.pairwise_map] at hz
    refine hz.imp ?_
    rintro ⟨b, i⟩ ⟨c, j⟩ hij x hx y hy
    simp only [List.mem_filterMap] at hx hy
    obtain ⟨p, -, hx⟩ := hx
    obtain ⟨q, -, hy⟩ := hy
    split at hx <;> [skip; cases hx]
    split at hy <;> [skip; cases hy]
    cases hx; cases hy
    have h1 := s.pointClocks_lt hd p
    have h2 : (i + 1) * s.bitTime ≤ j * s.bitTime := Nat.mul_le_mul_right _ hij
    rw [Nat.add_mul] at h2
    dsimp only at *
    omega

/-- The samples before the first mismatch are those with no mismatch at or before their moment. -/
theorem mem_takeWhile_increasing {l : List OwnSample} (h : l.Pairwise fun x y => x.clocks < y.clocks) (p : OwnSample → Bool)
    (x : OwnSample) : x ∈ l.takeWhile (fun y => !p y) ↔ x ∈ l ∧ ∀ y ∈ l, p y = true → x.clocks < y.clocks := by
  induction l with
  | nil => simp
  | cons a l ih =>
    obtain ⟨ha, hl⟩ := List.pairwise_cons.mp h
    rw [List.takeWhile_cons]
    by_cases hp : p a = true
    · simp only [hp, Bool.not_true, Bool.false_eq_true, if_false, List.not_mem_nil, false_iff, not_and, not_forall]
      intro hx
      refine ⟨a, List.mem_cons_self, hp, ?_⟩
      rcases List.mem_cons.mp hx with rfl | hx
      · omega
      · have := ha x hx; omega
    · have hp' : (!p a) = true := by simpa using hp
      rw [if_pos hp', List.mem_cons, ih hl]
      constructor
      · rintro (rfl | ⟨hx, hall⟩)
        · refine ⟨List.mem_cons_self, fun y hy hpy => ?_⟩
          rcases List.mem_cons.mp hy with rfl | hy
          · exact absurd hpy hp
          · exact ha y hy
        · refine ⟨List.mem_cons_of_mem _ hx, fun y hy hpy => ?_⟩
          rcases List.mem_cons.mp hy with rfl | hy
          · exact absurd hpy hp
          · exact hall y hy hpy
      · rintro ⟨hx, hall⟩
        rcases List.mem_cons.mp hx with rfl | hx
        · exact .inl rfl
        · exact .inr ⟨hx, fun y hy hpy => hall y (List.mem_cons_of_mem _ hy) hpy⟩

/-! ### The own transmission -/

/-- Where nothing is sent, nothing is sampled and nothing goes on (R41). -/
theorem State.advanceOwn_idle (h : s.line.sending = false) (n : Nat) : s.advanceOwn n = s := by
  unfold State.advanceOwn
  rw [h]
  rfl

/-- All that the time does to an own transmission: its place or its release, and what its samples show (R41, R59). -/
theorem State.advanceOwn_eq (h : s.line.sending = true) (n : Nat) :
    ∃ (fault mismatch : Bool),
      (fault = true ↔ ∃ x ∈ (s.ownSamples n).takeWhile (fun x => !x.isMismatch), x.isFault = true)
      ∧ (mismatch = true ↔ ∃ x ∈ s.ownSamples n, x.isMismatch = true)
      ∧ s.advanceOwn n = { s with
          line.sending := !mismatch
          line.shift := if mismatch then 0 else min s.ownCells (s.line.shift + (s.line.shiftClocks + n) / s.bitTime)
          line.shiftClocks := if mismatch then 0 else (s.line.shiftClocks + n) % s.bitTime
          line.ownFault := s.line.ownFault || fault
          line.mismatch := s.line.mismatch || mismatch
          line.rx.fault := s.line.rx.fault || (s.line.rx.inProgress && fault) } := by
  refine ⟨((s.ownSamples n).takeWhile fun x => !x.isMismatch).any (·.isFault), (s.ownSamples n).any (·.isMismatch),
    List.any_eq_true, List.any_eq_true, ?_⟩
  unfold State.advanceOwn
  simp only [h, if_true]
  split
  · rename_i hm
    simp [hm, State.releaseLine, State.markFault]
  · rename_i hm
    have hm : (s.ownSamples n).any (·.isMismatch) = false := by simpa using hm
    have e : (!false) = s.line.sending := by rw [h]; rfl
    simp only [hm, Bool.or_false]
    rw [e]
    rfl

/-- An own transmission concerns its own place and what is read back, and no other field. -/
theorem State.advanceOwn_frame (n : Nat) : ∃ (sending : Bool) (shift shiftClocks : Nat) (ownFault mismatch fault : Bool),
    s.advanceOwn n = { s with
      line.sending := sending, line.shift := shift, line.shiftClocks := shiftClocks, line.ownFault := ownFault
      line.mismatch := mismatch, line.rx.fault := fault } := by
  by_cases h : s.line.sending = true
  · obtain ⟨f, m, -, -, e⟩ := s.advanceOwn_eq h n
    exact ⟨_, _, _, _, _, _, e⟩
  · refine ⟨s.line.sending, s.line.shift, s.line.shiftClocks, s.line.ownFault, s.line.mismatch, s.line.rx.fault, ?_⟩
    rw [s.advanceOwn_idle (by simpa using h)]

/-! ### All timers -/

/-- A station whose receiver is off counts no time. -/
theorem State.elapse_off (hr : s.receiving = false) (n : Nat) : s.elapse n = s := by
  unfold State.elapse
  rw [hr]
  rfl

/-- What `n` CLKIN periods do at a station whose receiver is on: the own transmission goes on, and so does each timer (R38,
R41, R43, R44, R51). -/
theorem State.elapse_eq (hr : s.receiving = true) (n : Nat) :
    s.elapse n = { s.advanceOwn n with
      line.sinceCell := min (s.line.sinceCell + n) (2 * s.bitTime + max s.bitTime s.line.dominant)
      slots.timer :=
        if s.slots.aligned then
          match s.slots.phase with
          | .waiting => min (s.slots.timer + n) (12 * s.bitTime)
          | .inFrame => min (s.line.sinceCell + n - max s.bitTime s.line.dominant) (2 * s.bitTime)
        else s.slots.timer
      slots.window := s.slots.window.map fun k => min (k + n) s.windowLength } := by
  have h2 : ∀ t : State, t.advanceSlotTimer n = { t with
      slots.timer :=
        if t.slots.aligned then
          match t.slots.phase with
          | .waiting => min (t.slots.timer + n) (12 * t.bitTime)
          | .inFrame => min (t.line.sinceCell + n - max t.bitTime t.line.dominant) (2 * t.bitTime)
        else t.slots.timer } := by
    intro t
    unfold State.advanceSlotTimer
    split
    · split
      · rename_i h; simp only [h]; rfl
      · rename_i h; simp only [h]; rfl
    · rfl
  obtain ⟨a, b, c, d, e, f, h1⟩ := s.advanceOwn_frame n
  unfold State.elapse
  rw [if_pos hr, h1, h2]
  rfl

end Sys2Proof.Machine
end

