-- ==== Sys2Proof/Laws/Port.lean ====
section
/-! SUPPORT. The end of an exchange: what the delivery leaves alone, and the one shape every complete exchange has. -/

namespace Sys2Proof.Machine

variable {s : State}

theorem State.removeHead_port (s : State) (sr : Byte) : (s.removeHead sr).port = s.port := by
  unfold State.removeHead
  split
  · rfl
  · split
    · dsimp only
      split <;> rfl
    · rfl

theorem State.deliver_port (s : State) : s.deliver.port = { s.port with delivered := false } := by
  rcases s.deliver_eq with e | ⟨sr, -, -, e⟩
  · rw [e]
  · rw [e]
    show { (s.removeHead sr).port with delivered := false } = _
    rw [State.removeHead_port]

/-- A delivery changes request entries, notices and the port's delivered mark alone. -/
theorem State.afterDelivery_touches (s : State) (n : Nat) :
    { s.afterDelivery n with req.entries := s.req.entries, notices := s.notices, port := s.port } = s := by
  unfold State.afterDelivery State.deliver State.removeHead State.freeEntry State.setEntry State.shiftOut
  dsimp only
  repeat' split
  all_goals rfl

theorem State.afterDelivery_port (s : State) (n : Nat) :
    (s.afterDelivery n).port = { s.port with delivered := false } := by
  rw [State.afterDelivery, State.deliver_port]; rfl

section
variable (s : State) (n : Nat)
@[simp] theorem State.afterDelivery_ctrl : (s.afterDelivery n).ctrl = s.ctrl := by
  have h := congrArg State.ctrl (s.afterDelivery_touches n)
  exact h
@[simp] theorem State.afterDelivery_line : (s.afterDelivery n).line = s.line := by
  have h := congrArg State.line (s.afterDelivery_touches n)
  exact h
@[simp] theorem State.afterDelivery_slots : (s.afterDelivery n).slots = s.slots := by
  have h := congrArg State.slots (s.afterDelivery_touches n)
  exact h
@[simp] theorem State.afterDelivery_pageCursor : (s.afterDelivery n).pageCursor = s.pageCursor := by
  have h := congrArg State.pageCursor (s.afterDelivery_touches n)
  exact h
@[simp] theorem State.afterDelivery_roster : (s.afterDelivery n).roster = s.roster := by
  have h := congrArg State.roster (s.afterDelivery_touches n)
  exact h
@[simp] theorem State.afterDelivery_locks : (s.afterDelivery n).locks = s.locks := by
  have h := congrArg State.locks (s.afterDelivery_touches n)
  exact h
@[simp] theorem State.afterDelivery_repl : (s.afterDelivery n).repl = s.repl := by
  have h := congrArg State.repl (s.afterDelivery_touches n)
  exact h
@[simp] theorem State.afterDelivery_queue : (s.afterDelivery n).req.queue = s.req.queue := by
  have h := congrArg (fun t => t.req.queue) (s.afterDelivery_touches n)
  exact h
@[simp] theorem State.afterDelivery_toYield : (s.afterDelivery n).req.toYield = s.req.toYield := by
  have h := congrArg (fun t => t.req.toYield) (s.afterDelivery_touches n)
  exact h
@[simp] theorem State.afterDelivery_spi : (s.afterDelivery n).spi = s.spi := by
  have h := congrArg State.spi (s.afterDelivery_touches n)
  exact h
@[simp] theorem State.afterDelivery_pending : (s.afterDelivery n).pending = s.pending := by
  have h := congrArg State.pending (s.afterDelivery_touches n)
  exact h
end

/-- Rising edges of HCK in an exchange: the bits are received in their order, and from the last bit of its last byte on
the held response counts as shifted out whole (R136, R137). -/
theorem State.foldl_hckRise (bits : List Bool) : ∀ (s : State) (b : Bool), s.port.phase = .exchange →
    bits.foldl State.hckRise (s.hckRise b)
      = { s with
          spi.hdi := s.spi.hdi ++ b :: bits
          port.delivered := decide (3 + s.port.held.payload.length ≤ (s.spi.hdi.length + 1 + bits.length) / 8) } := by
  induction bits with
  | nil => intro s b hp; simp [State.hckRise, hp]
  | cons c bits ih =>
    intro s b hp
    have hb : (s.hckRise b).port.phase = .exchange := by simp [State.hckRise, hp]
    rw [List.foldl_cons, ih _ c hb]
    simp only [State.hckRise, hp, if_true, List.append_assoc, List.singleton_append, List.length_append,
      List.length_cons, List.length_nil, Nat.zero_add]
    rw [show s.spi.hdi.length + 1 + 1 + bits.length = s.spi.hdi.length + 1 + (bits.length + 1) by omega]

/-- An exchange clocked bit by bit from its start carries the delivered mark of its whole bytes (R137, R140). -/
theorem State.foldl_hckRise_start (hp : s.port.phase = .exchange) (hs : s.spi.hdi = []) (hd : s.port.delivered = false)
    (bits : List Bool) :
    bits.foldl State.hckRise s = { s.shiftOut (bytesOfBits bits).length with spi.hdi := bits } := by
  rw [bytesOfBits_length]
  cases bits with
  | nil =>
    obtain ⟨_, _, _, _, _, _, _, _, _, ⟨_, _, _, _, _⟩, ⟨_, _⟩, _⟩ := s
    subst hs hd
    simp [State.shiftOut]
  | cons b bits =>
    rw [List.foldl_cons, State.foldl_hckRise bits s b hp, hs]
    simp [State.shiftOut, Nat.add_comm]

/-- A complete exchange at a port with an exchange in progress: the delivery, the command on the state after it, and
its response in the holder (R140). -/
theorem State.endComplete_eq (hp : s.port.phase = .exchange) (code : Byte) (n : Nat) (c : Command) :
    s.endComplete code n c
      = (c (s.afterDelivery n)).1.answered code (c (s.afterDelivery n)).2.result (c (s.afterDelivery n)).2.payload := by
  unfold State.endComplete
  rw [if_neg (by simp [hp])]
  rfl

/-- The same for a row of Table 9-2. -/
theorem State.exchange_eq (hp : s.port.phase = .exchange) (code : Byte) (extra : Nat) (c : Command) :
    s.exchange code extra c
      = .next ((c (s.afterDelivery (wholeBytes code extra))).1.answered code
          (c (s.afterDelivery (wholeBytes code extra))).2.result
          (c (s.afterDelivery (wholeBytes code extra))).2.payload) :=
  congrArg _ (State.endComplete_eq hp code _ c)

end Sys2Proof.Machine
end

