-- ==== Sys2Proof/Laws/HostSide.lean ====
section
/-! SUPPORT. The rows of the line and of the timers leave the host port with the bits of its exchange, the
configuration, the straps and the queue of waiting commands alone; and every command leaves that queue alone. -/

namespace Sys2Proof.Machine

/-- Port, the bits of its exchange, configuration, straps and waiting commands are as they were. -/
structure State.KeepsHostSide (s t : State) : Prop where
  port : t.port = s.port
  spi : t.spi = s.spi
  pending : t.pending = s.pending
  divisor : t.ctrl.divisor = s.ctrl.divisor
  dropThreshold : t.ctrl.dropThreshold = s.ctrl.dropThreshold
  intEnable : t.ctrl.intEnable = s.ctrl.intEnable
  sid : t.ctrl.sid = s.ctrl.sid
  snc : t.ctrl.snc = s.ctrl.snc

theorem State.KeepsHostSide.refl (s : State) : s.KeepsHostSide s := ⟨rfl, rfl, rfl, rfl, rfl, rfl, rfl, rfl⟩

theorem State.KeepsHostSide.trans {s t u : State} (h : s.KeepsHostSide t) (k : t.KeepsHostSide u) :
    s.KeepsHostSide u :=
  ⟨k.port.trans h.port, k.spi.trans h.spi, k.pending.trans h.pending, k.divisor.trans h.divisor,
    k.dropThreshold.trans h.dropThreshold, k.intEnable.trans h.intEnable, k.sid.trans h.sid, k.snc.trans h.snc⟩

theorem State.OnlyRosterTables.hostSide {s t : State} (h : s.OnlyRosterTables t) : s.KeepsHostSide t :=
  ⟨h.port, h.spi, h.pending, by rw [h.ctrl], by rw [h.ctrl], by rw [h.ctrl], by rw [h.ctrl], by rw [h.ctrl]⟩

theorem State.OnlyTables.hostSide {s t : State} (h : s.OnlyTables t) : s.KeepsHostSide t := h.rosterTables.hostSide

theorem State.OnlyRequests.hostSide {s t : State} (h : s.OnlyRequests t) : s.KeepsHostSide t := h.tables.hostSide

namespace HostSide

variable (s : State)

theorem elapse (n : Nat) : s.KeepsHostSide (s.elapse n) := by
  by_cases hr : s.receiving = true
  · obtain ⟨_, _, _, _, _, _, e⟩ := s.advanceOwn_frame n
    rw [State.elapse_eq s hr, e]; exact ⟨rfl, rfl, rfl, rfl, rfl, rfl, rfl, rfl⟩
  · rw [State.elapse_off s (by simpa using hr)]; exact .refl s

theorem goOffLine (st : StationState) : s.KeepsHostSide (s.goOffLine st) := ⟨rfl, rfl, rfl, rfl, rfl, rfl, rfl, rfl⟩

theorem halt (f : FaultSet) : s.KeepsHostSide (s.halt f) :=
  (goOffLine s .halted).trans ((Touches.raise (s.goOffLine .halted) _).trans (Touches.endAll _ _)).hostSide

theorem stop : s.KeepsHostSide s.stop := (Touches.endAll s .left).hostSide.trans (goOffLine _ _)

theorem found (f : Frame) : s.KeepsHostSide (s.found f) := by
  have raiseIf : ∀ (t : State) (b : Bool) (n : NoticeBody), t.OnlyRequests (if b then t.raise n else t) := by
    intro t b n
    split
    · exact Touches.raise t n
    · exact .refl t
  have h1 : s.KeepsHostSide (({ s with roster := foundRoster f.sender, slots.cycle := f.cycle } : State).clearTable.setInstalled
      allPages).becomeActive := ⟨rfl, rfl, rfl, rfl, rfl, rfl, rfl, rfl⟩
  refine h1.trans ?_
  have h2 := (raiseIf ((({ s with roster := foundRoster f.sender, slots.cycle := f.cycle } : State).clearTable.setInstalled
      allPages).becomeActive) (s.isActive && s.rosterChanges (foundRoster f.sender)) .roster)
  have h3 := h2.trans ((raiseIf _ (s.isActive || decide (0 < s.liveCount)) .tableLost).trans (Touches.foundHandling _))
  unfold State.found
  dsimp only
  split
  · exact h3.hostSide
  · exact (h3.trans (Touches.raise _ _)).hostSide

theorem evaluateVote : s.KeepsHostSide s.evaluateVote := by
  unfold State.evaluateVote
  split
  · exact ⟨rfl, rfl, rfl, rfl, rfl, rfl, rfl, rfl⟩
  · have h1 : s.KeepsHostSide s.clearVote := ⟨rfl, rfl, rfl, rfl, rfl, rfl, rfl, rfl⟩
    exact h1.trans (Touches.settleDoubtful _).hostSide

theorem completeRecovery : s.KeepsHostSide s.completeRecovery := by
  unfold State.completeRecovery
  split
  · have h1 : s.KeepsHostSide s.becomeActive := ⟨rfl, rfl, rfl, rfl, rfl, rfl, rfl, rfl⟩
    exact h1.trans ((Touches.reconcile _).trans (Touches.raise _ _)).hostSide
  · exact .refl s

theorem countOrphan (b : Bool) : s.KeepsHostSide (s.countOrphan b) := by
  obtain ⟨st, n, e⟩ := s.countOrphan_eq b
  rw [e]
  exact ⟨rfl, rfl, rfl, rfl, rfl, rfl, rfl, rfl⟩

theorem beforeRoster (f : Frame) : s.KeepsHostSide ((s.returnToSyncing.countVote f).takePage f.page) := by
  obtain ⟨st, n, e1⟩ := s.returnToSyncing_eq
  obtain ⟨a, d, e2⟩ := s.returnToSyncing.countVote_eq f
  obtain ⟨r, l, i, e3⟩ := (s.returnToSyncing.countVote f).takePage_eq f.page
  rw [e3, e2, e1]
  exact ⟨rfl, rfl, rfl, rfl, rfl, rfl, rfl, rfl⟩

theorem handFrame (f : Frame) : s.KeepsHostSide (s.handFrame f) := by
  unfold State.handFrame
  split
  · exact (beforeRoster s f).trans ((Touches.rosterFrame _ _ _).hostSide.trans (Touches.applyOperations _ _ _).hostSide)
  · exact (Touches.rosterFrame _ _ _).hostSide
  · exact (Touches.rosterFrame _ _ _).hostSide
  · exact (Touches.rosterFrame _ _ _).hostSide
  · exact found s f

theorem slotWork (c : SlotContent) : s.KeepsHostSide (s.slotWork c) := by
  unfold State.slotWork
  split
  · exact (Touches.rosterSilence _ _).hostSide
  · have h1 := (Touches.rosterActivity s s.slots.position).hostSide
    dsimp only
    split
    · exact h1.trans ⟨rfl, rfl, rfl, rfl, rfl, rfl, rfl, rfl⟩
    · exact h1
  · exact (Touches.raise s _).hostSide.trans (Touches.rosterActivity _ _).hostSide
  · exact handFrame s _

theorem settleOwnFrame (c : SlotContent) : s.KeepsHostSide (s.settleOwnFrame c) := by
  unfold State.settleOwnFrame
  split
  · exact .refl s
  · split
    · exact (Touches.returnDrawn s _).hostSide
    · have h1 : ∀ b : Bool, s.KeepsHostSide (if b then s.setJoinPending false else s) := by
        intro b
        split
        · exact ⟨rfl, rfl, rfl, rfl, rfl, rfl, rfl, rfl⟩
        · exact .refl s
      have h2 := h1 (decide ((‹OwnFrame›).frame.status = .join))
      simp only [decide_eq_true_eq] at h2
      dsimp only
      split
      · exact h2
      · exact h2.trans (Touches.doubtDrawn _ _).hostSide

theorem buildOwnFrame : s.KeepsHostSide s.buildOwnFrame := by
  rcases s.buildOwnFrame_cases with ⟨-, e⟩ | ⟨-, f, c, -, -, -, -, e⟩ | ⟨st, -, -, e⟩
  · rw [e]; exact .refl s
  · rw [e]
    exact (Touches.draw s).hostSide.trans ⟨rfl, rfl, rfl, rfl, rfl, rfl, rfl, rfl⟩
  · rw [e]; exact ⟨rfl, rfl, rfl, rfl, rfl, rfl, rfl, rfl⟩

theorem slotStart : s.KeepsHostSide s.slotStart := by
  have h1 : s.KeepsHostSide s.slotOpened := ⟨rfl, rfl, rfl, rfl, rfl, rfl, rfl, rfl⟩
  rw [State.slotStart_eq]
  split
  · exact h1.trans (buildOwnFrame _)
  · exact h1

theorem nextSlot : s.KeepsHostSide s.nextSlot := by
  obtain ⟨p, c, e⟩ := s.nextPosition_eq
  unfold State.nextSlot
  refine State.KeepsHostSide.trans ?_ (slotStart _)
  rw [e]
  exact ⟨rfl, rfl, rfl, rfl, rfl, rfl, rfl, rfl⟩

theorem slotEnd (c : SlotContent) : s.KeepsHostSide (s.slotEnd c) := by
  unfold State.slotEnd
  split
  · exact stop s
  · have h1 := (((settleOwnFrame s c).trans (slotWork _ c)).trans (Touches.cycleEndWork _).hostSide).trans
      (completeRecovery _)
    dsimp only
    have h2 : s.KeepsHostSide (if s.inState .syncing then
        ((s.settleOwnFrame c).slotWork c).cycleEndWork.completeRecovery.countOrphan c.heardActive
        else ((s.settleOwnFrame c).slotWork c).cycleEndWork.completeRecovery) := by
      split
      · exact h1.trans (countOrphan _ _)
      · exact h1
    generalize (if s.inState .syncing then
        ((s.settleOwnFrame c).slotWork c).cycleEndWork.completeRecovery.countOrphan c.heardActive
        else ((s.settleOwnFrame c).slotWork c).cycleEndWork.completeRecovery) = w at h2 ⊢
    refine State.KeepsHostSide.trans ?_ (nextSlot _)
    split
    · exact h2.trans (evaluateVote _)
    · exact h2

theorem align (f : Frame) : s.KeepsHostSide (s.align f) := by
  have h1 : s.KeepsHostSide
      { s.releaseLine.dropOwnFrame with
        slots.aligned := true
        slots.position := f.sender
        slots.cycle := f.cycle
        slots.window := none } := ⟨rfl, rfl, rfl, rfl, rfl, rfl, rfl, rfl⟩
  unfold State.align
  dsimp only
  refine State.KeepsHostSide.trans ?_ ((Touches.cycleEndWork _).hostSide.trans (nextSlot _))
  split
  · exact h1.trans (found _ f)
  · exact h1.trans ⟨rfl, rfl, rfl, rfl, rfl, rfl, rfl, rfl⟩

theorem takeCell (p1 v p3 : Bool) (o : Nat) : s.KeepsHostSide (s.takeCell p1 v p3 o) := by
  unfold State.takeCell
  dsimp only
  split
  · exact ⟨rfl, rfl, rfl, rfl, rfl, rfl, rfl, rfl⟩
  · exact ⟨rfl, rfl, rfl, rfl, rfl, rfl, rfl, rfl⟩

end HostSide

/-- A row of the line or of a timer leaves port, configuration, straps and waiting commands alone. -/
theorem lineRow_keepsHostSide {c : Instr} (hx : endsExchange c = false) (he : c ≠ .exchangeStart)
    (hr : ∀ sid snc h, c ≠ .pinReset sid snc h) (s : State) : ∃ t, exec c s = .next t ∧ s.KeepsHostSide t := by
  cases c <;> simp [endsExchange] at hx
  case pinReset sid snc h => exact absurd rfl (hr sid snc h)
  case exchangeStart => exact absurd rfl he
  case listeningWindowExpiry =>
    refine ⟨_, rfl, ?_⟩
    split
    · exact ⟨rfl, rfl, rfl, rfl, rfl, rfl, rfl, rfl⟩
    · exact .refl s
  case transmitGapExpiry =>
    refine ⟨_, rfl, ?_⟩
    split
    · dsimp only
      split
      · exact ⟨rfl, rfl, rfl, rfl, rfl, rfl, rfl, rfl⟩
      · exact ⟨rfl, rfl, rfl, rfl, rfl, rfl, rfl, rfl⟩
    · exact .refl s
  case transmissionEnd =>
    refine ⟨_, rfl, ?_⟩
    split
    · dsimp only
      split
      · exact ⟨rfl, rfl, rfl, rfl, rfl, rfl, rfl, rfl⟩
      · exact ⟨rfl, rfl, rfl, rfl, rfl, rfl, rfl, rfl⟩
    · exact .refl s
  case readbackMismatch =>
    refine ⟨_, rfl, ?_⟩
    split
    · exact HostSide.halt s _
    · exact .refl s
  case arbitrationLoss =>
    refine ⟨_, rfl, ?_⟩
    split
    · exact ⟨rfl, rfl, rfl, rfl, rfl, rfl, rfl, rfl⟩
    · exact .refl s
  case silentSlotEnd =>
    refine ⟨_, rfl, ?_⟩
    split
    · exact HostSide.slotEnd s _
    · exact .refl s
  case frameSlotEnd =>
    refine ⟨_, rfl, ?_⟩
    split
    · have h1 : s.KeepsHostSide s.endReception := ⟨rfl, rfl, rfl, rfl, rfl, rfl, rfl, rfl⟩
      exact h1.trans (HostSide.slotEnd _ _)
    · exact .refl s
  case listeningReceptionEnd =>
    refine ⟨_, rfl, ?_⟩
    have h1 : s.KeepsHostSide s.endReception := ⟨rfl, rfl, rfl, rfl, rfl, rfl, rfl, rfl⟩
    split
    · split
      · exact h1
      · split
        · exact h1.trans (HostSide.align _ _)
        · exact HostSide.halt s _
    · exact .refl s
  case leaseExpiry =>
    refine ⟨_, rfl, ?_⟩
    split
    · exact (Touches.cycleEndWork s).hostSide
    · exact .refl s
  case drop =>
    refine ⟨_, rfl, ?_⟩
    split
    · exact (Touches.dropStation s _).hostSide
    · exact .refl s
  case enterFounding =>
    refine ⟨_, rfl, ?_⟩
    split
    · exact .refl s
    · obtain ⟨st, e⟩ := s.foundIfOrphaned_eq
      rw [e]
      exact ⟨rfl, rfl, rfl, rfl, rfl, rfl, rfl, rfl⟩
  case cellStart after p1 v p3 o =>
    refine ⟨_, rfl, ?_⟩
    split
    · exact (HostSide.elapse s after).trans (HostSide.takeCell _ _ _ _ _)
    · exact .refl s

end Sys2Proof.Machine
end

