-- ==== Sys2Proof/Laws/PerInstr.lean ====
section
/-! SUPPORT. The family ExchangeBytes: the bits that the host clocks in spell exactly the row that the end of their
exchange executes (R136, R141, R142, R145, Table 9-2). -/

namespace Sys2Proof.Laws.ExchangeBytes

/- One lemma after the other, so that kernel evaluations do not wait for each other in threads. -/
set_option Elab.async false

/-- The straps that a row samples at the end of its exchange; 0 for a row that samples none (R153). -/
def straps : Instr → Fin 16 × Fin 16
  | .resetStation sid snc _ => (sid, snc)
  | .pinReset .. | .exchangeStart | .nop _ | .status _ | .configure .. | .start _ | .leave _ | .acquire ..
  | .release .. | .downgrade .. | .renew .. | .queryTag .. | .fetch _ | .queryLock .. | .queryRoster _
  | .unknownCommand .. | .truncatedExchange .. | .emptyExchange | .listeningWindowExpiry | .transmitGapExpiry
  | .transmissionEnd | .readbackMismatch | .arbitrationLoss | .silentSlotEnd | .frameSlotEnd
  | .listeningReceptionEnd | .leaseExpiry | .drop | .enterFounding | .cellStart .. => (0, 0)

/-- A well-formed row that ends an exchange is what the bits of its whole bytes decode to, most significant bit first,
whatever fills the exchange past the command and whatever bits of a last byte are not whole; a row that ends none has
no bytes. -/
def Statement (i : Instr) : Prop :=
  (Machine.endsExchange i = false → ∀ filler, encodeExchange filler i = none)
  ∧ ∀ filler bytes unfinished, i.wellFormed = true → encodeExchange filler i = some bytes →
      bytes.length = Machine.exchangeBytes i → unfinished.length < 8 →
      decodeBits (straps i).1 (straps i).2 (bytes.flatMap Machine.byteBits ++ unfinished) = i

/-- A code that Table 9-2 does not list has length 1 and is none of its codes (R136, R145). -/
theorem unlisted (code : Byte) (h : Machine.commandListed code = false) :
    Machine.commandLength code = 1 ∧ code ∉ Machine.commandTable.map (·.1) := by
  revert code
  decide +kernel

/-- An unknown code is complete at one byte (R136, R145). -/
theorem decode_unknown (sid snc : Fin 16) {code : Byte} (h : Machine.commandListed code = false) (args : List Byte) :
    decodeExchange sid snc (code :: args) = .unknownCommand code args.length := by
  obtain ⟨h1, hne⟩ := unlisted code h
  simp only [Machine.commandTable, List.map_cons, List.map_nil, List.mem_cons, List.not_mem_nil, or_false, not_or]
    at hne
  unfold decodeExchange
  simp [h1, hne]

/-- Fewer whole bytes than the command has (R141). -/
theorem decode_truncated (sid snc : Fin 16) {code : Byte} {args : List Byte}
    (h : args.length + 1 < Machine.commandLength code) :
    decodeExchange sid snc (code :: args) = .truncatedExchange code (args.length + 1) := by
  unfold decodeExchange
  simp [h]

/-- A row that ends no exchange. -/
theorem none_of {i : Instr} (h : ∀ filler, encodeExchange filler i = none) : Statement i :=
  ⟨fun _ => h, fun filler bytes _ _ e => by rw [h filler] at e; cases e⟩

/-- A row that ends an exchange. -/
theorem some_of {i : Instr} (he : Machine.endsExchange i = true)
    (h : ∀ filler bytes, i.wellFormed = true → encodeExchange filler i = some bytes →
      bytes.length = Machine.exchangeBytes i → decodeExchange (straps i).1 (straps i).2 bytes = i) : Statement i :=
  ⟨fun e => absurd (he.symm.trans e) (by decide), fun filler bytes u w e hl hu => by
    rw [decodeBits, Machine.bytesOfBits_flatMap bytes u hu]; exact h filler bytes w e hl⟩

theorem pinReset (sid snc : Fin 16) (h : Bool) : Statement (.pinReset sid snc h) :=
  none_of fun _ => rfl

theorem exchangeStart : Statement .exchangeStart :=
  none_of fun _ => rfl

theorem nop (x : Nat) : Statement (.nop x) := by
  refine some_of rfl fun filler bytes _ e hl => ?_
  cases e
  have hx : filler.length = x := by simp [Machine.exchangeBytes] at hl; omega
  have hk : Machine.commandLength Machine.codeNop = 1 := by decide
  subst hx
  unfold decodeExchange
  simp only [hk]
  rw [if_neg (by omega)]
  simp +decide

theorem status (x : Nat) : Statement (.status x) := by
  refine some_of rfl fun filler bytes _ e hl => ?_
  cases e
  have hx : filler.length = x := by simp [Machine.exchangeBytes] at hl; omega
  have hk : Machine.commandLength Machine.codeStatus = 1 := by decide
  subst hx
  unfold decodeExchange
  simp only [hk]
  rw [if_neg (by omega)]
  simp +decide

theorem configure (d t f : Byte) (x : Nat) : Statement (.configure d t f x) := by
  refine some_of rfl fun filler bytes _ e hl => ?_
  cases e
  have hx : filler.length = x := by simp [Machine.exchangeBytes] at hl; omega
  have hk : Machine.commandLength Machine.codeConfigure = 4 := by decide
  subst hx
  unfold decodeExchange
  simp only [hk, List.length_cons]
  rw [if_neg (by omega)]
  simp +decide

theorem start (x : Nat) : Statement (.start x) := by
  refine some_of rfl fun filler bytes _ e hl => ?_
  cases e
  have hx : filler.length = x := by simp [Machine.exchangeBytes] at hl; omega
  have hk : Machine.commandLength Machine.codeStart = 1 := by decide
  subst hx
  unfold decodeExchange
  simp only [hk]
  rw [if_neg (by omega)]
  simp +decide

theorem leave (x : Nat) : Statement (.leave x) := by
  refine some_of rfl fun filler bytes _ e hl => ?_
  cases e
  have hx : filler.length = x := by simp [Machine.exchangeBytes] at hl; omega
  have hk : Machine.commandLength Machine.codeLeave = 1 := by decide
  subst hx
  unfold decodeExchange
  simp only [hk]
  rw [if_neg (by omega)]
  simp +decide

theorem resetStation (sid snc : Fin 16) (x : Nat) : Statement (.resetStation sid snc x) := by
  refine some_of rfl fun filler bytes _ e hl => ?_
  cases e
  have hx : filler.length = x := by simp [Machine.exchangeBytes] at hl; omega
  have hk : Machine.commandLength Machine.codeResetStation = 1 := by decide
  subst hx
  unfold decodeExchange
  simp only [hk]
  rw [if_neg (by omega)]
  simp +decide [straps]

theorem acquire (l m : Byte) (lim : Word16) (x : Nat) : Statement (.acquire l m lim x) := by
  refine some_of rfl fun filler bytes _ e hl => ?_
  cases e
  have hx : filler.length = x := by simp [Machine.exchangeBytes] at hl; omega
  have hk : Machine.commandLength Machine.codeAcquire = 5 := by decide
  subst hx
  unfold decodeExchange
  simp only [hk, List.length_cons]
  rw [if_neg (by omega)]
  simp +decide [Machine.word16_hiByte_loByte]

theorem release (t : Byte) (x : Nat) : Statement (.release t x) := by
  refine some_of rfl fun filler bytes _ e hl => ?_
  cases e
  have hx : filler.length = x := by simp [Machine.exchangeBytes] at hl; omega
  have hk : Machine.commandLength Machine.codeRelease = 2 := by decide
  subst hx
  unfold decodeExchange
  simp only [hk, List.length_cons]
  rw [if_neg (by omega)]
  simp +decide

theorem downgrade (t : Byte) (x : Nat) : Statement (.downgrade t x) := by
  refine some_of rfl fun filler bytes _ e hl => ?_
  cases e
  have hx : filler.length = x := by simp [Machine.exchangeBytes] at hl; omega
  have hk : Machine.commandLength Machine.codeDowngrade = 2 := by decide
  subst hx
  unfold decodeExchange
  simp only [hk, List.length_cons]
  rw [if_neg (by omega)]
  simp +decide

theorem renew (t : Byte) (x : Nat) : Statement (.renew t x) := by
  refine some_of rfl fun filler bytes _ e hl => ?_
  cases e
  have hx : filler.length = x := by simp [Machine.exchangeBytes] at hl; omega
  have hk : Machine.commandLength Machine.codeRenew = 2 := by decide
  subst hx
  unfold decodeExchange
  simp only [hk, List.length_cons]
  rw [if_neg (by omega)]
  simp +decide

theorem queryTag (t : Byte) (x : Nat) : Statement (.queryTag t x) := by
  refine some_of rfl fun filler bytes _ e hl => ?_
  cases e
  have hx : filler.length = x := by simp [Machine.exchangeBytes] at hl; omega
  have hk : Machine.commandLength Machine.codeQueryTag = 2 := by decide
  subst hx
  unfold decodeExchange
  simp only [hk, List.length_cons]
  rw [if_neg (by omega)]
  simp +decide

theorem fetch (x : Nat) : Statement (.fetch x) := by
  refine some_of rfl fun filler bytes _ e hl => ?_
  cases e
  have hx : filler.length = x := by simp [Machine.exchangeBytes] at hl; omega
  have hk : Machine.commandLength Machine.codeFetch = 1 := by decide
  subst hx
  unfold decodeExchange
  simp only [hk]
  rw [if_neg (by omega)]
  simp +decide

theorem queryLock (l : Byte) (x : Nat) : Statement (.queryLock l x) := by
  refine some_of rfl fun filler bytes _ e hl => ?_
  cases e
  have hx : filler.length = x := by simp [Machine.exchangeBytes] at hl; omega
  have hk : Machine.commandLength Machine.codeQueryLock = 2 := by decide
  subst hx
  unfold decodeExchange
  simp only [hk, List.length_cons]
  rw [if_neg (by omega)]
  simp +decide

theorem queryRoster (x : Nat) : Statement (.queryRoster x) := by
  refine some_of rfl fun filler bytes _ e hl => ?_
  cases e
  have hx : filler.length = x := by simp [Machine.exchangeBytes] at hl; omega
  have hk : Machine.commandLength Machine.codeQueryRoster = 1 := by decide
  subst hx
  unfold decodeExchange
  simp only [hk]
  rw [if_neg (by omega)]
  simp +decide

theorem unknownCommand (c : Byte) (x : Nat) : Statement (.unknownCommand c x) := by
  refine some_of rfl fun filler bytes w e hl => ?_
  cases e
  have hx : filler.length = x := by simp [Machine.exchangeBytes] at hl; omega
  subst hx
  exact decode_unknown _ _ (by simpa [Instr.wellFormed] using w) _

theorem truncatedExchange (c : Byte) (n : Nat) : Statement (.truncatedExchange c n) := by
  refine some_of rfl fun filler bytes w e hl => ?_
  cases e
  have hn : filler.length + 1 = n := by simpa [Machine.exchangeBytes] using hl
  subst hn
  exact decode_truncated _ _ (by simpa [Instr.wellFormed] using w)

theorem emptyExchange : Statement .emptyExchange :=
  some_of rfl fun _ _ _ e _ => by cases e; rfl

theorem listeningWindowExpiry : Statement .listeningWindowExpiry :=
  none_of fun _ => rfl

theorem transmitGapExpiry : Statement .transmitGapExpiry :=
  none_of fun _ => rfl

theorem transmissionEnd : Statement .transmissionEnd :=
  none_of fun _ => rfl

theorem readbackMismatch : Statement .readbackMismatch :=
  none_of fun _ => rfl

theorem arbitrationLoss : Statement .arbitrationLoss :=
  none_of fun _ => rfl

theorem silentSlotEnd : Statement .silentSlotEnd :=
  none_of fun _ => rfl

theorem frameSlotEnd : Statement .frameSlotEnd :=
  none_of fun _ => rfl

theorem listeningReceptionEnd : Statement .listeningReceptionEnd :=
  none_of fun _ => rfl

theorem leaseExpiry : Statement .leaseExpiry :=
  none_of fun _ => rfl

theorem drop : Statement .drop :=
  none_of fun _ => rfl

theorem enterFounding : Statement .enterFounding :=
  none_of fun _ => rfl

theorem cellStart (a : Nat) (p v q : Bool) (o : Nat) : Statement (.cellStart a p v q o) :=
  none_of fun _ => rfl

end Sys2Proof.Laws.ExchangeBytes
end

