-- ==== Sys2Proof/Tests/Slice0.lean ====
section
/-! SUPPORT. Tests of the model against the data sheet's own numbers, and for each statement with hypotheses a concrete
state that meets them, clause by clause, at the edges of their ranges. -/

namespace Sys2Proof.Tests

open Sys2Proof.Machine

/- One test after the other: kernel evaluations that wait for each other would each take a thread. -/
set_option Elab.async false

/-! ### Well-formedness -/

/-- A code of Table 9-2 is no unknown command (R145). -/
theorem test_wf_unknown_refuses_listed : (Instr.unknownCommand 0x14 0).wellFormed = false := by decide

theorem test_wf_unknown_takes_unlisted : (Instr.unknownCommand 0x15 3).wellFormed = true := by decide

/-- ACQUIRE has 5 bytes: 5 are no truncation (R136, R141), and neither is an exchange with none (R142). -/
theorem test_wf_truncated_refuses_whole : (Instr.truncatedExchange 0x10 5).wellFormed = false := by decide

theorem test_wf_truncated_refuses_empty : (Instr.truncatedExchange 0x10 0).wellFormed = false := by decide

theorem test_wf_truncated_takes_part : (Instr.truncatedExchange 0x10 4).wellFormed = true := by decide

/-- A cell start is an edge from recessive to dominant, so the line is dominant for some time from it (R39). -/
theorem test_wf_cell_refuses_no_dominant : (Instr.cellStart 96 true true false 0).wellFormed = false := by decide

theorem test_wf_cell_takes_dominant : (Instr.cellStart 96 true true false 32).wellFormed = true := by decide

/-! ### Layouts -/

/-- The check value of the CRC of R59 over the ASCII digits 1 to 9 (CRC-16 with 0x1021 and preset ones). -/
theorem test_crc_check_value :
    crc16 [0x31, 0x32, 0x33, 0x34, 0x35, 0x36, 0x37, 0x38, 0x39] = 0x29B1 := by decide +kernel

/-- No row of the table has bits, so no word spells a command. -/
theorem test_no_word_spells_a_command : decodeTableWord 8 0 = none ∧ State.reset.withFetchWord 8 0 = State.reset :=
  ⟨rfl, rfl⟩

/-- An ACQUIRE of lock 63 SHARED try with limit 4095 and one byte too many (Table 11-9, R136). -/
theorem test_decode_acquire :
    decodeExchange 0 0 [0x10, 0x3F, 0x03, 0x0F, 0xFF, 0xAA] = .acquire 0x3F 0x03 0x0FFF 1 := by decide +kernel

/-- CONFIGURE with three of its four bytes is truncated (R141). -/
theorem test_decode_truncated : decodeExchange 0 0 [0x02, 0x08, 0x03] = .truncatedExchange 0x02 3 := by decide +kernel

/-- Every code of Table 9-2 with its length names its row. -/
theorem test_decode_codes :
    [[0x00], [0x01], [0x02, 1, 2, 3], [0x03], [0x04], [0x05], [0x10, 1, 2, 3, 4], [0x11, 1], [0x12, 1], [0x13, 1], [0x14, 1],
      [0x20], [0x30, 1], [0x31]].map (decodeExchange 7 9)
      = [.nop 0, .status 0, .configure 1 2 3 0, .start 0, .leave 0, .resetStation 7 9 0, .acquire 1 2 0x0304 0, .release 1 0,
        .downgrade 1 0, .renew 1 0, .queryTag 1 0, .fetch 0, .queryLock 1 0, .queryRoster 0] := by decide +kernel

/-! ### Small stations -/

/-- Station 1 of a line of 4 slots in this state, nothing on the line, nothing held. -/
def station (st : StationState) : State :=
  { State.reset with
    ctrl := ⟨st, false, 8, 3, true, 1, 3⟩
    slots.aligned := st.onLine
    repl.installed := if st = .active then allPages else 0
    repl.digest := if st = .active then some 0 else none }

/-- The same with an exchange in progress. -/
def talking (st : StationState) : State :=
  { station st with port.phase := .exchange, port.status := some 0 }

/-- A station with one entry that is not blank, at tag 3. -/
def holding (st : StationState) (e : RequestEntry) (toYield : List LockNo) : State :=
  { talking st with
    req := {
      entries := (Vector.replicate 16 .blank).set 3 e
      queue := if e.op.isSome ∧ e.opStatus = .queued then [3] else []
      toYield := toYield
      doubtOrder := if e.op.isSome ∧ e.opStatus = .doubtful then [3] else [] } }

/-- An entry for lock 5. -/
def request (r : Relation) (op : Option OpKind) (st : OpStatus) : RequestEntry :=
  ⟨r, 5, .exclusive, false, 0, 0, op, st, false⟩

theorem holding_entry (st : StationState) (e : RequestEntry) (ys : List LockNo) (t : Tag) :
    (holding st e ys).entry t = if t = 3 then e else .blank := by
  simp only [State.entry, holding, Fin.getElem_fin, Vector.getElem_set, Vector.getElem_replicate]
  exact if_congr ⟨fun h => Fin.ext h.symm, fun h => h ▸ rfl⟩ rfl rfl

theorem holding_distinct (st : StationState) (e : RequestEntry) (ys : List LockNo) :
    (holding st e ys).NoticesDistinct := by
  unfold State.NoticesDistinct
  exact List.nodup_nil

/-- A station with one live entry whose fields fit meets the laws of chapter 7. -/
theorem holding_law (st : StationState) {e : RequestEntry} (ys : List LockNo) (hl : e.live = true)
    (hc : e.relation = .pending ↔ e.op = some .claim) : (holding st e ys).RequestLaw := by
  have unread : ∀ t, ¬ (holding st e ys).EndUnread t := by
    rintro t ⟨n, hn, -⟩
    exact List.not_mem_nil hn
  have ended : e.relation ≠ .ended := by
    intro h
    rw [RequestEntry.live, h] at hl
    cases hl
  constructor
  · intro t
    rw [holding_entry]
    split
    · exact hc
    · decide
  · intro t
    rw [holding_entry]
    split
    · exact fun _ => hl
    · decide
  · intro t u
    rw [holding_entry, holding_entry]
    split
    · split
      · rename_i ht hu; exact fun _ _ _ => ht.trans hu.symm
      · intro _ h; exact absurd h (by decide)
    · intro h; exact absurd h (by decide)
  · intro t
    rw [holding_entry]
    refine ⟨fun h => ?_, fun h => absurd h (unread t)⟩
    split at h
    · exact absurd h ended
    · exact absurd h (by decide)
  · show (if e.op.isSome ∧ e.opStatus = .queued then [(3 : Tag)] else []).Nodup
    split <;> simp
  · intro t
    rw [holding_entry]
    show t ∈ (if e.op.isSome ∧ e.opStatus = .queued then [(3 : Tag)] else []) ↔ _
    by_cases ht : t = 3
    · subst ht
      split <;> simp_all
    · rw [if_neg ht]
      split <;> simp [ht, RequestEntry.blank]
  · show (if e.op.isSome ∧ e.opStatus = .doubtful then [(3 : Tag)] else []).Nodup
    split <;> simp
  · intro t
    rw [State.doubtful, holding_entry]
    show t ∈ (if e.op.isSome ∧ e.opStatus = .doubtful then [(3 : Tag)] else []) ↔ _
    by_cases ht : t = 3
    · subst ht
      split <;> simp_all
    · rw [if_neg ht]
      split <;> simp [ht, RequestEntry.blank]
  · intro o ho
    exact absurd ho (by simp [holding, talking, station, State.reset, State.afterReset, LineInterface.afterReset])

/-! ### The data sheet's worked examples -/

/-- Table 1-3: the grant pass on lock 12 in cycle 900, which grants two waiters and leaves an EXCLUSIVE head. -/
theorem test_grant_pass_table_1_3 :
    LockRecord.grantPass
        ⟨55, [], [⟨6, .shared, 0⟩, ⟨1, .shared, 30⟩, ⟨4, .exclusive, 0⟩, ⟨9, .shared, 0⟩]⟩ 900
      = ⟨57, [⟨6, .shared, 900, 0, 56⟩, ⟨1, .shared, 900, 30, 57⟩], [⟨4, .exclusive, 0⟩, ⟨9, .shared, 0⟩]⟩ := by
  decide +kernel

/-- Tables 1-4 and 1-5: the purge of station 2 in cycle 261, on locks 3 and 9. -/
theorem test_purge_table_1_5 :
    LockRecord.purged
        ⟨17, [⟨2, .exclusive, 250, 0, 17⟩], [⟨5, .shared, 20⟩, ⟨6, .shared, 0⟩, ⟨0, .exclusive, 0⟩, ⟨1, .shared, 8⟩]⟩ 2 261
      = ⟨19, [⟨5, .shared, 261, 20, 18⟩, ⟨6, .shared, 261, 0, 19⟩], [⟨0, .exclusive, 0⟩, ⟨1, .shared, 8⟩]⟩
    ∧ LockRecord.purged
        ⟨40, [⟨4, .shared, 255, 0, 39⟩, ⟨0, .shared, 258, 50, 40⟩], [⟨2, .exclusive, 0⟩, ⟨7, .shared, 0⟩]⟩ 2 261
      = ⟨41, [⟨4, .shared, 255, 0, 39⟩, ⟨0, .shared, 258, 50, 40⟩, ⟨7, .shared, 261, 0, 41⟩], []⟩ := by
  decide +kernel

/-- Figure 2-1: the record of lock 5 after each of its rows. -/
theorem test_contention_figure_2_1 :
    let claim (m : Mode) (try_ : Bool) (limit : Limit) : Operation := ⟨.claim, 5, m, try_, limit⟩
    let op (k : OpKind) : Operation := ⟨k, 5, .exclusive, false, 0⟩
    let run (r : LockRecord) (rows : List (CycleNo × StationNo × Operation)) :=
      rows.foldl (fun r row => (r.apply row.1 row.2.1 row.2.2).record) r
    let r1 := run ⟨10, [], []⟩
      [(700, 0, claim .exclusive false 0), (700, 1, claim .shared false 40), (700, 2, claim .exclusive true 0),
       (700, 3, claim .shared false 0)]
    let r2 := run r1 [(701, 0, op .downgrade)]
    let r3 := run r2
      [(701, 2, claim .exclusive false 0), (701, 3, op .yield), (702, 0, op .yield), (702, 1, op .renew)]
    r1 = ⟨11, [⟨0, .exclusive, 700, 0, 11⟩], [⟨1, .shared, 40⟩, ⟨3, .shared, 0⟩]⟩
    ∧ r2 = ⟨13, [⟨0, .shared, 700, 0, 11⟩, ⟨1, .shared, 701, 40, 12⟩, ⟨3, .shared, 701, 0, 13⟩], []⟩
    ∧ r3 = ⟨13, [⟨1, .shared, 702, 40, 12⟩], [⟨2, .exclusive, 0⟩]⟩
    ∧ r3.expiredAt 741 = r3
    ∧ r3.expiredAt 742 = ⟨14, [⟨2, .exclusive, 742, 0, 14⟩], []⟩ := by
  decide +kernel

/-- Figure 2-1's results at slots 0, 1 and 2 of cycle 700. -/
theorem test_results_figure_2_1 :
    (LockRecord.claim ⟨10, [], []⟩ 700 0 ⟨.claim, 5, .exclusive, false, 0⟩).result = .granted 11 .exclusive
    ∧ (LockRecord.claim ⟨11, [⟨0, .exclusive, 700, 0, 11⟩], []⟩ 700 1 ⟨.claim, 5, .shared, false, 40⟩).result = .queued 1
    ∧ (LockRecord.claim ⟨11, [⟨0, .exclusive, 700, 0, 11⟩], [⟨1, .shared, 40⟩]⟩ 700 2
        ⟨.claim, 5, .exclusive, true, 0⟩).result = .denied := by
  decide +kernel

/-- Table 11-3: the header and the operations of station 1's frame, and its length of 84 bytes. The page holds 5
participants; the digest stands for the computed one. -/
theorem test_frame_table_11_3 :
    let one : LockRecord := ⟨0, [⟨1, .exclusive, 0, 0, 0⟩], []⟩
    let page : Page := .locks 2 [one, one, one, one, one, .empty, .empty, .empty]
    let f : Frame := ⟨1, 3, .active, 812, 0xABCD,
      [⟨.claim, 20, .exclusive, false, 0⟩, ⟨.renew, 6, .exclusive, false, 0⟩], some page⟩
    f.toBytes.take 18
      = [0x13, 0x0A, 0x00, 0x03, 0x2C, 0xAB, 0xCD, 0x03, 0x00, 0x40, 0x00, 0x14, 0x00, 0x00, 0xC0, 0x06, 0x00, 0x00]
    ∧ f.toBytes.length = 84 := by
  decide +kernel

/-- Table 3-5: listening windows of 48 and 396 bit times. -/
theorem test_window_table_3_5 :
    ({ State.reset with ctrl := ⟨.idle, false, 1, 3, true, 0, 1⟩ } : State).windowLength = 48 * 12
    ∧ ({ State.reset with ctrl := ⟨.idle, false, 1, 3, true, 15, 15⟩ } : State).windowLength = 396 * 12 := by
  decide +kernel

/-- The fields of a next state. -/
def after (o : Host.Outcome State Fault Refusal) : State :=
  match o with
  | .next s => s
  | .fault _ | .refused _ => State.reset

/-- A run of commands. -/
def runs (s : State) (cs : List Instr) : State := cs.foldl (fun s c => after (exec c s)) s

/-- Table 9-5: the held response, the truncation flag and the notice queue after exchanges A to D. -/
theorem test_exchanges_table_9_5 :
    let u3 : Notice := ⟨17, .update 3 2 .shared (.held 6)⟩
    let s : State := { station .active with notices := ⟨[u3], 17⟩ }
    let a := runs s [.exchangeStart, .fetch 10]
    let b := runs a [.exchangeStart, .truncatedExchange 0x10 3]
    let c := runs b [.exchangeStart, .acquire 9 0 0 6]
    let d := runs c [.exchangeStart, .fetch 10]
    (a.port.held, a.port.truncated, a.notices.queue)
      = (⟨0x20, .ok, [17, 1, 3, 2, 3, 1, 0, 6]⟩, false, [u3])
    ∧ (b.port.held, b.port.truncated, b.notices.queue) = (a.port.held, true, [u3])
    ∧ (runs b [.exchangeStart]).port.status = some 0x98
    ∧ (c.port.held, c.port.truncated, c.notices.queue) = (⟨0x10, .ok, [0]⟩, false, [])
    ∧ (c.entry 0).relation = .pending
    ∧ (d.port.held, d.port.truncated) = (⟨0x20, .empty, []⟩, false) := by
  decide +kernel

/-- Table 10-4, its first five rows: reset, CONFIGURE, START, ACQUIRE, and alignment on station 0's ACTIVE frame. -/
theorem test_life_table_10_4 :
    let s := runs State.reset
      [.pinReset 2 3 false, .exchangeStart, .configure 8 3 1 0, .exchangeStart, .start 0, .exchangeStart,
       .acquire 7 0 0 0]
    let heard : Frame := ⟨0, 3, .active, 41, 0, [], none⟩
    let t := after (exec .listeningReceptionEnd { s with line.rx := ⟨true, heard.toBytes, [], false, false⟩ })
    (s.ctrl.state, s.slots.window, s.port.held, (s.entry 0).relation, s.repl.joinPending)
      = (.listening, some 0, ⟨0x10, .ok, [0]⟩, .pending, true)
    ∧ (t.ctrl.state, t.slots.aligned, t.slots.position, t.slots.cycle, (t.entry 0).relation)
      = (.syncing, true, 1, 41, .pending) := by
  decide +kernel

/-! ### Line and timer rows -/

/-- Eight cells 96 CLKIN periods apart, dominant value samples for 0, are the byte 0xA5 (R37, R39, R40). -/
theorem test_cells_make_a_byte :
    let cell (bit : Bool) : Instr := .cellStart 96 true (!bit) false (if bit then 32 else 64)
    let s := runs (station .listening) ([true, false, true, false, false, true, false, true].map cell)
    (s.line.rx.bytes, s.line.rx.cells, s.line.rx.fault, s.slots.window) = ([0xA5], [], false, some 0) := by
  decide +kernel

/-- At divisor 8 a cell start 86 CLKIN periods after the one before is early and 106 is late; 87 and 105 are not (R39). -/
theorem test_cell_timing :
    [86, 87, 105, 106].map (fun n =>
        (runs (station .listening) [.cellStart 0 true false false 32, .cellStart n true false false 32]).line.rx.fault)
      = [true, false, false, true] := by
  decide +kernel

/-- The third miss of station 2 drops it: ABSENT, a ROSTER notice, and its lock free (R80, R85). -/
theorem test_silent_slot_drops :
    let s : State := { (station .active).setLock 4 ⟨1, [⟨2, .exclusive, 0, 0, 1⟩], []⟩ with
      slots.position := 2, roster := (station .active).roster.set 2 ⟨.active, 2⟩ }
    let t := after (exec .silentSlotEnd s)
    (t.rosterEntry 2, t.notices, t.lock 4, t.slots.position) = (.absent, ⟨[⟨1, .roster⟩], 1⟩, ⟨1, [], []⟩, 3) := by
  decide +kernel

/-- The cold-start FOUND frame of station 0 of 2: first cell driven dominant at once. With no cell start read back the window
of 48 bit times starts again from 0 when the 96 cells are over (R100), also where it was full by then; a cell start 7 CLKIN
periods before the end lets it run on (R41, R51), and so does a lost arbitration, found by the value sample of the eighth
cell, a 1 against another founder's 0 (R61). Before that sample ARBITRATION_LOSS has nothing to hand over. -/
theorem test_cold_start :
    let alone : State := { station .listening with ctrl := ⟨.listening, false, 8, 3, true, 0, 1⟩, slots.window := some 4608 }
    let s := after (exec .listeningWindowExpiry alone)
    let lost (n : Nat) : State := (runs { s with line.shift := 7 } [.cellStart 0 true true false 64]).elapse n
    let ending (c : Instr) (s : State) : Bool × Option Nat × Option OwnFrame × StationState :=
      let t := after (exec c s)
      (t.drivesDominant, t.slots.window, t.line.own, t.ctrl.state)
    (s.drivesDominant, s.ctrl.state) = (true, .listening)
    ∧ ending .transmissionEnd (s.elapse 9216) = (false, some 0, none, .listening)
    ∧ ending .transmissionEnd ((runs s [.cellStart 9209 true true false 64]).elapse 7) = (false, some 7, none, .listening)
    ∧ ending .arbitrationLoss (lost 49) = (false, some 49, none, .listening)
    ∧ ending .arbitrationLoss (lost 31) = (true, some 31, s.line.own, .listening) := by
  decide +kernel

/-- A cell start that comes together with the end of the window and is taken first restarts it, and it does not expire
(R51). -/
theorem test_cell_start_stops_the_window :
    let s : State := { station .listening with slots.window := some 8063 }
    (runs s [.cellStart 1 true false false 32, .listeningWindowExpiry]).line.sending = false
    ∧ (runs s [.listeningWindowExpiry]).line.sending = false
    ∧ (after (exec .listeningWindowExpiry (after (step s)))).line.sending = true := by
  decide +kernel

/-- Station 1 of 4 sends its ACTIVE frame, whose first byte is 0x13, and is at the start of cell `n`, where the line is dominant
for `d` CLKIN periods. -/
def sendingCell (n d : Nat) : State :=
  { station .active with
    line.own := some ⟨⟨1, 3, .active, 812, 0xABCD, [], none⟩, [], true⟩
    line.sending := true, line.shift := n, line.dominant := d, line.rx.inProgress := true }

/-- The own cells are sampled 16, 48 and 80 CLKIN periods of 96 after their start. The first cell, a 0, is to read dominant,
dominant and recessive; the fourth, a 1, dominant, recessive and recessive. Each deviation is a cell fault and marks the
reception, but a dominant value sample of the 1 releases the line, and nothing is sampled after it (R41, R59, Table 3-1). -/
theorem test_own_cells_are_sampled :
    let result (n d : Nat) : Bool × Bool × Bool × Nat :=
      let t := (sendingCell n d).elapse 96
      (t.line.mismatch, t.line.ownFault && t.line.rx.fault, t.line.sending, t.line.shift)
    [16, 48, 64, 80, 81].map (result 0)
      = [(false, true, true, 1), (false, true, true, 1), (false, false, true, 1), (false, false, true, 1),
        (false, true, true, 1)]
    ∧ [16, 32, 48, 49, 96].map (result 3)
      = [(false, true, true, 4), (false, false, true, 4), (false, false, true, 4), (true, false, false, 0),
        (true, false, false, 0)] := by
  decide +kernel

/-- A second edge 40 CLKIN periods into the own fourth cell, a 1: dominant for 4 it is over before the value sample, and for
20 it overrides it, though that edge's own samples fall outside the cell (R59). -/
theorem test_pulse_in_an_own_one :
    [4, 20].map (fun d => ((runs (sendingCell 3 32) [.cellStart 40 false true false d]).elapse 56).line.mismatch)
      = [false, true] := by
  decide +kernel

/-- The own LEAVE frame in slot N-1: LEASE_EXPIRY leaves a hold whose lease has run out, which it removes where the slot
carries no LEAVE frame (R31, R35, R158). -/
theorem test_no_expiry_in_the_leave_slot :
    let s : State := { (station .active).setLock 4 ⟨1, [⟨2, .exclusive, 0, 1, 1⟩], []⟩ with
      ctrl.sid := 3, slots.position := 3, slots.cycle := 9 }
    let leaving : State := { s with line.own := some ⟨⟨3, 3, .leave, 9, 0, [], none⟩, [], true⟩ }
    [leaving, s].map (fun s => ((after (exec .leaseExpiry s)).lock 4).holders.length) = [1, 0] := by
  decide +kernel

/-- RELEASE of tag 3 and three bits of a third byte, bit by bit: the row that ends the exchange is RELEASE, and after its
first 15 bits it is a truncated one. HDO carries the status byte 0x20 of a LISTENING station and then the echo 0x14
(R136, R137, Table 11-7, Table 11-8). -/
theorem test_exchange_by_bits :
    let s := runs { station .listening with port.held := ⟨0x14, .ok, []⟩ } [.exchangeStart]
    let sent := [false, false, false, true, false, false, false, true, false, false, false, false, false, false, true, true,
      true, true, true]
    let heard (n : Nat) : State := (sent.take n).foldl State.hckRise s
    (heard 19).endingRow 1 3 = .release 3 0 ∧ (heard 15).endingRow 1 3 = .truncatedExchange 0x11 1
    ∧ (heard 7).endingRow 1 3 = .emptyExchange
    ∧ (List.range 16).map (fun n => (n.repeat State.hckFall s).hdoBit)
      = [0, 0, 1, 0, 0, 0, 0, 0, 0, 0, 0, 1, 0, 1, 0, 0].map (fun n => some (n == 1)) := by
  decide +kernel

/-- A readback mismatch: the line is released at the value sample, 48 CLKIN periods into the own fourth cell, a 1 that reads
dominant; handed over, it halts the station with a FAULT notice that carries DUPLICATE_ID (R41, R59, R60, R160). A mismatch that
no sample has found is not handed over. -/
theorem test_readback_mismatch :
    let s (n : Nat) : State := (sendingCell 3 64).elapse n
    let t (n : Nat) : State := after (exec .readbackMismatch (s n))
    ((s 48).line.sending, (t 48).ctrl.state) = (true, .active)
    ∧ ((s 49).line.sending, (t 49).ctrl.state, (t 49).notices.queue)
      = (false, .halted, [⟨1, .fault ⟨true, false, false⟩⟩]) := by
  decide +kernel

/-- A FOUND frame with a DOUBTFUL CLAIM of tag 1 whose mark is clear, one of tag 2 whose mark is set, a QUEUED CLAIM of tag 0
and a WAITING request of tag 3: the queue is 2, 1, 0, each CLAIM with its mode and limit; the notices are TABLE_LOST, the END of
tag 3 and SYNC ACTIVE in this order (R103, R122). -/
theorem test_founding_requeues_doubtful_claims :
    let e (r : Relation) (op : Option OpKind) (st : OpStatus) (l : LockNo) (mark : Bool) : RequestEntry :=
      ⟨r, l, .shared, true, 77, 0, op, st, mark⟩
    let s : State := { station .syncing with
      req := ⟨#v[e .pending (some .claim) .queued 5 false, e .pending (some .claim) .doubtful 6 false,
        e .pending (some .claim) .doubtful 7 true, e .waiting none .queued 8 false, .blank, .blank, .blank, .blank, .blank,
        .blank, .blank, .blank, .blank, .blank, .blank, .blank], [0], [], [1, 2]⟩ }
    let t := s.found ⟨2, 3, .found, 0, 0, [], none⟩
    (t.req.queue, t.req.doubtOrder, t.entry 1, t.entry 2)
      = ([2, 1, 0], [], e .pending (some .claim) .queued 6 false, e .pending (some .claim) .queued 7 false)
    ∧ t.notices.queue = [⟨1, .tableLost⟩, ⟨2, .ended 3 8 .lost⟩, ⟨3, .sync .active⟩] := by
  decide +kernel

/-- The fourth orphaned slot of a line of 4 makes a SYNCING station FOUNDING (R97, R98). -/
theorem test_orphaned_line :
    let s : State := { station .syncing with repl.orphan := 3, slots.position := 2 }
    ((after (exec .silentSlotEnd s)).ctrl.state, (after (exec .silentSlotEnd s)).repl.orphan) = (.founding, 4) := by
  decide +kernel

/-! ### Witnesses: states that meet each statement's hypotheses -/

/-- An IDLE, a LISTENING and an ACTIVE station with no command waiting, that send or not, in mid cell and at the end of one, in
a waiting and in a frame slot, with a window that runs and one that stands. Of the own cells 1 to 4 CLKIN periods from now: a
value sample of a 1 that reads dominant and one that does not, and a cell fault with no mismatch before. -/
theorem witness_IdleStepMovesTimersAlone :
    let o : OwnFrame := ⟨⟨1, 3, .syncing, 0, 0, [], none⟩, [], true⟩
    let u (st : StationState) (ph : SlotPhase) (n : Nat) : State := { station st with
      slots.phase := ph, slots.window := if st = .listening then some 8063 else none
      line.own := some o, line.sending := decide (st ≠ .idle), line.shift := n, line.shiftClocks := n }
    (∀ st ∈ [StationState.idle, .listening, .active], ∀ ph ∈ [SlotPhase.waiting, .inFrame], ∀ n ∈ [0, 94, 95],
      (u st ph n).pending = [] ∧ 96 = 12 * (u st ph n).ctrl.divisor ∧ (u st ph n).line.own = some o
      ∧ (u st ph n).line.shiftClocks < 96 ∧ 1 ≤ (u st ph n).ctrl.divisor
      ∧ (u st ph n).slots.phase = ph)
    ∧ ((u .idle .waiting 0).receiving = false ∧ (u .idle .waiting 0).line.sending = false)
    ∧ (∀ ph ∈ [SlotPhase.waiting, .inFrame], (u .active ph 0).receiving = true ∧ (u .active ph 0).line.sending = true
      ∧ (u .active ph 0).slots.aligned = true ∧ (u .active ph 0).slots.window = none)
    ∧ (u .listening .waiting 0).receiving = true ∧ (u .listening .waiting 0).slots.aligned = false
    ∧ (u .listening .waiting 0).slots.window = some 8063
    ∧ (sendingCell 3 64).MismatchAt 48 ∧ ¬ (sendingCell 3 48).MismatchAt 48
    ∧ (sendingCell 3 16).ReadbackFaultAt 16 ∧ ∀ y < 16, ¬ (sendingCell 3 16).MismatchAt y := by
  refine ⟨by decide +kernel, ⟨rfl, rfl⟩, by decide +kernel, rfl, rfl, rfl, ⟨⟨rfl, _, 3, 0x13, rfl, by decide +kernel, by decide, rfl⟩,
    by unfold State.LineDominantAt; decide⟩, ?_, .inl ⟨true, ⟨rfl, _, 3, 0x13, rfl, by decide +kernel, by decide, rfl⟩,
    by unfold State.LineDominantAt; decide⟩, ?_⟩
  · rintro ⟨-, h⟩
    exact absurd h (by unfold State.LineDominantAt; decide)
  · rintro y hy ⟨⟨-, o, k, b, -, -, -, h⟩, -⟩
    change 12 * 8 * 3 + 0 + y = (12 * k + 6) * 8 at h
    omega

/-- A line row, a host row that configures nothing, CONFIGURE, and EXCHANGE_START apart. -/
theorem witness_CommandsKeepWhatTheyDoNotOwn :
    (endsExchange .frameSlotEnd = false ∧ Instr.frameSlotEnd ≠ .exchangeStart)
    ∧ (endsExchange (.acquire 0 0 0 0) = true ∧ ∀ d n f x, Instr.acquire 0 0 0 0 ≠ .configure d n f x)
    ∧ (∀ sid snc h, Instr.configure 1 2 0 0 ≠ .pinReset sid snc h)
    ∧ ∀ sid snc x, Instr.configure 64 7 1 0 ≠ .resetStation sid snc x := by
  refine ⟨by decide, ⟨rfl, ?_⟩, ?_, ?_⟩ <;> intros <;> simp

theorem witness_ResetStationResetsAsThePinDoes : (talking .halted).port.phase = .exchange := by decide +kernel

theorem witness_ExchangeEndsOutsideAnExchange :
    endsExchange (.fetch 130) = true ∧ (station .active).port.phase = .closed
    ∧ (after (exec (.pinReset 1 3 true) (station .active))).port.phase = .waitDeassert := by decide +kernel

/-- A response with one payload byte: byte 3 is the payload, byte 4 is filler. A station at the first and at the last cell
of a frame of 12 bytes. No falling edge, and the one before the echo. No bit, 7 bits, an ACQUIRE short of a byte, whole
and with a filler byte, and a code outside the table, each with up to 7 bits more. -/
theorem witness_OutputsFollowTheState :
    let s : State := { talking .idle with port.held := ⟨0x10, .ok, [0x0F]⟩ }
    let o : OwnFrame := ⟨⟨1, 3, .syncing, 0, 0, [], none⟩, [], true⟩
    let u (n : Nat) : State := { station .syncing with line.own := some o, line.sending := true, line.shift := n }
    let clocked (bytes : List Byte) (more : List Bool) : State :=
      { s with spi := ⟨bytes.flatMap byteBits ++ more, 8⟩ }
    let table : List (Byte × Nat) := [(0x00, 1), (0x01, 1), (0x02, 4), (0x03, 1), (0x04, 1), (0x05, 1), (0x10, 5), (0x11, 2),
      (0x12, 2), (0x13, 2), (0x14, 2), (0x20, 1), (0x30, 2), (0x31, 1)]
    (station .idle).port.phase ≠ .exchange ∧ (station .idle).line.sending = false
    ∧ s.port.phase = .exchange ∧ s.port.status = some 0 ∧ 0 < s.port.held.payload.length
    ∧ 3 + s.port.held.payload.length ≤ 4
    ∧ (∀ n ∈ [0, 95], (u n).line.sending = true ∧ (u n).line.own = some o
      ∧ (o.frame.toBytes[(u n).line.shift / 8]?).isSome = true)
    ∧ (s.hdoByte (s.spi.falls / 8) = some 0 ∧ (clocked [] []).hdoByte ((clocked [] []).spi.falls / 8) = some 0x10)
    ∧ (∀ bytes ∈ [[], [(0x10 : Byte), 1, 2, 3], [0x10, 1, 2, 3, 4], [0x10, 1, 2, 3, 4, 5], [0x15]],
        ∀ more ∈ [[], List.replicate 7 true],
        (clocked bytes more).spi.hdi = bytes.flatMap byteBits ++ more ∧ more.length < 8)
    ∧ ((0x10, 5) ∈ table ∧ [(1 : Byte), 2, 3].length + 1 < 5) ∧ ∀ n ∈ table, n.1 ≠ 0x15 := by decide +kernel

/-- A FETCH OK response of 8 bytes: 11 whole bytes deliver it and 10 do not; notices of the same and of another serial,
an END and an UPDATE; another echo; another result; an empty queue. And a queue with an unread FAULT, in front of it a
ROSTER and behind it another: for a new FAULT, for a new TABLE_LOST, and for a second ROSTER. -/
theorem witness_DeliveryRemovesTheNoticeCopied :
    let fetched (q : List Notice) : State :=
      { talking .active with port.held := ⟨0x20, .ok, [17, 2, 3, 5, 5, 0, 0, 0]⟩, notices := ⟨q, 18⟩ }
    let theEnd : Notice := ⟨17, .ended 3 5 .evicted⟩
    let lost : Notice := ⟨16, .fault ⟨true, false, false⟩⟩
    let q : List Notice := [⟨15, .roster⟩, lost, ⟨17, .sync .active⟩]
    (10 < 3 + (fetched []).port.held.payload.length
    ∧ (talking .active).port.held.echo ≠ 0x20
    ∧ ({ fetched [] with port.held := ⟨0x20, .empty, []⟩ } : State).port.held.result ≠ .ok
    ∧ (fetched []).notices.queue = []
    ∧ (fetched [theEnd]).port.held = ⟨0x20, .ok, 17 :: [2, 3, 5, 5, 0, 0, 0]⟩ ∧ theEnd.serial = 17
    ∧ 4 + [2, 3, 5, 5, 0, 0, (0 : Byte)].length ≤ 11 ∧ theEnd.body = .ended 3 5 .evicted
    ∧ (⟨18, .roster⟩ : Notice).serial ≠ 17 ∧ NoticeBody.roster ≠ .ended 3 5 .evicted)
    ∧ (∀ n ∈ (fetched q).notices.queue, n.body.owner ≠ NoticeBody.tableLost.owner)
    ∧ ((fetched q).notices.queue = [⟨15, .roster⟩] ++ lost :: [⟨17, .sync .active⟩]
      ∧ (∀ m ∈ [(⟨15, .roster⟩ : Notice)], m.body.owner ≠ (NoticeBody.fault ⟨false, false, true⟩).owner)
      ∧ lost.body.owner = (NoticeBody.fault ⟨false, false, true⟩).owner ∧ lost.body = .fault ⟨true, false, false⟩)
    ∧ ((fetched q).notices.queue = [] ++ ⟨15, .roster⟩ :: [lost, ⟨17, .sync .active⟩]
      ∧ (⟨15, .roster⟩ : Notice).body.owner = NoticeBody.roster.owner) := by
  decide +kernel

theorem witness_TruncatedExchangeSetsTheFlag : (talking .syncing).port.phase = .exchange := by decide +kernel

theorem witness_UnknownCodeAnswersUnknown : (talking .stopped).port.phase = .exchange := by decide +kernel

theorem witness_RejectedCommandChangesNothing :
    endsExchange (.release 16 0) = true ∧ (∀ code whole, Instr.release 16 0 ≠ .truncatedExchange code whole)
    ∧ Instr.release 16 0 ≠ .emptyExchange ∧ (talking .active).port.phase = .exchange
    ∧ ∃ t, exec (.release 16 0) (talking .active) = .next t ∧ t.port.held.result ≠ .ok :=
  ⟨rfl, by intros; simp, by simp, rfl, after (exec (.release 16 0) (talking .active)), rfl, by decide +kernel⟩

theorem witness_NopAnswersOk : (talking .idle).port.phase = .exchange := by decide +kernel

theorem witness_StatusReportsTheStation :
    (talking .founding).port.phase = .exchange ∧ (0 < 9 ∧ 9 ≤ 15) := by decide +kernel

/-- An empty queue, and a head notice of every kind. -/
theorem witness_FetchCopiesTheHeadNotice :
    (talking .active).port.phase = .exchange ∧ ((talking .active).afterDelivery 1).notices.queue = []
    ∧ ∀ b ∈ [NoticeBody.update 15 63 .shared (.held 0xFFFF), .update 0 0 .exclusive (.waiting 16),
        .ended 15 63 .released, .ended 0 0 .refused, .sync .syncing, .sync .active, .roster, .tableLost,
        .fault ⟨true, true, true⟩, .fault ⟨false, false, false⟩],
      ({ talking .active with notices := ⟨[⟨255, b⟩], 255⟩ } : State).port.phase = .exchange
      ∧ (({ talking .active with notices := ⟨[⟨255, b⟩], 255⟩ } : State).afterDelivery 1).notices.queue = [⟨255, b⟩] := by
  decide +kernel

/-- Lock bytes 64 and 63, and a record of 16 participants. -/
theorem witness_QueryLockReturnsTheRecord :
    (talking .syncing).port.phase = .exchange ∧ (talking .syncing).ctrl.state ≠ .active
    ∧ (talking .active).ctrl.state = .active ∧ 64 ≤ (64 : Byte).toNat ∧ (63 : Byte).toNat = (63 : LockNo).val
    ∧ (⟨0, [], (List.finRange 16).map fun k => ⟨k, .shared, 0⟩⟩ : LockRecord).holders.length
        + ((List.finRange 16).map fun k => (⟨k, .shared, 0⟩ : Waiter)).length ≤ 16 := by decide +kernel

theorem station_bounded (st : StationState) : (station st).RosterBounded := by
  have h : ∀ k, (station st).rosterEntry k = .absent := fun k => by
    simp [State.rosterEntry, station, State.reset, State.afterReset]
  exact ⟨fun _ => Fin.zero_le _, fun k _ => h k⟩

theorem witness_QueryRosterReturnsTheRoster :
    (talking .idle).port.phase = .exchange ∧ (talking .idle).ctrl.state ≠ .active
    ∧ (talking .active).port.phase = .exchange ∧ (talking .active).ctrl.state = .active
    ∧ (talking .active).RosterBounded ∧ (talking .active).ctrl.snc < 4 :=
  ⟨rfl, by decide, rfl, rfl, ⟨fun _ => Fin.zero_le _, (station_bounded .active).tail⟩, by decide⟩

/-- Tag bytes 16 and 15, a FREE entry, and one that is not. -/
theorem witness_QueryTagShowsTheEntry :
    let s := holding .active (request .held (some .renew) .inFlight) []
    s.port.phase = .exchange ∧ 16 ≤ (16 : Byte).toNat ∧ (15 : Byte).toNat = (15 : Tag).val
    ∧ ((s.afterDelivery 2).entry 15).relation = .free
    ∧ (3 : Byte).toNat = (3 : Tag).val ∧ ((s.afterDelivery 2).entry 3).relation ≠ .free := by decide +kernel

/-- Divisors 0, 1, 64 and 65, thresholds 1, 2, 7 and 8. -/
theorem witness_ConfigureReplacesTheConfiguration :
    (talking .active).port.phase = .exchange ∧ (talking .active).ctrl.state ≠ .idle
    ∧ (talking .idle).port.phase = .exchange ∧ (talking .idle).ctrl.state = .idle
    ∧ (0 : Byte).toNat = 0 ∧ 64 < (65 : Byte).toNat ∧ (1 : Byte).toNat < 2 ∧ 7 < (8 : Byte).toNat
    ∧ (1 ≤ (1 : Byte).toNat ∧ (64 : Byte).toNat ≤ 64 ∧ 2 ≤ (2 : Byte).toNat ∧ (7 : Byte).toNat ≤ 7) := by decide +kernel

/-- N = 1, own number N, and own number N - 1. -/
theorem witness_StartEntersListening :
    (talking .halted).port.phase = .exchange ∧ (talking .halted).ctrl.state ≠ .idle
    ∧ (talking .halted).ctrl.state ≠ .stopped
    ∧ (∀ sid snc : Fin 16, ({ talking .stopped with ctrl.sid := sid, ctrl.snc := snc } : State).port.phase = .exchange)
    ∧ ({ talking .stopped with ctrl.sid := 0, ctrl.snc := 0 } : State).ctrl.snc.val = 0
    ∧ ({ talking .idle with ctrl.sid := 2, ctrl.snc := 1 } : State).ctrl.snc
        < ({ talking .idle with ctrl.sid := 2, ctrl.snc := 1 } : State).ctrl.sid
    ∧ ({ talking .idle with ctrl.sid := 1, ctrl.snc := 1 } : State).ctrl.sid
        ≤ ({ talking .idle with ctrl.sid := 1, ctrl.snc := 1 } : State).ctrl.snc
    ∧ ({ talking .idle with ctrl.sid := 1, ctrl.snc := 1 } : State).ctrl.snc.val ≠ 0 := by decide +kernel

theorem witness_LeaveSetsLeavePending :
    (∀ st ∈ [StationState.syncing, .founding, .active], (talking st).port.phase = .exchange
      ∧ (talking st).ctrl.state.onLine = true)
    ∧ ∀ st ∈ [StationState.idle, .stopped, .halted], (talking st).port.phase = .exchange
      ∧ ((talking st).ctrl.state = .idle ∨ (talking st).ctrl.state = .stopped ∨ (talking st).ctrl.state = .halted) := by
  decide +kernel

theorem witness_LeaveStopsAListeningStation :
    (talking .listening).port.phase = .exchange ∧ (talking .listening).ctrl.state = .listening := by decide +kernel

/-- Lock 63, limit 4095, tags 0 to 2 not FREE and tag 3 FREE; and the same with tag 0. -/
theorem witness_AcquireMakesTheLowestFreeEntryPending :
    let taken : State := { talking .listening with
      req.entries := (talking .listening).req.entries.mapFinIdx fun i e _ => if i < 3 then { e with relation := .ended } else e }
    (taken.port.phase = .exchange ∧ taken.receiving = true ∧ taken.ctrl.leavePending = false
      ∧ (63 : Byte).toNat = (63 : LockNo).val ∧ (4095 : Word16).toNat ≤ 4095
      ∧ (∀ v, ((taken.afterDelivery 5).entry v).live = true → ((taken.afterDelivery 5).entry v).lock ≠ 63)
      ∧ ((taken.afterDelivery 5).entry 3).relation = .free
      ∧ ∀ v < (3 : Tag), ((taken.afterDelivery 5).entry v).relation ≠ .free)
    ∧ ((talking .active).receiving = true ∧ ((talking .active).afterDelivery 5 |>.entry 0).relation = .free
      ∧ ∀ v < (0 : Tag), (((talking .active).afterDelivery 5).entry v).relation ≠ .free) := by
  decide +kernel

/-- Lock 64, limit 4096, a live entry for lock 63, and 16 entries of which none is FREE. -/
theorem witness_AcquireChecksInOrder :
    let full : State := { talking .active with
      req.entries := (talking .active).req.entries.map fun e => { e with relation := .ended } }
    let named := holding .active { request .held none .queued with lock := 63 } []
    (talking .idle).receiving = false ∧ (talking .idle).port.phase = .exchange
    ∧ ({ talking .active with ctrl.leavePending := true } : State).ctrl.leavePending = true
    ∧ (talking .active).receiving = true ∧ (talking .active).ctrl.leavePending = false
    ∧ 64 ≤ (64 : Byte).toNat ∧ 4096 ≤ (4096 : Word16).toNat
    ∧ (named.receiving = true ∧ named.ctrl.leavePending = false ∧ (4095 : Word16).toNat < 4096
      ∧ ((named.afterDelivery 5).entry 3).live = true ∧ ((named.afterDelivery 5).entry 3).lock.val = (63 : Byte).toNat)
    ∧ (full.port.phase = .exchange ∧ full.receiving = true ∧ full.ctrl.leavePending = false ∧ (63 : Byte).toNat < 64
      ∧ (∀ v, ((full.afterDelivery 5).entry v).live = true → ((full.afterDelivery 5).entry v).lock.val ≠ 63)
      ∧ ∀ v, ((full.afterDelivery 5).entry v).relation ≠ .free) := by
  decide +kernel

/-- Leave pending; tag bytes 16 and of a FREE entry; and a live entry with each op it may have. -/
theorem witness_ReleaseActsByTheEntrysOp :
    ({ talking .active with ctrl.leavePending := true } : State).ctrl.leavePending = true
    ∧ ((∀ g : Tag, g.val ≠ (16 : Byte).toNat)
      ∧ ∀ g : Tag, g.val = (15 : Byte).toNat → (((talking .active).afterDelivery 2).entry g).live = false)
    ∧ ∀ e ∈ [request .held none .queued, request .pending (some .claim) .queued, request .held (some .yield) .queued,
        request .held (some .renew) .queued, request .held (some .downgrade) .queued,
        request .pending (some .claim) .inFlight, request .waiting (some .yield) .doubtful],
      let s := holding .active e []
      s.port.phase = .exchange ∧ s.ctrl.leavePending = false ∧ (3 : Tag).val = (3 : Byte).toNat
      ∧ (s.afterDelivery 2).entry 3 = e ∧ e.live = true := by
  decide +kernel

/-- The entry's relation, mode and op at each check of the DOWNGRADE command. -/
theorem witness_DowngradeQueuesItsOp :
    ({ talking .active with ctrl.leavePending := true } : State).ctrl.leavePending = true
    ∧ (∀ g : Tag, g.val = (15 : Byte).toNat → (((talking .active).afterDelivery 2).entry g).live = false)
    ∧ (request .waiting none .queued).relation ≠ .held
    ∧ (request .held (some .renew) .queued).op ≠ none ∧ (request .held none .queued).op = none
    ∧ (request .held none .queued).mode = .exclusive
    ∧ ∀ e ∈ [request .waiting none .queued, { request .held none .queued with mode := .shared },
        request .held (some .renew) .queued, request .held none .queued],
      let s := holding .active e []
      s.port.phase = .exchange ∧ s.ctrl.leavePending = false ∧ (3 : Tag).val = (3 : Byte).toNat
      ∧ (s.afterDelivery 2).entry 3 = e ∧ e.live = true := by
  decide +kernel

/-- The entry's relation and op at each check of the RENEW command. -/
theorem witness_RenewQueuesItsOp :
    ({ talking .active with ctrl.leavePending := true } : State).ctrl.leavePending = true
    ∧ (∀ g : Tag, g.val = (15 : Byte).toNat → (((talking .active).afterDelivery 2).entry g).live = false)
    ∧ (request .waiting none .queued).relation ≠ .held
    ∧ (request .held (some .renew) .inFlight).opStatus ≠ .queued ∧ (request .held none .queued).op = none
    ∧ ∀ e ∈ [request .waiting none .queued, request .held (some .renew) .queued, request .held (some .renew) .inFlight,
        request .held (some .yield) .queued, request .held none .queued],
      let s := holding .active e []
      s.port.phase = .exchange ∧ s.ctrl.leavePending = false ∧ (3 : Tag).val = (3 : Byte).toNat
      ∧ (s.afterDelivery 2).entry 3 = e ∧ e.live = true := by
  decide +kernel

/-- The receiver off; a first cell; the 8,608th cell of a reception and the one after 1,076 bytes; an aligned and an
unaligned station; a station that sends and has read back a cell fault. -/
theorem witness_CellStartTakesTheCell :
    (station .halted).receiving = false
    ∧ ((station .listening).receiving = true ∧ 1 ≤ (station .listening).ctrl.divisor
      ∧ (station .listening).line.rx.cells.length < 8 ∧ (station .listening).slots.aligned = false
      ∧ (station .listening).line.rx.inProgress = false ∧ (station .listening).line.sending = false)
    ∧ (∀ n ∈ [1075, 1076],
      let s : State := { station .active with
        line.rx := ⟨true, List.replicate n 0, if n = 1075 then List.replicate 7 true else [], false, false⟩ }
      s.receiving = true ∧ 1 ≤ s.ctrl.divisor ∧ s.line.rx.cells.length < 8 ∧ s.line.rx.inProgress = true
      ∧ s.line.rx.bytes.length = n ∧ s.slots.aligned = true)
    ∧ let s := sendingCell 0 16
      s.receiving = true ∧ 1 ≤ s.ctrl.divisor ∧ s.line.rx.cells.length < 8 ∧ (s.elapse 96).line.sending = true
      ∧ (s.elapse 96).line.ownFault = true := by
  decide +kernel

/-- A window at its length of 8,064 CLKIN periods and one period short of it; another state, a stopped window, and a
cold-start frame being sent. -/
theorem witness_WindowExpiryBeginsAFoundFrame :
    let s (n : Nat) : State := { station .listening with slots.window := some n }
    (8064 = ((s 0).ctrl.snc.val + 1 + 2 + (s 0).ctrl.sid.val) * 12 * (12 * (s 0).ctrl.divisor)
      ∧ (s 8064).ctrl.state = .listening ∧ (s 8064).slots.window = some 8064 ∧ (s 8064).line.sending = false)
    ∧ ((s 8063).slots.window = some 8063 ∧ 8063 < 8064)
    ∧ (station .active).ctrl.state ≠ .listening ∧ (station .listening).slots.window = none
    ∧ ({ s 8064 with line.sending := true } : State).line.sending = true := by decide +kernel

/-- An own frame that waits. -/
def waitingFrame (st : FrameStatus) : OwnFrame := ⟨⟨1, 3, st, 0, 0, [], none⟩, [], false⟩

theorem witness_OwnTransmissionBeginsAndEnds :
    let ready : State := { station .active with line.own := some (waitingFrame .active) }
    (ready.slots.aligned = true ∧ ready.line.own = some ⟨(waitingFrame .active).frame, [], false⟩)
    ∧ (station .listening).slots.aligned = false ∧ (station .active).line.own = none
    ∧ ({ ready with line.sending := true } : State).line.sending = true ∧ ready.ctrl.state ≠ .listening
    ∧ (∀ heard, let s : State := { station .listening with line.sending := true, line.heard := heard }
      s.line.sending = true ∧ s.ctrl.state = .listening ∧ s.line.heard = heard)
    ∧ (station .active).line.sending = false := by decide +kernel

theorem witness_ReadbackMismatchHalts :
    (station .active).slots.aligned = true ∧ ({ station .active with line.mismatch := true } : State).line.mismatch = true
    ∧ (station .listening).slots.aligned = false ∧ (station .active).line.mismatch = false := by decide +kernel

theorem witness_ArbitrationLossStopsDriving :
    (station .listening).ctrl.state = .listening
    ∧ ({ station .listening with line.mismatch := true } : State).line.mismatch = true
    ∧ (station .active).ctrl.state ≠ .listening ∧ (station .listening).line.mismatch = false := by decide +kernel

/-- A station with this frame received. -/
def hearing (s : State) (f : Frame) : State := { s with line.rx := ⟨true, f.toBytes, [], false, false⟩ }

/-- A reception with a fault in it. -/
def noisy (s : State) : State := { s with line.rx := ⟨true, [], [true], true, false⟩ }

/-- A frame of station 2 of 4. -/
def foreign (st : FrameStatus) : Frame := ⟨2, 3, st, 0, 0, [], none⟩

/-- No reception, a garbled one, and a frame of another slot count, an ACTIVE one and a FOUND one; with no live request
and with a PENDING, a WAITING and a HELD one. -/
theorem witness_ListeningStationTakesAReception :
    (station .listening).ctrl.state = .listening ∧ (station .listening).line.rx.inProgress = false
    ∧ ((noisy (station .listening)).line.rx.inProgress = true ∧ (noisy (station .listening)).line.rx.frame = none)
    ∧ (∀ f ∈ [foreign .active, foreign .found, { foreign .active with slotCount := 4 }],
      (hearing (station .listening) f).line.rx.inProgress = true
      ∧ (hearing (station .listening) f).line.rx.frame = some f)
    ∧ (foreign .active).slotCount = (station .listening).ctrl.snc ∧ (foreign .active).status ≠ .found
    ∧ ({ foreign .active with slotCount := 4 } : Frame).slotCount ≠ (station .listening).ctrl.snc
    ∧ (station .listening).repl.installed = 0
    ∧ (∀ g, ((station .listening).entry g).live = false)
    ∧ ∀ e ∈ [request .pending (some .claim) .queued, { request .pending (some .claim) .doubtful with doubtMark := true },
        request .waiting none .queued, request .held none .queued],
      let s := hearing (holding .listening e []) (foreign .found)
      s.ctrl.state = .listening ∧ s.line.rx.inProgress = true ∧ s.line.rx.frame = some (foreign .found)
      ∧ s.entry 3 = e ∧ e.live = true ∧ s.NoticesDistinct ∧ s.RequestLaw := by
  refine ⟨rfl, rfl, ⟨rfl, rfl⟩, by decide +kernel, rfl, by decide, by decide, rfl, by decide +kernel, ?_⟩
  intro e he
  refine ⟨rfl, rfl, by revert e; decide +kernel, by revert e; decide +kernel, by revert e; decide,
    holding_distinct .listening e [], ?_⟩
  obtain ⟨a, b, c, d, f, g, h, i, j⟩ :=
    holding_law .listening (e := e) [] (by revert e; decide) (by revert e; decide)
  exact ⟨a, b, c, d, f, g, h, i, j⟩

/-- Slot 0 after slot N-1, and slot 2 after slot 1, of station 1. -/
theorem witness_SlotStartOfAnothersSlot :
    ∀ p ∈ [(3 : Fin 16), 1], let s : State := { station .active with slots.position := p }
      (if s.slots.position = s.ctrl.snc then 0 else s.slots.position + 1) ≠ s.ctrl.sid := by decide +kernel

/-- Station 1 after slot 0, and station 0 after slot N-1; LEAVE pending or not; another station SYNCING or not; a page
cursor of 0 and of 8. -/
theorem witness_OwnSlotStartBuildsTheFrame :
    (∀ st ∈ [StationState.listening, .syncing, .founding, .active],
      let s := station st
      (if s.slots.position = s.ctrl.snc then 0 else s.slots.position + 1) = s.ctrl.sid)
    ∧ (let s : State := { station .active with ctrl.sid := 0, slots.position := 3 }
      (if s.slots.position = s.ctrl.snc then 0 else s.slots.position + 1) = s.ctrl.sid)
    ∧ (station .listening).ctrl.state.onLine = false ∧ (station .founding).ctrl.state.onLine = true
    ∧ ({ station .active with ctrl.leavePending := true } : State).ctrl.leavePending = true
    ∧ ((station .active).ctrl.state = .active ∧ (station .active).ctrl.leavePending = false)
    ∧ (∀ k, k ≠ (station .active).ctrl.sid → ((station .active).rosterEntry k).state ≠ .syncing)
    ∧ (let s : State := { station .active with roster := (station .active).roster.set 3 ⟨.syncing, 0⟩ }
      3 ≠ s.ctrl.sid ∧ (s.rosterEntry 3).state = .syncing ∧ s.pageCursor.val = 0
      ∧ ({ s with pageCursor := 8 } : State).pageCursor.val = (7 : Fin 8).val + 1) := by
  decide +kernel

theorem witness_DrawTakesTheQueueInOrder :
    (holding .active (request .pending (some .claim) .queued) [5]).RequestLaw
    ∧ (holding .active (request .held (some .renew) .queued) []).RequestLaw :=
  ⟨holding_law _ _ rfl (by decide), holding_law _ _ rfl (by decide)⟩

/-- Station 2's waiting slot at an ACTIVE station 1 of 4, with this roster entry for it. -/
def silent (p : Fin 16) (e : RosterEntry) : State :=
  { station .active with slots.position := p, roster := (station .active).roster.set p.val e p.isLt }

/-- The same station in SYNCING or FOUNDING, with these pages installed. -/
def recovering (st : StationState) (pages : BitVec 9) (s : State) : State :=
  { s with ctrl.state := st, repl.installed := pages, repl.digest := none }

/-- Miss counts below D, at D - 1 and at 7; an ABSENT owner; slot 2 and slot N-1; an ACTIVE station, and a SYNCING and a
FOUNDING one with no page and with page 0 alone. -/
theorem witness_SilentSlotCountsAMiss :
    (∀ e ∈ [RosterEntry.mk .active 0, ⟨.syncing, 2⟩, ⟨.active, 7⟩, ⟨.absent, 0⟩], ∀ p ∈ [(2 : Fin 16), 3],
      (let s := silent p e
      s.ctrl.state = .active ∧ s.slots.aligned = true ∧ s.slots.phase = .waiting ∧ s.repl.installed = allPages
      ∧ s.line.own = none ∧ s.slots.position = p ∧ p ≠ s.ctrl.sid ∧ s.rosterEntry p = e)
      ∧ ∀ st ∈ [StationState.syncing, .founding], ∀ pages ∈ [(0 : BitVec 9), 1],
        let s := recovering st pages (silent p e)
        s.ctrl.state = st ∧ s.slots.aligned = true ∧ s.slots.phase = .waiting ∧ s.repl.installed ≠ allPages
        ∧ s.line.own = none ∧ s.slots.position = p ∧ p ≠ s.ctrl.sid ∧ s.rosterEntry p = e
        ∧ s.pageInstalled 0 = decide (pages = 1))
    ∧ min 7 ((0 : BitVec 3).toNat + 1) < 3 ∧ 3 ≤ min 7 ((2 : BitVec 3).toNat + 1)
    ∧ 3 ≤ min 7 ((7 : BitVec 3).toNat + 1) ∧ (2 : Fin 16) ≠ (station .active).ctrl.snc := by
  decide +kernel

/-- A frame slot of station `p` in this state. -/
def frameSlot (st : StationState) (p : Fin 16) : State :=
  { station st with slots.position := p, slots.phase := .inFrame }

theorem witness_GarbledSlotUninstallsPages :
    (∀ st ∈ [StationState.syncing, .founding, .active],
      let s := noisy (frameSlot st 2)
      s.ctrl.state.onLine = true ∧ s.slots.aligned = true ∧ s.slots.phase = .inFrame ∧ s.line.own = none
      ∧ s.line.rx.frame = none ∧ s.slots.position = 2 ∧ 2 ≠ s.ctrl.sid)
    ∧ (noisy (frameSlot .active 2)).repl.installed = allPages ∧ (2 : Fin 16) ≠ (station .active).ctrl.snc := by
  decide +kernel

/-- Another sender, another slot count, another cycle number; at an ACTIVE station, and at a SYNCING and a FOUNDING one
with no page and with page 0 alone. -/
theorem witness_AlienFrameRaisesTheFaultAlone :
    (∀ f ∈ [{ foreign .active with sender := 0 }, { foreign .active with slotCount := 4 },
        { foreign .active with cycle := 1 }],
      ∀ s ∈ hearing (frameSlot .active 2) f
          :: [(StationState.syncing, 0), (.syncing, 1), (.founding, 0), (.founding, 1)].map
            (fun (st, pages) => recovering st pages (hearing (frameSlot st 2) f)),
      s.slots.aligned = true ∧ s.slots.phase = .inFrame
      ∧ ((s.ctrl.state = .active ∧ s.repl.installed = allPages)
        ∨ ((s.ctrl.state = .syncing ∨ s.ctrl.state = .founding) ∧ s.repl.installed ≠ allPages))
      ∧ s.line.own = none ∧ s.line.rx.frame = some f ∧ s.slots.position = 2 ∧ 2 ≠ s.ctrl.sid
      ∧ (f.sender ≠ 2 ∨ f.slotCount ≠ s.ctrl.snc ∨ (f.status ≠ .found ∧ f.cycle ≠ s.slots.cycle)))
    ∧ (2 : Fin 16) ≠ (station .active).ctrl.snc := by
  decide +kernel

theorem witness_ActiveFrameIsAppliedAndCounted :
    let f : Frame := { foreign .active with ops := [⟨.claim, 63, .shared, false, 4095⟩, ⟨.yield, 64, .exclusive, false, 0⟩] }
    let s := hearing (frameSlot .active 2) f
    s.ctrl.state = .active ∧ s.slots.aligned = true ∧ s.slots.phase = .inFrame ∧ s.repl.installed = allPages
    ∧ s.repl.digest = some 0 ∧ s.line.own = none ∧ s.line.rx.frame = some f ∧ f.status = .active
    ∧ f.sender = s.slots.position ∧ f.slotCount = s.ctrl.snc ∧ f.cycle = s.slots.cycle ∧ f.sender ≠ s.ctrl.sid := by
  decide +kernel

/-- The three statuses; at an ACTIVE station, and at a SYNCING and a FOUNDING one with no page and with page 0 alone. -/
theorem witness_JoinAndLeaveFramesPurge :
    ∀ st ∈ [FrameStatus.syncing, .join, .leave],
      let f := foreign st
      ∀ s ∈ hearing (frameSlot .active 2) f
          :: [(StationState.syncing, 0), (.syncing, 1), (.founding, 0), (.founding, 1)].map
            (fun (st, pages) => recovering st pages (hearing (frameSlot st 2) f)),
      s.slots.aligned = true ∧ s.slots.phase = .inFrame
      ∧ ((s.ctrl.state = .active ∧ s.repl.installed = allPages)
        ∨ ((s.ctrl.state = .syncing ∨ s.ctrl.state = .founding) ∧ s.repl.installed ≠ allPages
          ∧ (s.pageInstalled 0 = false → s.repl.installed = 0)))
      ∧ s.line.own = none ∧ s.line.rx.frame = some f
      ∧ (f.status = .syncing ∨ f.status = .join ∨ f.status = .leave) ∧ f.sender = s.slots.position
      ∧ f.slotCount = s.ctrl.snc ∧ f.cycle = s.slots.cycle ∧ f.sender ≠ s.ctrl.sid := by
  decide +kernel

/-- Another station's FOUND frame with WAITING, HELD and PENDING requests, and the founder's own readback. -/
theorem witness_FoundFrameFoundsTheTable :
    let f := foreign .found
    let own : Frame := { foreign .found with sender := 1 }
    let s (st : StationState) (e : RequestEntry) : State :=
      hearing { holding st e [] with slots := (frameSlot st 2).slots } f
    let r : State := hearing
      { station .founding with
        line.own := some ⟨own, [], true⟩, slots.position := 1, slots.phase := .inFrame } own
    (∀ st ∈ [StationState.syncing, .founding, .active],
      ∀ e ∈ [request .waiting none .queued, request .held (some .yield) .queued, request .pending (some .claim) .queued,
        request .pending (some .claim) .doubtful],
      (s st e).ctrl.state.onLine = true ∧ (s st e).slots.aligned = true ∧ (s st e).slots.phase = .inFrame
      ∧ (s st e).line.own = none ∧ (s st e).line.rx.frame = some f ∧ f.sender = (s st e).slots.position
      ∧ f.slotCount = (s st e).ctrl.snc)
    ∧ (r.line.own = some ⟨own, [], true⟩ ∧ own.status = .found ∧ r.line.rx.frame = some own
      ∧ own.sender = r.slots.position ∧ own.slotCount = r.ctrl.snc ∧ r.slots.aligned = true)
    ∧ ∀ st e, e.live = true → (e.relation = .pending ↔ e.op = some .claim) →
      (s st e).NoticesDistinct ∧ (s st e).RequestLaw := by
  refine ⟨by decide +kernel, by decide +kernel, fun st e hl hc => ⟨holding_distinct st e [], ?_⟩⟩
  obtain ⟨a, b, c, d, f, g, h, i, j⟩ := holding_law st [] hl hc
  exact ⟨a, b, c, d, f, g, h, i, j⟩

theorem witness_LeaveSlotEndStops :
    let s (ph : SlotPhase) : State :=
      { station .founding with
        ctrl.leavePending := true, line.own := some (waitingFrame .leave), slots.position := 1, slots.phase := ph }
    ∀ ph ∈ [SlotPhase.waiting, .inFrame], (s ph).slots.aligned = true ∧ (s ph).line.own = some (waitingFrame .leave)
      ∧ (waitingFrame .leave).frame.status = .leave ∧ (s ph).slots.phase = ph := by decide +kernel

/-- Station 1's ACTIVE frame with a RENEW of lock 5, sent. -/
def ownActive : OwnFrame := ⟨⟨1, 3, .active, 0, 0, [⟨.renew, 5, .exclusive, false, 0⟩], none⟩, [], true⟩

/-- A frame not begun, a silent slot, a JOIN read back, a garbled and an alien readback, and one of other content. And an
ACTIVE station at the end of its own slot, its ACTIVE frame with an op in flight read back. And SYNCING and FOUNDING stations
at the end of their own slot, with no page and with page 0, their own entry ABSENT, below D and at D: a silent slot, a frame
not begun, a garbled and an alien reception, and an own JOIN and an own SYNCING frame read back. -/
theorem witness_OwnFrameFateFollowsTheReadback :
    let o : OwnFrame := { waitingFrame .join with tags := [3], sent := true }
    let s : State := { holding .active (request .held (some .renew) .inFlight) [] with line.own := some o }
    let own : OwnFrame := { ownActive with tags := [3] }
    let r : State := { hearing (holding .active (request .held (some .renew) .inFlight) []) own.frame with
      line.own := some own, slots := (frameSlot .active 1).slots }
    (s.line.own = some o ∧ o.sent = true ∧ (waitingFrame .join).sent = false ∧ s.inFlight 3 = true)
    ∧ (∃ f, SlotContent.valid o.frame = .valid f ∧ f.status = o.frame.status ∧ f.ops = o.frame.ops)
    ∧ (SlotContent.garbled = .garbled ∨ SlotContent.garbled = .alien) ∧ SlotContent.silent = .silent
    ∧ (∃ f, SlotContent.valid (foreign .active) = .valid f ∧ (f.status ≠ o.frame.status ∨ f.ops ≠ o.frame.ops))
    ∧ (r.line.own = some own ∧ r.ctrl.state = .active ∧ r.slots.aligned = true ∧ r.slots.phase = .inFrame
      ∧ r.repl.installed = allPages ∧ r.slots.position = r.ctrl.sid ∧ own.sent = true ∧ own.frame.status = .active
      ∧ r.line.rx.frame = some own.frame ∧ own.frame.sender = r.ctrl.sid ∧ own.frame.slotCount = r.ctrl.snc
      ∧ own.frame.cycle = r.slots.cycle ∧ r.inFlight 3 = true)
    ∧ (∀ st ∈ [StationState.syncing, .founding], ∀ pages ∈ [(0 : BitVec 9), 1],
      ∀ e ∈ [RosterEntry.absent, ⟨.syncing, 1⟩, ⟨.syncing, 2⟩], ∀ o ∈ [FrameStatus.join, .syncing, .found].map waitingFrame,
      let q : State := { recovering st pages (silent 1 e) with line.own := some { o with sent := true } }
      let r (f : Frame) : State := { hearing q f with slots.phase := .inFrame }
      (q.ctrl.state = .syncing ∨ q.ctrl.state = .founding) ∧ q.slots.aligned = true ∧ o.frame.status ≠ .leave
      ∧ q.slots.position = 1 ∧ 1 = q.ctrl.sid ∧ q.rosterEntry 1 = e ∧ q.slots.phase = .waiting
      ∧ q.repl.installed ≠ allPages ∧ q.pageInstalled 0 = decide (pages = 1) ∧ q.ctrl.dropThreshold = 3
      ∧ (r o.frame).slots.phase = .inFrame ∧ o.sent = false ∧ (noisy (r o.frame)).line.rx.frame = none
      ∧ (r (foreign .active)).line.rx.frame = some (foreign .active) ∧ (foreign .active).sender ≠ 1
      ∧ (r o.frame).line.rx.frame = some o.frame ∧ o.frame.sender = 1 ∧ o.frame.slotCount = (r o.frame).ctrl.snc
      ∧ o.frame.cycle = (r o.frame).slots.cycle) :=
  ⟨⟨rfl, rfl, rfl, by decide +kernel⟩, ⟨_, rfl, rfl, rfl⟩, .inl rfl, rfl, ⟨_, rfl, .inl (by decide)⟩, by decide +kernel,
    by decide +kernel⟩

/-- 1 to 1 is lost, 0 to 0 and 2 to 1 are kept; with a DOUBTFUL op. And an ACTIVE station at the end of its own slot: a
silent one with its roster entry ABSENT, below D and at D, and a frame slot read back valid, garbled and alien. -/
theorem witness_VoteEvaluationSettlesTheDoubtful :
    let s (a d : Nat) : State :=
      { holding .active (request .held (some .renew) .doubtful) [] with repl.agree := a, repl.disagree := d }
    let own (f : Frame) : State := { hearing (frameSlot .active 1) f with line.own := some ownActive }
    ((∀ a d, (s a d).RequestLaw) ∧ (0 < (s 1 1).repl.disagree ∧ (s 1 1).repl.agree ≤ (s 1 1).repl.disagree)
    ∧ (s 0 0).repl.disagree = 0 ∧ (s 2 1).repl.disagree < (s 2 1).repl.agree ∧ (s 0 0).doubtful 3 = true)
    ∧ (∀ e ∈ [RosterEntry.absent, ⟨.active, 1⟩, ⟨.active, 2⟩], let s := silent 1 e
      s.ctrl.state = .active ∧ s.slots.aligned = true ∧ s.slots.position = s.ctrl.sid ∧ s.leavingSlot = false
      ∧ s.slots.phase = .waiting ∧ s.repl.installed = allPages ∧ s.rosterEntry s.ctrl.sid = e ∧ s.ctrl.dropThreshold = 3)
    ∧ ∀ s ∈ [own ownActive.frame, noisy (own ownActive.frame), own (foreign .active)],
      s.ctrl.state = .active ∧ s.slots.aligned = true ∧ s.slots.position = s.ctrl.sid ∧ s.leavingSlot = false
      ∧ s.slots.phase = .inFrame ∧ s.classify.heardFound = false ∧ s.repl.installed = allPages
      ∧ (s.classify = .valid ownActive.frame ∨ s.classify = .garbled ∨ s.classify = .alien) := by
  refine ⟨⟨fun a d => ?_, by decide +kernel⟩, by decide +kernel, by decide +kernel⟩
  obtain ⟨x1, x2, x3, x4, x5, x6, x7, x8, x9⟩ :=
    holding_law .active (e := request .held (some .renew) .doubtful) [] rfl (by decide)
  exact ⟨x1, x2, x3, x4, x5, x6, x7, x8, x9⟩

/-- Slot N-1 and slot 2; an owner at D and below it; an orphan counter at N and below it; an own LEAVE frame in slot
N-1. -/
theorem witness_SlotEndWorksAsRows :
    (∀ s ∈ [silent 3 .absent, silent 2 ⟨.active, 3⟩, { station .syncing with repl.orphan := 4 }], s.leavingSlot = false)
    ∧ (let s : State := { silent 3 .absent with line.own := some (waitingFrame .leave) }
      s.leavingSlot = true ∧ s.slots.aligned = true ∧ s.slots.position = s.ctrl.snc)
    ∧ ((silent 3 .absent).slots.aligned = true ∧ (silent 3 .absent).slots.position = (silent 3 .absent).ctrl.snc)
    ∧ (silent 2 .absent).slots.position ≠ (silent 2 .absent).ctrl.snc
    ∧ (station .syncing).ctrl.state ≠ .active
    ∧ ((silent 2 ⟨.active, 3⟩).slots.position = 2 ∧ (silent 2 ⟨.active, 3⟩).pageInstalled 0 = true
      ∧ ((silent 2 ⟨.active, 3⟩).rosterEntry 2).state ≠ .absent
      ∧ (silent 2 ⟨.active, 3⟩).ctrl.dropThreshold ≤ ((silent 2 ⟨.active, 3⟩).rosterEntry 2).misses.toNat)
    ∧ ((silent 2 ⟨.active, 2⟩).rosterEntry 2).misses.toNat < (silent 2 ⟨.active, 2⟩).ctrl.dropThreshold
    ∧ (let s : State := { station .syncing with repl.orphan := 4 }
      s.ctrl.state = .syncing ∧ s.ctrl.snc.val + 1 ≤ s.repl.orphan)
    ∧ (station .syncing).repl.orphan < (station .syncing).ctrl.snc.val + 1 := by decide +kernel

/-- SYNCING stations with no page and with page 0, and one that is not; an ACTIVE frame with page 0 and with a lock page,
at a SYNCING station with no page, one that lacks only this page, and a FOUNDING one. -/
theorem witness_PagesAreInstalledAfterPageZero :
    ((station .syncing).ctrl.state = .syncing ∧ (station .syncing).pageInstalled 0 = false
    ∧ ({ station .syncing with repl.installed := 1 } : State).pageInstalled 0 = true
    ∧ (station .founding).ctrl.state ≠ .syncing)
    ∧ ∀ page ∈ [Page.roster (List.replicate 16 .absent), .locks 0 (List.replicate 8 .empty)],
      let f : Frame := { foreign .active with page := some page }
      ∀ s ∈ [(StationState.syncing, 0), (.syncing, allPages &&& ~~~2), (.founding, 0)].map
          (fun (st, pages) => recovering st pages (hearing (frameSlot st 2) f)),
      (s.ctrl.state = .syncing ∨ s.ctrl.state = .founding) ∧ s.slots.aligned = true ∧ s.slots.phase = .inFrame
      ∧ s.repl.digest = none ∧ s.line.own = none ∧ s.line.rx.frame = some f ∧ f.status = .active
      ∧ f.sender = s.slots.position ∧ f.slotCount = s.ctrl.snc ∧ f.cycle = s.slots.cycle ∧ f.sender ≠ s.ctrl.sid := by
  decide +kernel

/-- A station with this record of lock 5 and one entry for it. -/
def meeting (e : RequestEntry) (r : LockRecord) : State := (holding .active e []).setLock 5 r

/-- Holder, waiter and no participation, with entries that the table does and does not bear out; DOUBTFUL ops and an own
participation that no entry names; a SYNCING station that holds all pages, and one that lacks one. -/
theorem witness_ReconciliationFollowsTheTable :
    let held : LockRecord := ⟨7, [⟨1, .shared, 0, 0, 7⟩], []⟩
    let queued : LockRecord := ⟨7, [⟨0, .exclusive, 0, 0, 7⟩], [⟨1, .exclusive, 0⟩]⟩
    let e := request .held (some .downgrade) .doubtful
    ((meeting e held).entry 3 = e ∧ (meeting e held).lock e.lock = held ∧ e.live = true
    ∧ held.holderOf (meeting e held).ctrl.sid = some ⟨1, .shared, 0, 0, 7⟩
    ∧ ¬ (e.relation = .held ∧ e.mode = .shared ∧ e.token = 7)
    ∧ queued.holderOf (meeting e queued).ctrl.sid = none
    ∧ queued.waiterOf (meeting e queued).ctrl.sid = some ⟨1, .exclusive, 0⟩
    ∧ (LockRecord.empty.holderOf 1 = none ∧ LockRecord.empty.waiterOf 1 = none)
    ∧ (request .pending (some .claim) .queued).relation = .pending ∧ (request .ended none .queued).live = false
    ∧ (request .held (some .yield) .doubtful).relation ≠ .pending)
    ∧ ((meeting e held).RequestLaw ∧ (meeting e queued).doubtful 3 = true
      ∧ ((meeting e LockRecord.empty).setLock 9 queued |>.lock 9).waiterOf 1 ≠ none ∧ e.lock ≠ 9)
    ∧ ((recovering .syncing allPages (meeting e held)).ctrl.state = .syncing
      ∧ (recovering .syncing allPages (meeting e held)).repl.installed = allPages)
    ∧ (station .syncing).repl.installed ≠ allPages := by
  refine ⟨by decide +kernel, ⟨?_, by decide +kernel⟩, by decide +kernel, by decide +kernel⟩
  obtain ⟨a, b, c, d, f, g, h, i, j⟩ :=
    holding_law .active (e := request .held (some .downgrade) .doubtful) [] rfl (by decide)
  exact ⟨a, b, c, d, f, g, h, i, j⟩

/-- A record in which station 3 holds and station 1 waits. -/
theorem held_lawful : (⟨1, [⟨3, .exclusive, 0, 0, 1⟩], [⟨1, .shared, 0⟩]⟩ : LockRecord).Lawful :=
  ⟨.inl ⟨_, rfl, rfl⟩, by decide, by decide⟩

theorem empty_lawful : LockRecord.empty.Lawful :=
  ⟨.inr (by simp [LockRecord.empty]), by decide, by decide⟩

/-- A grant to a free lock, a claim that must wait, a try-claim, and a claim of a station that takes part. -/
theorem witness_ClaimGrantsQueuesDeniesOrRefuses :
    let r : LockRecord := ⟨1, [⟨3, .exclusive, 0, 0, 1⟩], [⟨1, .shared, 0⟩]⟩
    r.Lawful ∧ LockRecord.empty.Lawful ∧ 1 ∈ r.stations ∧ 3 ∈ r.stations ∧ 2 ∉ r.stations ∧ r.waiters ≠ []
    ∧ 2 ∉ LockRecord.empty.stations ∧ LockRecord.empty.waiters = [] ∧ LockRecord.empty.holders = [] :=
  ⟨held_lawful, empty_lawful, by decide, by decide, by decide, by decide, by decide, rfl, rfl⟩

theorem witness_YieldDowngradeAndRenewActOnTheSender :
    let r : LockRecord := ⟨1, [⟨3, .exclusive, 0, 0, 1⟩], [⟨1, .shared, 0⟩]⟩
    r.Lawful ∧ r.holders = [] ++ ⟨3, .exclusive, 0, 0, 1⟩ :: [] ∧ r.waiters = [] ++ ⟨1, .shared, 0⟩ :: []
    ∧ 2 ∉ r.stations
    ∧ (⟨1, [⟨3, .shared, 0, 0, 1⟩], []⟩ : LockRecord).holders = [] ++ ⟨3, .shared, 0, 0, 1⟩ :: [] :=
  ⟨held_lawful, rfl, rfl, by decide, rfl⟩

theorem witness_YieldOfAStrangerChangesNothing :
    (⟨.yield, 5, .exclusive, false, 0⟩ : Operation).kind = .yield
    ∧ 2 ∉ (⟨1, [⟨3, .exclusive, 0, 0, 1⟩], [⟨1, .shared, 0⟩]⟩ : LockRecord).stations := by decide

/-- Station 3 holds for 30 cycles and station 1 waits. -/
def theirs : LockRecord := ⟨1, [⟨3, .exclusive, 0, 30, 1⟩], [⟨1, .exclusive, 0⟩]⟩

theorem theirs_lawful : theirs.Lawful := ⟨.inl ⟨_, rfl, rfl⟩, by decide, by decide⟩

/-- Station 1 holds for 30 cycles. -/
def ours : LockRecord := ⟨1, [⟨1, .exclusive, 0, 30, 1⟩], []⟩

theorem ours_lawful : ours.Lawful := ⟨.inl ⟨_, rfl, rfl⟩, by decide, by decide⟩

/-- A lock to yield or not; WAITING, HELD and PENDING entries; each op in flight; a lock that no live entry names, to yield
or not. And an ACTIVE station with a lawful record: an operation, a purge and an expiry of another station that hands the
lock to the own waiter, those of the own station, and a station that is not ACTIVE. -/
theorem witness_ReportsActOnTheLiveEntry :
    ((∀ e ∈ [request .waiting none .queued, request .held none .queued, request .pending (some .claim) .inFlight,
        request .held (some .yield) .inFlight, request .held (some .downgrade) .inFlight,
        request .held (some .renew) .inFlight], ∀ ys ∈ [[], [(5 : LockNo)]],
      (holding .active e ys).RequestLaw ∧ (holding .active e ys).entry 3 = e ∧ e.live = true ∧ e.lock = 5)
    ∧ ∀ k : OpKind, (holding .active (request (if k = .claim then .pending else .held) (some k) .inFlight) []).inFlight 3
      = true)
    ∧ (∀ ys ∈ [[], [(5 : LockNo)]],
      ((5 ∈ ({ talking .active with req.toYield := ys } : State).req.toYield) ↔ ys ≠ [])
      ∧ ∀ g, (({ talking .active with req.toYield := ys } : State).entry g).live = false
        ∧ ({ talking .active with req.toYield := ys } : State).inFlight g = false)
    ∧ (let r := theirs
      let s := (holding .active (request .waiting none .queued) []).setLock 5 r
      (s.lock 5 = r ∧ s.lockValid 5 = true ∧ r.Lawful ∧ s.RequestLaw ∧ s.ctrl.state = .active ∧ (3 : StationNo) ≠ s.ctrl.sid)
      ∧ s.entry 3 = request .waiting none .queued ∧ (5 : LockNo) ∉ s.req.toYield
      ∧ r.waiterOf s.ctrl.sid ≠ none
      ∧ (r.apply 42 3 ⟨.yield, 5, .exclusive, false, 0⟩).record.holderOf s.ctrl.sid = some ⟨1, .exclusive, 42, 0, 2⟩
      ∧ (r.purged 3 42).holderOf s.ctrl.sid = some ⟨1, .exclusive, 42, 0, 2⟩
      ∧ (r.expiredAt 42).holderOf s.ctrl.sid = some ⟨1, .exclusive, 42, 0, 2⟩
      ∧ (∀ h ∈ r.holders, h.station = s.ctrl.sid → h.expired s.slots.cycle = false) ∧ 1 ∈ r.stations
      ∧ (⟨.yield, 5, .exclusive, false, 0⟩ : Operation).lock.toNat = (5 : LockNo).val)
    ∧ (let r := ours
      let s := { (holding .active (request .held (some .yield) .inFlight) []).setLock 5 r with slots.cycle := 42 }
      s.lock 5 = r ∧ s.lockValid 5 = true ∧ r.Lawful ∧ s.RequestLaw ∧ s.ctrl.state = .active ∧ 1 ∈ r.stations
      ∧ s.inFlight 3 = true ∧ (s.entry 3).op = some .yield ∧ (s.entry 3).lock = 5
      ∧ ∃ h ∈ r.holders, h.station = s.ctrl.sid ∧ h.expired s.slots.cycle = true)
    ∧ (recovering .syncing 3 (station .syncing)).ctrl.state ≠ .active
      ∧ (recovering .syncing 3 (station .syncing)).lockValid 5 = true := by
  have laws (e : RequestEntry) (r : LockRecord) (c : CycleNo) (hl : e.live = true)
      (hc : e.relation = .pending ↔ e.op = some .claim) :
      State.RequestLaw { (holding .active e []).setLock 5 r with slots.cycle := c } := by
    obtain ⟨x1, x2, x3, x4, x5, x6, x7, x8, x9⟩ := holding_law .active (e := e) [] hl hc
    exact ⟨x1, x2, x3, x4, x5, x6, x7, x8, x9⟩
  refine ⟨⟨fun e he ys _ => ⟨holding_law _ _ ?_ ?_, holding_entry _ _ _ 3, ?_, ?_⟩, ?_⟩, by decide +kernel,
    ⟨⟨by decide +kernel, by decide +kernel, theirs_lawful, laws (request .waiting none .queued) theirs 0 rfl (by decide), rfl, by decide⟩, ?_⟩,
    ⟨by decide +kernel, by decide +kernel, ours_lawful,
      laws (request .held (some .yield) .inFlight) ours 42 rfl (by decide), rfl, by decide +kernel⟩,
    by decide +kernel⟩
  · revert e; decide
  · revert e; decide
  · revert e; decide
  · revert e; decide
  · intro k
    cases k <;> decide +kernel
  · decide +kernel

/-- Four operations and a lock page with a record of 16 participants; a roster page; a LEAVE frame. Their bodies' lengths
and contents. A reception with a fault, an over-long one, one with a bit past its last byte, and one with no mark. -/
theorem witness_FrameReadsBack :
    let r : LockRecord := ⟨0xFFFF, [⟨0, .exclusive, 0xFFFFFF, 4095, 0xFFFF⟩], (List.range 15).map fun k =>
      ⟨Fin.ofNat 16 (k + 1), .shared, 4095⟩⟩
    let f : Frame := ⟨15, 15, .active, 0xFFFFFF, 0xFFFF, List.replicate 4 ⟨.renew, 255, .shared, true, 4095⟩,
      some (.locks 7 (List.replicate 8 r))⟩
    let g : Frame := ⟨0, 0, .active, 0, 0, [], some (.roster (List.replicate 16 ⟨.active, 7⟩))⟩
    (f.sender ≤ f.slotCount ∧ f.ops.length ≤ 4 ∧ (List.replicate 8 r).length = 8
      ∧ r.holders.length + r.waiters.length ≤ 16)
    ∧ (g.sender ≤ g.slotCount ∧ (List.replicate 16 (RosterEntry.mk .active 7)).length = 16)
    ∧ ((foreign .leave).status ≠ .active ∧ (foreign .leave).ops = [] ∧ (foreign .leave).page = none)
    ∧ (readFrame (foreign .leave).toBytes = some (foreign .leave) ∧ readFrame g.toBytes = some g)
    ∧ ((List.replicate 8 r).flatMap LockRecord.toBytes).length = 1048
    ∧ (let rx (fault overLong : Bool) (cells : List Bool) : Reception := ⟨true, (foreign .leave).toBytes, cells, fault, overLong⟩
      (rx true false []).fault = true ∧ (rx false true []).overLong = true ∧ (rx false false [true]).cells ≠ []
      ∧ (rx false false []).fault = false ∧ (rx false false []).overLong = false ∧ (rx false false []).cells = []) := by
  decide +kernel

/-- A queue with notices of two owners keeps the law, and a step from it has a next state. -/
theorem witness_NoticesStayDistinct :
    let s : State := { talking .active with notices := ⟨[⟨1, .roster⟩, ⟨2, .sync .active⟩], 2⟩, pending := [.fetch 0] }
    s.NoticesDistinct ∧ ∃ t, step s = .next t := by
  refine ⟨?_, _, rfl⟩
  unfold State.NoticesDistinct
  decide

/-- A station with a QUEUED op and a RELEASE that turns it into a YIELD. -/
theorem witness_RequestsStayLawful :
    let s : State := { holding .active (request .held (some .renew) .queued) [2, 63] with pending := [.release 3 0] }
    s.NoticesDistinct ∧ s.RequestLaw ∧ s.ToYieldAscending ∧ ∃ t, step s = .next t := by
  refine ⟨holding_distinct .active (request .held (some .renew) .queued) [2, 63], ?_, ?_, _, rfl⟩
  · obtain ⟨x1, x2, x3, x4, x5, x6, x7, x8, x9⟩ :=
      holding_law .active (e := request .held (some .renew) .queued) [2, 63] rfl (by decide)
    exact ⟨x1, x2, x3, x4, x5, x6, x7, x8, x9⟩
  · unfold State.ToYieldAscending
    decide

/-- A SYNCING station with page 0 and a silent slot of station 2, one slot before it is FOUNDING. -/
def orphaned : State :=
  { station .syncing with
    repl.installed := 1, repl.orphan := 3, slots.position := 2, pending := [.silentSlotEnd] }

theorem witness_StationStaysLawful :
    orphaned.StationLaw ∧ orphaned.RosterBounded ∧ (∃ t, step orphaned = .next t)
    ∧ (after (step orphaned)).ctrl.state = .founding := by
  refine ⟨?_, ⟨fun _ => by decide, (station_bounded .syncing).tail⟩, ⟨_, rfl⟩, by decide +kernel⟩
  constructor <;> decide +kernel

/-- Station 2 holds lock 0 and leaves. -/
def departing : State :=
  hearing
    { (frameSlot .active 2).setLock 0 ⟨1, [⟨2, .exclusive, 0, 0, 1⟩], []⟩ with
      roster := (station .active).roster.set 2 ⟨.active, 0⟩, pending := [.frameSlotEnd] } (foreign .leave)

theorem witness_TablesStayLawful :
    departing.StationLaw ∧ departing.ctrl.state = .active ∧ departing.TableLaw ∧ (∃ t, step departing = .next t)
    ∧ (after (step departing)).lock 0 = ⟨1, [], []⟩ := by
  have hlock : ∀ l, departing.lock l = if l = 0 then ⟨1, [⟨2, .exclusive, 0, 0, 1⟩], []⟩ else .empty := by
    intro l
    show (((frameSlot .active 2).setLock 0 ⟨1, [⟨2, .exclusive, 0, 0, 1⟩], []⟩).lock l) = _
    rw [State.lock_setLock]
    split
    · rfl
    · simp [State.lock, frameSlot, station, State.reset, State.afterReset]
  refine ⟨?_, rfl, ?_, ⟨_, rfl⟩, by decide +kernel⟩
  · constructor <;> decide +kernel
  · constructor
    · intro l
      rw [hlock]
      split
      · exact ⟨.inl ⟨_, rfl, rfl⟩, by decide, by decide⟩
      · exact empty_lawful
    · intro l
      rw [hlock]
      unfold LockRecord.LeasesRun
      split
      · decide
      · decide
    · intro l
      rw [hlock]
      split
      · decide +kernel
      · decide

end Sys2Proof.Tests
end

section
/-! The lock table: the grant pass, the laws of the table under every step, QUERY_LOCK, and the pages that a station in
recovery takes. -/

namespace Sys2Proof.Machine

/-! ### The grant pass (R4, R5, R6) -/

/-- A mode that fits a holder list: EXCLUSIVE none, SHARED all SHARED (R5). -/
theorem grantable_spec {hs : List Holder} {m : Mode} (h : grantable hs m = true) :
    (m = .exclusive → hs = []) ∧ (m = .shared → ∀ x ∈ hs, x.mode = .shared) := by
  cases m <;> simpa [grantable] using h

/-- A mode that does not fit (R5). -/
theorem not_grantable_spec {hs : List Holder} {m : Mode} (h : grantable hs m = false) :
    (m = .exclusive → hs ≠ []) ∧ (m = .shared → ∃ x ∈ hs, x.mode = .exclusive) := by
  cases m
  · simpa [grantable] using h
  · obtain ⟨x, hx, hm⟩ := List.all_eq_false.1 (show hs.all (·.mode == .shared) = false from h)
    refine ⟨nofun, fun _ => ⟨x, hx, ?_⟩⟩
    revert hm; cases x.mode <;> simp

/-- The first entries of a run are the run of the first waiters. -/
theorem take_grantRun (c : CycleNo) (gen : Word16) (ws : List Waiter) (i : Nat) :
    (grantRun c gen ws).take i = grantRun c gen (ws.take i) := by
  induction ws generalizing gen i with
  | nil => simp [grantRun]
  | cons w ws ih => cases i <;> simp [grantRun, ih]

/-- Settles O50: grantLoop_eq names the k waiters that a pass grants; the rest reads off its holders and waiters. -/
theorem grantPassServesFromTheHead : Obligations.GrantPassServesFromTheHead := by
  intro r c
  obtain ⟨k, hk, he, hblocked, hfits⟩ := grantLoop_eq c r.generation r.holders r.waiters
  have hpass : r.grantPass c = _ := he
  refine ⟨r.waiters.take k, r.waiters.drop k, (List.take_append_drop k _).symm, by rw [hpass], ?_,
    ⟨grantRun c r.generation (r.waiters.take k), by rw [hpass], by simp, ?_⟩, ?_⟩
  · rw [hpass, List.length_take_of_le hk]
  · intro i h w hnew hgranted
    obtain ⟨hi, rfl⟩ := List.getElem?_eq_some_iff.1 hgranted
    have hik : i < k := lt_of_lt_of_le hi (List.length_take_le k _)
    have hfit := grantable_spec (hfits i hik (by omega))
    rw [take_grantRun, List.take_take, min_eq_left hik.le, List.getElem_take]
    refine ⟨?_, hfit⟩
    rw [List.getElem?_eq_getElem (by simpa using hi), grantRun_getElem c _ _ i hi, Option.some.injEq] at hnew
    rw [← hnew, List.getElem_take, BitVec.ofNat_add, BitVec.add_comm (BitVec.ofNat 16 i), ← BitVec.add_assoc]
    rfl
  · intro w hw
    rw [hpass]
    exact not_grantable_spec (hblocked w hw)

/-! ### Works that leave the tables alone -/

/-- Roster and records are as they were, and so are slot position, cycle number and slot count, on which the expiries and
the number of the next cycle depend (R31, R46). -/
structure State.KeepsTables (s t : State) : Prop where
  roster : t.roster = s.roster
  locks : t.locks = s.locks
  cycle : t.slots.cycle = s.slots.cycle
  position : t.slots.position = s.slots.position
  snc : t.ctrl.snc = s.ctrl.snc

theorem State.KeepsTables.refl (s : State) : s.KeepsTables s := ⟨rfl, rfl, rfl, rfl, rfl⟩

theorem State.KeepsTables.trans {s t u : State} (h : s.KeepsTables t) (k : t.KeepsTables u) : s.KeepsTables u :=
  ⟨k.roster.trans h.roster, k.locks.trans h.locks, k.cycle.trans h.cycle, k.position.trans h.position,
    k.snc.trans h.snc⟩

theorem State.OnlyRequests.keepsTables {s t : State} (h : s.OnlyRequests t) : s.KeepsTables t :=
  ⟨h.tables.roster, h.locks, by rw [h.tables.rosterTables.slots], by rw [h.tables.rosterTables.slots],
    by rw [h.tables.rosterTables.ctrl]⟩

theorem State.TableLaw.keep {s t : State} (h : s.TableLaw) (k : s.KeepsTables t) : t.TableLaw :=
  h.congr k.locks k.cycle k.roster

/-- The same cycle number and position follow where the tables are kept (R46). -/
theorem State.KeepsTables.nextPosition {s t : State} (k : s.KeepsTables t) :
    s.nextPosition.KeepsTables t.nextPosition := by
  unfold State.nextPosition State.inLastSlot
  rw [k.position, k.snc, k.cycle]
  split
  · exact ⟨k.roster, k.locks, rfl, rfl, k.snc⟩
  · exact ⟨k.roster, k.locks, k.cycle, rfl, k.snc⟩

namespace KeepsTables

variable (s : State)

theorem elapse (n : Nat) : s.KeepsTables (s.elapse n) := by
  by_cases hr : s.receiving = true
  · obtain ⟨_, _, _, _, _, _, e⟩ := s.advanceOwn_frame n
    rw [State.elapse_eq s hr, e]; exact ⟨rfl, rfl, rfl, rfl, rfl⟩
  · rw [State.elapse_off s (by simpa using hr)]; exact .refl s

theorem takeCell (p1 v p3 : Bool) (dominant : Nat) : s.KeepsTables (s.takeCell p1 v p3 dominant) := by
  unfold State.takeCell
  dsimp only
  split
  · exact ⟨rfl, rfl, rfl, rfl, rfl⟩
  · exact ⟨rfl, rfl, rfl, rfl, rfl⟩

theorem goOffLine (st : StationState) : s.KeepsTables (s.goOffLine st) := ⟨rfl, rfl, rfl, rfl, rfl⟩

/-- A halted station keeps its tables, though none of them is valid (R53, R87). -/
theorem halt (f : FaultSet) : s.KeepsTables (s.halt f) :=
  (goOffLine s .halted).trans ((Touches.raise (s.goOffLine .halted) _).trans (Touches.endAll _ _)).keepsTables

@[inherit_doc halt]
theorem stop : s.KeepsTables s.stop := (Touches.endAll s .left).keepsTables.trans (goOffLine _ _)

theorem settleOwnFrame (c : SlotContent) : s.KeepsTables (s.settleOwnFrame c) := by
  obtain ⟨ctrl, slots, roster, locks, -, -, -⟩ := s.settleOwnFrame_keeps c
  exact ⟨roster, locks, by rw [slots], by rw [slots], by rw [ctrl]⟩

theorem completeRecovery : s.KeepsTables s.completeRecovery := by
  unfold State.completeRecovery
  split
  · have h1 : s.KeepsTables s.becomeActive := ⟨rfl, rfl, rfl, rfl, rfl⟩
    exact h1.trans ((Touches.reconcile _).trans (Touches.raise _ _)).keepsTables
  · exact .refl s

theorem countOrphan (b : Bool) : s.KeepsTables (s.countOrphan b) := by
  obtain ⟨st, n, e⟩ := s.countOrphan_eq b
  rw [e]
  exact ⟨rfl, rfl, rfl, rfl, rfl⟩

theorem evaluateVote : s.KeepsTables s.evaluateVote := by
  unfold State.evaluateVote
  split
  · exact ⟨rfl, rfl, rfl, rfl, rfl⟩
  · have h1 : s.KeepsTables s.clearVote := ⟨rfl, rfl, rfl, rfl, rfl⟩
    exact h1.trans (Touches.settleDoubtful _).keepsTables

theorem slotStart : s.KeepsTables s.slotStart := by
  have h1 : s.KeepsTables s.slotOpened := ⟨rfl, rfl, rfl, rfl, rfl⟩
  rw [State.slotStart_eq]
  split
  · refine h1.trans ?_
    rcases s.slotOpened.buildOwnFrame_cases with ⟨-, e⟩ | ⟨-, f, c, -, -, -, -, e⟩ | ⟨st, -, -, e⟩
    · rw [e]; exact .refl _
    · rw [e]; exact (Touches.draw _).keepsTables.trans ⟨rfl, rfl, rfl, rfl, rfl⟩
    · rw [e]; exact ⟨rfl, rfl, rfl, rfl, rfl⟩
  · exact h1

theorem deliver : s.KeepsTables s.deliver := by
  rcases s.deliver_eq with e | ⟨sr, -, -, e⟩
  · rw [e]; exact ⟨rfl, rfl, rfl, rfl, rfl⟩
  · rw [e]; exact (Touches.removeHead s sr).keepsTables.trans ⟨rfl, rfl, rfl, rfl, rfl⟩

end KeepsTables

/-! ### Founding -/

/-- The founding effects before their requests and notices: roster of the founder, empty table, every page valid, ACTIVE
(R102). -/
def State.foundedTables (s : State) (f : Frame) : State :=
  (({ s with roster := foundRoster f.sender, slots.cycle := f.cycle } : State).clearTable.setInstalled
    allPages).becomeActive

theorem State.found_touches (s : State) (f : Frame) : (s.foundedTables f).OnlyRequests (s.found f) := by
  have raiseIf : ∀ (t : State) (b : Bool) (n : NoticeBody), t.OnlyRequests (if b then t.raise n else t) := by
    intro t b n
    split
    · exact Touches.raise t n
    · exact .refl t
  have h1 := (raiseIf (s.foundedTables f) (s.isActive && s.rosterChanges (foundRoster f.sender)) .roster).trans
    ((raiseIf _ (s.isActive || decide (0 < s.liveCount)) .tableLost).trans (Touches.foundHandling _))
  unfold State.found
  dsimp only
  split
  · exact h1
  · exact h1.trans (Touches.raise _ _)

/-- The founding effects leave every record empty (R10, R102). -/
theorem State.lock_found (s : State) (f : Frame) (l : LockNo) : (s.found f).lock l = .empty := by
  rw [State.lock_congr (s.found_touches f).locks]
  exact State.lock_clearTable { s with roster := foundRoster f.sender, slots.cycle := f.cycle } l

theorem State.installed_found (s : State) (f : Frame) : (s.found f).repl.installed = allPages := by
  rw [(s.found_touches f).tables.rosterTables.repl]; rfl

/-! ### The end of a slot at an ACTIVE station -/

theorem rosterValid_of_all {s : State} (all : s.repl.installed = allPages) : s.rosterValid = true := by
  simp [State.rosterValid, State.pageInstalled, all, allPages]

/-- The sender of an ACTIVE frame is ACTIVE with miss count 0 in a valid roster (R74). -/
theorem State.rosterFrame_active (s : State) (k : StationNo) :
    s.rosterFrame k .active = if s.rosterValid then s.putRoster k ⟨.active, 0⟩ else s := rfl

/-- An ACTIVE station counts the vote of an ACTIVE frame and takes no page from it (R90, R93). -/
theorem State.beforeRoster_active {s : State} (hs : s.ctrl.state = .active) (f : Frame) :
    ∃ a d, (s.returnToSyncing.countVote f).takePage f.page = { s with repl.agree := a, repl.disagree := d } := by
  have e1 : s.returnToSyncing = s := by unfold State.returnToSyncing State.inState; rw [hs]; rfl
  obtain ⟨a, d, e2⟩ := s.countVote_eq f
  refine ⟨a, d, ?_⟩
  rw [e1, e2]
  unfold State.takePage State.inState
  simp [hs]

/-- The sender of an ACTIVE frame is in the roster before its operations bring it into the table (R21, R74). -/
theorem State.TableLaw.activeFrame {s : State} (h : s.TableLaw) (all : s.repl.installed = allPages) (k : StationNo)
    (ops : List Operation) : ((s.rosterFrame k .active).applyOperations k ops).TableLaw := by
  rw [State.rosterFrame_active, if_pos (rosterValid_of_all all)]
  refine (h.putRoster k _ (by decide)).applyOperations ?_ ops
  rw [State.rosterEntry_putRoster, if_pos rfl]
  decide

/-- The work that a slot's content calls for at an ACTIVE station keeps the law, and every page valid: participants join
the table with their sender in the roster, and who leaves the roster is purged (R9, R21, R74 to R80). -/
theorem State.TableLaw.handFrame {s : State} (h : s.TableLaw) (hs : s.ctrl.state = .active)
    (all : s.repl.installed = allPages) (f : Frame) :
    (s.handFrame f).TableLaw ∧ (s.handFrame f).repl.installed = allPages := by
  have framed : ∀ st, (s.rosterFrame f.sender st).TableLaw ∧ (s.rosterFrame f.sender st).repl.installed = allPages :=
    fun st => ⟨h.rosterFrame all _ _, by rw [(Touches.rosterFrame _ _ _).repl, all]⟩
  unfold State.handFrame
  split
  case h_1 =>
    obtain ⟨a, d, e⟩ := State.beforeRoster_active hs f
    have hu : State.TableLaw { s with repl.agree := a, repl.disagree := d } := h.congr rfl rfl rfl
    rw [e]
    refine ⟨hu.activeFrame all _ _, ?_⟩
    rw [(Touches.applyOperations _ _ _).rosterTables.repl, (Touches.rosterFrame _ _ _).repl]
    exact all
  case h_5 => exact ⟨.ofEmpty (s.lock_found f), s.installed_found f⟩
  all_goals exact framed _

@[inherit_doc State.TableLaw.handFrame]
theorem State.TableLaw.slotWork {s : State} (h : s.TableLaw) (hs : s.ctrl.state = .active)
    (all : s.repl.installed = allPages) (c : SlotContent) :
    (s.slotWork c).TableLaw ∧ (s.slotWork c).repl.installed = allPages := by
  cases c with
  | silent =>
    have T := Touches.rosterSilence s s.slots.position
    exact ⟨h.rosterSilence all _, (congrArg Replication.installed T.repl).trans all⟩
  | garbled =>
    have T := Touches.rosterActivity s s.slots.position
    have he : s.slotWork .garbled = s.rosterActivity s.slots.position := by
      simp only [State.slotWork, State.isRecovering, State.inState, T.ctrl, hs]
      rfl
    rw [he, T.repl]
    exact ⟨h.rosterActivity _, all⟩
  | alien =>
    have T := Touches.rosterActivity (s.raise (.fault .alien)) s.slots.position
    exact ⟨(h.requests (Touches.raise s _)).rosterActivity _, (congrArg Replication.installed T.repl).trans all⟩
  | valid f => exact h.handFrame hs all f

/-- The expiries of a slot end and the move to the next slot keep the law: what has not expired at the end of a cycle has
not run past its limit in the next (R31, R46). -/
theorem State.TableLaw.cycleEnd {s : State} (h : s.TableLaw) (all : s.repl.installed = allPages) :
    s.cycleEndWork.nextPosition.TableLaw := by
  have T := (Touches.expireAll s).rosterTables
  unfold State.cycleEndWork State.nextPosition
  by_cases hl : s.inLastSlot = true
  · have hl' : s.expireAll.inLastSlot = true := by unfold State.inLastSlot; rw [T.slots, T.ctrl]; exact hl
    rw [if_pos hl, if_pos hl']
    exact (h.nextCycle all).congr rfl rfl rfl
  · rw [if_neg hl, if_neg hl]
    exact h.congr rfl rfl rfl

/-- The law depends on what KeepsTables names, through the start of the next slot as well. -/
theorem State.TableLaw.nextSlot {s t : State} (h : s.nextPosition.TableLaw) (k : s.KeepsTables t) : t.nextSlot.TableLaw :=
  (h.keep k.nextPosition).keep (KeepsTables.slotStart _)

/-- A slot end at an ACTIVE station keeps the law, whatever the slot brought. -/
theorem State.TableLaw.slotEnd {s : State} (h : s.TableLaw) (hs : s.ctrl.state = .active)
    (all : s.repl.installed = allPages) (c : SlotContent) : (s.slotEnd c).TableLaw := by
  have keepIf : ∀ {t u v : State} (b : Bool), t.KeepsTables u → t.KeepsTables v → t.KeepsTables (if b then u else v) := by
    intro t u v b hu hv
    split
    · exact hu
    · exact hv
  unfold State.slotEnd
  split
  · exact h.keep (KeepsTables.stop s)
  · obtain ⟨ctrl, -, -, -, installed, -, -⟩ := s.settleOwnFrame_keeps c
    obtain ⟨hw, hall⟩ := (h.keep (KeepsTables.settleOwnFrame s c)).slotWork (by rw [ctrl, hs]) (installed.trans all) c
    have k1 := KeepsTables.completeRecovery ((s.settleOwnFrame c).slotWork c).cycleEndWork
    have k2 := keepIf (s.inState .syncing) (k1.trans (KeepsTables.countOrphan _ c.heardActive)) k1
    exact (hw.cycleEnd hall).nextSlot (keepIf _ (k2.trans (KeepsTables.evaluateVote _)) k2)

/-! ### Host commands -/

/-- The command keeps the law of the table at an ACTIVE station. -/
def Command.KeepsTableLaw (c : Command) : Prop := ∀ u : State, u.ctrl.state = .active → u.TableLaw → (c u).1.TableLaw

theorem Command.keepsTableLaw_of_requests {c : Command} (hc : ∀ u : State, u.OnlyRequests (c u).1) : c.KeepsTableLaw :=
  fun u _ h => h.requests (hc u)

namespace Touches

variable (s : State)

theorem acquire (lock modeTry : Byte) (limit : Word16) : s.OnlyRequests (State.acquire lock modeTry limit s).1 := by
  unfold State.acquire
  repeat' split
  all_goals rfl

theorem releaseTag (t : Tag) : s.OnlyRequests (s.releaseTag t).1 := by
  unfold State.releaseTag
  split <;> rfl

theorem release (tag : Byte) : s.OnlyRequests (State.release tag s).1 := by
  unfold State.release
  repeat' split
  · rfl
  · rfl
  · exact releaseTag s _

theorem downgradeTag (tag : Byte) : s.OnlyRequests (State.downgradeTag tag s).1 := by
  unfold State.downgradeTag
  repeat' split
  all_goals rfl

theorem renewTag (tag : Byte) : s.OnlyRequests (State.renewTag tag s).1 := by
  unfold State.renewTag
  repeat' split
  all_goals rfl

theorem queryTag (tag : Byte) : s.OnlyRequests (State.queryTag tag s).1 := by
  unfold State.queryTag
  repeat' split
  all_goals rfl

theorem queryLock (lock : Byte) : s.OnlyRequests (State.queryLock lock s).1 := by
  unfold State.queryLock
  repeat' split
  all_goals rfl

theorem queryRoster : s.OnlyRequests (State.queryRoster s).1 := by
  unfold State.queryRoster
  split <;> rfl

theorem fetchNotice : s.OnlyRequests (State.fetchNotice s).1 := by
  unfold State.fetchNotice
  split <;> rfl

end Touches

/-- START and CONFIGURE are refused at an ACTIVE station (R147). -/
theorem Command.startStation_keepsTableLaw : Command.KeepsTableLaw State.startStation := by
  intro u hu h
  have he : State.startStation u = (u, .no .state) := by simp [State.startStation, State.inState, hu]
  rw [he]
  exact h

@[inherit_doc Command.startStation_keepsTableLaw]
theorem Command.configure_keepsTableLaw (d t f : Byte) : Command.KeepsTableLaw (State.configure d t f) := by
  intro u hu h
  have he : State.configure d t f u = (u, .no .state) := by simp [State.configure, State.inState, hu]
  rw [he]
  exact h

/-- LEAVE sets leave pending at an ACTIVE station (R157). -/
theorem Command.leaveLine_keepsTableLaw : Command.KeepsTableLaw State.leaveLine := by
  intro u hu h
  have he : State.leaveLine u = ({ u with ctrl.leavePending := true }, .ok []) := by simp [State.leaveLine, hu]
  rw [he]
  exact h.congr rfl rfl rfl

/-- Either reset leaves every record empty (R17). -/
theorem State.TableLaw.afterReset (sid snc : Fin 16) (port : HostPort) (pending : List Instr) :
    (State.afterReset sid snc port pending).TableLaw :=
  .ofEmpty fun l => by simp [State.lock, State.afterReset]

theorem State.TableLaw.endComplete {s : State} (h : s.TableLaw) (hs : s.ctrl.state = .active) {c : Command}
    (hc : c.KeepsTableLaw) (code : Byte) (n : Nat) : (s.endComplete code n c).TableLaw := by
  unfold State.endComplete
  split
  · exact h.congr rfl rfl rfl
  · have h1 : (s.shiftOut n).TableLaw := h.congr rfl rfl rfl
    have hstate : (s.shiftOut n).deliver.ctrl.state = .active := (congrArg _ (s.afterDelivery_ctrl n)).trans hs
    exact (hc _ hstate (h1.keep (KeepsTables.deliver _))).congr rfl rfl rfl

/-! ### Every step -/

/-- A row that ends an exchange keeps the law at an ACTIVE station. -/
theorem exchangeRow_keepsTableLaw {i : Instr} (hi : endsExchange i = true) {s : State} (h : s.TableLaw)
    (hs : s.ctrl.state = .active) : ∃ t, exec i s = .next t ∧ t.TableLaw := by
  have requests : ∀ {c : Command}, (∀ u : State, u.OnlyRequests (c u).1) → ∀ code n, (s.endComplete code n c).TableLaw :=
    fun hc code n => h.endComplete hs (Command.keepsTableLaw_of_requests hc) code n
  cases i <;> simp only [endsExchange, Bool.false_eq_true] at hi
  case nop => exact ⟨_, rfl, requests State.OnlyRequests.refl _ _⟩
  case status => exact ⟨_, rfl, requests State.OnlyRequests.refl _ _⟩
  case configure => exact ⟨_, rfl, h.endComplete hs (Command.configure_keepsTableLaw _ _ _) _ _⟩
  case start => exact ⟨_, rfl, h.endComplete hs Command.startStation_keepsTableLaw _ _⟩
  case leave => exact ⟨_, rfl, h.endComplete hs Command.leaveLine_keepsTableLaw _ _⟩
  case resetStation => exact ⟨_, rfl, h.endComplete hs (fun _ _ _ => .afterReset _ _ _ _) _ _⟩
  case acquire => exact ⟨_, rfl, requests (fun u => Touches.acquire u _ _ _) _ _⟩
  case release => exact ⟨_, rfl, requests (fun u => Touches.release u _) _ _⟩
  case downgrade => exact ⟨_, rfl, requests (fun u => Touches.downgradeTag u _) _ _⟩
  case renew => exact ⟨_, rfl, requests (fun u => Touches.renewTag u _) _ _⟩
  case queryTag => exact ⟨_, rfl, requests (fun u => Touches.queryTag u _) _ _⟩
  case fetch => exact ⟨_, rfl, requests Touches.fetchNotice _ _⟩
  case queryLock => exact ⟨_, rfl, requests (fun u => Touches.queryLock u _) _ _⟩
  case queryRoster => exact ⟨_, rfl, requests Touches.queryRoster _ _⟩
  case unknownCommand => exact ⟨_, rfl, requests State.OnlyRequests.refl _ _⟩
  case truncatedExchange code whole =>
    refine ⟨_, rfl, ?_⟩
    split
    · exact h.congr rfl rfl rfl
    · have h1 : (s.shiftOut whole).TableLaw := h.congr rfl rfl rfl
      exact (h1.keep (KeepsTables.deliver _)).congr rfl rfl rfl
  case emptyExchange => exact ⟨_, rfl, h.congr rfl rfl rfl⟩

/-- A row of the line or of a timer, EXCHANGE_START and PIN_RESET keep the law at an ACTIVE station. -/
theorem lineRow_keepsTableLaw {i : Instr} (hi : endsExchange i = false) {s : State} (h : s.TableLaw)
    (hs : s.ctrl.state = .active) (all : s.repl.installed = allPages) : ∃ t, exec i s = .next t ∧ t.TableLaw := by
  have keepIf : ∀ {t : State} (b : Bool), t.TableLaw → (if b then t else s).TableLaw := by
    intro t b ht
    split
    · exact ht
    · exact h
  cases i <;> simp only [endsExchange, Bool.true_eq_false] at hi
  case pinReset => exact ⟨_, rfl, .afterReset _ _ _ _⟩
  case exchangeStart => exact ⟨_, rfl, h.congr rfl rfl rfl⟩
  case listeningWindowExpiry => exact ⟨_, rfl, keepIf _ (h.congr rfl rfl rfl)⟩
  case transmitGapExpiry =>
    refine ⟨_, rfl, keepIf _ ?_⟩
    dsimp only
    split <;> exact h.congr rfl rfl rfl
  case transmissionEnd =>
    refine ⟨_, rfl, keepIf _ ?_⟩
    dsimp only
    split <;> exact h.congr rfl rfl rfl
  case readbackMismatch => exact ⟨_, rfl, keepIf _ (h.keep (KeepsTables.halt s _))⟩
  case arbitrationLoss => exact ⟨_, rfl, keepIf _ (h.congr rfl rfl rfl)⟩
  case silentSlotEnd => exact ⟨_, rfl, keepIf _ (h.slotEnd hs all _)⟩
  case frameSlotEnd =>
    have h1 : s.endReception.TableLaw := h.congr rfl rfl rfl
    exact ⟨_, rfl, keepIf _ (h1.slotEnd hs all _)⟩
  case listeningReceptionEnd =>
    -- an ACTIVE station is not LISTENING
    refine ⟨s, ?_, h⟩
    show execListeningReceptionEnd s = _
    simp [execListeningReceptionEnd, State.inState, hs]
  case leaseExpiry =>
    refine ⟨_, rfl, keepIf _ ?_⟩
    unfold State.cycleEndWork
    exact keepIf _ h.expireAll
  case drop => exact ⟨_, rfl, keepIf _ (h.dropStation all _)⟩
  case enterFounding =>
    refine ⟨_, rfl, ?_⟩
    split
    · exact h
    · obtain ⟨st, e⟩ := s.foundIfOrphaned_eq
      rw [e]
      exact h.congr rfl rfl rfl
  case cellStart =>
    exact ⟨_, rfl, keepIf _ ((h.keep (KeepsTables.elapse s _)).keep (KeepsTables.takeCell _ _ _ _ _))⟩

/-- Settles O59: every row keeps the law at an ACTIVE station. Only slot ends, resets and the rows of their works write to
roster or records, and each of those keeps the law record by record; all else keeps the tables as they are. -/
theorem tablesStayLawful : Obligations.TablesStayLawful := by
  intro s t hst hs h hstep
  have all := hst.activePages hs
  unfold step at hstep
  split at hstep
  · obtain rfl := Host.Outcome.next.inj hstep
    exact h.keep (KeepsTables.elapse s 1)
  · rename_i i rest _
    have h1 : State.TableLaw { s with pending := rest } := h.congr rfl rfl rfl
    obtain ⟨u, he, hu⟩ : ∃ u, exec i { s with pending := rest } = .next u ∧ u.TableLaw := by
      cases hi : endsExchange i with
      | true => exact exchangeRow_keepsTableLaw hi h1 hs
      | false => exact lineRow_keepsTableLaw hi h1 hs all
    obtain rfl := Host.Outcome.next.inj (he.symm.trans hstep)
    exact hu

/-! ### The bytes of a record -/

theorem hiByte_eq_ofNat (w : Word16) : hiByte w = BitVec.ofNat 8 (w.toNat / 256) := by
  rw [← Nat.shiftRight_eq_div_pow w.toNat 8]; rfl

theorem loByte_eq_ofNat (w : Word16) : loByte w = BitVec.ofNat 8 w.toNat := rfl

theorem cycleBytes_eq_ofNat (c : CycleNo) :
    cycleBytes c = [BitVec.ofNat 8 (c.toNat / 65536), BitVec.ofNat 8 (c.toNat / 256), BitVec.ofNat 8 c.toNat] := by
  rw [← Nat.shiftRight_eq_div_pow c.toNat 16, ← Nat.shiftRight_eq_div_pow c.toNat 8]; rfl

theorem limitBytes_eq_ofNat (lim : Limit) :
    limitBytes lim = [BitVec.ofNat 8 (lim.toNat / 256), BitVec.ofNat 8 lim.toNat] := by
  have hw : (lim.setWidth 16).toNat = lim.toNat := BitVec.toNat_setWidth_of_le (by decide)
  rw [limitBytes, hiByte_eq_ofNat, loByte_eq_ofNat, hw]

theorem participantHead_holder (k : StationNo) (m : Mode) :
    participantHead k 0 m = BitVec.ofNat 8 (16 * k.val + if m = .shared then 4 else 0) := by
  cases m <;> rfl

theorem participantHead_waiter (k : StationNo) (m : Mode) :
    participantHead k 1 m = BitVec.ofNat 8 (16 * k.val + 8 + if m = .shared then 4 else 0) := by
  cases m <;> rfl

/-- The eight bytes of a holder (Table 11-6). -/
theorem holder_toBytes (h : Holder) :
    (Participant.holder h).toBytes
      = [BitVec.ofNat 8 (16 * h.station.val + if h.mode = .shared then 4 else 0),
          BitVec.ofNat 8 (h.leaseStart.toNat / 65536), BitVec.ofNat 8 (h.leaseStart.toNat / 256),
          BitVec.ofNat 8 h.leaseStart.toNat, BitVec.ofNat 8 (h.limit.toNat / 256), BitVec.ofNat 8 h.limit.toNat,
          BitVec.ofNat 8 (h.token.toNat / 256), BitVec.ofNat 8 h.token.toNat] := by
  rw [Participant.toBytes, participantHead_holder, cycleBytes_eq_ofNat, limitBytes_eq_ofNat, hiByte_eq_ofNat,
    loByte_eq_ofNat]
  rfl

/-- The eight bytes of a waiter, lease start and token 0 (R11, Table 11-6). -/
theorem waiter_toBytes (w : Waiter) :
    (Participant.waiter w).toBytes
      = [BitVec.ofNat 8 (16 * w.station.val + 8 + if w.mode = .shared then 4 else 0), 0, 0, 0,
          BitVec.ofNat 8 (w.limit.toNat / 256), BitVec.ofNat 8 w.limit.toNat, 0, 0] := by
  rw [Participant.toBytes, participantHead_waiter, limitBytes_eq_ofNat]
  rfl

/-- A record in Table 11-5's layout: generation, count, holders in grant order, waiters in queue order (R11). -/
theorem LockRecord.toBytes_eq (r : LockRecord) :
    r.toBytes
      = [BitVec.ofNat 8 (r.generation.toNat / 256), BitVec.ofNat 8 r.generation.toNat,
          BitVec.ofNat 8 (r.holders.length + r.waiters.length)]
        ++ (r.holders.flatMap fun h => (Participant.holder h).toBytes)
        ++ (r.waiters.flatMap fun w => (Participant.waiter w).toBytes) := by
  rw [LockRecord.toBytes, hiByte_eq_ofNat, loByte_eq_ofNat, r.participants_length, LockRecord.participants,
    List.flatMap_append, List.flatMap_map, List.flatMap_map]
  rfl

/-! ### QUERY_LOCK -/

/-- The row answers with what the command says of the station after the delivery, and changes nothing else. -/
theorem exec_queryLock {s : State} (hp : s.port.phase = .exchange) (b : Byte) (extra : Nat) {r : Reply}
    (hc : State.queryLock b (s.afterDelivery (2 + extra)) = (s.afterDelivery (2 + extra), r)) :
    exec (.queryLock b extra) s = .next ((s.afterDelivery (2 + extra)).answered 0x30 r.result r.payload) := by
  refine (State.exchange_eq hp codeQueryLock extra (State.queryLock b)).trans ?_
  rw [show wholeBytes codeQueryLock extra = 2 + extra from rfl, hc]
  rfl

/-- Settles O17: the payload is Table 11-5's layout of the record, and that layout reads back. -/
theorem queryLockReturnsTheRecord : Obligations.QueryLockReturnsTheRecord := by
  intro b extra s hp
  refine ⟨fun hs => ?_, fun hs hb => ?_, fun l hs hb byte hbyte => ?_⟩
  · refine exec_queryLock hp b extra (r := .no .state) ?_
    simp [State.queryLock, State.isActive, hs]
  · refine exec_queryLock hp b extra (r := .no .range) ?_
    simp [State.queryLock, State.isActive, hs, lockOfByte_none hb]
  · refine ⟨(s.lock l).toBytes, exec_queryLock hp b extra (r := .ok (s.lock l).toBytes) ?_, ?_, fun hn => ?_⟩
    · simp [State.queryLock, State.isActive, hs, lockOfByte_eq hb, State.lock]
    · subst hbyte
      simp only [LockRecord.toBytes_eq, holder_toBytes, waiter_toBytes]
    · rw [← List.append_nil (s.lock l).toBytes]
      exact readRecord_toBytes (by rw [LockRecord.participants_length]; exact hn) []

/-! ### Pages -/

theorem State.takePage_roster {s : State} (hs : s.ctrl.state = .syncing) (es : List RosterEntry) :
    s.takePage (some (.roster es)) = (s.installRoster es).addInstalled 0 := by
  simp [State.takePage, State.inState, hs, State.installPage]

theorem State.takePage_locks {s : State} (hs : s.ctrl.state = .syncing) (hv : s.rosterValid = true) (k : Fin 8)
    (rs : List LockRecord) : s.takePage (some (.locks k rs)) = (s.installLocks k rs).addInstalled (k.val + 1) := by
  simp [State.takePage, State.inState, hs, State.installPage, hv]

/-- A lock page is ignored before page 0 (R93). -/
theorem State.takePage_locks_early {s : State} (hv : s.rosterValid = false) (k : Fin 8) (rs : List LockRecord) :
    s.takePage (some (.locks k rs)) = s := by
  simp [State.takePage, State.installPage, hv]

theorem State.takePage_none (s : State) : s.takePage none = s := by
  simp [State.takePage]

/-- No page is taken outside SYNCING (R93). -/
theorem State.takePage_of_ne {s : State} (hs : s.ctrl.state ≠ .syncing) (page : Option Page) : s.takePage page = s := by
  simp [State.takePage, State.inState, hs]

/-- A page install neither reads nor writes the Line Interface and the orphan counter. -/
theorem State.takePage_beside (s : State) (page : Option Page) (line : LineInterface) (n : Nat) :
    State.takePage { s with line := line, repl.orphan := n } page
      = { s.takePage page with line := line, repl.orphan := n } := by
  have hpage : ∀ p, State.installPage { s with line := line, repl.orphan := n } p
      = { s.installPage p with line := line, repl.orphan := n } := by
    intro p
    cases p with
    | roster es => rfl
    | locks k rs =>
      cases hv : s.rosterValid with
      | true =>
        have hv' : State.rosterValid { s with line := line, repl.orphan := n } = true := hv
        unfold State.installPage; simp only [hv, hv', if_true]; rfl
      | false =>
        have hv' : State.rosterValid { s with line := line, repl.orphan := n } = false := hv
        unfold State.installPage; simp only [hv, hv', Bool.false_eq_true, if_false]
  by_cases hs : s.ctrl.state = .syncing
  · cases page with
    | none => simp only [State.takePage_none]
    | some p =>
      unfold State.takePage State.inState
      simp only [hs, beq_self_eq_true, if_true, hpage]
  · rw [State.takePage_of_ne hs, State.takePage_of_ne (s := { s with line := line, repl.orphan := n }) hs]

/-! ### Operations of a frame -/

theorem lockOfByte_eq_some_iff {b : Byte} {l : LockNo} : lockOfByte b = some l ↔ b.toNat = l.val := by
  refine ⟨fun h => ?_, lockOfByte_eq⟩
  unfold lockOfByte at h
  split at h
  · rw [← Option.some.inj h]
  · exact absurd h (by simp)

/-- Which records are valid depends on the installed-page set (R12, R13). -/
theorem State.lockValid_congr {s u : State} (h : u.repl = s.repl) (l : LockNo) : u.lockValid l = s.lockValid l := by
  rw [State.lockValid, State.pageInstalled, h]; rfl

/-- The operations of a frame at the records of installed pages, and at no other (R13, R21). -/
theorem State.lock_applyOperations (s : State) (k : StationNo) (ops : List Operation) (l : LockNo) :
    (s.applyOperations k ops).lock l
      = if s.lockValid l then (s.lock l).appliedAll s.slots.cycle k l ops else s.lock l := by
  induction ops generalizing s with
  | nil => exact (ite_self _).symm
  | cons o ops ih =>
    have T := (Touches.applyOperation s k o).rosterTables
    have h1 := ih (s.applyOperation k o)
    rw [State.lockValid_congr T.repl, T.slots, State.lock_applyOperation] at h1
    simp only [lockOfByte_eq_some_iff] at h1
    refine Eq.trans h1 ?_
    by_cases hl : s.lockValid l = true
    · by_cases ho : o.lock.toNat = l.val <;> simp [hl, ho, LockRecord.appliedAll]
    · simp [hl]

/-! ### The works of an ACTIVE frame at a station in recovery -/

/-- What an ACTIVE frame and the end of its slot do once its page is taken: sender, operations and expiries (R21, R32). -/
def State.frameWork (s : State) (f : Frame) : State :=
  ((s.rosterFrame f.sender .active).applyOperations f.sender f.ops).cycleEndWork

theorem State.frameWork_touches (s : State) (f : Frame) : s.OnlyRosterTables (s.frameWork f) :=
  (Touches.rosterFrame s _ _).trans
    ((Touches.applyOperations _ _ _).trans (Touches.cycleEndWork _)).rosterTables

theorem State.rosterFrame_active_of_off {s : State} (hoff : s.isActive = false) (k : StationNo) :
    s.rosterFrame k .active = if s.rosterValid then s.setRosterEntry k ⟨.active, 0⟩ else s := by
  rw [State.rosterFrame_active, State.putRoster_unreported hoff]

/-- No notice and no report at a station that is not ACTIVE (R16). -/
theorem State.frameWork_unreported {s : State} (hoff : s.isActive = false) (f : Frame) :
    (s.frameWork f).req = s.req ∧ (s.frameWork f).notices = s.notices := by
  have hr : (s.rosterFrame f.sender .active).isActive = false := by
    rw [State.isActive, (Touches.rosterFrame s _ _).ctrl]; exact hoff
  have ha : ((s.rosterFrame f.sender .active).applyOperations f.sender f.ops).isActive = false := by
    rw [State.isActive, (Touches.applyOperations _ _ _).rosterTables.ctrl]; exact hr
  have hroster : (s.rosterFrame f.sender .active).req = s.req ∧ (s.rosterFrame f.sender .active).notices = s.notices := by
    rw [State.rosterFrame_active_of_off hoff]
    split <;> exact ⟨rfl, rfl⟩
  have hops := State.applyOperations_unreported hr f.sender f.ops
  have hend := State.cycleEndWork_unreported ha
  exact ⟨hend.1.trans (hops.1.trans hroster.1), hend.2.trans (hops.2.trans hroster.2)⟩

theorem State.rosterEntry_frameWork {s : State} (hoff : s.isActive = false) (f : Frame) (j : StationNo) :
    (s.frameWork f).rosterEntry j
      = if s.pageInstalled 0 ∧ j = f.sender then ⟨.active, 0⟩ else s.rosterEntry j := by
  have T := (Touches.applyOperations (s.rosterFrame f.sender .active) f.sender f.ops).trans (Touches.cycleEndWork _)
  refine (State.rosterEntry_congr T.roster j).trans ?_
  rw [State.rosterFrame_active_of_off hoff, State.rosterValid]
  cases s.pageInstalled 0 <;> simp

theorem State.lock_frameWork {s : State} (hoff : s.isActive = false) (f : Frame) (l : LockNo) :
    (s.frameWork f).lock l
      = if s.lockValid l then s.endingCycle ((s.lock l).appliedAll s.slots.cycle f.sender l f.ops) else s.lock l := by
  have R := Touches.rosterFrame s f.sender .active
  have T := R.trans (Touches.applyOperations _ f.sender f.ops).rosterTables
  have hlocks : (s.rosterFrame f.sender .active).lock l = s.lock l := by
    rw [State.rosterFrame_active_of_off hoff]
    split <;> rfl
  rw [State.frameWork, State.lock_cycleEndWork_valid, State.endingCycle_congr T.ctrl T.slots,
    State.lock_applyOperations, hlocks, R.slots, State.lockValid_congr T.repl, State.lockValid_congr R.repl]
  by_cases hl : s.lockValid l = true
  · simp only [if_pos hl]
  · simp only [if_neg hl]

/-! ### The slot end -/

/-- A format-checked frame of this slot, with the line's slot count and cycle number, is valid (R64, R66). -/
theorem State.classify_valid {s : State} {f : Frame} (hown : s.line.own = none) (hrx : s.line.rx.frame = some f)
    (hsender : f.sender = s.slots.position) (hcount : f.slotCount = s.ctrl.snc) (hcycle : f.cycle = s.slots.cycle) :
    s.classify = .valid f := by
  have hunsent : s.ownUnsent = false := by unfold State.ownUnsent; rw [hown]
  have hfits : s.alienFrame f = false := by unfold State.alienFrame; simp [hsender, hcount, hcycle]
  unfold State.classify
  simp [hunsent, hrx, hfits]

/-- The orphan counter of a heard ACTIVE frame is cleared whether or not recovery is completed before it (R96, R97). -/
theorem State.countOrphan_completeRecovery {w : State} (hw : w.ctrl.state = .syncing) :
    w.completeRecovery.countOrphan true = (w.setOrphan 0).completeRecovery := by
  have hs : w.inState .syncing = true := by simp [State.inState, hw]
  by_cases hall : w.repl.installed = allPages
  · have he : w.completeRecovery = w.becomeActive.reconcile.raise (.sync .active) := by
      unfold State.completeRecovery; simp [hs, hall]
    have he' : (w.setOrphan 0).completeRecovery = w.becomeActive.reconcile.raise (.sync .active) := by
      unfold State.completeRecovery
      rw [if_pos (by simp [State.inState, hw, hall])]
      rfl
    have hact : (w.becomeActive.reconcile.raise (.sync .active)).inState .syncing = false := by
      have T := ((Touches.reconcile w.becomeActive).trans (Touches.raise _ (.sync .active))).tables.rosterTables
      rw [State.inState, T.ctrl]; rfl
    rw [he, he', State.countOrphan, hact]
    rfl
  · have he : w.completeRecovery = w := by unfold State.completeRecovery; simp [hall]
    have he' : (w.setOrphan 0).completeRecovery = w.setOrphan 0 := by unfold State.completeRecovery; simp [hall]
    rw [he, he', State.countOrphan, if_pos hs, if_pos rfl]

/-- The end of another station's slot with a valid ACTIVE frame that leaves a station in recovery SYNCING: the orphan
counter is 0, and recovery is completed where all pages are then installed (R96 to R98). -/
theorem State.slotEnd_heardActive {s : State} {f : Frame} (hs : s.ctrl.state = .syncing ∨ s.ctrl.state = .founding)
    (hown : s.line.own = none) (hf : f.status = .active) (hp : s.slots.position ≠ s.ctrl.sid) {w : State}
    (hw : (s.slotWork (.valid f)).cycleEndWork = w) (hsync : w.ctrl.state = .syncing)
    (horphan : s.ctrl.state = .founding → w.repl.orphan = 0) :
    s.slotEnd (.valid f) = (w.setOrphan 0).completeRecovery.nextSlot := by
  have hleave : s.leavingSlot = false := by unfold State.leavingSlot; rw [hown]
  have hsettle : s.settleOwnFrame (.valid f) = s := by unfold State.settleOwnFrame; rw [hown]
  have hother : s.inOwnSlot = false := by simp [State.inOwnSlot, hp]
  have hheard : (SlotContent.valid f).heardActive = true := by simp [SlotContent.heardActive, hf]
  unfold State.slotEnd
  simp only [hleave, hsettle, hother, hheard, hw, Bool.false_and, Bool.false_eq_true, if_false]
  rcases hs with hs | hs
  · rw [if_pos (by simp [State.inState, hs]), State.countOrphan_completeRecovery hsync]
  · have hzero : w.setOrphan 0 = w := by rw [← horphan hs]; rfl
    rw [if_neg (by simp [State.inState, hs]), hzero]

/-- A station in recovery that hears an ACTIVE frame takes its page as a SYNCING station; a FOUNDING one starts with orphan
counter 0 (R93, R98). -/
theorem State.takePage_returnToSyncing {s : State} (hs : s.ctrl.state = .syncing ∨ s.ctrl.state = .founding)
    (page : Option Page) (line : LineInterface) :
    ∃ n, (s.ctrl.state = .founding → n = 0)
      ∧ State.takePage (State.returnToSyncing { s with line := line }) page
        = { State.takePage { s with ctrl.state := .syncing } page with line := line, repl.orphan := n } := by
  rcases hs with hs | hs
  · refine ⟨s.repl.orphan, by simp [hs], ?_⟩
    have hself : ({ s with ctrl.state := .syncing } : State) = s := by rw [← hs]
    have hret : State.returnToSyncing { s with line := line }
        = { s with line := line, repl.orphan := s.repl.orphan } := by
      simp [State.returnToSyncing, State.inState, hs]
    rw [hself, hret, State.takePage_beside]
  · refine ⟨0, fun _ => rfl, ?_⟩
    have hret : State.returnToSyncing { s with line := line }
        = { ({ s with ctrl.state := .syncing } : State) with line := line, repl.orphan := 0 } := by
      unfold State.returnToSyncing State.inState
      simp [hs, State.setStation, State.setOrphan]
    rw [hret, State.takePage_beside]

/-- No vote is counted at a station that holds no digest (R90). -/
theorem State.countVote_of_none {s : State} (hd : s.repl.digest = none) (f : Frame) : s.countVote f = s := by
  unfold State.countVote
  rw [hd]
  exact ite_self s

/-- FRAME_SLOT_END with another station's valid ACTIVE frame at a station in recovery: the page is taken by the SYNCING
station, then come the works of the frame, and the orphan counter is 0 (R44, R93, R97, R98). -/
theorem exec_frameSlotEnd_recovering {s : State} {f : Frame}
    (hs : s.ctrl.state = .syncing ∨ s.ctrl.state = .founding) (haligned : s.slots.aligned = true)
    (hphase : s.slots.phase = .inFrame) (hdigest : s.repl.digest = none) (hown : s.line.own = none)
    (hvalid : s.classify = .valid f) (hstatus : f.status = .active) (hother : s.slots.position ≠ s.ctrl.sid) :
    ∃ n, exec .frameSlotEnd s
      = .next ((State.frameWork { State.takePage { s with ctrl.state := .syncing } f.page with
          line := s.endReception.line, repl.orphan := n } f).setOrphan 0).completeRecovery.nextSlot := by
  obtain ⟨n, hn, hpage⟩ := State.takePage_returnToSyncing hs f.page s.endReception.line
  have hnone : s.endReception.returnToSyncing.repl.digest = none := by
    obtain ⟨st, m, e⟩ := s.endReception.returnToSyncing_eq
    rw [e]; exact hdigest
  have hwork : (s.endReception.slotWork (.valid f)).cycleEndWork
      = State.frameWork { State.takePage { s with ctrl.state := .syncing } f.page with
          line := s.endReception.line, repl.orphan := n } f := by
    rw [← hpage, State.frameWork, State.slotWork, State.handFrame, hstatus]
    dsimp only
    rw [State.countVote_of_none hnone]
    rfl
  have T := State.frameWork_touches { State.takePage { s with ctrl.state := .syncing } f.page with
    line := s.endReception.line, repl.orphan := n } f
  refine ⟨n, ?_⟩
  rw [exec_frameSlotEnd haligned hphase, hvalid]
  refine congrArg _ (State.slotEnd_heardActive (s := s.endReception) hs hown hstatus hother hwork ?_ fun hf => ?_)
  · obtain ⟨roster, locks, installed, e⟩ := State.takePage_eq { s with ctrl.state := .syncing } f.page
    rw [T.ctrl, e]
  · rw [T.repl]; exact hn hf

/-- Settles O48: the page alone by the equations of takePage; the whole slot end by exec_frameSlotEnd_recovering, with
what frameWork leaves read off at v, the station when the page is taken. -/
theorem pagesAreInstalledAfterPageZero : Obligations.PagesAreInstalledAfterPageZero := by
  intro s
  refine ⟨fun es hs => ?_, fun p rs hs hv => ?_, fun p rs hv => State.takePage_locks_early hv p rs,
    fun page hs => State.takePage_of_ne hs page, s.takePage_none, ?_⟩
  · rw [State.takePage_roster hs]
    exact ⟨s.rosterEntry_installRoster es,
      fun p _ => (s.installRoster es).pageInstalled_addInstalled 0 p (by decide), rfl⟩
  · rw [State.takePage_locks hs hv]
    exact ⟨s.lock_installLocks p rs,
      fun q _ => (s.installLocks p rs).pageInstalled_addInstalled (p.val + 1) q (by omega), rfl⟩
  · intro f v hs haligned hphase hdigest hown hrx hstatus hsender hcount hcycle hother hv
    obtain ⟨n, hexec⟩ := exec_frameSlotEnd_recovering hs haligned hphase hdigest hown
      (State.classify_valid hown hrx hsender hcount hcycle) hstatus (hsender ▸ hother)
    rw [← hv] at hexec
    -- the page changes roster, records and installed-page set alone
    obtain ⟨roster, locks, installed, hkeep⟩ := State.takePage_eq { s with ctrl.state := .syncing } f.page
    rw [← hv] at hkeep
    have hctrl : v.ctrl = { s.ctrl with state := .syncing } := by rw [hkeep]
    have hslots : v.slots = s.slots := by rw [hkeep]
    have hoff : State.isActive { v with line := s.endReception.line, repl.orphan := n } = false := by
      rw [State.isActive, hctrl]; rfl
    have hcycleEnd : ∀ r, v.endingCycle r = s.endingCycle r := by
      intro r; rw [State.endingCycle, hslots, hctrl]; rfl
    have T := State.frameWork_touches { v with line := s.endReception.line, repl.orphan := n } f
    have N := State.frameWork_unreported hoff f
    refine ⟨_, hexec, T.ctrl.trans hctrl, ?_, N.1.trans ?_, N.2.trans ?_, T.slots.trans hslots, T.pageCursor.trans ?_,
      T.port.trans ?_, State.rosterEntry_frameWork hoff f, fun l => ?_⟩
    · exact congrArg (fun r : Replication => { r with orphan := 0 }) T.repl
    · rw [hkeep]
    · rw [hkeep]
    · rw [hkeep]
    · rw [hkeep]
    · rw [← hcycleEnd, ← hslots]
      exact State.lock_frameWork hoff f l

end Sys2Proof.Machine
end

section
/-! Operations and leases: the four operations on one record (R23 to R30), an ACTIVE frame at an ACTIVE station, and the
works of a slot end as rows of their own (log 7). -/

namespace Sys2Proof.Machine

/-! ### One station's entry among others -/

section

variable {α β : Type} {key : α → β} {front back : List α} {x : α}

/-- Where each key stands once, no other entry has this one's key (R1). -/
theorem key_ne_of_nodup (h : ((front ++ x :: back).map key).Nodup) : ∀ y ∈ front ++ back, key y ≠ key x := by
  rw [List.map_append, List.map_cons, List.nodup_middle, List.nodup_cons, ← List.map_append] at h
  exact fun y hy e => h.1 (e ▸ List.mem_map_of_mem hy)

theorem filter_key_ne [DecidableEq β] (h : ((front ++ x :: back).map key).Nodup) :
    (front ++ x :: back).filter (fun y => key y ≠ key x) = front ++ back := by
  have hkeep : (front ++ back).filter (fun y => key y ≠ key x) = front ++ back :=
    List.filter_eq_self.2 fun y hy => decide_eq_true (key_ne_of_nodup h y hy)
  rw [← hkeep, List.filter_append, List.filter_append, List.filter_cons_of_neg (by simp)]

theorem map_at_key [DecidableEq β] (h : ((front ++ x :: back).map key).Nodup) (change : α → α) :
    ((front ++ x :: back).map fun y => if key y = key x then change y else y) = front ++ change x :: back := by
  have hne := key_ne_of_nodup h
  have hid : ∀ ys : List α, (∀ y ∈ ys, key y ≠ key x) →
      (ys.map fun y => if key y = key x then change y else y) = ys := fun ys hys =>
    (List.map_congr_left fun y hy => if_neg (hys y hy)).trans (List.map_id ys)
  rw [List.map_append, List.map_cons, hid front fun y hy => hne y (List.mem_append_left _ hy),
    hid back fun y hy => hne y (List.mem_append_right _ hy), if_pos rfl]

end

namespace LockRecord

variable {r : LockRecord} {k : StationNo}

theorem Lawful.nodup_holders (h : r.Lawful) : (r.holders.map (·.station)).Nodup := (List.nodup_append.1 h.once).1

theorem Lawful.nodup_waiters (h : r.Lawful) : (r.waiters.map (·.station)).Nodup := (List.nodup_append.1 h.once).2.1

theorem isSome_holderOf (r : LockRecord) (k : StationNo) :
    (r.holderOf k).isSome = true ↔ k ∈ r.holders.map (·.station) := by
  simp [holderOf]

theorem isSome_waiterOf (r : LockRecord) (k : StationNo) :
    (r.waiterOf k).isSome = true ↔ k ∈ r.waiters.map (·.station) := by
  simp [waiterOf]

/-- A waiter of a lawful record holds nothing in it (R1). -/
theorem Lawful.holderOf_of_waiter (h : r.Lawful) (hk : k ∈ r.waiters.map (·.station)) : r.holderOf k = none := by
  rw [← Option.not_isSome_iff_eq_none, isSome_holderOf]
  exact fun hh => (List.nodup_append.1 h.once).2.2 k hh k hk rfl

/-! ### YIELD, DOWNGRADE and RENEW -/

theorem yield_of_holder (hk : (r.holderOf k).isSome = true) (c : CycleNo) :
    r.yield c k = ⟨(r.dropHolder k).grantPass c, .released, r.dropHolder k⟩ := if_pos hk

theorem yield_of_waiter (hh : r.holderOf k = none) (hk : (r.waiterOf k).isSome = true) (c : CycleNo) :
    r.yield c k = ⟨(r.dropWaiter k).grantPass c, .withdrawn, r.dropWaiter k⟩ := by
  simp [LockRecord.yield, hh, hk]

theorem yield_of_stranger (hk : k ∉ r.stations) (c : CycleNo) : r.yield c k = ⟨r, .noEffect, r⟩ := by
  simp [LockRecord.yield, holderOf_none hk, waiterOf_none hk]

/-- DOWNGRADE of an EXCLUSIVE holder (R29). -/
theorem downgrade_of_exclusive {h : Holder} (hh : h ∈ r.holders) (hk : h.station = k) (hm : h.mode = .exclusive)
    (c : CycleNo) : r.downgrade c k = ⟨(r.shareHolder k).grantPass c, .downgraded, r.shareHolder k⟩ :=
  if_pos (List.any_eq_true.2 ⟨h, hh, by simp [hk, hm]⟩)

/-- DOWNGRADE of a station that is no EXCLUSIVE holder (R29). -/
theorem downgrade_of_not_exclusive (hne : ∀ h ∈ r.holders, h.station = k → h.mode = .shared) (c : CycleNo) :
    r.downgrade c k = ⟨r, .noEffect, r⟩ := by
  refine if_neg fun hany => ?_
  obtain ⟨h, hh, he⟩ := List.any_eq_true.1 hany
  simp only [Bool.and_eq_true, beq_iff_eq] at he
  rw [hne h hh he.1] at he
  exact absurd he.2 (by decide)

theorem renew_of_holder (hk : (r.holderOf k).isSome = true) (c : CycleNo) :
    r.renew c k = ⟨r.renewHolder c k, .renewed, r.renewHolder c k⟩ := if_pos hk

/-- DOWNGRADE and RENEW do nothing for a station that holds nothing (R29, R30). -/
theorem downgrade_renew_of_no_holder (hk : r.holderOf k = none) (c : CycleNo) :
    r.downgrade c k = ⟨r, .noEffect, r⟩ ∧ r.renew c k = ⟨r, .noEffect, r⟩ := by
  refine ⟨downgrade_of_not_exclusive (fun h hh he => ?_) c, by simp [LockRecord.renew, hk]⟩
  have := List.find?_eq_none.1 hk h hh
  simp [he] at this

end LockRecord

/-- Settles O53. -/
theorem yieldOfAStrangerChangesNothing : Obligations.YieldOfAStrangerChangesNothing := by
  intro r c k o ho hk
  have he : r.apply c k o = ⟨r, .noEffect, r⟩ := by
    rw [LockRecord.apply, ho]; exact LockRecord.yield_of_stranger hk c
  rw [he]
  exact ⟨rfl, rfl⟩

/-- Settles O52: in a lawful record the sender's entry is the only one of its station, so that a removal, a share and a
new lease start reach that entry alone. -/
theorem yieldDowngradeAndRenewActOnTheSender : Obligations.YieldDowngradeAndRenewActOnTheSender := by
  intro r c k before after h front back w hlaw
  refine ⟨?holder, ?waiter, ?stranger⟩
  case holder =>
    rintro hr rfl
    have hnodup := hlaw.nodup_holders
    have hmem : h ∈ r.holders := by simp [hr]
    have hsome := (r.isSome_holderOf h.station).2 (List.mem_map_of_mem hmem)
    rw [hr] at hnodup
    have hdrop : r.dropHolder h.station = { r with holders := before ++ after } := by
      rw [LockRecord.dropHolder, hr, filter_key_ne hnodup]
    have hrenew : r.renewHolder c h.station
        = { r with holders := before ++ { h with leaseStart := c } :: after } := by
      rw [LockRecord.renewHolder, hr, map_at_key hnodup fun h => { h with leaseStart := c }]
    have hshare : r.shareHolder h.station
        = { r with holders := before ++ { h with mode := .shared } :: after } := by
      rw [LockRecord.shareHolder, hr, map_at_key hnodup fun h => { h with mode := .shared }]
    rw [LockRecord.yield_of_holder hsome, LockRecord.renew_of_holder hsome, hdrop, hrenew]
    refine ⟨rfl, rfl, rfl, rfl, fun hm => ?_, fun hm => ?_⟩
    · rw [LockRecord.downgrade_of_exclusive hmem rfl hm, hshare]
      exact ⟨rfl, rfl⟩
    · have honly : ∀ x ∈ r.holders, x.station = h.station → x.mode = .shared := by
        intro x hx he
        have hin : x = h ∨ x ∈ before ++ after := by rw [hr] at hx; simp at hx ⊢; tauto
        rcases hin with rfl | hin
        · exact hm
        · exact absurd he (key_ne_of_nodup hnodup x hin)
      rw [LockRecord.downgrade_of_not_exclusive honly]
      exact ⟨rfl, rfl⟩
  case waiter =>
    rintro hr rfl
    have hnodup := hlaw.nodup_waiters
    have hin : w.station ∈ r.waiters.map (·.station) := by simp [hr]
    have hnone := hlaw.holderOf_of_waiter hin
    rw [hr] at hnodup
    have hdrop : r.dropWaiter w.station = { r with waiters := front ++ back } := by
      rw [LockRecord.dropWaiter, hr, filter_key_ne hnodup]
    obtain ⟨hdown, hrenew⟩ := LockRecord.downgrade_renew_of_no_holder hnone c
    rw [LockRecord.yield_of_waiter hnone ((r.isSome_waiterOf _).2 hin), hdrop, hdown, hrenew]
    exact ⟨rfl, rfl, rfl, rfl, rfl, rfl⟩
  case stranger =>
    intro hk
    obtain ⟨hdown, hrenew⟩ := LockRecord.downgrade_renew_of_no_holder (LockRecord.holderOf_none hk) c
    rw [hdown, hrenew]
    exact ⟨rfl, rfl, rfl, rfl⟩

/-! ### CLAIM -/

namespace LockRecord

variable {r : LockRecord} {k : StationNo} {o : Operation}

theorem claim_of_participant (hk : k ∈ r.stations) (c : CycleNo) (o : Operation) :
    r.claim c k o = ⟨r, .refused, r⟩ := if_pos ((r.participates_iff k).2 hk)

/-- The record with the claim of station `k` at the tail of its queue (R24). -/
def joinedBy (r : LockRecord) (k : StationNo) (o : Operation) : LockRecord :=
  { r with waiters := r.waiters ++ [⟨k, o.mode, o.limit⟩] }

/-- A claim into an empty queue that fits the holders is the one grant of its pass (R6, R24). -/
theorem claim_of_fits (hk : k ∉ r.stations) (hw : r.waiters = []) (hfit : grantable r.holders o.mode = true)
    (c : CycleNo) :
    r.claim c k o = ⟨⟨r.generation + 1, r.holders ++ [⟨k, o.mode, c, o.limit, r.generation + 1⟩], []⟩,
      .granted (r.generation + 1) o.mode, r.joinedBy k o⟩ := by
  have hpart : r.participates k = false := by rwa [← Bool.not_eq_true, r.participates_iff]
  have hpass : (r.joinedBy k o).grantPass c
      = ⟨r.generation + 1, r.holders ++ [⟨k, o.mode, c, o.limit, r.generation + 1⟩], []⟩ := by
    simp [grantPass, joinedBy, hw, grantLoop, hfit, Waiter.grantedAt]
  have hown : ((r.joinedBy k o).grantPass c).holderOf k = some ⟨k, o.mode, c, o.limit, r.generation + 1⟩ := by
    have hnone : r.holders.find? (·.station == k) = none := holderOf_none hk
    rw [hpass]
    simp [holderOf, List.find?_append, hnone]
  rw [joinedBy] at hown hpass
  simp only [claim, hpart, Bool.false_eq_true, if_false, hown]
  rw [hpass, joinedBy]

/-- The pass of a claim whose queue's head is not grantable changes nothing: the claim is at the tail, or, a try-claim, is
taken away again (R24, R25). -/
theorem claim_of_blocked (hk : k ∉ r.stations)
    (hb : ∀ w ∈ (r.joinedBy k o).waiters.head?, grantable r.holders w.mode = false) (c : CycleNo) :
    r.claim c k o = if o.tryOnly then ⟨r, .denied, r.joinedBy k o⟩
      else ⟨r.joinedBy k o, .queued (r.waiters.length + 1), r.joinedBy k o⟩ := by
  have hpart : r.participates k = false := by rwa [← Bool.not_eq_true, r.participates_iff]
  have hpass : (r.joinedBy k o).grantPass c = r.joinedBy k o := grantPass_blocked _ c hb
  have hnone : (r.joinedBy k o).holderOf k = none := holderOf_none (r := r) hk
  rw [joinedBy] at hpass hnone
  simp only [claim, hpart, Bool.false_eq_true, if_false, hpass, hnone, joinedBy]
  simp

/-- In a lawful record a claim is blocked by a waiter before it, or by the holders (R5, R6). -/
theorem Lawful.blocked_joinedBy (h : r.Lawful) (hb : r.waiters ≠ [] ∨ grantable r.holders o.mode = false) :
    ∀ w ∈ (r.joinedBy k o).waiters.head?, grantable r.holders w.mode = false := by
  have hblocked := h.blocked
  rw [joinedBy]
  cases hw : r.waiters with
  | nil => simpa [hw] using hb
  | cons v vs => simpa [hw] using hblocked

end LockRecord

/-- Settles O51: a lawful record grants a claim that fits into an empty queue, and blocks every other at its head. -/
theorem claimGrantsQueuesDeniesOrRefuses : Obligations.ClaimGrantsQueuesDeniesOrRefuses := by
  intro r c k o hlaw
  refine ⟨fun hk => ?refused, fun hk hw hfit => ?granted, fun hk hblock => ?blocked⟩
  case refused =>
    rw [LockRecord.claim_of_participant hk]
    exact ⟨rfl, rfl⟩
  case granted =>
    have hg : grantable r.holders o.mode = true := by
      rw [grantable_iff]
      exact hfit.imp And.right id
    rw [LockRecord.claim_of_fits hk hw hg]
    exact ⟨rfl, rfl⟩
  case blocked =>
    have hb : r.waiters ≠ [] ∨ grantable r.holders o.mode = false := by
      refine hblock.imp_right fun hm => ?_
      rw [← Bool.not_eq_true, grantable_iff]
      rintro (hnil | ⟨hs, hall⟩)
      · simp [hnil] at hm
      · rcases hm with ⟨he, -⟩ | ⟨-, x, hx, he⟩
        · rw [hs] at he; exact absurd he (by decide)
        · rw [hall x hx] at he; exact absurd he (by decide)
    rw [LockRecord.claim_of_blocked hk (hlaw.blocked_joinedBy hb)]
    refine ⟨fun ht => ?_, fun ht => ?_⟩
    · rw [if_neg (by simp [ht])]
      exact ⟨rfl, rfl⟩
    · rw [if_pos ht]
      exact ⟨rfl, rfl⟩

/-! ### An ACTIVE frame at an ACTIVE station -/

/-- The vote of another station's frame at a station that holds a digest (R90). -/
theorem State.countVote_of_some {s : State} {d : Word16} (hd : s.repl.digest = some d) {f : Frame}
    (hf : f.sender ≠ s.ctrl.sid) :
    s.countVote f = { s with repl := { s.repl with
      agree := if f.digest = d then min 15 (s.repl.agree + 1) else s.repl.agree
      disagree := if f.digest = d then s.repl.disagree else min 15 (s.repl.disagree + 1) } } := by
  unfold State.countVote
  rw [if_neg hf, hd]
  dsimp only
  by_cases he : f.digest = d
  · simp only [if_pos he]; rfl
  · simp only [if_neg he]; rfl

/-- An ACTIVE station that hears an ACTIVE frame counts its vote, stays ACTIVE and takes no page (R90, R93, R98). -/
theorem State.beforeRoster_eq_countVote {s : State} (hs : s.ctrl.state = .active) (f : Frame) :
    (s.returnToSyncing.countVote f).takePage f.page = s.countVote f := by
  have hstay : s.returnToSyncing = s := by simp [State.returnToSyncing, State.inState, hs]
  obtain ⟨a, d, hvote⟩ := s.countVote_eq f
  rw [hstay]
  exact State.takePage_of_ne (by rw [hvote]; simp [hs]) _

/-- FRAME_SLOT_END with another station's valid ACTIVE frame at an ACTIVE station: the vote, then the works of the frame. -/
theorem exec_frameSlotEnd_active {s : State} {f : Frame} (hs : s.ctrl.state = .active) (haligned : s.slots.aligned = true)
    (hphase : s.slots.phase = .inFrame) (hown : s.line.own = none) (hvalid : s.classify = .valid f)
    (hstatus : f.status = .active) (hother : s.slots.position ≠ s.ctrl.sid) :
    exec .frameSlotEnd s = .next (State.frameWork (s.endReception.countVote f) f).nextSlot := by
  have hwork : (s.endReception.slotWork (.valid f)).cycleEndWork = State.frameWork (s.endReception.countVote f) f := by
    rw [State.slotWork, State.handFrame, hstatus]
    dsimp only
    rw [State.beforeRoster_eq_countVote (s := s.endReception) hs]
    rfl
  have hctrl := State.slotWork_ctrl (s := s.endReception) hs (.valid f) (by simp [SlotContent.heardFound, hstatus])
  rw [exec_frameSlotEnd haligned hphase, hvalid,
    State.slotEnd_other (s := s.endReception) (.valid f) hown hother hs hctrl, hwork]

/-- The sender of an ACTIVE frame is ACTIVE with miss count 0 where the roster is valid (R74). -/
theorem State.rosterEntry_frameWork_valid {s : State} (hv : s.rosterValid = true) (f : Frame) (j : StationNo) :
    (s.frameWork f).rosterEntry j = if j = f.sender then ⟨.active, 0⟩ else s.rosterEntry j := by
  have T := (Touches.applyOperations (s.rosterFrame f.sender .active) f.sender f.ops).trans (Touches.cycleEndWork _)
  refine (State.rosterEntry_congr T.roster j).trans ?_
  rw [State.rosterFrame_active, if_pos hv, State.rosterEntry_putRoster]

/-- Operations in frame order, then the expiries, at every record where all pages are valid (R21, R31, R32). -/
theorem State.lock_frameWork_all {s : State} (all : s.repl.installed = allPages) (f : Frame) (l : LockNo) :
    (s.frameWork f).lock l = s.endingCycle ((s.lock l).appliedAll s.slots.cycle f.sender l f.ops) := by
  have R := Touches.rosterFrame s f.sender .active
  have T := R.trans (Touches.applyOperations _ f.sender f.ops).rosterTables
  have hlocks : (s.rosterFrame f.sender .active).locks = s.locks := by
    rw [State.rosterFrame_active, if_pos (rosterValid_of_all all), State.locks_putRoster]
  rw [State.frameWork, State.lock_cycleEndWork (by rw [T.repl, all]), State.endingCycle_congr T.ctrl T.slots,
    State.lock_applyOperations, if_pos (lockValid_of_all (by rw [R.repl, all]) l), State.lock_congr hlocks, R.slots]

/-- Settles O41: the slot end is frameWork after the vote, and the vote changes the two counters alone. -/
theorem activeFrameIsAppliedAndCounted : Obligations.ActiveFrameIsAppliedAndCounted := by
  intro s f d hs haligned hphase hall hdigest hown hrx hstatus hsender hcount hcycle hother
  have hexec := exec_frameSlotEnd_active hs haligned hphase hown (State.classify_valid hown hrx hsender hcount hcycle)
    hstatus (hsender ▸ hother)
  rw [State.countVote_of_some (s := s.endReception) hdigest hother] at hexec
  refine ⟨_, hexec, (State.frameWork_touches _ f).ctrl, (State.frameWork_touches _ f).slots,
    (State.frameWork_touches _ f).pageCursor, (State.frameWork_touches _ f).port,
    State.rosterEntry_frameWork_valid (rosterValid_of_all ?_) f, State.lock_frameWork_all ?_ f,
    (State.frameWork_touches _ f).repl⟩
  all_goals exact hall

/-! ### The works of a slot end as rows of their own (log 7) -/

section

variable {s : State}

theorem State.leavingSlot_iff (s : State) :
    s.leavingSlot = true ↔ ∃ o, s.line.own = some o ∧ o.frame.status = .leave := by
  unfold State.leavingSlot
  cases s.line.own <;> simp

/-- In the own LEAVE slot none of the three rows does anything (R35, R158). -/
theorem exec_works_of_leavingSlot (h : s.leavingSlot = true) :
    exec .leaseExpiry s = .next s ∧ exec .drop s = .next s ∧ exec .enterFounding s = .next s := by
  refine ⟨?_, ?_, ?_⟩
  · show execLeaseExpiry s = _
    simp [execLeaseExpiry, h]
  · show execDrop s = _
    simp [execDrop, h]
  · show execEnterFounding s = _
    simp [execEnterFounding, h]

theorem exec_leaseExpiry (ha : s.slots.aligned = true) (hl : s.leavingSlot = false) :
    exec .leaseExpiry s = .next s.cycleEndWork := by
  show execLeaseExpiry s = _
  simp [execLeaseExpiry, ha, hl]

/-- LEASE_EXPIRY does nothing outside slot N-1 of an aligned station (R31). -/
theorem exec_leaseExpiry_idle (h : s.slots.aligned = false ∨ s.slots.position ≠ s.ctrl.snc) :
    exec .leaseExpiry s = .next s := by
  show execLeaseExpiry s = _
  rcases h with ha | hp
  · simp [execLeaseExpiry, ha]
  · rw [execLeaseExpiry, State.cycleEndWork_of_ne hp, ite_self]

theorem State.dropDue_iff (s : State) (k : StationNo) : s.dropDue k = true ↔
    (s.rosterEntry k).state ≠ .absent ∧ s.ctrl.dropThreshold ≤ (s.rosterEntry k).misses.toNat := by
  simp [State.dropDue]

theorem exec_drop (ha : s.slots.aligned = true) (hl : s.leavingSlot = false) (hv : s.rosterValid = true)
    (hd : s.dropDue s.slots.position = true) : exec .drop s = .next (s.dropStation s.slots.position) := by
  show execDrop s = _
  simp [execDrop, ha, hl, hv, hd]

/-- DROP does nothing where the owner of the slot is not to be dropped (R80). -/
theorem exec_drop_idle (h : s.slots.aligned = false ∨ s.rosterValid = false ∨ s.dropDue s.slots.position = false) :
    exec .drop s = .next s := by
  show execDrop s = _
  rcases h with h | h | h <;> simp [execDrop, h]

theorem State.rosterEntry_dropStation (s : State) (k j : StationNo) :
    (s.dropStation k).rosterEntry j = if j = k then ⟨.absent, 0⟩ else s.rosterEntry j :=
  (State.rosterEntry_congr (Touches.purge _ k .drop).roster j).trans (s.rosterEntry_putRoster k j _)

theorem State.lock_dropStation (s : State) (k : StationNo) (l : LockNo) :
    (s.dropStation k).lock l = if s.lockValid l then (s.lock l).purged k s.slots.cycle else s.lock l := by
  have R := Touches.putRoster s k .absent
  rw [State.dropStation, State.lock_purge, State.lock_congr (s.locks_putRoster k _), State.lockValid_congr R.repl,
    R.slots]

/-- A SYNCING station whose orphan counter has reached N (R98). -/
theorem exec_enterFounding (hs : s.ctrl.state = .syncing) (hl : s.leavingSlot = false)
    (hn : s.ctrl.snc.val + 1 ≤ s.repl.orphan) :
    exec .enterFounding s = .next { s with ctrl.state := .founding } := by
  show execEnterFounding s = _
  simp [execEnterFounding, hl, State.foundIfOrphaned, State.inState, State.lineSlots, State.setStation, hs, hn]

@[inherit_doc exec_enterFounding]
theorem exec_enterFounding_idle (h : s.ctrl.state ≠ .syncing ∨ s.repl.orphan < s.ctrl.snc.val + 1) :
    exec .enterFounding s = .next s := by
  have hidle : s.foundIfOrphaned = s := by
    rcases h with hs | hn
    · simp [State.foundIfOrphaned, State.inState, hs]
    · have hfew : ¬ s.lineSlots ≤ s.repl.orphan := Nat.not_le.2 hn
      simp [State.foundIfOrphaned, hfew]
  show execEnterFounding s = _
  rw [execEnterFounding, hidle, ite_self]

end

/-- Settles O47: each row runs its work of the slot end (cycleEndWork, dropStation, foundIfOrphaned), whose effect is read
off record by record, or finds that the state does not call for it. -/
theorem slotEndWorksAsRows : Obligations.SlotEndWorksAsRows := by
  intro s
  refine ⟨s.leavingSlot_iff, exec_works_of_leavingSlot, fun ha hl hp => ?expiry, exec_leaseExpiry_idle,
    fun k ha hl hp hv hpresent hmisses => ?drop,
    fun h => exec_drop_idle (h.imp_right (Or.imp_right fun hstays => ?notDue)),
    exec_enterFounding, exec_enterFounding_idle⟩
  case expiry =>
    refine ⟨_, exec_leaseExpiry ha hl, fun l => ?_, Touches.cycleEndWork s, fun hs =>
      State.cycleEndWork_unreported (by simpa [State.isActive] using hs)⟩
    rw [State.lock_cycleEndWork_valid, State.endingCycle, if_pos hp]
  case drop =>
    subst hp
    exact ⟨_, exec_drop ha hl hv ((s.dropDue_iff _).2 ⟨hpresent, hmisses⟩), s.rosterEntry_dropStation _,
      s.lock_dropStation _, Touches.dropStation s _⟩
  case notDue =>
    rw [← Bool.not_eq_true, State.dropDue_iff]
    rintro ⟨hpresent, hmisses⟩
    rcases hstays with habsent | hfew
    · exact hpresent habsent
    · omega

end Sys2Proof.Machine
end

section
/-! What the station state says of the other items (R42, R53, R72, R73, R87 to R90, R97, R98, R152, R157): the law of a
station on the line in the course of a slot end, that of one off the line, and that every step keeps it. -/

namespace Sys2Proof.Machine

variable {s t : State}

/-! ### The two laws by station state -/

/-- Divisor and drop threshold in their ranges (Table 10-2). -/
def State.ConfigInRange (s : State) : Prop :=
  (1 ≤ s.ctrl.divisor ∧ s.ctrl.divisor ≤ 64) ∧ 2 ≤ s.ctrl.dropThreshold ∧ s.ctrl.dropThreshold ≤ 7

/-- A SYNCING or FOUNDING station: its orphan counter below N or at N, no lock page before page 0, no digest and no vote
(R87, R89, R93, R98). -/
structure State.RecoveringLaw (s : State) : Prop where
  orphan : (s.ctrl.state = .syncing ∧ s.repl.orphan < s.lineSlots)
    ∨ (s.ctrl.state = .founding ∧ s.repl.orphan = s.lineSlots)
  rosterFirst : s.pageInstalled 0 = false → s.repl.installed = 0
  uncounted : s.repl.digest = none ∧ s.repl.agree = 0 ∧ s.repl.disagree = 0

/-- An ACTIVE station, its digest apart: one that becomes ACTIVE at a slot end computes the first at the next slot start
(R87, R89, R90, R96). -/
structure State.ActiveLaw (s : State) : Prop where
  state : s.ctrl.state = .active
  pages : s.repl.installed = allPages
  votes : s.repl.agree ≤ Config.voteCeiling ∧ s.repl.disagree ≤ Config.voteCeiling
  orphan : s.repl.orphan = 0

/-- The law of an aligned station in the course of a slot end. -/
structure State.SlotEndLaw (s : State) : Prop where
  aligned : s.slots.aligned = true
  window : s.slots.window = none
  config : s.ConfigInRange
  replicated : s.RecoveringLaw ∨ s.ActiveLaw
  bounded : s.RosterBounded

/-- The law of the station state with slot position and roster within N. -/
def State.StationKept (s : State) : Prop := s.StationLaw ∧ s.RosterBounded

theorem State.RecoveringLaw.state (h : s.RecoveringLaw) : s.ctrl.state = .syncing ∨ s.ctrl.state = .founding :=
  h.orphan.imp And.left And.left

/-- An aligned station is on the line, and there the two laws are the same but for the first digest. -/
theorem State.StationKept.slotEnd (h : s.StationKept) (ha : s.slots.aligned = true) : s.SlotEndLaw := by
  obtain ⟨h, hb⟩ := h
  have hline : s.ctrl.state.onLine = true := h.aligned ▸ ha
  have hne : s.ctrl.state ≠ .listening := by intro e; rw [e] at hline; cases hline
  have hwin : s.slots.window = none := by
    rw [← Option.not_isSome_iff_eq_none, h.window]
    exact hne
  refine ⟨ha, hwin, ⟨h.divisor, h.dropThreshold⟩, ?_, hb⟩
  cases hs : s.ctrl.state <;> rw [hs] at hline <;> try cases hline
  case syncing => exact .inl ⟨.inl ⟨hs, h.orphanSyncing hs⟩, h.rosterFirst, h.notActive (by simp [hs])⟩
  case founding => exact .inl ⟨.inr ⟨hs, h.orphanFounding hs⟩, h.rosterFirst, h.notActive (by simp [hs])⟩
  case active => exact .inr ⟨hs, h.activePages hs, h.voteRange, h.orphanElse (by simp [hs]) (by simp [hs])⟩

@[inherit_doc State.StationKept.slotEnd]
theorem State.SlotEndLaw.kept (h : s.SlotEndLaw) (hd : s.ctrl.state = .active → s.repl.digest.isSome = true) :
    s.StationKept := by
  refine ⟨?_, h.bounded⟩
  rcases h.replicated with k | k
  · have hst := k.state
    obtain ⟨hdigest, hagree, hdisagree⟩ := k.uncounted
    have hline : s.ctrl.state.onLine = true := by rcases hst with e | e <;> rw [e] <;> rfl
    have hreceiving : s.receiving = true := by
      rcases hst with e | e <;> simp [State.receiving, State.isRecovering, State.inState, e]
    constructor
    case aligned => rw [h.aligned, hline]
    case activePages => intro e; rcases hst with e' | e' <;> rw [e] at e' <;> cases e'
    case offLinePages => intro e; rw [hline] at e; cases e
    case rosterFirst => exact k.rosterFirst
    case notActive => exact fun _ => k.uncounted
    case activeDigest => exact hd
    case voteRange => rw [hagree, hdisagree]; decide
    case orphanElse => intro e1 e2; exact absurd hst (by simp [e1, e2])
    case orphanSyncing =>
      intro e; rcases k.orphan with ⟨-, hlt⟩ | ⟨e', -⟩
      · exact hlt
      · rw [e] at e'; cases e'
    case orphanFounding =>
      intro e; rcases k.orphan with ⟨e', -⟩ | ⟨-, heq⟩
      · rw [e] at e'; cases e'
      · exact heq
    case leave => exact fun _ => hline
    case window => rw [h.window]; rcases hst with e | e <;> simp [e]
    case sending => exact fun _ => hreceiving
    case divisor => exact h.config.1
    case dropThreshold => exact h.config.2
  · have hst := k.state
    constructor
    case aligned => rw [h.aligned, hst]; rfl
    case activePages => exact fun _ => k.pages
    case offLinePages => intro e; rw [hst] at e; cases e
    case rosterFirst => simp [State.pageInstalled, k.pages, allPages]
    case notActive => exact fun e => absurd hst e
    case activeDigest => exact hd
    case voteRange => exact k.votes
    case orphanElse => exact fun _ _ => k.orphan
    case orphanSyncing => intro e; rw [hst] at e; cases e
    case orphanFounding => intro e; rw [hst] at e; cases e
    case leave => intro _; rw [hst]; rfl
    case window => rw [h.window, hst]; simp
    case sending => intro _; simp [State.receiving, State.isActive, hst]
    case divisor => exact h.config.1
    case dropThreshold => exact h.config.2

/-- A station off the line is unaligned and has nothing of the replication; LISTENING alone runs its window, and alone may
send (R42, R53, R73, R87, R89, R152). -/
theorem State.StationKept.ofOffLine (hs : s.ctrl.state.onLine = false) (hc : s.ConfigInRange)
    (aligned : s.slots.aligned = false) (leave : s.ctrl.leavePending = false)
    (repl : s.repl = { s.repl with agree := 0, disagree := 0, installed := 0, orphan := 0, digest := none })
    (window : s.slots.window.isSome = true ↔ s.ctrl.state = .listening)
    (sending : s.line.sending = true → s.ctrl.state = .listening)
    (tail : ∀ k : StationNo, s.ctrl.snc < k → s.rosterEntry k = .absent) : s.StationKept := by
  have hinstalled : s.repl.installed = 0 := by rw [repl]
  have horphan : s.repl.orphan = 0 := by rw [repl]
  have hvotes : s.repl.digest = none ∧ s.repl.agree = 0 ∧ s.repl.disagree = 0 := by
    rw [repl]; exact ⟨rfl, rfl, rfl⟩
  have noState : ∀ st : StationState, st.onLine = true → s.ctrl.state ≠ st := by
    intro st hst e; rw [e, hst] at hs; cases hs
  refine ⟨?_, fun e => ?_, tail⟩
  · constructor
    case aligned => rw [aligned, hs]
    case activePages => exact fun e => absurd e (noState _ rfl)
    case offLinePages => exact fun _ => hinstalled
    case rosterFirst => exact fun _ => hinstalled
    case notActive => exact fun _ => hvotes
    case activeDigest => exact fun e => absurd e (noState _ rfl)
    case voteRange => rw [hvotes.2.1, hvotes.2.2]; decide
    case orphanElse => exact fun _ _ => horphan
    case orphanSyncing => exact fun e => absurd e (noState _ rfl)
    case orphanFounding => exact fun e => absurd e (noState _ rfl)
    case leave => intro e; rw [leave] at e; cases e
    case window => exact window
    case sending => intro e; simp [State.receiving, State.inState, sending e]
    case divisor => exact hc.1
    case dropThreshold => exact hc.2
  · rw [aligned] at e; cases e

/-! ### What the laws depend on -/

/-- The law depends on these items alone; a window that runs may have another count, and the line may be released. -/
theorem State.StationKept.congr (h : s.StationKept) (ctrl : t.ctrl = s.ctrl) (repl : t.repl = s.repl)
    (aligned : t.slots.aligned = s.slots.aligned) (position : t.slots.position = s.slots.position)
    (window : t.slots.window.isSome = s.slots.window.isSome)
    (sending : t.line.sending = true → s.line.sending = true) (roster : t.roster = s.roster) : t.StationKept := by
  obtain ⟨h, hb⟩ := h
  refine ⟨?_, ?_, ?_⟩
  · have hlineSlots : t.lineSlots = s.lineSlots := by rw [State.lineSlots, State.lineSlots, ctrl]
    have hreceiving : t.receiving = s.receiving := by
      simp only [State.receiving, State.isRecovering, State.inState, State.isActive, ctrl]
    have hpage : t.pageInstalled 0 = s.pageInstalled 0 := by rw [State.pageInstalled, State.pageInstalled, repl]
    constructor <;> simp only [ctrl, repl, aligned, window, hlineSlots, hpage, hreceiving]
    case sending => exact fun e => h.sending (sending e)
    case aligned => exact h.aligned
    case activePages => exact h.activePages
    case offLinePages => exact h.offLinePages
    case rosterFirst => exact h.rosterFirst
    case notActive => exact h.notActive
    case activeDigest => exact h.activeDigest
    case voteRange => exact h.voteRange
    case orphanElse => exact h.orphanElse
    case orphanSyncing => exact h.orphanSyncing
    case orphanFounding => exact h.orphanFounding
    case leave => exact h.leave
    case window => exact h.window
    case divisor => exact h.divisor
    case dropThreshold => exact h.dropThreshold
  · rw [aligned, position, ctrl]; exact hb.position
  · intro k; rw [ctrl, State.rosterEntry_congr roster]; exact hb.tail k

/-- The Line Interface does not matter where the receiver is on. -/
theorem State.StationKept.withLine (h : s.StationKept) (hr : s.receiving = true) (line : LineInterface) :
    State.StationKept { s with line := line } := by
  obtain ⟨h, hb⟩ := h
  exact ⟨{ h with sending := fun _ => hr }, hb.position, hb.tail⟩

/-- Request Engine and Notice Queue do not matter. -/
theorem State.StationKept.requests (h : s.StationKept) (k : s.OnlyRequests t) : t.StationKept :=
  have R := k.tables.rosterTables
  h.congr R.ctrl R.repl (by rw [R.slots]) (by rw [R.slots]) (by rw [R.slots]) (by rw [R.line]; exact id) k.tables.roster

/-- The law of a slot end through a change of roster, records, requests and notices. -/
theorem State.SlotEndLaw.rosterTables (h : s.SlotEndLaw) (k : s.OnlyRosterTables t)
    (tail : ∀ j : StationNo, s.ctrl.snc < j → t.rosterEntry j = .absent) : t.SlotEndLaw where
  aligned := by rw [k.slots]; exact h.aligned
  window := by rw [k.slots]; exact h.window
  config := by rw [State.ConfigInRange, k.ctrl]; exact h.config
  replicated := by
    refine h.replicated.imp (fun r => ⟨?_, ?_, ?_⟩) fun a => ⟨?_, ?_, ?_, ?_⟩
    · rw [State.lineSlots, k.ctrl, k.repl]; exact r.orphan
    · rw [State.pageInstalled, k.repl]; exact r.rosterFirst
    · rw [k.repl]; exact r.uncounted
    · rw [k.ctrl]; exact a.state
    · rw [k.repl]; exact a.pages
    · rw [k.repl]; exact a.votes
    · rw [k.repl]; exact a.orphan
  bounded := ⟨by rw [k.slots, k.ctrl]; exact h.bounded.position, by rw [k.ctrl]; exact tail⟩

/-- Records, requests and notices do not matter. -/
theorem State.SlotEndLaw.tables (h : s.SlotEndLaw) (k : s.OnlyTables t) : t.SlotEndLaw :=
  h.rosterTables k.rosterTables fun j hj => (State.rosterEntry_congr k.roster j).trans (h.bounded.tail j hj)

theorem State.SlotEndLaw.position (h : s.SlotEndLaw) : s.slots.position ≤ s.ctrl.snc := h.bounded.position h.aligned

/-! ### The roster stays within N (R72) -/

/-- An entry that is written within N leaves those from N on ABSENT. -/
theorem State.SlotEndLaw.putRoster (h : s.SlotEndLaw) {k : StationNo} (hk : k ≤ s.ctrl.snc) (e : RosterEntry) :
    (s.putRoster k e).SlotEndLaw := by
  refine h.rosterTables (Touches.putRoster s k e) fun j hj => ?_
  rw [State.rosterEntry_putRoster, if_neg (hk.trans_lt hj).ne']
  exact h.bounded.tail j hj

theorem State.SlotEndLaw.setRosterEntry (h : s.SlotEndLaw) {k : StationNo} (hk : k ≤ s.ctrl.snc) (e : RosterEntry) :
    (s.setRosterEntry k e).SlotEndLaw := by
  refine h.rosterTables (Touches.setRosterEntry s k e) fun j hj => ?_
  rw [State.rosterEntry_setRosterEntry, if_neg (hk.trans_lt hj).ne']
  exact h.bounded.tail j hj

theorem State.SlotEndLaw.rosterFrame (h : s.SlotEndLaw) {k : StationNo} (hk : k ≤ s.ctrl.snc) (st : FrameStatus) :
    (s.rosterFrame k st).SlotEndLaw := by
  unfold State.rosterFrame
  split
  · split
    · exact h.putRoster hk _
    · exact h.putRoster hk _
    · dsimp only
      split
      · exact h.putRoster hk _
      · exact (h.putRoster hk _).tables (Touches.purge _ k _)
    · exact (h.putRoster hk _).tables (Touches.purge _ k _)
    · exact h
  · exact h

theorem State.SlotEndLaw.rosterActivity (h : s.SlotEndLaw) {k : StationNo} (hk : k ≤ s.ctrl.snc) :
    (s.rosterActivity k).SlotEndLaw := by
  unfold State.rosterActivity
  split
  · exact h.setRosterEntry hk _
  · exact h

theorem State.SlotEndLaw.dropStation (h : s.SlotEndLaw) {k : StationNo} (hk : k ≤ s.ctrl.snc) :
    (s.dropStation k).SlotEndLaw := (h.putRoster hk _).tables (Touches.purge _ k _)

theorem State.SlotEndLaw.rosterSilence (h : s.SlotEndLaw) {k : StationNo} (hk : k ≤ s.ctrl.snc) :
    (s.rosterSilence k).SlotEndLaw := by
  unfold State.rosterSilence
  split
  · have h1 := h.setRosterEntry hk { s.rosterEntry k with misses := oneMiss (s.rosterEntry k).misses }
    dsimp only
    split
    · exact h1.dropStation hk
    · exact h1
  · exact h

/-! ### The works of a slot end -/

/-- What a change of the Replication Controller that keeps the law of its state leaves: the rest is as it was. -/
theorem State.SlotEndLaw.congr (h : s.SlotEndLaw) (ctrl : { t.ctrl with state := s.ctrl.state } = s.ctrl)
    (slots : t.slots = s.slots) (replicated : t.RecoveringLaw ∨ t.ActiveLaw)
    (tail : ∀ j : StationNo, s.ctrl.snc < j → t.rosterEntry j = .absent) : t.SlotEndLaw := by
  have hdivisor : t.ctrl.divisor = s.ctrl.divisor := by rw [← ctrl]
  have hdrop : t.ctrl.dropThreshold = s.ctrl.dropThreshold := by rw [← ctrl]
  have hsnc : t.ctrl.snc = s.ctrl.snc := by rw [← ctrl]
  refine ⟨by rw [slots]; exact h.aligned, by rw [slots]; exact h.window, ?_, replicated, ?_, ?_⟩
  · rw [State.ConfigInRange, hdivisor, hdrop]; exact h.config
  · rw [slots, hsnc]; exact h.bounded.position
  · rw [hsnc]; exact tail

/-- The fate of the own frame changes the JOIN-pending flag and requests alone (R55, R62, R63). -/
theorem State.settleOwnFrame_touches (s : State) (c : SlotContent) :
    ∃ b, (s.setJoinPending b).OnlyRequests (s.settleOwnFrame c) := by
  have kept : ∀ {t : State}, s.OnlyRequests t → ∃ b, (s.setJoinPending b).OnlyRequests t :=
    fun k => ⟨s.repl.joinPending, k⟩
  unfold State.settleOwnFrame
  split
  · exact kept (.refl s)
  · rename_i o _
    split
    · exact kept (Touches.returnDrawn s _)
    · by_cases hjoin : o.frame.status = .join
      · simp only [hjoin, if_true]
        refine ⟨false, ?_⟩
        split
        · exact .refl _
        · exact Touches.doubtDrawn _ _
      · simp only [hjoin, if_false]
        refine kept ?_
        split
        · exact .refl s
        · exact Touches.doubtDrawn s _

theorem State.SlotEndLaw.settleOwnFrame (h : s.SlotEndLaw) (c : SlotContent) : (s.settleOwnFrame c).SlotEndLaw := by
  obtain ⟨b, k⟩ := s.settleOwnFrame_touches c
  have h1 : (s.setJoinPending b).SlotEndLaw :=
    h.congr rfl rfl (h.replicated.imp (fun r => ⟨r.orphan, r.rosterFirst, r.uncounted⟩)
      fun a => ⟨a.state, a.pages, a.votes, a.orphan⟩) h.bounded.tail
  exact h1.tables k.tables

/-- A FOUNDING station that hears an ACTIVE frame is SYNCING with orphan counter 0 (R98). -/
theorem State.SlotEndLaw.returnToSyncing (h : s.SlotEndLaw) : s.returnToSyncing.SlotEndLaw := by
  unfold State.returnToSyncing
  split
  · rename_i hf
    have hs : s.ctrl.state = .founding := by simpa [State.inState] using hf
    rcases h.replicated with r | a
    · exact h.congr rfl rfl (.inl ⟨.inl ⟨rfl, Nat.succ_pos _⟩, r.rosterFirst, r.uncounted⟩) h.bounded.tail
    · rw [a.state] at hs; cases hs
  · exact h

/-- A count stays within the ceiling, and only a station with a digest counts (R90). -/
theorem State.SlotEndLaw.countVote (h : s.SlotEndLaw) (f : Frame) : (s.countVote f).SlotEndLaw := by
  have hle : ∀ n, countVoice n ≤ Config.voteCeiling := fun n => min_le_left _ _
  rcases h.replicated with r | a
  · rw [State.countVote_of_none r.uncounted.1]; exact h
  · unfold State.countVote
    split
    · exact h
    · split
      · exact h
      · split
        · exact h.congr rfl rfl (.inr ⟨a.state, a.pages, ⟨hle _, a.votes.2⟩, a.orphan⟩) h.bounded.tail
        · exact h.congr rfl rfl (.inr ⟨a.state, a.pages, ⟨a.votes.1, hle _⟩, a.orphan⟩) h.bounded.tail

/-- Page 0 is in the installed-page set from its install on, and a lock page joins it only then (R83, R93). -/
theorem State.SlotEndLaw.takePage (h : s.SlotEndLaw) (page : Option Page) : (s.takePage page).SlotEndLaw := by
  by_cases hs : s.ctrl.state = .syncing
  · rcases h.replicated with r | a
    · rcases page with _ | ⟨es⟩ | ⟨k, rs⟩
      · rw [State.takePage_none]; exact h
      · rw [State.takePage_roster hs]
        have hfirst : ((s.installRoster es).addInstalled 0).pageInstalled 0 = true := by
          rw [State.pageInstalled_addInstalled _ 0 0 (by decide)]; rfl
        refine h.congr rfl rfl (.inl ⟨r.orphan, fun e => ?_, r.uncounted⟩) fun j hj => ?_
        · rw [hfirst] at e; cases e
        · exact (s.rosterEntry_installRoster es j).trans (if_neg (not_le.2 hj))
      · by_cases hv : s.rosterValid = true
        · rw [State.takePage_locks hs hv]
          have hfirst : ((s.installLocks k rs).addInstalled (k.val + 1)).pageInstalled 0 = true := by
            rw [State.pageInstalled_addInstalled _ _ 0 (by omega), Bool.or_eq_true]
            exact .inr hv
          refine h.congr rfl rfl (.inl ⟨r.orphan, fun e => ?_, r.uncounted⟩) h.bounded.tail
          rw [hfirst] at e; cases e
        · rw [State.takePage_locks_early (by simpa using hv)]; exact h
    · rw [a.state] at hs; cases hs
  · rw [State.takePage_of_ne hs]; exact h

/-- The founding effects make any aligned station within N lawful (R102). -/
theorem State.SlotEndLaw.found (ha : s.slots.aligned = true) (hw : s.slots.window = none) (hc : s.ConfigInRange)
    (hp : s.slots.position ≤ s.ctrl.snc) {f : Frame} (hf : f.sender ≤ s.ctrl.snc) : (s.found f).SlotEndLaw := by
  have h1 : (s.foundedTables f).SlotEndLaw := by
    refine ⟨ha, hw, hc, .inr ⟨rfl, rfl, ⟨Nat.zero_le _, Nat.zero_le _⟩, rfl⟩, fun _ => hp, fun j hj => ?_⟩
    exact (foundRoster_entry f.sender j).trans (if_neg (hf.trans_lt hj).ne')
  exact h1.tables (s.found_touches f).tables

theorem State.SlotEndLaw.handFrame (h : s.SlotEndLaw) {f : Frame} (hf : f.sender ≤ s.ctrl.snc) :
    (s.handFrame f).SlotEndLaw := by
  unfold State.handFrame
  split
  · have hsnc := (HostSide.beforeRoster s f).snc
    have h1 := ((h.returnToSyncing.countVote f).takePage f.page).rosterFrame (hsnc ▸ hf) .active
    exact h1.tables (Touches.applyOperations _ _ _)
  · exact h.rosterFrame hf _
  · exact h.rosterFrame hf _
  · exact h.rosterFrame hf _
  · exact .found h.aligned h.window h.config h.position hf

/-- A garbled reception uninstalls every page at a station in recovery (R95). -/
theorem State.SlotEndLaw.uninstallAll (h : s.SlotEndLaw) (hr : s.isRecovering = true) : s.uninstallAll.SlotEndLaw := by
  rcases h.replicated with r | a
  · exact h.congr rfl rfl (.inl ⟨r.orphan, fun _ => rfl, r.uncounted⟩) h.bounded.tail
  · rw [State.isRecovering, State.inState, State.inState, a.state] at hr; cases hr

/-- The sender of a frame that a slot brings lies within N (R66). -/
def SlotContent.SenderWithin (c : SlotContent) (n : Fin 16) : Prop := ∀ f, c = .valid f → f.sender ≤ n

theorem State.SlotEndLaw.slotWork (h : s.SlotEndLaw) {c : SlotContent} (hc : c.SenderWithin s.ctrl.snc) :
    (s.slotWork c).SlotEndLaw := by
  cases c with
  | silent => exact h.rosterSilence h.position
  | garbled =>
    have h1 := h.rosterActivity h.position
    unfold State.slotWork
    dsimp only
    split
    · rename_i hr; exact h1.uninstallAll hr
    · exact h1
  | alien =>
    have h1 := h.tables (Touches.raise s (.fault .alien)).tables
    exact h1.rosterActivity h1.position
  | valid f => exact h.handFrame (hc f rfl)

/-- A SYNCING station that holds all 9 pages becomes ACTIVE, its counters 0 (R96). -/
theorem State.SlotEndLaw.completeRecovery (h : s.SlotEndLaw) : s.completeRecovery.SlotEndLaw := by
  unfold State.completeRecovery
  split
  · rename_i hall
    have hpages : s.repl.installed = allPages := by simp only [Bool.and_eq_true, beq_iff_eq] at hall; exact hall.2
    have h1 : s.becomeActive.SlotEndLaw :=
      h.congr rfl rfl (.inr ⟨rfl, hpages, ⟨Nat.zero_le _, Nat.zero_le _⟩, rfl⟩) h.bounded.tail
    exact h1.tables ((Touches.reconcile _).trans (Touches.raise _ _)).tables
  · exact h

/-- A SYNCING station counts an orphaned slot up to N, where it is FOUNDING (R97, R98). -/
theorem State.SlotEndLaw.countOrphan (h : s.SlotEndLaw) (heard : Bool) : (s.countOrphan heard).SlotEndLaw := by
  unfold State.countOrphan
  split
  · rename_i hin
    have hs : s.ctrl.state = .syncing := by simpa [State.inState] using hin
    rcases h.replicated with r | a
    · have hlt : s.repl.orphan < s.lineSlots := by
        rcases r.orphan with ⟨-, hlt⟩ | ⟨e, -⟩
        · exact hlt
        · rw [hs] at e; cases e
      split
      · exact h.congr rfl rfl (.inl ⟨.inl ⟨hs, Nat.succ_pos _⟩, r.rosterFirst, r.uncounted⟩) h.bounded.tail
      · unfold State.foundIfOrphaned
        split
        · rename_i hn
          have hn : s.lineSlots ≤ s.repl.orphan + 1 := by
            rw [Bool.and_eq_true, decide_eq_true_eq] at hn; exact hn.2
          exact h.congr rfl rfl (.inl ⟨.inr ⟨rfl, le_antisymm hlt hn⟩, r.rosterFirst, r.uncounted⟩) h.bounded.tail
        · rename_i hn
          have hn : s.repl.orphan + 1 < s.lineSlots := by
            simpa [State.inState, hs, State.lineSlots] using hn
          exact h.congr rfl rfl (.inl ⟨.inl ⟨hs, hn⟩, r.rosterFirst, r.uncounted⟩) h.bounded.tail
    · rw [a.state] at hs; cases hs
  · exact h

/-- A lost vote leaves a SYNCING station with nothing, a vote that is kept an ACTIVE one with counters 0 (R91, R92). -/
theorem State.SlotEndLaw.evaluateVote (h : s.SlotEndLaw) (hs : s.ctrl.state = .active) : s.evaluateVote.SlotEndLaw := by
  unfold State.evaluateVote
  split
  · exact h.congr rfl rfl (.inl ⟨.inl ⟨rfl, Nat.succ_pos _⟩, fun _ => rfl, rfl, rfl, rfl⟩) h.bounded.tail
  · rcases h.replicated with r | a
    · exact absurd r.state (by simp [hs])
    · have h1 : s.clearVote.SlotEndLaw :=
        h.congr rfl rfl (.inr ⟨a.state, a.pages, ⟨Nat.zero_le _, Nat.zero_le _⟩, a.orphan⟩) h.bounded.tail
      exact h1.tables (Touches.settleDoubtful _).tables

/-! ### The start of the next slot -/

/-- The next position lies within N (R43, R46). -/
theorem State.SlotEndLaw.nextPosition (h : s.SlotEndLaw) : s.nextPosition.SlotEndLaw := by
  have hpos := h.position
  unfold State.nextPosition
  split
  · exact ⟨h.aligned, h.window, h.config, h.replicated.imp (fun r => ⟨r.orphan, r.rosterFirst, r.uncounted⟩)
      fun a => ⟨a.state, a.pages, a.votes, a.orphan⟩, fun _ => Fin.zero_le _, h.bounded.tail⟩
  · rename_i hlast
    have hlt : s.slots.position < s.ctrl.snc := lt_of_le_of_ne hpos (by simpa [State.inLastSlot] using hlast)
    exact ⟨h.aligned, h.window, h.config, h.replicated.imp (fun r => ⟨r.orphan, r.rosterFirst, r.uncounted⟩)
      fun a => ⟨a.state, a.pages, a.votes, a.orphan⟩, fun _ => Fin.add_one_le_of_lt hlt, h.bounded.tail⟩

/-- The slot start gives an ACTIVE station its digest, and takes that of any other (R89). -/
theorem State.SlotEndLaw.slotOpened (h : s.SlotEndLaw) : s.slotOpened.StationKept := by
  have hactive : s.ctrl.state = .active → s.isActive = true := fun e => by rw [State.isActive, e]; rfl
  refine State.SlotEndLaw.kept ⟨h.aligned, h.window, h.config, ?_, h.bounded.position, h.bounded.tail⟩ fun e => ?_
  · refine h.replicated.imp (fun r => ⟨r.orphan, r.rosterFirst, ?_, r.uncounted.2⟩)
      fun a => ⟨a.state, a.pages, a.votes, a.orphan⟩
    have hoff : s.isActive = false := by
      rw [State.isActive]; rcases r.state with e | e <;> rw [e] <;> rfl
    simp [State.slotOpened, hoff]
  · simp [State.slotOpened, hactive e]

/-- Building the own frame changes the frame handed over, the page cursor and requests alone (R54 to R58). -/
theorem State.StationKept.buildOwnFrame (h : s.StationKept) : s.buildOwnFrame.StationKept := by
  rcases s.buildOwnFrame_cases with ⟨-, e⟩ | ⟨-, f, c, -, -, -, -, e⟩ | ⟨st, -, -, e⟩
  · rw [e]; exact h
  · rw [e]; exact (h.requests (Touches.draw s)).congr rfl rfl rfl rfl rfl id rfl
  · rw [e]; exact h.congr rfl rfl rfl rfl rfl id rfl

theorem State.SlotEndLaw.nextSlot (h : s.SlotEndLaw) : s.nextSlot.StationKept := by
  have h1 := h.nextPosition.slotOpened
  rw [State.nextSlot, State.slotStart_eq]
  split
  · exact h1.buildOwnFrame
  · exact h1

/-! ### Off the line -/

theorem State.StationKept.goOffLine (hb : s.RosterBounded) (hc : s.ConfigInRange) {st : StationState}
    (hoff : st.onLine = false) (hst : st ≠ .listening) : (s.goOffLine st).StationKept :=
  .ofOffLine (hs := hoff) (hc := hc) (aligned := rfl) (leave := rfl) (repl := rfl)
    (window := ⟨nofun, fun e => absurd e hst⟩) (sending := nofun) (tail := hb.tail)

theorem State.StationKept.config (h : s.StationKept) : s.ConfigInRange := ⟨h.1.divisor, h.1.dropThreshold⟩

/-- A halted station is off the line (R53, R160). -/
theorem State.StationKept.halt (h : s.StationKept) (f : FaultSet) : (s.halt f).StationKept :=
  (State.StationKept.goOffLine h.2 h.config (st := .halted) rfl nofun).requests
    ((Touches.raise _ _).trans (Touches.endAll _ _))

/-- A stopped station is off the line (R53, R156, R158). -/
theorem State.StationKept.stop (h : s.StationKept) : s.stop.StationKept :=
  have h1 := h.requests (Touches.endAll s .left)
  .goOffLine h1.2 h1.config rfl nofun

/-! ### Slot ends and alignment -/

/-- The vote is evaluated at a station that is still ACTIVE (R91). -/
theorem State.SlotEndLaw.evaluateOwn (h : s.SlotEndLaw) (x y : Bool) :
    (if x && s.isActive && y then s.evaluateVote else s).SlotEndLaw := by
  split
  · rename_i hown
    simp only [Bool.and_eq_true] at hown
    exact h.evaluateVote (by simpa [State.isActive] using hown.1.2)
  · exact h

/-- A slot end keeps the law, whatever the slot brought but a sender beyond N. -/
theorem State.StationKept.slotEndRow (h : s.StationKept) (ha : s.slots.aligned = true) {c : SlotContent}
    (hc : c.SenderWithin s.ctrl.snc) : (s.slotEnd c).StationKept := by
  have keepIf : ∀ {t u : State} (b : Bool), t.SlotEndLaw → u.SlotEndLaw → (if b then t else u).SlotEndLaw := by
    intro t u b ht hu
    split
    · exact ht
    · exact hu
  unfold State.slotEnd
  split
  · exact h.stop
  · have hsnc := (HostSide.settleOwnFrame s c).snc
    have h1 := ((h.slotEnd ha).settleOwnFrame c).slotWork (c := c) (hsnc ▸ hc)
    have h2 := (h1.tables (Touches.cycleEndWork _)).completeRecovery
    exact ((keepIf (s.inState .syncing) (h2.countOrphan c.heardActive) h2).evaluateOwn _ _).nextSlot

/-- A frame that is read has a sender within its slot count (R64). -/
theorem readFrame_sender_le {bs : List Byte} {f : Frame} (h : readFrame bs = some f) : f.sender ≤ f.slotCount := by
  unfold readFrame at h
  simp only [Option.ite_none_left_eq_some] at h
  obtain ⟨-, -, h⟩ := h
  split at h <;> [cases h; skip]
  simp only [Option.ite_none_left_eq_some] at h
  obtain ⟨hle, -, -, -, -, -, h⟩ := h
  have hbound := (bs.getD 0 0).isLt
  have hread : f.sender = Fin.ofNat 16 ((bs.getD 0 0).toNat / 16)
      ∧ f.slotCount = Fin.ofNat 16 ((bs.getD 0 0).toNat % 16) := by
    split at h
    · obtain ⟨p, -, rfl⟩ := Option.map_eq_some_iff.1 h
      exact ⟨rfl, rfl⟩
    · obtain rfl := Option.some.inj h
      exact ⟨rfl, rfl⟩
  rw [hread.1, hread.2, Fin.le_def]
  simp only [Fin.ofNat]
  omega

theorem Reception.frame_sender_le {rx : Reception} {f : Frame} (h : rx.frame = some f) : f.sender ≤ f.slotCount := by
  unfold Reception.frame at h
  split at h
  · cases h
  · exact readFrame_sender_le h

/-- What a slot brings is handed on as valid only with the owner of the slot as sender (R66). -/
theorem State.classify_senderWithin (h : s.StationKept) (ha : s.slots.aligned = true) :
    s.classify.SenderWithin s.ctrl.snc := by
  intro f hf
  unfold State.classify at hf
  split at hf
  · cases hf
  · split at hf
    · cases hf
    · split at hf
      · cases hf
      · rename_i g _ halien
        obtain rfl := SlotContent.valid.inj hf
        have hsender : g.sender = s.slots.position := by
          simp only [State.alienFrame, Bool.or_eq_true, bne_iff_ne, not_or, not_not] at halien
          exact halien.1.1
        rw [hsender]
        exact h.2.position ha

/-- The station that has aligned in the slot and cycle of a frame, with the frame not yet applied (R52). -/
def State.alignedTo (s : State) (f : Frame) : State :=
  { s.releaseLine.dropOwnFrame with
    slots.aligned := true, slots.position := f.sender, slots.cycle := f.cycle, slots.window := none }

theorem State.align_eq (s : State) (f : Frame) :
    s.align f = State.nextSlot (State.cycleEndWork (if f.status = .found then (s.alignedTo f).found f
      else ((s.alignedTo f).setStation .syncing).setOrphan 0)) := rfl

/-- A LISTENING station aligns in a slot within N, SYNCING or, on a FOUND frame, ACTIVE (R52, R88, R101). -/
theorem State.StationKept.align (h : s.StationKept) (hs : s.ctrl.state = .listening) {f : Frame}
    (hf : f.sender ≤ s.ctrl.snc) : (s.align f).StationKept := by
  have hinstalled := h.1.offLinePages (by rw [hs]; rfl)
  have hvotes := h.1.notActive (by simp [hs])
  rw [State.align_eq]
  refine State.SlotEndLaw.nextSlot (State.SlotEndLaw.tables ?_ (Touches.cycleEndWork _))
  split
  · exact State.SlotEndLaw.found (s := s.alignedTo f) rfl rfl h.config hf hf
  · exact ⟨rfl, rfl, h.config, .inl ⟨.inl ⟨rfl, Nat.succ_pos _⟩, fun _ => hinstalled, hvotes⟩, fun _ => hf, h.2.tail⟩

/-! ### Time and cells -/

/-- Time passing releases the line at most (R41, R59). -/
theorem State.elapse_sending (s : State) (n : Nat) : (s.elapse n).line.sending = true → s.line.sending = true := by
  intro hn
  by_contra hoff
  rw [Bool.not_eq_true] at hoff
  cases hr : s.receiving with
  | false => rw [s.elapse_off hr, hoff] at hn; cases hn
  | true =>
    rw [s.elapse_eq hr] at hn
    have hn : (s.advanceOwn n).line.sending = true := hn
    rw [s.advanceOwn_idle hoff, hoff] at hn; cases hn

theorem State.StationKept.elapse (h : s.StationKept) (n : Nat) : (s.elapse n).StationKept := by
  have hsending := s.elapse_sending n
  cases hr : s.receiving with
  | false => rw [s.elapse_off hr]; exact h
  | true =>
    obtain ⟨_, _, _, _, _, _, e⟩ := s.advanceOwn_frame n
    rw [s.elapse_eq hr] at hsending ⊢
    rw [e] at hsending ⊢
    exact h.congr rfl rfl rfl rfl Option.isSome_map hsending rfl

/-- A cell start restarts the window of a LISTENING station, the one whose receiver is on while it is unaligned (R51). -/
theorem State.StationKept.takeCell (h : s.StationKept) (hr : s.receiving = true) (p1 v p3 : Bool) (dominant : Nat) :
    (s.takeCell p1 v p3 dominant).StationKept := by
  unfold State.takeCell
  dsimp only
  split
  · exact h.congr rfl rfl rfl rfl rfl id rfl
  · rename_i ha
    have hoff : s.ctrl.state.onLine = false := by rw [← h.1.aligned]; simpa using ha
    have hs : s.ctrl.state = .listening := by
      revert hr hoff
      simp only [State.receiving, State.isRecovering, State.inState, State.isActive]
      cases s.ctrl.state <;> decide
    exact h.congr rfl rfl rfl rfl (h.1.window.2 hs).symm id rfl

theorem State.elapse_receiving (s : State) (n : Nat) : (s.elapse n).receiving = s.receiving := by
  cases hr : s.receiving with
  | false => rw [s.elapse_off hr, hr]
  | true =>
    obtain ⟨_, _, _, _, _, _, e⟩ := s.advanceOwn_frame n
    rw [s.elapse_eq hr, e]
    exact hr

/-! ### Host commands -/

/-- The command keeps the law of the station state. -/
def Command.KeepsStation (c : Command) : Prop := ∀ u : State, u.StationKept → (c u).1.StationKept

/-- Nothing of the replication is left off the line (R87, R89). -/
theorem State.StationKept.repl_offLine (h : s.StationKept) (hoff : s.ctrl.state.onLine = false) :
    s.repl = { s.repl with agree := 0, disagree := 0, installed := 0, orphan := 0, digest := none } := by
  have noState : ∀ st : StationState, st.onLine = true → s.ctrl.state ≠ st := by
    intro st hst e; rw [e, hst] at hoff; cases hoff
  obtain ⟨hdigest, hagree, hdisagree⟩ := h.1.notActive (noState _ rfl)
  have hinstalled := h.1.offLinePages hoff
  have horphan := h.1.orphanElse (noState _ rfl) (noState _ rfl)
  generalize s.repl = r at *
  cases r
  simp_all only

/-- Nothing is sent in IDLE (R152). -/
theorem State.StationKept.sending_idle (h : s.StationKept) (hs : s.ctrl.state = .idle) : s.line.sending = false := by
  rw [← Bool.not_eq_true]
  intro e
  have hreceiving := h.1.sending e
  simp [State.receiving, State.isRecovering, State.inState, State.isActive, hs] at hreceiving

/-- CONFIGURE takes values in range alone (R154). -/
theorem Command.configure_keepsStation (d t f : Byte) : Command.KeepsStation (State.configure d t f) := by
  intro u h
  unfold State.configure
  split
  · exact h
  · rename_i hidle
    have hs : u.ctrl.state = .idle := by simpa [State.inState] using hidle
    have hoff : u.ctrl.state.onLine = false := by rw [hs]; rfl
    have hleave : u.ctrl.leavePending = false := by
      rw [← Bool.not_eq_true]
      intro e
      rw [h.1.leave e] at hoff; cases hoff
    split
    · exact h
    · rename_i hrange
      have hrange : (1 ≤ d.toNat ∧ d.toNat ≤ 64 ∧ 2 ≤ t.toNat ∧ t.toNat ≤ 7) := by
        simpa only [configureInRange, Bool.not_eq_true', Bool.not_eq_false, decide_eq_true_eq] using hrange
      obtain ⟨hd1, hd2, ht⟩ := hrange
      exact .ofOffLine (hs := hoff) (hc := ⟨⟨hd1, hd2⟩, ht⟩) (aligned := h.1.aligned.trans hoff) (leave := hleave)
        (repl := h.repl_offLine hoff) (window := h.1.window)
        (sending := fun e => absurd e (by simp [h.sending_idle hs])) (tail := h.2.tail)

/-- START enters LISTENING with the window started and nothing of the replication (R42, R87, R155). -/
theorem Command.startStation_keepsStation : Command.KeepsStation State.startStation := by
  intro u h
  unfold State.startStation
  split
  · exact h
  · rename_i hidle
    have hs : u.ctrl.state = .idle ∨ u.ctrl.state = .stopped := by
      simpa only [State.inState, Bool.not_eq_true', Bool.not_eq_false, Bool.or_eq_true, beq_iff_eq] using hidle
    have hleave : u.ctrl.leavePending = false := by
      rw [← Bool.not_eq_true]
      intro e
      have hon := h.1.leave e
      rcases hs with e' | e' <;> rw [e'] at hon <;> cases hon
    split
    · exact h
    · exact .ofOffLine (hs := rfl) (hc := h.config) (aligned := rfl) (leave := hleave) (repl := rfl)
        (window := ⟨fun _ => rfl, fun _ => rfl⟩) (sending := nofun) (tail := h.2.tail)

/-- LEAVE stops a LISTENING station and sets leave pending on the line (R156, R157). -/
theorem Command.leaveLine_keepsStation : Command.KeepsStation State.leaveLine := by
  intro u h
  have pending : u.ctrl.state.onLine = true → State.StationKept { u with ctrl.leavePending := true } := by
    intro hon
    have h1 := h.slotEnd (h.1.aligned.trans hon)
    exact State.SlotEndLaw.kept ⟨h1.aligned, h1.window, h1.config,
      h1.replicated.imp (fun r => ⟨r.orphan, r.rosterFirst, r.uncounted⟩) fun a => ⟨a.state, a.pages, a.votes, a.orphan⟩,
      h1.bounded.position, h1.bounded.tail⟩ h.1.activeDigest
  unfold State.leaveLine
  split
  next => exact h.stop
  next hs => exact pending (by rw [hs]; rfl)
  next hs => exact pending (by rw [hs]; rfl)
  next hs => exact pending (by rw [hs]; rfl)
  all_goals exact h

/-- Either reset leaves an IDLE station (R152, R162, R163). -/
theorem State.StationKept.afterReset (sid snc : Fin 16) (port : HostPort) (pending : List Instr) :
    (State.afterReset sid snc port pending).StationKept :=
  .ofOffLine (hs := rfl) (hc := ⟨⟨Nat.le_of_ble_eq_true rfl, Nat.le_of_ble_eq_true rfl⟩, Nat.le_of_ble_eq_true rfl,
    Nat.le_of_ble_eq_true rfl⟩) (aligned := rfl) (leave := rfl) (repl := rfl)
    (window := ⟨nofun, nofun⟩) (sending := nofun) (tail := fun k _ => by simp [State.rosterEntry, State.afterReset])

theorem State.StationKept.deliver (h : s.StationKept) : s.deliver.StationKept := by
  rcases s.deliver_eq with e | ⟨sr, -, -, e⟩
  · rw [e]; exact h.congr rfl rfl rfl rfl rfl id rfl
  · rw [e]; exact (h.requests (Touches.removeHead s sr)).congr rfl rfl rfl rfl rfl id rfl

theorem State.StationKept.endComplete (h : s.StationKept) {c : Command} (hc : c.KeepsStation) (code : Byte) (n : Nat) :
    (s.endComplete code n c).StationKept := by
  unfold State.endComplete
  split
  · exact h.congr rfl rfl rfl rfl rfl id rfl
  · have h1 : (s.shiftOut n).StationKept := h.congr rfl rfl rfl rfl rfl id rfl
    exact (hc _ h1.deliver).congr rfl rfl rfl rfl rfl id rfl

/-! ### What a row that ends an exchange can do -/

/-- `t` differs from `s` at most in the Request Engine, the Notice Queue and the Host Port. -/
def State.OnlyExchange (s t : State) : Prop := { t with req := s.req, notices := s.notices, port := s.port } = s

theorem State.OnlyRequests.exchange (h : s.OnlyRequests t) : s.OnlyExchange t := by
  have hport := congrArg (fun u : State => { u with port := s.port }) h
  exact hport

theorem State.OnlyExchange.trans {u : State} (h : s.OnlyExchange t) (h' : t.OnlyExchange u) : s.OnlyExchange u := by
  rw [State.OnlyExchange, ← h, ← h']

theorem State.deliver_touches (s : State) : s.OnlyExchange s.deliver := by
  rcases s.deliver_eq with e | ⟨sr, -, -, e⟩
  · rw [e]; rfl
  · rw [e]
    exact (Touches.removeHead s sr).exchange

theorem State.shiftOut_touches (s : State) (n : Nat) : s.OnlyExchange (s.shiftOut n) := rfl
theorem State.holdResponse_touches (s : State) (code : Byte) (r : Reply) : s.OnlyExchange (s.holdResponse code r) := rfl
theorem State.setTruncated_touches (s : State) (b : Bool) : s.OnlyExchange (s.setTruncated b) := rfl
theorem State.closeExchange_touches (s : State) : s.OnlyExchange s.closeExchange := rfl

/-- The exchange of a command on requests. -/
theorem State.endComplete_touches (s : State) {c : Command} (hc : ∀ u : State, u.OnlyRequests (c u).1) (code : Byte)
    (n : Nat) : s.OnlyExchange (s.endComplete code n c) := by
  unfold State.endComplete
  split
  · exact s.closeExchange_touches
  · exact ((((s.shiftOut_touches n).trans (State.deliver_touches _)).trans (hc _).exchange).trans
      (State.holdResponse_touches _ _ _)).trans ((State.setTruncated_touches _ _).trans (State.closeExchange_touches _))

/-- Four commands of the life cycle apart, a row that ends an exchange changes requests, notices and port alone. -/
theorem exchangeRow_cases {i : Instr} (hi : endsExchange i = true) (s : State) :
    (∃ t, exec i s = .next t ∧ s.OnlyExchange t)
    ∨ ∃ code n c, exec i s = .next (s.endComplete code n c)
        ∧ ((∃ d t f, c = State.configure d t f) ∨ c = State.startStation ∨ c = State.leaveLine
          ∨ ∃ sid snc, c = State.resetStation sid snc) := by
  have requests : ∀ {c : Command}, (∀ u : State, u.OnlyRequests (c u).1) → ∀ {code n},
      exec i s = .next (s.endComplete code n c) → ∃ t, exec i s = .next t ∧ s.OnlyExchange t :=
    fun hc _ _ he => ⟨_, he, s.endComplete_touches hc _ _⟩
  cases i <;> simp only [endsExchange, Bool.false_eq_true] at hi
  case configure => exact .inr ⟨_, _, _, rfl, .inl ⟨_, _, _, rfl⟩⟩
  case start => exact .inr ⟨_, _, _, rfl, .inr (.inl rfl)⟩
  case leave => exact .inr ⟨_, _, _, rfl, .inr (.inr (.inl rfl))⟩
  case resetStation => exact .inr ⟨_, _, _, rfl, .inr (.inr (.inr ⟨_, _, rfl⟩))⟩
  all_goals left
  case nop => exact requests State.OnlyRequests.refl rfl
  case status => exact requests State.OnlyRequests.refl rfl
  case acquire => exact requests (fun u => Touches.acquire u _ _ _) rfl
  case release => exact requests (fun u => Touches.release u _) rfl
  case downgrade => exact requests (fun u => Touches.downgradeTag u _) rfl
  case renew => exact requests (fun u => Touches.renewTag u _) rfl
  case queryTag => exact requests (fun u => Touches.queryTag u _) rfl
  case fetch => exact requests Touches.fetchNotice rfl
  case queryLock => exact requests (fun u => Touches.queryLock u _) rfl
  case queryRoster => exact requests Touches.queryRoster rfl
  case unknownCommand => exact requests State.OnlyRequests.refl rfl
  case truncatedExchange code whole =>
    refine ⟨_, rfl, ?_⟩
    split
    · exact s.closeExchange_touches
    · exact ((s.shiftOut_touches whole).trans (State.deliver_touches _)).trans
        ((State.setTruncated_touches _ _).trans (State.closeExchange_touches _))
  case emptyExchange => exact ⟨_, rfl, s.closeExchange_touches⟩

/-! ### Every step -/

/-- A row that ends an exchange keeps the law. -/
theorem exchangeRow_keepsStation {i : Instr} (hi : endsExchange i = true) (h : s.StationKept) :
    ∃ t, exec i s = .next t ∧ t.StationKept := by
  rcases exchangeRow_cases hi s with ⟨t, he, k⟩ | ⟨code, n, c, he, hc⟩
  · have hslots : t.slots = s.slots := by rw [← k]
    exact ⟨t, he, h.congr (by rw [← k]) (by rw [← k]) (by rw [hslots]) (by rw [hslots]) (by rw [hslots])
      (by rw [← k]; exact id) (by rw [← k])⟩
  · refine ⟨_, he, h.endComplete ?_ code n⟩
    rcases hc with ⟨d, t, f, rfl⟩ | rfl | rfl | ⟨sid, snc, rfl⟩
    · exact Command.configure_keepsStation d t f
    · exact Command.startStation_keepsStation
    · exact Command.leaveLine_keepsStation
    · exact fun _ _ => .afterReset _ _ _ _

/-- An aligned station may send (R45). -/
theorem State.StationKept.receiving_of_aligned (h : s.StationKept) (ha : s.slots.aligned = true) :
    s.receiving = true := by
  have hon : s.ctrl.state.onLine = true := h.1.aligned ▸ ha
  revert hon
  simp only [State.receiving, State.isRecovering, State.inState, State.isActive]
  cases s.ctrl.state <;> decide

/-- A LISTENING station has its receiver on (R37). -/
theorem State.receiving_of_listening (hs : s.ctrl.state = .listening) : s.receiving = true := by
  simp [State.receiving, State.inState, hs]

/-- A row of the line or of a timer, EXCHANGE_START and PIN_RESET keep the law. -/
theorem lineRow_keepsStation {i : Instr} (hi : endsExchange i = false) (h : s.StationKept) :
    ∃ t, exec i s = .next t ∧ t.StationKept := by
  cases i <;> simp only [endsExchange, Bool.true_eq_false] at hi
  case pinReset => exact ⟨_, rfl, .afterReset _ _ _ _⟩
  case exchangeStart => exact ⟨_, rfl, h.congr rfl rfl rfl rfl rfl id rfl⟩
  case listeningWindowExpiry =>
    refine ⟨_, rfl, ?_⟩
    split
    · rename_i hx
      have hs : s.ctrl.state = .listening := by
        simp only [State.windowExpired, Bool.and_eq_true, State.inState, beq_iff_eq] at hx
        exact hx.1.1
      exact (h.withLine (State.receiving_of_listening hs) s.coldStart.line).congr rfl rfl rfl rfl
        (h.1.window.2 hs).symm id rfl
    · exact h
  case transmitGapExpiry =>
    refine ⟨_, rfl, ?_⟩
    split
    · rename_i hx
      rw [Bool.and_eq_true] at hx
      have h1 := h.withLine (h.receiving_of_aligned hx.1) s.beginSending.line
      dsimp only
      split <;> exact h1.congr rfl rfl rfl rfl rfl id rfl
    · exact h
  case transmissionEnd =>
    refine ⟨_, rfl, ?_⟩
    split
    · dsimp only
      split
      · rename_i hin
        have hs : s.ctrl.state = .listening := by simpa [State.inState] using hin
        refine h.congr rfl rfl rfl rfl ?_ nofun rfl
        cases s.line.heard
        · exact (h.1.window.2 hs).symm
        · rfl
      · exact h.congr rfl rfl rfl rfl rfl nofun rfl
    · exact h
  case readbackMismatch =>
    refine ⟨_, rfl, ?_⟩
    split
    · exact h.halt _
    · exact h
  case arbitrationLoss =>
    refine ⟨_, rfl, ?_⟩
    split
    · exact h.congr rfl rfl rfl rfl rfl nofun rfl
    · exact h
  case silentSlotEnd =>
    refine ⟨_, rfl, ?_⟩
    split
    · rename_i hx
      rw [Bool.and_eq_true] at hx
      exact h.slotEndRow hx.1 nofun
    · exact h
  case frameSlotEnd =>
    refine ⟨_, rfl, ?_⟩
    split
    · rename_i hx
      rw [Bool.and_eq_true] at hx
      have h1 : s.endReception.StationKept := h.congr rfl rfl rfl rfl rfl id rfl
      exact h1.slotEndRow hx.1 (State.classify_senderWithin h hx.1)
    · exact h
  case listeningReceptionEnd =>
    refine ⟨_, rfl, ?_⟩
    split
    · rename_i hx
      have hs : s.ctrl.state = .listening := by
        simp only [Bool.and_eq_true, State.inState, beq_iff_eq] at hx
        exact hx.1
      have h1 : s.endReception.StationKept := h.congr rfl rfl rfl rfl rfl id rfl
      split
      · exact h1
      · rename_i f hf
        split
        · rename_i hcount
          exact h1.align hs (hcount ▸ Reception.frame_sender_le hf)
        · exact h.halt _
    · exact h
  case leaseExpiry =>
    refine ⟨_, rfl, ?_⟩
    split
    · have T := Touches.cycleEndWork s
      have R := T.rosterTables
      exact h.congr R.ctrl R.repl (by rw [R.slots]) (by rw [R.slots]) (by rw [R.slots]) (by rw [R.line]; exact id) T.roster
    · exact h
  case drop =>
    refine ⟨_, rfl, ?_⟩
    split
    · rename_i hx
      simp only [Bool.and_eq_true] at hx
      have h1 := h.slotEnd hx.1.1.1
      have R := Touches.dropStation s s.slots.position
      refine (h1.dropStation h1.position).kept ?_
      rw [R.ctrl, R.repl]
      exact h.1.activeDigest
    · exact h
  case enterFounding =>
    -- the orphan counter of a SYNCING station is below N (R98)
    refine ⟨s, ?_, h⟩
    refine exec_enterFounding_idle ?_
    by_cases hs : s.ctrl.state = .syncing
    · exact .inr (h.1.orphanSyncing hs)
    · exact .inl hs
  case cellStart =>
    refine ⟨_, rfl, ?_⟩
    split
    · rename_i hr
      exact (h.elapse _).takeCell ((s.elapse_receiving _).trans hr) _ _ _ _
    · exact h

/-- Settles O58: off the line the law is that nothing of the replication is left (StationKept.ofOffLine); on the line each
work of a slot end keeps SlotEndLaw, and the start of the next slot gives an ACTIVE station its digest. -/
theorem stationStaysLawful : Obligations.StationStaysLawful := by
  intro s t hs hb hstep
  have h : s.StationKept := ⟨hs, hb⟩
  unfold step at hstep
  split at hstep
  · obtain rfl := Host.Outcome.next.inj hstep
    exact h.elapse 1
  · rename_i i rest _
    have h1 : State.StationKept { s with pending := rest } := h.congr rfl rfl rfl rfl rfl id rfl
    obtain ⟨u, he, hu⟩ : ∃ u, exec i { s with pending := rest } = .next u ∧ u.StationKept := by
      cases hi : endsExchange i with
      | true => exact exchangeRow_keepsStation hi h1
      | false => exact lineRow_keepsStation hi h1
    obtain rfl := Host.Outcome.next.inj (he.symm.trans hstep)
    exact hu

end Sys2Proof.Machine
end

section
/-! The Line Interface and time: what the timers and the own cells do while time passes (R38 to R44, R51, R59), the cell
start, and the begin and end of an own transmission (R41, R45, R100). -/

namespace Sys2Proof.Machine

variable {s : State}

/-! ### The listening window (R51) -/

/-- The window of a LISTENING station that sends nothing has run out (R51). -/
theorem State.windowExpired_iff (s : State) : s.windowExpired = true ↔
    s.ctrl.state = .listening ∧ s.line.sending = false
    ∧ ∃ k, s.slots.window = some k ∧ (s.ctrl.snc.val + 1 + 2 + s.ctrl.sid.val) * 12 * (12 * s.ctrl.divisor) ≤ k := by
  have hlength : (s.ctrl.snc.val + 1 + 2 + s.ctrl.sid.val) * 12 * (12 * s.ctrl.divisor) = s.windowLength := rfl
  rw [hlength, State.windowExpired, State.inState]
  cases s.slots.window <;> simp [and_assoc]

/-- A window that has run out begins the cold-start FOUND frame (R51, R100). -/
theorem exec_listeningWindowExpiry (h : s.windowExpired = true) :
    exec .listeningWindowExpiry s = .next s.coldStart := by
  show execListeningWindowExpiry s = _
  rw [execListeningWindowExpiry, if_pos h]

@[inherit_doc exec_listeningWindowExpiry]
theorem exec_listeningWindowExpiry_idle (h : s.windowExpired ≠ true) : exec .listeningWindowExpiry s = .next s := by
  show execListeningWindowExpiry s = _
  rw [execListeningWindowExpiry, if_neg h]

/-- Settles O30: the row acts exactly where windowExpired_iff says. -/
theorem windowExpiryBeginsAFoundFrame : Obligations.WindowExpiryBeginsAFoundFrame := by
  rintro s _ rfl
  refine ⟨fun k hs hw hk hoff => ?expired, fun k hw hk => ?short, fun h => ?elsewhere⟩
  case expired => exact exec_listeningWindowExpiry (s.windowExpired_iff.2 ⟨hs, hoff, k, hw, hk⟩)
  case short =>
    refine exec_listeningWindowExpiry_idle fun h => ?_
    obtain ⟨-, -, k', hw', hk'⟩ := s.windowExpired_iff.1 h
    obtain rfl := Option.some.inj (hw.symm.trans hw')
    omega
  case elsewhere =>
    refine exec_listeningWindowExpiry_idle fun hx => ?_
    obtain ⟨hs, hoff, k, hw, -⟩ := s.windowExpired_iff.1 hx
    rcases h with h | h | h
    · exact h hs
    · rw [h] at hw; cases hw
    · rw [h] at hoff; cases hoff

/-! ### The own transmission (R41, R45) -/

/-- The own frame waits where it has been handed over and not begun (R45). -/
theorem State.ownUnsent_iff (s : State) : s.ownUnsent = true ↔ ∃ f tags, s.line.own = some ⟨f, tags, false⟩ := by
  unfold State.ownUnsent
  rcases s.line.own with _ | ⟨f, tags, sent⟩
  · simp
  · cases sent <;> simp

/-- TRANSMIT_GAP_EXPIRY begins the own frame that waits; the slot timer of a waiting slot then stands at G at least
(R41, R45, log 3). -/
theorem exec_transmitGapExpiry (ha : s.slots.aligned = true) (hu : s.ownUnsent = true) :
    exec .transmitGapExpiry s = .next { s.beginSending with
      slots.timer := if s.slots.phase = .waiting then max s.slots.timer (48 * s.ctrl.divisor) else s.slots.timer } := by
  have hgap : Config.transmitGap * s.bitTime = 48 * s.ctrl.divisor := by
    simp only [State.bitTime, Config.transmitGap, Config.clocksPerBit]; omega
  show execTransmitGapExpiry s = _
  simp only [execTransmitGapExpiry, ha, hu, Bool.and_self, if_true, hgap]
  cases s.slots.phase <;> rfl

@[inherit_doc exec_transmitGapExpiry]
theorem exec_transmitGapExpiry_idle (h : s.slots.aligned = false ∨ s.ownUnsent = false) :
    exec .transmitGapExpiry s = .next s := by
  show execTransmitGapExpiry s = _
  rcases h with h | h <;> simp [execTransmitGapExpiry, h]

/-- TRANSMISSION_END by state: the line is released, and a LISTENING station is done with its frame (R41, R51, R100). -/
theorem exec_transmissionEnd (hon : s.line.sending = true) :
    exec .transmissionEnd s = .next (if s.ctrl.state = .listening then
      { s.releaseLine.dropOwnFrame with slots.window := if s.line.heard then s.slots.window else some 0 }
      else s.releaseLine) := by
  show execTransmissionEnd s = _
  simp only [execTransmissionEnd, hon, if_true, State.inState, beq_iff_eq]

/-- Settles O31: the begin by ownUnsent_iff, the end by exec_transmissionEnd in each station state. -/
theorem ownTransmissionBeginsAndEnds : Obligations.OwnTransmissionBeginsAndEnds := by
  intro s
  refine ⟨fun f tags ha hown => ?begins, fun h => ?waits, fun hon hs => ?ends, fun hon hs hheard => ?heard,
    fun hon hs hheard => ?unheard, fun hoff => ?silent⟩
  case begins =>
    rw [exec_transmitGapExpiry ha (s.ownUnsent_iff.2 ⟨f, tags, hown⟩), State.beginSending, hown]
    rfl
  case waits =>
    refine exec_transmitGapExpiry_idle (h.imp_right fun hnone => ?_)
    rw [← Bool.not_eq_true, s.ownUnsent_iff]
    rintro ⟨f, tags, hown⟩
    exact hnone f tags hown
  case ends => rw [exec_transmissionEnd hon, if_neg hs]; rfl
  case heard => rw [exec_transmissionEnd hon, if_pos hs, if_pos hheard]; rfl
  case unheard => rw [exec_transmissionEnd hon, if_pos hs, if_neg (by simp [hheard])]; rfl
  case silent =>
    show execTransmissionEnd s = _
    rw [execTransmissionEnd, if_neg (by simp [hoff])]

/-! ### The samples of the own cells (R59) -/

/-- The twelfths of a bit time from the start of a cell to a sample point (Table 3-1). -/
def SamplePoint.twelfths : SamplePoint → Nat
  | .phase1 => 2
  | .value => 6
  | .phase3 => 10

theorem State.pointClocks_eq_twelfths (s : State) (p : SamplePoint) :
    s.pointClocks p = p.twelfths * s.ctrl.divisor := by
  rw [s.pointClocks_eq]; cases p <;> rfl

/-- A sample point in an own cell by the bits of the frame handed over (R41, R59). -/
theorem State.samplesOwnCellAt_iff (hon : s.line.sending = true) (x twelfths : Nat) (bit : Bool) :
    s.SamplesOwnCellAt x twelfths bit ↔ ∃ k, s.ownBits[k]? = some bit
      ∧ s.bitTime * s.line.shift + s.line.shiftClocks + x = s.bitTime * k + twelfths * s.ctrl.divisor := by
  have hb : s.bitTime = 12 * s.ctrl.divisor := rfl
  have hmoment : ∀ k, (12 * k + twelfths) * s.ctrl.divisor = s.bitTime * k + twelfths * s.ctrl.divisor := by
    intro k; rw [hb, Nat.add_mul, Nat.mul_right_comm]
  simp only [State.SamplesOwnCellAt, hon, true_and, State.ownBits_getElem?, Option.bind_eq_some_iff,
    Option.map_eq_some_iff, hmoment, ← hb]
  constructor
  · rintro ⟨o, k, b, ho, hk, rfl, he⟩
    exact ⟨k, ⟨o, ho, b, hk, rfl⟩, he⟩
  · rintro ⟨k, ⟨o, ho, b, hk, rfl⟩, he⟩
    exact ⟨o, k, b, ho, hk, rfl, he⟩

section
variable (hon : s.line.sending = true) (hd : 1 ≤ s.ctrl.divisor) (hs : s.line.shiftClocks < s.bitTime) (n : Nat)
include hon hd hs

/-- The samples that the next `n` CLKIN periods hold, in the terms of the statements. -/
theorem State.mem_ownSamples_iff (y : OwnSample) : y ∈ s.ownSamples n ↔
    y.clocks < n ∧ s.SamplesOwnCellAt y.clocks y.point.twelfths y.bit
    ∧ (y.dominant = true ↔ s.LineDominantAt y.clocks) := by
  rw [s.mem_ownSamples hd hs, State.samplesOwnCellAt_iff hon, s.pointClocks_eq_twelfths, Bool.eq_iff_iff,
    decide_eq_true_eq, State.LineDominantAt]

/-- The sample at a moment is a mismatch (R59). -/
theorem State.mismatchAt_iff {x : Nat} (hx : x < n) :
    s.MismatchAt x ↔ ∃ y ∈ s.ownSamples n, y.clocks = x ∧ y.isMismatch = true := by
  constructor
  · rintro ⟨hcell, hdom⟩
    have hy := (State.mem_ownSamples_iff hon hd hs n ⟨x, .value, true, true⟩).2 ⟨hx, hcell, by simpa using hdom⟩
    exact ⟨_, hy, rfl, rfl⟩
  · rintro ⟨⟨x, point, bit, dominant⟩, hy, rfl, hm⟩
    obtain ⟨-, hcell, hdom⟩ := (State.mem_ownSamples_iff hon hd hs n _).1 hy
    simp only [OwnSample.isMismatch, Bool.and_eq_true, beq_iff_eq] at hm
    obtain ⟨⟨rfl, rfl⟩, rfl⟩ := hm
    exact ⟨hcell, hdom.1 rfl⟩

/-- The sample at a moment is a cell fault (R59). -/
theorem State.readbackFaultAt_iff {x : Nat} (hx : x < n) :
    s.ReadbackFaultAt x ↔ ∃ y ∈ s.ownSamples n, y.clocks = x ∧ y.isFault = true := by
  have sample : ∀ (point : SamplePoint) (bit dominant : Bool), s.SamplesOwnCellAt x point.twelfths bit →
      (dominant = true ↔ s.LineDominantAt x) → ⟨x, point, bit, dominant⟩ ∈ s.ownSamples n :=
    fun point bit dominant hcell hdom => (State.mem_ownSamples_iff hon hd hs n _).2 ⟨hx, hcell, hdom⟩
  constructor
  · rintro (⟨bit, hcell, hdom⟩ | ⟨hcell, hdom⟩ | ⟨bit, hcell, hdom⟩)
    · exact ⟨_, sample .phase1 bit false hcell (by simpa using hdom), rfl, rfl⟩
    · exact ⟨_, sample .value false false hcell (by simpa using hdom), rfl, rfl⟩
    · exact ⟨_, sample .phase3 bit true hcell (by simpa using hdom), rfl, rfl⟩
  · rintro ⟨⟨x, point, bit, dominant⟩, hy, rfl, hf⟩
    obtain ⟨-, hcell, hdom⟩ := (State.mem_ownSamples_iff hon hd hs n _).1 hy
    dsimp only at hcell hdom
    cases point <;> simp only [OwnSample.isFault, Bool.and_eq_true, Bool.not_eq_true'] at hf
    case phase1 => exact .inl ⟨bit, hcell, by simp [← hdom, hf]⟩
    case value =>
      obtain ⟨rfl, hf⟩ := hf
      exact .inr (.inl ⟨hcell, by simp [← hdom, hf]⟩)
    case phase3 => exact .inr (.inr ⟨bit, hcell, hdom.1 hf⟩)

end

/-- A mismatch is no cell fault (R59). -/
theorem OwnSample.isFault_of_isMismatch {y : OwnSample} (h : y.isMismatch = true) : y.isFault = false := by
  obtain ⟨x, point, bit, dominant⟩ := y
  simp only [OwnSample.isMismatch, Bool.and_eq_true, beq_iff_eq] at h
  obtain ⟨⟨rfl, rfl⟩, rfl⟩ := h
  rfl

/-- Samples at one moment are one sample. -/
theorem State.ownSamples_inj (hd : 1 ≤ s.ctrl.divisor) {n : Nat} {x y : OwnSample} (hx : x ∈ s.ownSamples n)
    (hy : y ∈ s.ownSamples n) (he : x.clocks = y.clocks) : x = y := by
  have hinc := (s.ownSamples_increasing hd n).imp fun {a b} h => (Nat.ne_of_lt h : a.clocks ≠ b.clocks)
  exact List.inj_on_of_nodup_map (List.pairwise_map.2 hinc) hx hy he

section
variable (hon : s.line.sending = true) (hd : 1 ≤ s.ctrl.divisor) (hs : s.line.shiftClocks < s.bitTime) (n : Nat)
include hon hd hs

theorem State.exists_mismatch_iff : (∃ y ∈ s.ownSamples n, y.isMismatch = true) ↔ ∃ x < n, s.MismatchAt x := by
  constructor
  · rintro ⟨y, hy, hm⟩
    have hlt := ((State.mem_ownSamples_iff hon hd hs n y).1 hy).1
    exact ⟨y.clocks, hlt, (State.mismatchAt_iff hon hd hs n hlt).2 ⟨y, hy, rfl, hm⟩⟩
  · rintro ⟨x, hx, hm⟩
    obtain ⟨y, hy, -, hm⟩ := (State.mismatchAt_iff hon hd hs n hx).1 hm
    exact ⟨y, hy, hm⟩

/-- The samples up to the first mismatch hold a cell fault (R59). -/
theorem State.exists_fault_iff :
    (∃ y ∈ (s.ownSamples n).takeWhile (fun y => !y.isMismatch), y.isFault = true)
      ↔ ∃ x < n, s.ReadbackFaultAt x ∧ ∀ y < x, ¬ s.MismatchAt y := by
  have hmem := mem_takeWhile_increasing (s.ownSamples_increasing hd n) OwnSample.isMismatch
  constructor
  · rintro ⟨y, hy, hf⟩
    obtain ⟨hy, hbefore⟩ := (hmem y).1 hy
    have hlt := ((State.mem_ownSamples_iff hon hd hs n y).1 hy).1
    refine ⟨y.clocks, hlt, (State.readbackFaultAt_iff hon hd hs n hlt).2 ⟨y, hy, rfl, hf⟩, fun x hx hm => ?_⟩
    obtain ⟨z, hz, rfl, hmz⟩ := (State.mismatchAt_iff hon hd hs n (hx.trans hlt)).1 hm
    exact absurd (hbefore z hz hmz) (Nat.lt_asymm hx)
  · rintro ⟨x, hx, hf, hnone⟩
    obtain ⟨y, hy, rfl, hfy⟩ := (State.readbackFaultAt_iff hon hd hs n hx).1 hf
    refine ⟨y, (hmem y).2 ⟨hy, fun z hz hm => ?_⟩, hfy⟩
    have hle : y.clocks ≤ z.clocks := by
      by_contra hlt
      have hlt := Nat.lt_of_not_le hlt
      exact hnone z.clocks hlt ((State.mismatchAt_iff hon hd hs n (hlt.trans hx)).2 ⟨z, hz, rfl, hm⟩)
    refine lt_of_le_of_ne hle fun he => ?_
    obtain rfl := State.ownSamples_inj hd hy hz he
    rw [OwnSample.isFault_of_isMismatch hm] at hfy
    cases hfy

end

/-! ### The passing of time -/

/-- Time that passes with no event changes what is sent and read back, and the timers, alone. -/
theorem State.elapse_frame (s : State) (n : Nat) :
    { s.elapse n with
      line.sending := s.line.sending, line.shift := s.line.shift, line.shiftClocks := s.line.shiftClocks
      line.mismatch := s.line.mismatch, line.ownFault := s.line.ownFault, line.rx.fault := s.line.rx.fault
      line.sinceCell := s.line.sinceCell, slots.timer := s.slots.timer, slots.window := s.slots.window } = s := by
  cases hr : s.receiving with
  | false => rw [s.elapse_off hr]
  | true =>
    obtain ⟨_, _, _, _, _, _, e⟩ := s.advanceOwn_frame n
    rw [s.elapse_eq hr, e]

/-- Where nothing is sent, nothing is read back (R41, R59). -/
theorem State.elapse_idle (hoff : s.line.sending = false) (n : Nat) :
    (s.elapse n).line.sending = false ∧ (s.elapse n).line.shift = s.line.shift
    ∧ (s.elapse n).line.shiftClocks = s.line.shiftClocks ∧ (s.elapse n).line.mismatch = s.line.mismatch
    ∧ (s.elapse n).line.ownFault = s.line.ownFault ∧ (s.elapse n).line.rx.fault = s.line.rx.fault := by
  cases hr : s.receiving with
  | false => rw [s.elapse_off hr]; exact ⟨hoff, rfl, rfl, rfl, rfl, rfl⟩
  | true => rw [s.elapse_eq hr, s.advanceOwn_idle hoff]; exact ⟨hoff, rfl, rfl, rfl, rfl, rfl⟩

/-- An own transmission while time passes: its place or, on the first mismatch, its release, and what is read back (R41,
R59). -/
theorem State.elapse_own (hr : s.receiving = true) (hon : s.line.sending = true) (hd : 1 ≤ s.ctrl.divisor)
    (hs : s.line.shiftClocks < s.bitTime) (n : Nat) : ∃ fault mismatch : Bool,
    (fault = true ↔ ∃ x < n, s.ReadbackFaultAt x ∧ ∀ y < x, ¬ s.MismatchAt y)
    ∧ (mismatch = true ↔ ∃ x < n, s.MismatchAt x)
    ∧ (s.elapse n).line.sending = !mismatch
    ∧ (s.elapse n).line.shift
      = (if mismatch then 0 else min s.ownCells (s.line.shift + (s.line.shiftClocks + n) / s.bitTime))
    ∧ (s.elapse n).line.shiftClocks = (if mismatch then 0 else (s.line.shiftClocks + n) % s.bitTime)
    ∧ (s.elapse n).line.ownFault = (s.line.ownFault || fault)
    ∧ (s.elapse n).line.mismatch = (s.line.mismatch || mismatch)
    ∧ (s.elapse n).line.rx.fault = (s.line.rx.fault || (s.line.rx.inProgress && fault)) := by
  obtain ⟨fault, mismatch, hfault, hmismatch, e⟩ := s.advanceOwn_eq hon n
  refine ⟨fault, mismatch, hfault.trans (State.exists_fault_iff hon hd hs n),
    hmismatch.trans (State.exists_mismatch_iff hon hd hs n), ?_⟩
  rw [s.elapse_eq hr, e]
  exact ⟨rfl, rfl, rfl, rfl, rfl, rfl⟩

/-- Settles O2: elapse_own for an own transmission, elapse_eq for the timers, elapse_frame for all else. -/
theorem idleStepMovesTimersAlone : Obligations.IdleStepMovesTimersAlone := by
  refine ⟨fun s hp => ?step, ?_⟩
  case step => rw [step, hp]
  rintro s _ n _ rfl rfl
  refine ⟨s.elapse_frame n, fun hr => s.elapse_off hr n, fun hoff => State.elapse_idle hoff n,
    fun hr hon hd hs => ?own, fun hr ha hph => ?waiting, fun hr ha hph => ?inFrame, fun ha => ?unaligned,
    fun hr k hk => ?window, fun hw => ?stopped, fun hr => ?sinceCell⟩
  case own =>
    obtain ⟨fault, mismatch, hfault, hmismatch, e1, e2, e3, e4, e5, e6⟩ := State.elapse_own hr hon hd hs n
    rw [e1, e2, e3, e4, e5, e6]
    refine ⟨?_, ?_, ?_, fun hx => ?_, fun hx => ?_⟩
    · rw [Bool.or_eq_true, hmismatch]
    · rw [Bool.or_eq_true, hfault]
    · rw [Bool.or_eq_true, Bool.and_eq_true, hfault]
    · rw [hmismatch.2 hx]
      exact ⟨rfl, rfl, rfl⟩
    · have hnone : mismatch = false := by
        rw [← Bool.not_eq_true, hmismatch]
        rintro ⟨x, hlt, hm⟩
        exact hx x hlt hm
      rw [hnone]
      refine ⟨rfl, rfl, fun o ho => ?_⟩
      rw [State.ownCells, ho]
      rfl
  case waiting => simp only [s.elapse_eq hr, ha, hph, if_true]; rfl
  case inFrame => simp only [s.elapse_eq hr, ha, hph, if_true]; rfl
  case unaligned =>
    cases hr : s.receiving with
    | false => rw [s.elapse_off hr]
    | true => rw [s.elapse_eq hr]; simp [ha]
  case window => rw [s.elapse_eq hr]; simp only [hk]; rfl
  case stopped =>
    cases hr : s.receiving with
    | false => rw [s.elapse_off hr, hw]
    | true => rw [s.elapse_eq hr]; simp [hw]
  case sinceCell => rw [s.elapse_eq hr]; rfl

/-! ### The cell start (R39, R40) -/

/-- Below 1076 bytes a cell joins the bits received, and the eighth makes a byte (R40). -/
theorem Reception.take_storing {rx : Reception} (hbytes : rx.bytes.length < 1076) (hcells : rx.cells.length < 8)
    (bit fault : Bool) : (rx.take bit fault).receivedBits = rx.receivedBits ++ [bit]
      ∧ (rx.take bit fault).cells.length < 8 ∧ (rx.take bit fault).overLong = rx.overLong := by
  have hroom : ¬ Config.receiveBytes ≤ rx.bytes.length := by rw [show Config.receiveBytes = 1076 from rfl]; omega
  rw [Reception.take, if_neg hroom]
  dsimp only
  by_cases h : (rx.cells ++ [bit]).length = 8
  · rw [if_pos h]
    refine ⟨?_, Nat.zero_lt_succ _, rfl⟩
    simp [Reception.receivedBits, byteBits_byteOfBits _ h]
  · rw [if_neg h]
    refine ⟨by simp [Reception.receivedBits], ?_, rfl⟩
    simp only [List.length_append, List.length_singleton] at h ⊢
    omega

/-- Past 1076 bytes nothing is stored, and the reception is over-long (R40). -/
theorem Reception.take_overLong {rx : Reception} (hbytes : 1076 ≤ rx.bytes.length) (bit fault : Bool) :
    (rx.take bit fault).bytes = rx.bytes ∧ (rx.take bit fault).cells = rx.cells
      ∧ (rx.take bit fault).overLong = true := by
  rw [Reception.take, if_pos (show Config.receiveBytes ≤ rx.bytes.length from hbytes)]
  exact ⟨rfl, rfl, rfl⟩

theorem Reception.take_marks (rx : Reception) (bit fault : Bool) :
    (rx.take bit fault).inProgress = true ∧ (rx.take bit fault).fault = (rx.fault || fault) := by
  unfold Reception.take
  dsimp only
  split_ifs <;> exact ⟨rfl, rfl⟩

/-- A cell start by alignment: a frame slot at an aligned station, a window that restarts elsewhere (R43, R51). -/
theorem State.takeCell_eq (w : State) (phase1 value phase3 : Bool) (dominant : Nat) :
    w.takeCell phase1 value phase3 dominant = { w with
      line.rx := (if w.line.rx.inProgress then w.line.rx else .empty).take (!value)
        (cellFault phase1 phase3 || (w.line.sending && w.line.ownFault) || (w.line.rx.inProgress && w.timingFault))
      line.sinceCell := 0, line.dominant := dominant, line.heard := true
      slots.phase := if w.slots.aligned then .inFrame else w.slots.phase
      slots.timer := if w.slots.aligned then 0 else w.slots.timer
      slots.window := if w.slots.aligned then w.slots.window else some 0 } := by
  unfold State.takeCell
  cases w.slots.aligned <;> cases w.line.rx.inProgress <;> rfl

/-- The time since the latest cell start stands past every cell timing that is no fault (R39). -/
theorem State.timingFault_elapse (hr : s.receiving = true) (hd : 1 ≤ s.ctrl.divisor) (n : Nat) :
    (s.elapse n).timingFault = decide (10 * (s.line.sinceCell + n) < 9 * (12 * s.ctrl.divisor)
      ∨ 11 * (12 * s.ctrl.divisor) < 10 * (s.line.sinceCell + n)) := by
  have hbit : (s.elapse n).bitTime = 12 * s.ctrl.divisor := by
    obtain ⟨_, _, _, _, _, _, e⟩ := s.advanceOwn_frame n
    rw [s.elapse_eq hr, e]; rfl
  have hsince : (s.elapse n).line.sinceCell
      = min (s.line.sinceCell + n) (2 * (12 * s.ctrl.divisor) + max (12 * s.ctrl.divisor) s.line.dominant) := by
    rw [s.elapse_eq hr]; rfl
  unfold State.timingFault
  rw [hbit, hsince]
  refine decide_eq_decide.2 ?_
  omega

/-- Settles O29: the time before the cell by elapse_frame, the cell by takeCell_eq and the rules of Reception.take. -/
theorem cellStartTakesTheCell : Obligations.CellStartTakesTheCell := by
  intro after phase1 value phase3 dominant s
  have hexec : exec (.cellStart after phase1 value phase3 dominant) s
      = execCellStart after phase1 value phase3 dominant s := rfl
  rw [hexec, execCellStart]
  refine ⟨fun hoff => by rw [hoff]; rfl, fun hr hd hcells => ?_⟩
  rintro w old rfl rfl
  rw [if_pos hr]
  obtain ⟨hprogress, hheld, haligned, hphase⟩ : (s.elapse after).line.rx.inProgress = s.line.rx.inProgress
      ∧ (s.elapse after).line.rx.cells = s.line.rx.cells ∧ (s.elapse after).slots.aligned = s.slots.aligned
      ∧ (s.elapse after).slots.phase = s.slots.phase := by
    rw [s.elapse_eq hr]
    obtain ⟨_, _, _, _, _, _, e⟩ := s.advanceOwn_frame after
    rw [e]
    exact ⟨rfl, rfl, rfl, rfl⟩
  have htimer : s.slots.aligned = false → (s.elapse after).slots.timer = s.slots.timer := by
    intro ha; rw [s.elapse_eq hr]; simp [ha]
  have hwindow : s.slots.window = none → (s.elapse after).slots.window = none := by
    intro hw; rw [s.elapse_eq hr]; simp [hw]
  have hfault := State.timingFault_elapse hr hd after
  generalize s.elapse after = w at *
  have hold : (if w.line.rx.inProgress then w.line.rx else .empty : Reception).cells.length < 8 := by
    split
    · rw [hheld]; exact hcells
    · exact Nat.zero_lt_succ _
  refine ⟨_, rfl, ?_⟩
  rw [w.takeCell_eq, ← hprogress, haligned]
  refine ⟨(Reception.take_marks _ _ _).1, fun hb => Reception.take_storing hb hold _ _,
    fun hb => Reception.take_overLong hb _ _, ?fault, fun ha => ?aligned, fun ha => ?unaligned, rfl, rfl, rfl, rfl⟩
  case fault =>
    rw [← hfault, (Reception.take_marks _ _ _).2, cellFault]
    simp only [Bool.or_assoc]
    rfl
  case aligned =>
    simp only [ha, if_true]
    exact ⟨trivial, trivial, hwindow⟩
  case unaligned =>
    simp only [ha, Bool.false_eq_true, if_false]
    exact ⟨trivial, hphase, htimer ha⟩

end Sys2Proof.Machine
end

section
/-! Slot starts (R43, R45, R46, R54 to R58, R89): the position, the digest, and the own frame. -/

namespace Sys2Proof.Machine

variable {s t : State}

/-! ### The position and the digest -/

theorem State.nextPosition_by_position (s : State) : s.nextPosition = { s with
    slots.position := if s.slots.position = s.ctrl.snc then 0 else s.slots.position + 1
    slots.cycle := if s.slots.position = s.ctrl.snc then s.slots.cycle + 1 else s.slots.cycle } := by
  unfold State.nextPosition State.inLastSlot
  by_cases h : s.slots.position = s.ctrl.snc <;> simp [h]

theorem vector_toList_eq_map {α : Type} {n : Nat} (v : Vector α n) :
    v.toList = (List.finRange n).map fun k => v[k] := by
  refine List.ext_getElem (by simp) fun i h1 h2 => ?_
  simp

/-- The byte of a roster state in the digest: its code in bits 7 and 6 (R89, R165). -/
def RosterState.digestByte : RosterState → Byte
  | .absent => 0x00
  | .syncing => 0x40
  | .active => 0x80

/-- The bytes of the digest: the 16 state codes, then the 64 records (R89). -/
def State.digestBytes (s : State) : List Byte :=
  (List.finRange 16).map (fun k => (s.rosterEntry k).state.digestByte)
    ++ (List.finRange 64).flatMap fun l => (s.lock l).toBytes

theorem State.computeDigest_eq (s : State) : s.computeDigest = crc16 s.digestBytes := by
  have hcode : ∀ st : RosterState, BitVec.ofNat 8 (64 * rosterCode st) = st.digestByte := by
    intro st; cases st <;> rfl
  rw [State.computeDigest, digestInput, vector_toList_eq_map, vector_toList_eq_map, List.map_map, List.flatMap_map]
  simp only [Function.comp_def, hcode]
  rfl

/-- The slot start but for the own frame: phase, timer and digest, and nothing sent (R43, R46, R89). -/
theorem State.slotOpened_nextPosition (s : State) : s.nextPosition.slotOpened = { s with
    slots.position := if s.slots.position = s.ctrl.snc then 0 else s.slots.position + 1
    slots.cycle := if s.slots.position = s.ctrl.snc then s.slots.cycle + 1 else s.slots.cycle
    slots.phase := .waiting, slots.timer := 0
    line.own := none, line.sending := false, line.shift := 0, line.shiftClocks := 0
    line.ownFault := false, line.mismatch := false
    repl.digest := if s.ctrl.state = .active then some (crc16 s.digestBytes) else none } := by
  rw [← s.computeDigest_eq, s.nextPosition_by_position]
  simp only [State.slotOpened, State.isActive, beq_iff_eq]
  rfl

/-- The next slot starts: the own frame is built in the own slot alone (R45, R46). -/
theorem State.nextSlot_eq (s : State) : s.nextSlot =
    if (if s.slots.position = s.ctrl.snc then 0 else s.slots.position + 1) = s.ctrl.sid then
      s.nextPosition.slotOpened.buildOwnFrame
    else s.nextPosition.slotOpened := by
  have hown : s.nextPosition.slotOpened.inOwnSlot = true
      ↔ (if s.slots.position = s.ctrl.snc then 0 else s.slots.position + 1) = s.ctrl.sid := by
    rw [s.slotOpened_nextPosition]; exact beq_iff_eq
  rw [State.nextSlot, State.slotStart_eq]
  exact if_congr hown rfl rfl

/-- Settles O35: nextSlot_eq where the slot is not the own one. -/
theorem slotStartOfAnothersSlot : Obligations.SlotStartOfAnothersSlot := by
  intro s h
  rw [s.nextSlot_eq, if_neg h, s.slotOpened_nextPosition]
  rfl

/-! ### The own frame -/

theorem State.foldl_setOpStatus_req_congr (st : OpStatus) (mark : Bool) (tags : List Tag) :
    ∀ {s t : State}, t.req = s.req → (tags.foldl (fun s g => s.setOpStatus g st mark) t).req
      = (tags.foldl (fun s g => s.setOpStatus g st mark) s).req := by
  induction tags with
  | nil => exact id
  | cons g tags ih =>
    intro s t h
    refine ih ?_
    simp only [State.setOpStatus, State.setEntry, State.entry, h]

/-- The draw reads the Request Engine alone (R116). -/
theorem State.draw_congr (h : t.req = s.req) :
    t.draw.1 = s.draw.1 ∧ t.draw.2.1 = s.draw.2.1 ∧ t.draw.2.2.req = s.draw.2.2.req := by
  have hentry : t.entry = s.entry := by funext g; rw [State.entry, h]; rfl
  have hheld : t.heldBack = s.heldBack := by funext g; simp only [State.heldBack, hentry, h]
  refine ⟨?_, ?_, ?_⟩
  · simp only [State.draw, hentry, hheld, h]
  · simp only [State.draw, hheld, h]
  · simp only [State.draw, hheld, h]
    exact State.foldl_setOpStatus_req_congr _ _ _ rfl

/-- Another station is SYNCING in the roster (R57). -/
theorem State.otherSyncing_iff (s : State) :
    s.otherSyncing = true ↔ ∃ k, k ≠ s.ctrl.sid ∧ (s.rosterEntry k).state = .syncing := by
  simp [State.otherSyncing]

theorem filter_lockPage (p : Fin 8) : (allLocks.filter fun l => lockPage l == p.val + 1)
    = (List.finRange 8).map fun j => ⟨8 * p.val + j.val, by omega⟩ := by
  unfold allLocks
  revert p
  decide

/-- Page 0 is the roster (R57). -/
theorem State.pageUnderCursor_roster (h : s.pageCursor.val = 0) : s.pageUnderCursor = .roster s.roster.toList := by
  rw [State.pageUnderCursor, dif_pos h]

/-- Pages 1 to 8 are 8 records each (R57). -/
theorem State.pageUnderCursor_locks (p : Fin 8) (h : s.pageCursor.val = p.val + 1) :
    s.pageUnderCursor = .locks p ((List.finRange 8).map fun j => s.lock ⟨8 * p.val + j.val, by omega⟩) := by
  have hpage : (⟨s.pageCursor.val - 1, by omega⟩ : Fin 8) = p := Fin.ext (by simp [h])
  rw [State.pageUnderCursor, dif_neg (by omega), hpage, h, filter_lockPage, List.map_map]
  rfl

/-- Off the line no own frame is built (R55). -/
theorem State.buildOwnFrame_offLine (h : s.ctrl.state.onLine = false) : s.buildOwnFrame = s := by
  have hstatus : s.ownStatus = none := by
    unfold State.ownStatus
    generalize s.ctrl.state = st at h
    cases st with
    | idle | listening | stopped | halted => rfl
    | syncing | founding | active => cases h
  rw [State.buildOwnFrame, hstatus]

/-- The status of a frame that is not ACTIVE (Table 4-1). -/
def State.plainStatus (s : State) : FrameStatus :=
  if s.ctrl.leavePending then .leave
  else if s.ctrl.state = .founding then .found
  else if s.repl.joinPending then .join else .syncing

/-- A leaving station, or one that is not ACTIVE, sends a frame with no operation and no page (R55, R58). -/
theorem State.buildOwnFrame_plain (hline : s.ctrl.state.onLine = true)
    (h : s.ctrl.leavePending = true ∨ s.ctrl.state ≠ .active) :
    s.buildOwnFrame = { s with line.own := some ⟨s.plainFrame s.plainStatus s.slots.cycle, [], false⟩ } := by
  have hstatus : s.ownStatus = some s.plainStatus := by
    unfold State.ownStatus State.plainStatus
    cases hs : s.ctrl.state <;> rw [hs] at hline h
    case syncing => simp
    case founding => simp
    case active => simp [h.resolve_right fun hne => hne rfl]
    all_goals cases hline
  have hne : s.plainStatus ≠ .active := by
    unfold State.plainStatus
    split_ifs <;> exact nofun
  unfold State.buildOwnFrame
  rw [hstatus]
  generalize s.plainStatus = st at hne
  cases st
  case active => exact absurd rfl hne
  all_goals rfl

/-- An ACTIVE frame has the digest, the draw, and the page under the cursor where another station is SYNCING (R56 to
R58). -/
theorem State.buildOwnFrame_active (hs : s.ctrl.state = .active) (hl : s.ctrl.leavePending = false) :
    s.buildOwnFrame.line.own = some ⟨⟨s.ctrl.sid, s.ctrl.snc, .active, s.slots.cycle, s.repl.digest.getD 0, s.draw.1,
        if s.otherSyncing then some s.pageUnderCursor else none⟩, s.draw.2.1, false⟩
    ∧ s.buildOwnFrame.pageCursor = (if s.otherSyncing then nextCursor s.pageCursor else s.pageCursor)
    ∧ s.buildOwnFrame.req = s.draw.2.2.req := by
  have hstatus : s.ownStatus = some .active := by simp [State.ownStatus, hs, hl]
  rw [State.buildOwnFrame, hstatus]
  exact ⟨rfl, rfl, rfl⟩

/-- The own frame is handed to the Line Interface; the draw and the page cursor are all else that changes (R54 to
R58). -/
theorem State.buildOwnFrame_frame (s : State) :
    { s.buildOwnFrame with line.own := s.line.own, pageCursor := s.pageCursor, req := s.req } = s := by
  rcases s.buildOwnFrame_cases with ⟨-, e⟩ | ⟨-, f, c, -, -, -, -, e⟩ | ⟨st, -, -, e⟩ <;> rw [e]
  have hdraw : { s.draw.2.2 with req := s.req, notices := s.notices } = s := Touches.draw s
  rw [← s.draw_notices] at hdraw
  exact .trans (congrArg (fun u : State => { u with line.own := s.line.own, pageCursor := s.pageCursor }) hdraw) rfl

/-- The page of a frame depends on own number, cursor, roster and records alone (R57). -/
theorem State.page_congr (ctrl : t.ctrl = s.ctrl) (cursor : t.pageCursor = s.pageCursor) (roster : t.roster = s.roster)
    (locks : t.locks = s.locks) : t.otherSyncing = s.otherSyncing ∧ t.pageUnderCursor = s.pageUnderCursor := by
  have hlock : t.lock = s.lock := by funext l; rw [State.lock, locks]; rfl
  refine ⟨?_, ?_⟩
  · simp only [State.otherSyncing, State.rosterEntry, ctrl, roster]
  · simp only [State.pageUnderCursor, cursor, roster, hlock]

/-- The page of an ACTIVE frame, and the cursor after it (R57). -/
theorem State.activePage (s : State) (page : Option Page) (cursor : Fin 9)
    (hpage : page = if s.otherSyncing then some s.pageUnderCursor else none)
    (hcursor : cursor = if s.otherSyncing then nextCursor s.pageCursor else s.pageCursor) :
    ((∀ k, k ≠ s.ctrl.sid → (s.rosterEntry k).state ≠ .syncing) → page = none ∧ cursor = s.pageCursor)
    ∧ ∀ k, k ≠ s.ctrl.sid → (s.rosterEntry k).state = .syncing →
        cursor.val = (s.pageCursor.val + 1) % 9
        ∧ (s.pageCursor.val = 0 → page = some (.roster s.roster.toList))
        ∧ ∀ p : Fin 8, s.pageCursor.val = p.val + 1 →
            page = some (.locks p ((List.finRange 8).map fun j => s.lock ⟨8 * p.val + j.val, by omega⟩)) := by
  refine ⟨fun hnone => ?_, fun k hk hsyncing => ?_⟩
  · have hno : ¬ s.otherSyncing = true := by
      rw [s.otherSyncing_iff]; rintro ⟨k, hk, hs⟩; exact hnone k hk hs
    rw [hpage, hcursor, if_neg hno, if_neg hno]
    exact ⟨rfl, rfl⟩
  · have hyes : s.otherSyncing = true := s.otherSyncing_iff.2 ⟨k, hk, hsyncing⟩
    rw [hpage, hcursor, if_pos hyes, if_pos hyes]
    refine ⟨Fin.val_add _ _, fun h0 => ?_, fun p hp => ?_⟩
    · rw [State.pageUnderCursor_roster h0]
    · rw [State.pageUnderCursor_locks p hp]

/-- Settles O36: the slot start by slotOpened_nextPosition, the own frame by buildOwnFrame_plain and
buildOwnFrame_active, all else by buildOwnFrame_frame. -/
theorem ownSlotStartBuildsTheFrame : Obligations.OwnSlotStartBuildsTheFrame := by
  rintro s _ _ hown rfl rfl
  rw [s.nextSlot_eq, if_pos hown]
  have hopened := s.slotOpened_nextPosition
  rw [hown] at hopened
  generalize s.nextPosition.slotOpened = u at hopened
  have hframe := u.buildOwnFrame_frame
  have hctrl : u.ctrl = s.ctrl := by rw [hopened]
  have hrepl : u.buildOwnFrame.repl = u.repl := (congrArg State.repl hframe :)
  refine ⟨fun hoff => ?offLine, fun hon hplain => ?plain, fun hs hl => ?active, ?slots, ?line, ?repl, ?rest⟩
  case offLine => rw [State.buildOwnFrame_offLine (hctrl ▸ hoff), hopened]
  case plain =>
    rw [State.buildOwnFrame_plain (s := u) (hctrl ▸ hon) (hctrl ▸ hplain), hopened]
    exact ⟨rfl, rfl, rfl⟩
  case active =>
    have hdigest : u.repl.digest = some (crc16 s.digestBytes) := by rw [hopened]; simp only [hs, if_true]
    obtain ⟨hbuilt, hcursorAfter, hreqAfter⟩ := State.buildOwnFrame_active (s := u) (hctrl ▸ hs) (hctrl ▸ hl)
    obtain ⟨hops, htags, hreq⟩ := State.draw_congr (show u.req = s.req by rw [hopened])
    obtain ⟨hother, hpage⟩ :=
      State.page_congr (s := s) (t := u) hctrl (by rw [hopened]) (by rw [hopened]) (by rw [hopened])
    have hcursor : u.pageCursor = s.pageCursor := by rw [hopened]
    have hcycle : u.slots.cycle = if s.slots.position = s.ctrl.snc then s.slots.cycle + 1 else s.slots.cycle := by
      rw [hopened]
    refine ⟨crc16 s.digestBytes, if s.otherSyncing then some s.pageUnderCursor else none, ?own, hrepl ▸ hdigest, ?req,
      s.activePage _ _ rfl ?cursor⟩
    case own => rw [hbuilt, hother, hpage, hops, htags, hdigest, Option.getD_some, hctrl, hcycle]
    case req => exact hreqAfter.trans hreq
    case cursor => rw [hcursorAfter, hother, hcursor]
  case slots =>
    have hslots : u.buildOwnFrame.slots = u.slots := (congrArg State.slots hframe :)
    rw [hslots, hopened]
  case line =>
    have hline : { u.buildOwnFrame.line with own := u.line.own } = u.line := (congrArg State.line hframe :)
    have hopenedLine : u.line = { s.line with
        own := none, sending := false, shift := 0, shiftClocks := 0, ownFault := false, mismatch := false } := by
      rw [hopened]
    exact (congrArg (fun l : LineInterface => { l with own := u.buildOwnFrame.line.own }) (hline.trans hopenedLine) :)
  case repl => rw [hrepl, hopened]; rfl
  case rest =>
    obtain ⟨hnotices, hroster, hlocks, hcontrol, hport⟩ : u.buildOwnFrame.notices = u.notices
        ∧ u.buildOwnFrame.roster = u.roster ∧ u.buildOwnFrame.locks = u.locks ∧ u.buildOwnFrame.ctrl = u.ctrl
        ∧ u.buildOwnFrame.port = u.port :=
      ⟨(congrArg State.notices hframe :), (congrArg State.roster hframe :), (congrArg State.locks hframe :),
        (congrArg State.ctrl hframe :), (congrArg State.port hframe :)⟩
    rw [hnotices, hroster, hlocks, hcontrol, hport, hopened]
    exact ⟨rfl, rfl, rfl, rfl, rfl⟩

end Sys2Proof.Machine
end

section
/-! The reception of a LISTENING station: the halt on another slot count (R67), and the alignment on a frame (R52, R88,
R101 to R103, R122). -/

namespace Sys2Proof.Machine

variable {s t : State}

/-! ### The halt (R124, R160) -/

/-- A FAULT raise leaves a FAULT notice with its faults, and with those of the unread one (R129). -/
theorem State.raise_fault_mem (s : State) (x : FaultSet) :
    ∃ n ∈ (s.raise (.fault x)).notices.queue, ∃ f, n.body = .fault f ∧ (f = x ∨ ∃ y : FaultSet, f = y.union x) := by
  rw [State.raise_notices_queue]
  generalize s.notices.serial + 1 = serial
  induction s.notices.queue with
  | nil => exact ⟨_, List.mem_singleton_self _, x, rfl, .inl rfl⟩
  | cons n rest ih =>
    rw [raiseOnto]
    split
    · rename_i howner
      refine ⟨_, List.mem_cons_self, ?_⟩
      cases hn : n.body with
      | fault y => exact ⟨y.union x, rfl, .inr ⟨y, rfl⟩⟩
      | update | ended | sync | roster | tableLost => rw [hn] at howner; cases howner
    · obtain ⟨m, hm, h⟩ := ih
      exact ⟨m, List.mem_cons_of_mem _ hm, h⟩

/-- The end of every live entry leaves the notices that belong to no tag (R125, R128). -/
theorem State.mem_endAll_station {n : Notice} (hn : n ∈ s.notices.queue) (howner : ∀ g, n.body.owner ≠ .tag g)
    (o : EndOutcome) : n ∈ (s.endAll o).notices.queue := by
  refine foldl_holds (P := fun t : State => n ∈ t.notices.queue) (fun t g ht => ?_) allTags s hn
  unfold State.endLive
  split
  · exact State.raise_mem_other ht (howner g)
  · exact ht

/-- Entry to HALTED with a fault (R53, R87, R124, R129, R160). -/
theorem State.haltedFrom_halt (s : State) (x : FaultSet) (carries : FaultSet → Bool) (hx : carries x = true)
    (hunion : ∀ y : FaultSet, carries (y.union x) = true) : s.HaltedFrom (s.halt x) carries := by
  have k : (s.goOffLine .halted).OnlyRequests (s.halt x) := (Touches.raise _ _).trans (Touches.endAll _ _)
  have kr := k.tables.rosterTables
  have hends := ((s.goOffLine .halted).raise (.fault x)).endsAll_endAll .lost
  refine ⟨⟨kr.ctrl, ?released, ?slots, ?repl, k.tables.roster, k.locks, kr.pageCursor, kr.pending⟩, ?fault,
    ⟨hends.ended, hends.kept, hends.noticed, fun n hn howner hfault => ?others, hends.queue, hends.toYield⟩, kr.port⟩
  case released => rw [kr.line]; exact ⟨rfl, rfl, rfl, rfl⟩
  case slots => rw [kr.slots]; exact ⟨rfl, rfl, rfl, rfl⟩
  case repl => rw [kr.repl]; exact ⟨rfl, rfl, rfl, rfl, rfl⟩
  case fault =>
    obtain ⟨n, hn, f, hbody, hf⟩ := (s.goOffLine .halted).raise_fault_mem x
    refine ⟨n, State.mem_endAll_station hn (by simp [hbody, NoticeBody.owner]) .lost, f, hbody, ?_⟩
    rcases hf with rfl | ⟨y, rfl⟩
    · exact hx
    · exact hunion y
  case others =>
    refine hends.others n (State.raise_mem_other hn ?_) howner hfault
    cases hn' : n.body with
    | fault f => exact absurd hn' (hfault f)
    | update | ended | sync | roster | tableLost => exact nofun

/-! ### The cycle end with no lease that ends -/

/-- Where no valid record holds a lease that ends, the expiries change nothing (R31). -/
theorem State.cycleEndWork_eq_self (h : ∀ l, s.lockValid l = true → (s.lock l).holders = []) : s.cycleEndWork = s := by
  have hlock : ∀ l, s.expireLock l = s := by
    intro l
    rw [State.expireLock, if_neg]
    intro hl
    obtain ⟨hvalid, hexpired⟩ := Bool.and_eq_true_iff.1 hl
    rw [h l hvalid] at hexpired
    cases hexpired
  rw [State.cycleEndWork, State.expireAll, List.foldl_fixed' hlock, ite_self]

/-! ### The founding effects at a LISTENING station (R101 to R103) -/

theorem State.exists_live_iff (s : State) : 0 < s.liveCount ↔ ∃ g, (s.entry g).live = true := by
  simp [State.liveCount, List.length_pos_iff_exists_mem]

/-- The founding effects of a LISTENING station: TABLE_LOST where a request is live, FOUND handling, SYNC ACTIVE
(R103). -/
theorem State.found_of_listening (hs : s.ctrl.state = .listening) (f : Frame) : s.found f =
    ((if 0 < s.liveCount then (s.foundedTables f).raise .tableLost else s.foundedTables f).foundHandling).raise
      (.sync .active) := by
  have hoff : s.isActive = false := by rw [State.isActive, hs]; rfl
  simp only [State.found, hoff, Bool.false_and, Bool.false_or, Bool.false_eq_true, if_false, decide_eq_true_eq]
  rfl

/-- FOUND handling raises the END notices in ascending tag order (R122). -/
theorem State.foundHandling_notices (s : State) : s.foundHandling.notices
    = ((((List.finRange 16).filter fun g => (s.entry g).relation = .waiting ∨ (s.entry g).relation = .held).map
        fun g => .ended g (s.entry g).lock .lost).foldl State.raise s).notices := by
  have htags : allTags = List.finRange 16 := by unfold allTags; rfl
  obtain ⟨-, -, -, h⟩ := State.foldl_foundEntry nodup_allTags s
  refine ((State.returnToHead_notices _ _).trans h).trans ?_
  rw [htags]
  rfl

/-- The notices of the founding effects at a LISTENING station (R103). -/
theorem State.foundingNotices_of_listening (hs : s.ctrl.state = .listening) (founder : StationNo) :
    s.foundingNotices founder = (if 0 < s.liveCount then [.tableLost] else [])
      ++ ((List.finRange 16).filter fun g => (s.entry g).relation = .waiting ∨ (s.entry g).relation = .held).map
          (fun g => .ended g (s.entry g).lock .lost)
      ++ [.sync .active] := by
  have hne : s.ctrl.state ≠ .active := by rw [hs]; exact nofun
  simp only [State.foundingNotices, hne, false_and, false_or, if_false, List.nil_append, s.exists_live_iff]

@[inherit_doc State.foundingNotices_of_listening]
theorem State.found_notices (hs : s.ctrl.state = .listening) (f : Frame) :
    (s.found f).notices = ((s.foundingNotices f.sender).foldl State.raise s).notices := by
  rw [State.found_of_listening hs, State.foundingNotices_of_listening hs, List.foldl_append, List.foldl_append]
  refine State.notices_foldl_raise [.sync .active] ?_
  rw [State.foundHandling_notices]
  split_ifs
  · exact State.notices_foldl_raise _ rfl
  · exact State.notices_foldl_raise _ rfl

/-- Raises of other owners neither make nor take a notice (R128). -/
theorem State.mem_foldl_raise_other {bs : List NoticeBody} {n : Notice} (h : ∀ b ∈ bs, n.body.owner ≠ b.owner) :
    ∀ s : State, n ∈ (bs.foldl State.raise s).notices.queue ↔ n ∈ s.notices.queue := by
  induction bs with
  | nil => exact fun s => Iff.rfl
  | cons b bs ih =>
    intro s
    refine (ih (fun c hc => h c (List.mem_cons_of_mem _ hc)) (s.raise b)).trans ?_
    rw [State.raise_notices_queue]
    exact mem_raiseOnto_other (h b List.mem_cons_self)

/-- TABLE_LOST is raised where a request is live, and there alone (R103). -/
theorem State.tableLost_foundingNotices (hs : s.ctrl.state = .listening) (founder : StationNo) :
    ((∃ g, (s.entry g).live = true) →
      ∃ n ∈ ((s.foundingNotices founder).foldl State.raise s).notices.queue, n.body = .tableLost)
    ∧ ((∀ g, (s.entry g).live = false) →
      ∀ n ∈ ((s.foundingNotices founder).foldl State.raise s).notices.queue,
        n.body = .tableLost → n ∈ s.notices.queue) := by
  rw [State.foundingNotices_of_listening hs, List.append_assoc]
  have hother : ∀ n : Notice, n.body = .tableLost → ∀ b ∈ (((List.finRange 16).filter fun g =>
      (s.entry g).relation = .waiting ∨ (s.entry g).relation = .held).map fun g =>
        NoticeBody.ended g (s.entry g).lock .lost) ++ [.sync .active], n.body.owner ≠ b.owner := by
    intro n hn b hb
    rw [hn]
    rcases List.mem_append.1 hb with hb | hb
    · obtain ⟨g, -, rfl⟩ := List.mem_map.1 hb
      exact nofun
    · rw [List.mem_singleton.1 hb]
      exact nofun
  refine ⟨fun hlive => ?_, fun hnone n hn hbody => ?_⟩
  · obtain ⟨n, hn, hbody⟩ := s.raise_mem_self .tableLost nofun
    rw [if_pos (s.exists_live_iff.2 hlive), List.singleton_append, List.foldl_cons]
    exact ⟨n, (State.mem_foldl_raise_other (hother n hbody) _).2 hn, hbody⟩
  · have hno : ¬ 0 < s.liveCount := by simp [s.exists_live_iff, hnone]
    rw [if_neg hno, List.nil_append] at hn
    exact (State.mem_foldl_raise_other (hother n hbody) _).1 hn

/-- The notices of the founding effects at a LISTENING station depend on its requests alone. -/
theorem State.foundingNotices_congr (ht : t.ctrl.state = .listening) (hs : s.ctrl.state = .listening)
    (req : t.req = s.req) (founder : StationNo) : t.foundingNotices founder = s.foundingNotices founder := by
  have hentry : t.entry = s.entry := by funext g; rw [State.entry, req]; rfl
  have hlive : t.liveCount = s.liveCount := by rw [State.liveCount, hentry]; rfl
  rw [State.foundingNotices_of_listening ht, State.foundingNotices_of_listening hs, hlive, hentry]

/-- What the founding effects do to requests and notices depends on the requests and notices before them alone. -/
theorem State.FoundingHandled.congr {u : State} {founder : StationNo} (h : t.FoundingHandled u founder)
    (ht : t.ctrl.state = .listening) (hs : s.ctrl.state = .listening) (req : t.req = s.req)
    (notices : t.notices = s.notices) : s.FoundingHandled u founder := by
  have hentry : t.entry = s.entry := by funext g; rw [State.entry, req]; rfl
  have hdoubtful : t.doubtful = s.doubtful := by funext g; simp only [State.doubtful, hentry]
  obtain ⟨claims, ended, kept, queue, emptied, raised⟩ := h
  rw [hentry] at ended kept
  rw [hentry, req] at queue
  simp only [hentry, hdoubtful] at claims
  rw [State.foundingNotices_congr ht hs req] at raised
  exact ⟨claims, ended, kept, queue, emptied, raised.trans (State.notices_foldl_raise _ notices)⟩

/-- The founding effects on control, tables, recovery, cursor and to-yield set (R101, R102). -/
theorem State.found_effects (hs : s.ctrl.state = .listening) (f : Frame) :
    (s.found f).ctrl = { s.ctrl with state := .active } ∧ (∀ l, (s.found f).lock l = ⟨0, [], []⟩)
    ∧ (∀ k, (s.found f).rosterEntry k = if k = f.sender then ⟨.active, 0⟩ else ⟨.absent, 0⟩)
    ∧ (s.found f).repl
      = { s.repl with agree := 0, disagree := 0, orphan := 0, installed := allPages, joinPending := false }
    ∧ (s.found f).pageCursor.val = s.ctrl.sid.val % 9 ∧ (s.found f).req.toYield = [] := by
  have k := s.found_touches f
  have kr := k.tables.rosterTables
  refine ⟨kr.ctrl, s.lock_found f, fun j => ?_, kr.repl, ?_, ?_⟩
  · rw [State.rosterEntry_congr k.tables.roster j]
    exact foundRoster_entry f.sender j
  · rw [kr.pageCursor]; rfl
  · rw [State.found_of_listening hs]; rfl

/-! ### The reception end -/

/-- A LISTENING station by what it has received: nothing or a garbled reception, another slot count, or a frame to align
on (R50, R52, R67). -/
theorem exec_listeningReceptionEnd (hs : s.ctrl.state = .listening) (hrx : s.line.rx.inProgress = true) :
    exec .listeningReceptionEnd s = .next (match s.line.rx.frame with
      | none => s.endReception
      | some f => if f.slotCount = s.ctrl.snc then s.endReception.align f else s.halt .slotCount) := by
  show execListeningReceptionEnd s = _
  rw [execListeningReceptionEnd, State.inState, hs, hrx]
  rfl

/-- A frame that is no FOUND aligns the station with nothing applied (R52, R88). -/
theorem State.align_syncing (s : State) {f : Frame} (hf : f.status ≠ .found) :
    s.align f = State.nextSlot (((s.alignedTo f).setStation .syncing).setOrphan 0).cycleEndWork := by
  rw [State.align_eq, if_neg hf]

/-- A FOUND frame aligns the station and has the founding effects, with no lease left to end (R52, R101, R102). -/
theorem State.align_found (s : State) {f : Frame} (hf : f.status = .found) :
    s.align f = ((s.alignedTo f).found f).nextSlot := by
  have hempty : ((s.alignedTo f).found f).cycleEndWork = (s.alignedTo f).found f :=
    State.cycleEndWork_eq_self fun l _ => by rw [State.lock_found]; rfl
  rw [State.align_eq, if_pos hf, hempty]

/-- What aligning as SYNCING leaves of the other items (R52, R88). -/
theorem State.syncing_effects (w : State) : ∃ u : State, ((w.setStation .syncing).setOrphan 0).cycleEndWork = u
      ∧ u.ctrl = { w.ctrl with state := .syncing } ∧ u.repl = { w.repl with orphan := 0 } ∧ u.req = w.req
      ∧ u.notices = w.notices ∧ u.roster = w.roster ∧ u.pageCursor = w.pageCursor
      ∧ (w.repl.installed = 0 → u.locks = w.locks) ∧ u.line = w.line ∧ u.slots = w.slots ∧ u.port = w.port := by
  have k := Touches.cycleEndWork ((w.setStation .syncing).setOrphan 0)
  have kr := k.rosterTables
  obtain ⟨hreq, hnotices⟩ := State.cycleEndWork_unreported (s := (w.setStation .syncing).setOrphan 0) rfl
  refine ⟨_, rfl, kr.ctrl, kr.repl, hreq, hnotices, k.roster, kr.pageCursor, fun h0 => ?_, kr.line, kr.slots, kr.port⟩
  rw [State.cycleEndWork_eq_self]
  · rfl
  · intro l hl
    have hnone : ((w.setStation .syncing).setOrphan 0).lockValid l = false := by
      show w.repl.installed.getLsbD (lockPage l) = false
      rw [h0]; exact BitVec.getLsbD_zero
    rw [hnone] at hl
    cases hl

/-- `w` is the LISTENING station `s` aligned in the slot and cycle of a frame, its reception ended and the frame not yet
applied (R50, R52). -/
structure State.AlignedOn (s w : State) (f : Frame) : Prop where
  ctrl : w.ctrl = s.ctrl
  repl : w.repl = s.repl
  req : w.req = s.req
  notices : w.notices = s.notices
  tables : w.roster = s.roster ∧ w.locks = s.locks ∧ w.pageCursor = s.pageCursor
  port : w.port = s.port
  slots : w.slots.aligned = true ∧ w.slots.position = f.sender ∧ w.slots.cycle = f.cycle ∧ w.slots.window = none
  line : w.line.own = none ∧ w.line.sending = false ∧ w.line.rx.inProgress = false

theorem State.alignedOn_alignedTo (s : State) (f : Frame) : s.AlignedOn (s.endReception.alignedTo f) f :=
  ⟨rfl, rfl, rfl, rfl, ⟨rfl, rfl, rfl⟩, rfl, ⟨rfl, rfl, rfl, rfl⟩, ⟨rfl, rfl, rfl⟩⟩

section
variable {w : State} {f : Frame} (h : s.AlignedOn w f) (hs : s.ctrl.state = .listening)
include h hs

/-- The notices of the founding effects, raised onto those from before the alignment (R103). -/
theorem State.AlignedOn.found_notices :
    (w.found f).notices = ((s.foundingNotices f.sender).foldl State.raise s).notices := by
  have hw : w.ctrl.state = .listening := h.ctrl ▸ hs
  rw [State.found_notices hw, State.foundingNotices_congr hw hs h.req]
  exact State.notices_foldl_raise _ h.notices

theorem State.AlignedOn.found_sync : ∃ n ∈ (w.found f).notices.queue, n.body = .sync .active := by
  rw [State.found_of_listening (h.ctrl ▸ hs)]
  exact State.raise_mem_self _ _ nofun

/-- Lawful requests are handled by the founding effects as R122 says. -/
theorem State.AlignedOn.foundingHandled (hlaw : s.RequestLaw) : s.FoundingHandled (w.found f) f.sender := by
  have hw : w.RequestLaw := hlaw.congr (by rw [h.req]) (by rw [h.req]) (by rw [h.req])
    (State.endUnread_congr (by rw [h.notices])) (by rw [h.line.1]; simp)
  exact (hw.found f).congr (h.ctrl ▸ hs) hs h.req h.notices

end

/-- Settles O34: the halt by haltedFrom_halt, the alignment by align_syncing and align_found with their effects. -/
theorem listeningStationTakesAReception : Obligations.ListeningStationTakesAReception := by
  intro s hs
  refine ⟨fun hrx => ?idle, fun hrx hframe => ?garbled,
    fun f hrx hframe => ⟨fun hcount => ?halts, fun hcount => ?aligns⟩⟩
  case idle =>
    show execListeningReceptionEnd s = _
    rw [execListeningReceptionEnd, hrx, Bool.and_false]
    rfl
  all_goals rw [exec_listeningReceptionEnd hs hrx, hframe]
  case garbled => rfl
  case halts =>
    refine ⟨s.halt .slotCount, by simp only [hcount, if_false], s.haltedFrom_halt _ _ rfl fun y => ?_⟩
    exact Bool.or_true _
  case aligns =>
    simp only [hcount, if_true]
    have hsyncing := s.endReception.align_syncing (f := f)
    have hfound := s.endReception.align_found (f := f)
    have h := s.alignedOn_alignedTo f
    generalize s.endReception.alignedTo f = w at *
    obtain ⟨haligned, hposition, hcycle, hwindow⟩ := h.slots
    obtain ⟨hown, hoff, hended⟩ := h.line
    by_cases hf : f.status = .found
    · have k := (w.found_touches f).tables.rosterTables
      obtain ⟨uctrl, ulocks, uroster, urepl, ucursor, utoYield⟩ := State.found_effects (h.ctrl ▸ hs) f
      obtain ⟨hlost, hkept⟩ := State.tableLost_foundingNotices hs f.sender
      have hnotices := h.found_notices hs
      rw [← hnotices] at hlost hkept
      rw [hfound hf]
      refine ⟨w.found f, rfl, ?_⟩
      rw [← h.ctrl, ← h.repl, ← h.port, k.line, k.slots, k.port]
      exact ⟨haligned, hposition, rfl, hwindow, hown, hoff, hended, rfl, fun hne => absurd hf hne, fun _ =>
        ⟨uctrl, ulocks, uroster, urepl, ucursor, utoYield, hnotices, h.found_sync hs, hkept,
          fun _ hlaw => ⟨hlost, h.foundingHandled hs hlaw⟩⟩⟩
    · obtain ⟨u, e, uctrl, urepl, ureq, unotices, uroster, ucursor, ulocks, uline, uslots, uport⟩ := w.syncing_effects
      obtain ⟨roster, locks, cursor⟩ := h.tables
      rw [hsyncing hf, e]
      refine ⟨u, rfl, ?_⟩
      rw [uctrl, urepl, ureq, unotices, uroster, ucursor, uline, uslots, uport, ← h.ctrl, ← h.repl, ← h.req, ← h.notices,
        ← h.port, ← roster, ← locks, ← cursor]
      exact ⟨haligned, hposition, hcycle, hwindow, hown, hoff, hended, rfl,
        fun _ => ⟨rfl, rfl, rfl, rfl, rfl, rfl, ulocks⟩, fun h => absurd h hf⟩

end Sys2Proof.Machine
end

section
/-! The end of an own transmission by its readback (R59 to R61): the halt of a station that finds its number used by
another, and the loss of arbitration in a cold-start frame. -/

namespace Sys2Proof.Machine

variable {s : State}

theorem exec_readbackMismatch (ha : s.slots.aligned = true) (hm : s.line.mismatch = true) :
    exec .readbackMismatch s = .next (s.halt .duplicate) := by
  show execReadbackMismatch s = _
  simp [execReadbackMismatch, ha, hm]

theorem exec_readbackMismatch_idle (h : s.slots.aligned = false ∨ s.line.mismatch = false) :
    exec .readbackMismatch s = .next s := by
  show execReadbackMismatch s = _
  rcases h with h | h <;> simp [execReadbackMismatch, h]

/-- Settles O32: the row halts with DUPLICATE_ID, and haltedFrom_halt says what a halt leaves. -/
theorem readbackMismatchHalts : Obligations.ReadbackMismatchHalts := by
  intro s
  refine ⟨fun ha hm => ⟨_, exec_readbackMismatch ha hm, s.haltedFrom_halt _ _ rfl fun y => ?_⟩,
    exec_readbackMismatch_idle⟩
  exact Bool.or_true y.duplicateId

theorem exec_arbitrationLoss (hs : s.ctrl.state = .listening) (hm : s.line.mismatch = true) :
    exec .arbitrationLoss s = .next s.releaseLine.dropOwnFrame := by
  show execArbitrationLoss s = _
  simp [execArbitrationLoss, State.inState, hs, hm]

theorem exec_arbitrationLoss_idle (h : s.ctrl.state ≠ .listening ∨ s.line.mismatch = false) :
    exec .arbitrationLoss s = .next s := by
  show execArbitrationLoss s = _
  rcases h with h | h <;> simp [execArbitrationLoss, State.inState, h]

/-- Settles O33. -/
theorem arbitrationLossStopsDriving : Obligations.ArbitrationLossStopsDriving :=
  fun _ => ⟨exec_arbitrationLoss, exec_arbitrationLoss_idle⟩

end Sys2Proof.Machine
end

section
/-! The end of a slot that brought no valid ACTIVE frame: the class of the reception (R64, R66), the alien frame (R66,
R79, R129), and the orphaned slot of a station in recovery (R97, R98). -/

namespace Sys2Proof.Machine

variable {s t : State}

/-! ### The class of a reception (R45, R64, R66) -/

theorem State.ownUnsent_of_own {o : OwnFrame} (ho : s.line.own = some o) : s.ownUnsent = !o.sent := by
  unfold State.ownUnsent; rw [ho]

theorem State.ownUnsent_of_none (ho : s.line.own = none) : s.ownUnsent = false := by
  unfold State.ownUnsent; rw [ho]

/-- An own slot that ended before G, or a reception that fails a format check (R45, R64). -/
theorem State.classify_garbled (h : s.ownUnsent = true ∨ s.line.rx.frame = none) : s.classify = .garbled := by
  unfold State.classify
  rcases h with h | h <;> simp [h]

/-- A frame is alien where its sender, its slot count or, in any status but FOUND, its cycle number does not fit (R66). -/
theorem State.alienFrame_iff (s : State) (f : Frame) : s.alienFrame f = true ↔
    f.sender ≠ s.slots.position ∨ f.slotCount ≠ s.ctrl.snc ∨ (f.status ≠ .found ∧ f.cycle ≠ s.slots.cycle) := by
  simp [State.alienFrame, or_assoc]

theorem State.classify_frame (hsent : s.ownUnsent = false) {f : Frame} (hrx : s.line.rx.frame = some f) :
    s.classify = if s.alienFrame f then .alien else .valid f := by
  unfold State.classify
  simp [hsent, hrx]

/-! ### A FAULT notice stays until it is delivered (R129) -/

/-- The queue holds a FAULT notice with ALIEN_TRAFFIC. -/
def State.AlienNoticed (s : State) : Prop := ∃ n ∈ s.notices.queue, ∃ x, n.body = .fault x ∧ x.alienTraffic = true

theorem State.AlienNoticed.congr (h : s.AlienNoticed) (notices : t.notices = s.notices) : t.AlienNoticed := by
  unfold State.AlienNoticed; rw [notices]; exact h

theorem State.alienNoticed_raise (s : State) : (s.raise (.fault .alien)).AlienNoticed := by
  obtain ⟨n, hn, x, hbody, rfl | ⟨y, rfl⟩⟩ := s.raise_fault_mem .alien
  · exact ⟨n, hn, _, hbody, rfl⟩
  · exact ⟨n, hn, _, hbody, Bool.or_true _⟩

/-- A raise keeps the faults of an unread FAULT notice: one of another owner leaves it, a FAULT joins it (R128, R129). -/
theorem State.AlienNoticed.raise (h : s.AlienNoticed) (b : NoticeBody) : (s.raise b).AlienNoticed := by
  obtain ⟨n, hn, x, hbody, hx⟩ := h
  unfold State.AlienNoticed
  rw [State.raise_notices_queue]
  generalize s.notices.queue = queue at hn ⊢
  generalize s.notices.serial + 1 = serial
  induction queue with
  | nil => cases hn
  | cons m rest ih =>
    have stays : m = n → ∃ k ∈ raiseOnto serial b (m :: rest), ∃ y, k.body = .fault y ∧ y.alienTraffic = true := by
      rintro rfl
      rw [raiseOnto]
      split
      case isFalse => exact ⟨m, List.mem_cons_self, x, hbody, hx⟩
      case isTrue howner =>
        rw [hbody] at howner
        cases b with
        | fault y => exact ⟨_, List.mem_cons_self, x.union y, by rw [hbody]; rfl, by simp [FaultSet.union, hx]⟩
        | update | ended | sync | roster | tableLost => cases howner
    rcases List.mem_cons.1 hn with e | hn
    · exact stays e.symm
    · rw [raiseOnto]
      split
      · exact ⟨n, List.mem_cons_of_mem _ hn, x, hbody, hx⟩
      · obtain ⟨k, hk, h⟩ := ih hn
        exact ⟨k, List.mem_cons_of_mem _ hk, h⟩

theorem State.AlienNoticed.raised (h : s.AlienNoticed) (hr : s.Raised t) : t.AlienNoticed := by
  induction hr with
  | same e => exact h.congr e
  | raised b _ e ih => exact (ih.raise b).congr e

/-! ### Activity in a slot (R79) -/

/-- Garbled or alien activity changes the roster alone. -/
theorem State.rosterActivity_eq (s : State) (k : StationNo) : ∃ r, s.rosterActivity k = { s with roster := r } := by
  unfold State.rosterActivity
  split <;> exact ⟨_, rfl⟩

/-- The owner's miss count is 0 in a valid roster. -/
theorem State.rosterEntry_rosterActivity (s : State) (k j : StationNo) : (s.rosterActivity k).rosterEntry j
    = if s.pageInstalled 0 ∧ j = k then { s.rosterEntry k with misses := 0 } else s.rosterEntry j := by
  unfold State.rosterActivity State.rosterValid
  cases s.pageInstalled 0 <;> simp

/-- What an alien reception leaves: its FAULT, and the owner's miss count (R66, R79). -/
theorem State.slotWork_alien (s : State) :
    ∃ r, s.slotWork .alien = { s.raise (.fault .alien) with roster := r }
      ∧ ∀ j, (s.slotWork .alien).rosterEntry j
        = if s.pageInstalled 0 ∧ j = s.slots.position then { s.rosterEntry s.slots.position with misses := 0 }
          else s.rosterEntry j := by
  obtain ⟨r, e⟩ := (s.raise (.fault .alien)).rosterActivity_eq s.slots.position
  exact ⟨r, e, (s.raise (.fault .alien)).rosterEntry_rosterActivity _⟩

theorem State.alienNoticed_slotWork (s : State) : (s.slotWork .alien).AlienNoticed := by
  obtain ⟨r, e, -⟩ := s.slotWork_alien
  exact s.alienNoticed_raise.congr (by rw [e])

/-! ### The orphaned slot (R97, R98) -/

/-- An orphaned slot depends on what OrphanedSlot names alone. -/
theorem State.OrphanedSlot.congr {u : State} (h : t.OrphanedSlot u) (ctrl : t.ctrl = s.ctrl) (repl : t.repl = s.repl)
    (req : t.req = s.req) (slots : t.slots = s.slots) (pageCursor : t.pageCursor = s.pageCursor)
    (port : t.port = s.port) : s.OrphanedSlot u := by
  obtain ⟨hctrl, hrepl, hkept⟩ := h
  rw [ctrl, repl] at hctrl hrepl
  rw [req, slots, pageCursor, port] at hkept
  exact ⟨hctrl, hrepl, hkept⟩

/-- A work of the slot that reaches roster and records alone, with nothing reported, lies beside the orphaned slot (R16). -/
theorem State.OrphanedSlot.before {u : State} (h : t.OrphanedSlot u) (k : s.OnlyRosterTables t) (req : t.req = s.req) :
    s.OrphanedSlot u :=
  h.congr k.ctrl k.repl req k.slots k.pageCursor k.port

/-- `u` is the station in recovery `w`, in which the work that the slot's content calls for has been done, at the end of
that slot: it is orphaned, and the expiries of a cycle end have run (R13, R31, R97). -/
structure State.OrphanedEnd (w u : State) : Prop where
  orphaned : w.OrphanedSlot u
  rosterEntry : ∀ j, u.rosterEntry j = w.rosterEntry j
  lock : ∀ l, u.lock l = if w.lockValid l then w.endingCycle (w.lock l) else w.lock l
  notices : u.notices = w.notices
  line : u.line = w.line

/-- The records after an orphaned slot, where its work kept controller, slot and pages. -/
theorem State.OrphanedEnd.lock_of_kept {w u : State} (h : w.OrphanedEnd u) (ctrl : w.ctrl = s.ctrl)
    (slots : w.slots = s.slots) (installed : w.repl.installed = s.repl.installed) (l : LockNo) :
    u.lock l = if s.lockValid l then s.endingCycle (w.lock l) else w.lock l := by
  have hvalid : w.lockValid l = s.lockValid l := congrArg (BitVec.getLsbD · (lockPage l)) installed
  rw [h.lock, hvalid, State.endingCycle_congr ctrl slots]

/-- The end of a slot without a valid ACTIVE frame at a station in recovery, record by record. -/
theorem State.slotEnd_orphaned (c : SlotContent) (hl : s.leavingSlot = false) {v w : State} (hv : s.settleOwnFrame c = v)
    (hw : v.slotWork c = w) (hs : s.ctrl.state = .syncing ∨ s.ctrl.state = .founding) (hc : c.heardActive = false)
    (ctrl : w.ctrl = v.ctrl) (hn : w.repl.installed ≠ allPages) :
    ∃ u : State, s.slotEnd c = u.nextSlot ∧ w.OrphanedEnd u := by
  subst hw
  obtain ⟨u, e, horphan, hroster, hlocks, hnotices, hline⟩ := State.slotEnd_recovering c hl hv hs hc ctrl hn
  refine ⟨u, e, horphan, State.rosterEntry_congr hroster, fun l => ?_, hnotices, hline⟩
  rw [State.lock_congr hlocks, State.lock_cycleEndWork_valid]

/-- A FRAME_SLOT_END of that kind: what the slot brought is worked on after the own frame's fate, with the reception
ended (R44, R47). -/
theorem exec_frameSlotEnd_orphaned (ha : s.slots.aligned = true) (hph : s.slots.phase = .inFrame) {c : SlotContent}
    (hclass : s.classify = c) (hl : s.leavingSlot = false) (hs : s.ctrl.state = .syncing ∨ s.ctrl.state = .founding)
    (hc : c.heardActive = false) {w : State} (hw : (s.settleOwnFrame c).endReception.slotWork c = w)
    (ctrl : w.ctrl = s.ctrl) (hn : w.repl.installed ≠ allPages) :
    ∃ u : State, exec .frameSlotEnd s = .next u.nextSlot ∧ w.OrphanedEnd u := by
  have hctrl : (s.settleOwnFrame c).endReception.ctrl = s.ctrl := (s.settleOwnFrame_keeps c).1
  obtain ⟨u, e, hu⟩ := State.slotEnd_orphaned (s := s.endReception) c hl (s.settleOwnFrame_endReception c) hw hs hc
    (ctrl.trans hctrl.symm) hn
  exact ⟨u, by rw [exec_frameSlotEnd ha hph, hclass, e], hu⟩

/-! ### Alien frames -/

/-- FRAME_SLOT_END with an alien reception at a station in recovery, after the own frame's fate: the FAULT, the owner's
miss count, and an orphaned slot; no page is uninstalled and nothing of the frame is applied (R66, R79, R95, R97). -/
theorem exec_frameSlotEnd_alien_recovering (ha : s.slots.aligned = true) (hph : s.slots.phase = .inFrame)
    (hclass : s.classify = .alien) (hl : s.leavingSlot = false)
    (hs : s.ctrl.state = .syncing ∨ s.ctrl.state = .founding) (hn : s.repl.installed ≠ allPages) :
    ∃ u : State, exec .frameSlotEnd s = .next u.nextSlot ∧ (s.settleOwnFrame .alien).OrphanedSlot u ∧ u.AlienNoticed
      ∧ (∀ j, u.rosterEntry j
          = if s.pageInstalled 0 ∧ j = s.slots.position then { s.rosterEntry s.slots.position with misses := 0 }
            else s.rosterEntry j)
      ∧ ∀ l, u.lock l = if s.lockValid l then s.endingCycle (s.lock l) else s.lock l := by
  obtain ⟨ctrl, slots, roster, locks, installed, -, -⟩ := s.settleOwnFrame_keeps .alien
  obtain ⟨r, e, hroster⟩ := (s.settleOwnFrame .alien).endReception.slotWork_alien
  have hnoticed := (s.settleOwnFrame .alien).endReception.alienNoticed_slotWork
  obtain ⟨u, hexec, hu⟩ := exec_frameSlotEnd_orphaned ha hph hclass hl hs rfl rfl (by rw [e]; exact ctrl)
    (by rw [e]; exact installed ▸ hn)
  have hpage : (s.settleOwnFrame .alien).endReception.pageInstalled 0 = s.pageInstalled 0 :=
    congrArg (BitVec.getLsbD · 0) installed
  have hposition : (s.settleOwnFrame .alien).endReception.slots.position = s.slots.position := by rw [← slots]; rfl
  have hentry : ∀ j, (s.settleOwnFrame .alien).endReception.rosterEntry j = s.rosterEntry j :=
    State.rosterEntry_congr roster
  refine ⟨u, hexec, hu.orphaned.congr ?_ ?_ ?_ ?_ ?_ ?_, hnoticed.congr hu.notices, fun j => ?roster, fun l => ?lock⟩
  case roster => rw [hu.rosterEntry, hroster, hpage, hposition, hentry, hentry]
  case lock =>
    rw [hu.lock_of_kept (s := s) (by rw [e]; exact ctrl) (by rw [e]; exact slots) (by rw [e]; exact installed), e]
    exact congrArg (fun r => if s.lockValid l then s.endingCycle r else r) (State.lock_congr locks l)
  all_goals rw [e]; rfl

/-- FRAME_SLOT_END of another station's slot with an alien frame at an ACTIVE station: the FAULT, the owner's miss count,
and the expiries of a cycle end (R31, R66, R79). -/
theorem exec_frameSlotEnd_alien_active (ha : s.slots.aligned = true) (hph : s.slots.phase = .inFrame)
    (hown : s.line.own = none) (hclass : s.classify = .alien) (hp : s.slots.position ≠ s.ctrl.sid)
    (hs : s.ctrl.state = .active) :
    exec .frameSlotEnd s = .next (s.endReception.slotWork .alien).cycleEndWork.nextSlot := by
  rw [exec_frameSlotEnd ha hph, hclass, State.slotEnd_other (s := s.endReception) .alien hown hp hs]
  exact State.slotWork_ctrl (s := s.endReception) hs .alien rfl

/-- Settles O40: slotWork_alien says what the alien frame leaves, and no raise of the expiries takes its FAULT away. -/
theorem alienFrameRaisesTheFaultAlone : Obligations.AlienFrameRaisesTheFaultAlone := by
  rintro s f k ha hph hown hrx rfl hk halien
  have hclass : s.classify = .alien := by
    rw [State.classify_frame (State.ownUnsent_of_none hown) hrx, if_pos ((s.alienFrame_iff f).2 halien)]
  refine ⟨fun hs hall => ?active, fun hs hn => ?recovering⟩
  case active =>
    have hexec := exec_frameSlotEnd_alien_active ha hph hown hclass hk hs
    obtain ⟨r, e, hroster⟩ := s.endReception.slotWork_alien
    have hnoticed := s.endReception.alienNoticed_slotWork
    generalize s.endReception.slotWork .alien = w at *
    have T := Touches.cycleEndWork w
    refine ⟨_, hexec, ?_, ?_, ?_, ?_, ?_, hnoticed.raised (Raises.cycleEndWork w), fun j => ?roster, fun l => ?lock,
      fun hlast => ?req⟩
    case roster =>
      rw [State.rosterEntry_congr T.roster, hroster]
      exact if_congr (and_iff_right (rosterValid_of_all hall)) rfl rfl
    case lock =>
      rw [State.lock_cycleEndWork (by rw [e]; exact hall), e]
      rfl
    case req =>
      rw [State.cycleEndWork_of_ne (by rw [e]; exact hlast), e]
      rfl
    · rw [T.rosterTables.ctrl, e]; rfl
    · rw [T.rosterTables.slots, e]; rfl
    · rw [T.rosterTables.repl, e]; rfl
    · rw [T.rosterTables.pageCursor, e]; rfl
    · rw [T.rosterTables.port, e]; rfl
  case recovering =>
    have hl : s.leavingSlot = false := by unfold State.leavingSlot; rw [hown]
    have hsettle : s.settleOwnFrame .alien = s := by unfold State.settleOwnFrame; rw [hown]
    have h := exec_frameSlotEnd_alien_recovering ha hph hclass hl hs hn
    rwa [hsettle] at h

end Sys2Proof.Machine
end

section
/-! The fate of the own frame at the end of its slot (R55, R62, R63, R117, R120), and the end of the own slot at an ACTIVE
station and at a station in recovery. -/

namespace Sys2Proof.Machine

variable {s t : State}

/-! ### What comes back from the draw -/

theorem State.entry_returnDrawn (s : State) (tags : List Tag) (g : Tag) : (s.returnDrawn tags).entry g
    = if g ∈ tags ∧ s.inFlight g = true then { s.entry g with opStatus := .queued, doubtMark := false }
      else s.entry g := by
  rw [State.returnDrawn, State.returnToHead_entry]
  exact if_congr List.mem_filter rfl rfl

theorem State.entry_doubtDrawn (s : State) (tags : List Tag) (g : Tag) : (s.doubtDrawn tags).entry g
    = if g ∈ tags ∧ s.inFlight g = true then { s.entry g with opStatus := .doubtful, doubtMark := false }
      else s.entry g :=
  (State.entry_foldl_setOpStatus .doubtful false _ s g).trans (if_congr List.mem_filter rfl rfl)

/-- Ops in doubt stay out of the queue, in frame order behind those of older frames (R120). -/
theorem State.doubtDrawn_lists (s : State) (tags : List Tag) : (s.doubtDrawn tags).req.queue = s.req.queue
    ∧ (s.doubtDrawn tags).req.doubtOrder = s.req.doubtOrder ++ tags.filter s.inFlight := by
  unfold State.doubtDrawn
  dsimp only
  rw [State.req_foldl_setOpStatus]
  exact ⟨rfl, rfl⟩

theorem State.OnlyRequests.withReq_eq (h : s.OnlyRequests t) (notices : t.notices = s.notices) :
    { t with req := s.req } = s :=
  calc ({ t with req := s.req } : State) = { t with req := s.req, notices := s.notices } := by rw [← notices]
    _ = s := h

/-! ### The fate of the own frame -/

/-- The station whose own frame was begun: a JOIN is no longer pending (R55). -/
def State.joinSent (s : State) (o : OwnFrame) : State :=
  { s with repl.joinPending := if o.frame.status = .join then false else s.repl.joinPending }

theorem OwnFrame.readBack_iff {o : OwnFrame} {c : SlotContent} :
    o.readBack c = true ↔ ∃ f, c = .valid f ∧ f.status = o.frame.status ∧ f.ops = o.frame.ops := by
  cases c <;> simp [OwnFrame.readBack]

/-- Table 4-2 (R55, R62, R63). -/
theorem State.settleOwnFrame_of_own {o : OwnFrame} (ho : s.line.own = some o) (c : SlotContent) :
    s.settleOwnFrame c = if o.sent = false ∨ c = .silent then s.returnDrawn o.tags
      else if o.readBack c then s.joinSent o else (s.joinSent o).doubtDrawn o.tags := by
  have hjoin : (if o.frame.status = .join then s.setJoinPending false else s) = s.joinSent o := by
    unfold State.joinSent
    split <;> rfl
  unfold State.settleOwnFrame
  simp only [ho, hjoin, Bool.or_eq_true, Bool.not_eq_true', beq_iff_eq]

theorem State.settleOwnFrame_unsent {o : OwnFrame} (ho : s.line.own = some o) {c : SlotContent}
    (h : o.sent = false ∨ c = .silent) : s.settleOwnFrame c = s.returnDrawn o.tags := by
  rw [State.settleOwnFrame_of_own ho, if_pos h]

theorem State.settleOwnFrame_readBack {o : OwnFrame} (ho : s.line.own = some o) (hsent : o.sent = true) {f : Frame}
    (hstatus : f.status = o.frame.status) (hops : f.ops = o.frame.ops) :
    s.settleOwnFrame (.valid f) = s.joinSent o := by
  rw [State.settleOwnFrame_of_own ho, if_neg (by simp [hsent]), if_pos (OwnFrame.readBack_iff.2 ⟨f, rfl, hstatus, hops⟩)]

theorem State.settleOwnFrame_doubtful {o : OwnFrame} (ho : s.line.own = some o) (hsent : o.sent = true)
    {c : SlotContent}
    (hc : c = .garbled ∨ c = .alien ∨ ∃ f, c = .valid f ∧ (f.status ≠ o.frame.status ∨ f.ops ≠ o.frame.ops)) :
    s.settleOwnFrame c = (s.joinSent o).doubtDrawn o.tags := by
  have hread : ¬ o.readBack c = true := by
    rw [OwnFrame.readBack_iff]
    rintro ⟨f, rfl, hstatus, hops⟩
    simp [hstatus, hops] at hc
  have hheard : ¬ (o.sent = false ∨ c = .silent) := by
    rcases hc with rfl | rfl | ⟨f, rfl, -⟩ <;> simp [hsent]
  rw [State.settleOwnFrame_of_own ho, if_neg hheard, if_neg hread]

/-! ### What reports and expiries depend on -/

/-- `t` is `s` in all that the works on tables and requests read; its notices are the same where `q` holds. -/
structure State.Beside (q : Prop) (s t : State) : Prop where
  ctrl : t.ctrl = s.ctrl
  slots : t.slots = s.slots
  locks : t.locks = s.locks
  repl : t.repl = s.repl
  req : t.req = s.req
  notices : q → t.notices = s.notices

namespace State.Beside

variable {q : Prop} (h : s.Beside q t)
include h

theorem entry (g : Tag) : t.entry g = s.entry g := State.entry_congr (by rw [h.req]) g

theorem raise (b : NoticeBody) : (s.raise b).Beside q (t.raise b) :=
  ⟨h.ctrl, h.slots, h.locks, h.repl, h.req, fun hq => by simp [State.raise, h.notices hq]⟩

theorem setLock (l : LockNo) (r : LockRecord) : (s.setLock l r).Beside q (t.setLock l r) :=
  ⟨h.ctrl, h.slots, by simp [h.locks], h.repl, h.req, h.notices⟩

theorem withReq {r r' : RequestEngine} (hr : r' = r) : State.Beside q { s with req := r } { t with req := r' } :=
  ⟨h.ctrl, h.slots, h.locks, h.repl, hr, h.notices⟩

theorem setEntry (g : Tag) (e : RequestEntry) : (s.setEntry g e).Beside q (t.setEntry g e) := h.withReq (by rw [h.req])

theorem dequeue (g : Tag) : (s.dequeue g).Beside q (t.dequeue g) := h.withReq (by rw [h.req])

theorem unyield (l : LockNo) : (s.unyield l).Beside q (t.unyield l) := h.withReq (by rw [h.req])

theorem raiseHeld (g : Tag) : (s.raiseHeld g).Beside q (t.raiseHeld g) := by
  unfold State.raiseHeld
  rw [h.entry]
  exact h.raise _

theorem raiseWaiting (g : Tag) (n : Nat) : (s.raiseWaiting g n).Beside q (t.raiseWaiting g n) := by
  unfold State.raiseWaiting
  rw [h.entry]
  exact h.raise _

theorem endEntry (g : Tag) (o : EndOutcome) : (s.endEntry g o).Beside q (t.endEntry g o) := by
  unfold State.endEntry
  rw [h.entry]
  exact ((h.dequeue g).setEntry g _).raise _

theorem entryResult (g : Tag) (k : OpKind) (r : OpResult) : (s.entryResult g k r).Beside q (t.entryResult g k r) := by
  unfold State.entryResult
  rw [h.entry]
  dsimp only
  split
  · exact (h.setEntry _ _).raiseHeld _
  · exact (h.setEntry _ _).raiseWaiting _ _
  · exact h.endEntry _ _
  · exact h.endEntry _ _
  · exact h.endEntry _ _
  · exact h.endEntry _ _
  · exact h.endEntry _ _
  · exact (h.setEntry _ _).raiseHeld _
  · exact h.setEntry _ _
  · exact (h.setEntry _ _).raiseHeld _
  · exact h.setEntry _ _
  · exact h

theorem reportedTag (k : OpKind) (l : LockNo) : t.reportedTag k l = s.reportedTag k l := by
  have e : t.entry = s.entry := funext h.entry
  unfold State.reportedTag State.inFlight
  rw [e]

theorem liveTag (l : LockNo) : t.liveTag l = s.liveTag l := by
  have e : t.entry = s.entry := funext h.entry
  unfold State.liveTag
  rw [e]

theorem resultReport (k : OpKind) (l : LockNo) (r : OpResult) :
    (s.resultReport k l r).Beside q (t.resultReport k l r) := by
  unfold State.resultReport
  rw [h.reportedTag]
  split
  · exact h.entryResult _ k r
  · split
    · exact h.unyield l
    · exact h

theorem grantReport (l : LockNo) (m : Mode) (token : Word16) :
    (s.grantReport l m token).Beside q (t.grantReport l m token) := by
  unfold State.grantReport
  rw [h.liveTag, h.req]
  split
  · exact h
  · split
    · exact h
    · rw [h.entry]
      split
      · exact (h.setEntry _ _).raiseHeld _
      · exact h

theorem removalReport (l : LockNo) (o : EndOutcome) : (s.removalReport l o).Beside q (t.removalReport l o) := by
  unfold State.removalReport
  rw [h.liveTag, h.req]
  split
  · exact h.unyield l
  · split
    · exact h
    · rw [h.entry]
      split
      · exact h.endEntry _ _
      · exact h

theorem reportGrant (l : LockNo) (entering after : LockRecord) :
    (s.reportGrant l entering after).Beside q (t.reportGrant l entering after) := by
  unfold State.reportGrant
  rw [h.ctrl]
  split
  · split
    · exact h.grantReport l _ _
    · exact h
  · exact h

theorem reads (l : LockNo) : t.lock l = s.lock l ∧ t.lockValid l = s.lockValid l ∧ t.isActive = s.isActive := by
  refine ⟨State.lock_congr h.locks l, State.lockValid_congr h.repl l, ?_⟩
  unfold State.isActive
  rw [h.ctrl]

theorem applyOperation (k : StationNo) (o : Operation) : (s.applyOperation k o).Beside q (t.applyOperation k o) := by
  unfold State.applyOperation
  split
  · exact h
  · rename_i l _
    obtain ⟨hlock, hvalid, hactive⟩ := h.reads l
    rw [hlock, hvalid, hactive, h.slots, h.ctrl]
    split
    · dsimp only
      split
      · split
        · exact ((h.setLock l _).resultReport _ l _).reportGrant l _ _
        · exact (h.setLock l _).reportGrant l _ _
      · exact h.setLock l _
    · exact h

theorem expireLock (l : LockNo) : (s.expireLock l).Beside q (t.expireLock l) := by
  obtain ⟨hlock, hvalid, hactive⟩ := h.reads l
  unfold State.expireLock
  rw [hlock, hvalid, hactive, h.slots, h.ctrl]
  dsimp only
  split
  · split
    · split
      · exact ((h.setLock l _).removalReport l _).reportGrant l _ _
      · exact (h.setLock l _).reportGrant l _ _
    · exact h.setLock l _
  · exact h

omit h in
theorem foldl {α : Type} {f : State → α → State} (hf : ∀ {s t : State}, s.Beside q t → ∀ x, (f s x).Beside q (f t x))
    (xs : List α) : ∀ {s t : State}, s.Beside q t → (xs.foldl f s).Beside q (xs.foldl f t) := by
  induction xs with
  | nil => exact fun h => h
  | cons x xs ih => exact fun h => ih (hf h x)

theorem applyOperations (k : StationNo) (ops : List Operation) :
    (s.applyOperations k ops).Beside q (t.applyOperations k ops) :=
  foldl (fun h o => h.applyOperation k o) ops h

theorem cycleEndWork : s.cycleEndWork.Beside q t.cycleEndWork := by
  unfold State.cycleEndWork State.inLastSlot
  rw [h.slots, h.ctrl]
  split
  · exact foldl expireLock allLocks h
  · exact h

end State.Beside

theorem State.beside_putRoster (s : State) (k : StationNo) (e : RosterEntry) :
    s.Beside ((s.rosterEntry k).state = e.state) (s.putRoster k e) := by
  unfold State.putRoster
  dsimp only
  split
  · rename_i hne
    refine ⟨rfl, rfl, rfl, rfl, rfl, fun hsame => ?_⟩
    simp [hsame] at hne
  · exact ⟨rfl, rfl, rfl, rfl, rfl, fun _ => rfl⟩

/-! ### The own ACTIVE frame read back at an ACTIVE station -/

/-- The own digest is not counted (R90). -/
theorem State.countVote_own {f : Frame} (hf : f.sender = s.ctrl.sid) : s.countVote f = s := if_pos hf

/-- A sent frame that reads back as itself, in its slot and its cycle, is valid (R63, R66). -/
theorem State.classify_own {o : OwnFrame} (ho : s.line.own = some o) (hsent : o.sent = true)
    (hrx : s.line.rx.frame = some o.frame) (hsender : o.frame.sender = s.slots.position)
    (hcount : o.frame.slotCount = s.ctrl.snc) (hcycle : o.frame.cycle = s.slots.cycle) :
    s.classify = .valid o.frame := by
  rw [State.classify_frame (by rw [State.ownUnsent_of_own ho, hsent]; rfl) hrx, if_neg]
  rw [State.alienFrame_iff]
  simp [hsender, hcount, hcycle]

theorem State.not_leavingSlot {o : OwnFrame} (ho : s.line.own = some o) (h : o.frame.status ≠ .leave) :
    s.leavingSlot = false := by
  rw [← Bool.not_eq_true, State.leavingSlot_iff]
  rintro ⟨o', ho', hl⟩
  exact h (Option.some.inj (ho'.symm.trans ho) ▸ hl)

/-- FRAME_SLOT_END of the own slot at an ACTIVE station whose ACTIVE frame reads back: the works of the frame, then the
vote evaluation (R63, R70, R91). -/
theorem exec_frameSlotEnd_own_active {o : OwnFrame} (hs : s.ctrl.state = .active) (ha : s.slots.aligned = true)
    (hph : s.slots.phase = .inFrame) (ho : s.line.own = some o) (hsent : o.sent = true) (hp : s.slots.position = s.ctrl.sid)
    (hclass : s.classify = .valid o.frame) (hstatus : o.frame.status = .active) (hsender : o.frame.sender = s.ctrl.sid) :
    exec .frameSlotEnd s = .next (s.endReception.frameWork o.frame).evaluateVote.nextSlot := by
  have hleave : s.endReception.leavingSlot = false :=
    State.not_leavingSlot (s := s.endReception) ho (by rw [hstatus]; exact nofun)
  have hsettle : s.endReception.settleOwnFrame (.valid o.frame) = s.endReception := by
    rw [State.settleOwnFrame_readBack (s := s.endReception) ho hsent rfl rfl, State.joinSent, hstatus]
    rfl
  have hwork : (s.endReception.slotWork (.valid o.frame)).cycleEndWork = s.endReception.frameWork o.frame := by
    rw [State.slotWork, State.handFrame, hstatus]
    dsimp only
    rw [State.beforeRoster_eq_countVote (s := s.endReception) hs, State.countVote_own (s := s.endReception) hsender]
    rfl
  rw [exec_frameSlotEnd ha hph, hclass,
    State.slotEnd_own (s := s.endReception) (.valid o.frame) hs hp hleave (by simp [SlotContent.heardFound, hstatus]),
    hsettle, hwork]

/-- Operations and expiries of a frame do not depend on the end of its reception, nor on the roster effect before them but
for its notice (R74, R85). -/
theorem State.frameWork_beside (s : State) (f : Frame) :
    (s.applyOperations f.sender f.ops).cycleEndWork.Beside ((s.rosterEntry f.sender).state = .active)
      (s.endReception.frameWork f) := by
  have h : s.Beside ((s.rosterEntry f.sender).state = .active) (s.endReception.rosterFrame f.sender .active) := by
    rw [State.rosterFrame_active]
    split
    · obtain ⟨ctrl, slots, locks, repl, req, notices⟩ := s.endReception.beside_putRoster f.sender ⟨.active, 0⟩
      exact ⟨ctrl, slots, locks, repl, req, notices⟩
    · exact ⟨rfl, rfl, rfl, rfl, rfl, fun _ => rfl⟩
  exact (h.applyOperations f.sender f.ops).cycleEndWork

/-! ### A silent slot (R80) -/

theorem toNat_oneMiss (m : BitVec 3) : (oneMiss m).toNat = min 7 (m.toNat + 1) := by
  revert m; decide

/-- The station with one more miss of `k`, before any drop. -/
def State.missed (s : State) (k : StationNo) : State :=
  s.setRosterEntry k { s.rosterEntry k with misses := oneMiss (s.rosterEntry k).misses }

/-- No miss is counted in an invalid roster, nor for an ABSENT owner; at D the owner is dropped. -/
theorem State.rosterSilence_eq (s : State) (k : StationNo) : s.rosterSilence k
    = if s.pageInstalled 0 = true ∧ (s.rosterEntry k).state ≠ .absent then
        if s.ctrl.dropThreshold ≤ min 7 ((s.rosterEntry k).misses.toNat + 1) then (s.missed k).dropStation k
        else s.missed k
      else s := by
  have hdue : (s.rosterEntry k).state ≠ .absent → ((s.missed k).dropDue k = true
      ↔ s.ctrl.dropThreshold ≤ min 7 ((s.rosterEntry k).misses.toNat + 1)) := by
    intro hpresent
    rw [State.dropDue_iff, State.missed, State.rosterEntry_setRosterEntry, if_pos rfl, ← toNat_oneMiss]
    exact and_iff_right hpresent
  unfold State.rosterSilence State.rosterValid
  simp only [Bool.and_eq_true, bne_iff_ne]
  split
  · rename_i h
    exact if_congr (hdue h.2) rfl rfl
  · rfl

theorem State.dropStation_unreported (h : s.isActive = false) (k : StationNo) :
    (s.dropStation k).req = s.req ∧ (s.dropStation k).notices = s.notices := by
  rw [State.dropStation, State.putRoster_unreported h]
  exact State.purge_unreported (s := s.setRosterEntry k .absent) h k .drop

theorem State.rosterSilence_unreported (h : s.isActive = false) (k : StationNo) :
    (s.rosterSilence k).req = s.req ∧ (s.rosterSilence k).notices = s.notices := by
  rw [State.rosterSilence_eq]
  split
  · split
    · exact State.dropStation_unreported (s := s.missed k) h k
    · exact ⟨rfl, rfl⟩
  · exact ⟨rfl, rfl⟩

section
variable {k : StationNo} {missed dropped : Bool}
  (hm : missed = true ↔ s.pageInstalled 0 = true ∧ (s.rosterEntry k).state ≠ .absent)
  (hd : dropped = true ↔ missed = true ∧ s.ctrl.dropThreshold ≤ min 7 ((s.rosterEntry k).misses.toNat + 1))
include hm hd

theorem State.rosterSilence_by : s.rosterSilence k
    = if dropped then (s.missed k).dropStation k else if missed then s.missed k else s := by
  rw [State.rosterSilence_eq, if_congr hm.symm rfl rfl]
  cases missed with
  | false =>
    have hkept : dropped = false := by rw [← Bool.not_eq_true, hd]; simp
    simp only [hkept, Bool.false_eq_true, if_false]
  | true =>
    simp only [if_true]
    exact if_congr (hd.trans (and_iff_right rfl)).symm rfl rfl

theorem State.rosterEntry_rosterSilence : (missed = false → (s.rosterSilence k).rosterEntry k = s.rosterEntry k)
    ∧ (missed = true → dropped = false → ((s.rosterSilence k).rosterEntry k).state = (s.rosterEntry k).state
      ∧ ((s.rosterSilence k).rosterEntry k).misses.toNat = min 7 ((s.rosterEntry k).misses.toNat + 1))
    ∧ (dropped = true → (s.rosterSilence k).rosterEntry k = ⟨.absent, 0⟩) := by
  rw [State.rosterSilence_by hm hd]
  refine ⟨fun h => ?_, fun h h' => ?_, fun h => ?_⟩
  · have hkept : dropped = false := by rw [← Bool.not_eq_true, hd, h]; simp
    simp [h, hkept]
  · simp [h, h', State.missed, toNat_oneMiss]
  · simp [h, State.rosterEntry_dropStation]

theorem State.lock_rosterSilence (l : LockNo) : (s.rosterSilence k).lock l
    = if dropped ∧ s.lockValid l then (s.lock l).purged k s.slots.cycle else s.lock l := by
  rw [State.rosterSilence_by hm hd]
  cases dropped
  · cases missed <;> rfl
  · simp only [if_true, true_and]
    exact (s.missed k).lock_dropStation k l

end

theorem State.rosterEntry_rosterSilence_ne (s : State) {k j : StationNo} (h : j ≠ k) :
    (s.rosterSilence k).rosterEntry j = s.rosterEntry j := by
  rw [State.rosterSilence_eq]
  split
  · split
    · rw [State.rosterEntry_dropStation, if_neg h, State.missed, State.rosterEntry_setRosterEntry, if_neg h]
    · rw [State.missed, State.rosterEntry_setRosterEntry, if_neg h]
  · rfl

/-! ### A JOIN or SYNCING frame (R75) -/

/-- With nothing reported, the sender is SYNCING in a valid roster; a JOIN purges it where it was not ABSENT. -/
theorem State.rosterFrame_joining (hoff : s.isActive = false) (k : StationNo) {st : FrameStatus}
    (hst : st = .syncing ∨ st = .join) :
    (s.rosterFrame k st).req = s.req ∧ (s.rosterFrame k st).notices = s.notices
    ∧ (∀ j, (s.rosterFrame k st).rosterEntry j
        = if s.pageInstalled 0 ∧ j = k then ⟨.syncing, 0⟩ else s.rosterEntry j)
    ∧ ∀ l, (s.rosterFrame k st).lock l
        = if (s.pageInstalled 0 ∧ s.lockValid l) ∧ st = .join ∧ (s.rosterEntry k).state ≠ .absent then
            (s.lock l).purged k s.slots.cycle else s.lock l := by
  have e : s.rosterFrame k st = if s.pageInstalled 0 then
      if st = .join ∧ (s.rosterEntry k).state ≠ .absent then (s.setRosterEntry k ⟨.syncing, 0⟩).purge k .join
      else s.setRosterEntry k ⟨.syncing, 0⟩ else s := by
    unfold State.rosterFrame State.rosterValid
    simp only [State.putRoster_unreported hoff]
    rcases hst with rfl | rfl
    · simp
    · simp only [true_and, ne_eq, ite_not]
  obtain ⟨hreq, hnotices⟩ := State.purge_unreported (s := s.setRosterEntry k ⟨.syncing, 0⟩) hoff k .join
  have hroster := State.rosterEntry_congr (Touches.purge (s.setRosterEntry k ⟨.syncing, 0⟩) k .join).roster
  have hlock := State.lock_purge (s.setRosterEntry k ⟨.syncing, 0⟩) k .join
  rw [e]
  by_cases h0 : s.pageInstalled 0 = true
  · by_cases hpurge : st = .join ∧ (s.rosterEntry k).state ≠ .absent
    · simp only [h0, if_true, if_pos hpurge, true_and]
      refine ⟨hreq, hnotices, fun j => ?_, fun l => ?_⟩
      · rw [hroster, State.rosterEntry_setRosterEntry]
      · rw [hlock]
        exact if_congr (and_iff_left hpurge).symm rfl rfl
    · simp only [h0, if_true, true_and, hpurge, and_false, if_false]
      exact ⟨rfl, rfl, fun j => s.rosterEntry_setRosterEntry k j _, fun l => rfl⟩
  · simp [h0]

/-! ### The own slot at a station in recovery -/

theorem State.isActive_of_recovering (hs : s.ctrl.state = .syncing ∨ s.ctrl.state = .founding) : s.isActive = false := by
  rcases hs with hs | hs <;> rw [State.isActive, hs] <;> rfl

/-- What the work on a slot's content reads, the fate of the own frame leaves. -/
structure State.SameReads (s v : State) : Prop where
  ctrl : v.ctrl = s.ctrl
  slots : v.slots = s.slots
  rosterEntry : ∀ j, v.rosterEntry j = s.rosterEntry j
  lock : ∀ l, v.lock l = s.lock l
  installed : v.repl.installed = s.repl.installed
  notices : v.notices = s.notices

theorem State.settleOwnFrame_sameReads (s : State) (c : SlotContent) : s.SameReads (s.settleOwnFrame c) := by
  obtain ⟨ctrl, slots, roster, locks, installed, -, notices⟩ := s.settleOwnFrame_keeps c
  exact ⟨ctrl, slots, State.rosterEntry_congr roster, State.lock_congr locks, installed, notices⟩

theorem State.SameReads.endReception {v : State} (h : s.SameReads v) : s.SameReads v.endReception :=
  ⟨h.ctrl, h.slots, h.rosterEntry, h.lock, h.installed, h.notices⟩

theorem State.SameReads.pageInstalled {v : State} (h : s.SameReads v) (p : Nat) : v.pageInstalled p = s.pageInstalled p :=
  congrArg (BitVec.getLsbD · p) h.installed

theorem State.SameReads.lockValid {v : State} (h : s.SameReads v) (l : LockNo) : v.lockValid l = s.lockValid l :=
  h.pageInstalled (lockPage l)

theorem State.SameReads.isActive {v : State} (h : s.SameReads v) : v.isActive = s.isActive := by
  rw [State.isActive, h.ctrl]; rfl

/-- SILENT_SLOT_END at a station in recovery, LEAVE apart: the owner's miss, or its drop where D is reached, and an
orphaned slot (R13, R80, R97). -/
theorem exec_silentSlotEnd_recovering (ha : s.slots.aligned = true) (hph : s.slots.phase = .waiting)
    (hl : s.leavingSlot = false) (hs : s.ctrl.state = .syncing ∨ s.ctrl.state = .founding)
    (hn : s.repl.installed ≠ allPages) {k : StationNo} (hk : s.slots.position = k) :
    ∃ u : State, exec .silentSlotEnd s = .next u.nextSlot ∧ (s.settleOwnFrame .silent).OrphanedSlot u
      ∧ u.notices = s.notices ∧ (∀ j, j ≠ k → u.rosterEntry j = s.rosterEntry j)
      ∧ ∀ missed dropped : Bool, (missed = true ↔ s.pageInstalled 0 = true ∧ (s.rosterEntry k).state ≠ .absent) →
          (dropped = true ↔ missed = true ∧ s.ctrl.dropThreshold ≤ min 7 ((s.rosterEntry k).misses.toNat + 1)) →
          (missed = false → u.rosterEntry k = s.rosterEntry k)
          ∧ (missed = true → dropped = false → (u.rosterEntry k).state = (s.rosterEntry k).state
              ∧ (u.rosterEntry k).misses.toNat = min 7 ((s.rosterEntry k).misses.toNat + 1))
          ∧ (dropped = true → u.rosterEntry k = ⟨.absent, 0⟩)
          ∧ ∀ l, u.lock l = if s.lockValid l then
              s.endingCycle (if dropped then (s.lock l).purged k s.slots.cycle else s.lock l) else s.lock l := by
  have hv := s.settleOwnFrame_sameReads .silent
  generalize hsettle : s.settleOwnFrame .silent = v at hv ⊢
  have hwork : v.slotWork .silent = v.rosterSilence k := by rw [State.slotWork, hv.slots, hk]
  have T := Touches.rosterSilence v k
  obtain ⟨hreq, hnotices⟩ := State.rosterSilence_unreported (hv.isActive.trans (State.isActive_of_recovering hs)) k
  obtain ⟨u, hexec, hu⟩ := State.slotEnd_orphaned .silent hl hsettle hwork hs rfl T.ctrl
    (by rw [T.repl, hv.installed]; exact hn)
  refine ⟨u, by rw [exec_silentSlotEnd ha hph, hexec], hu.orphaned.before T hreq,
    (hu.notices.trans hnotices).trans hv.notices, fun j hj => ?_, fun missed dropped hm hd => ?_⟩
  · rw [hu.rosterEntry, State.rosterEntry_rosterSilence_ne v hj, hv.rosterEntry]
  · rw [← hv.pageInstalled, ← hv.rosterEntry] at hm
    rw [← hv.ctrl, ← hv.rosterEntry] at hd
    rw [hu.rosterEntry, ← hv.rosterEntry]
    obtain ⟨hkept, hmissed, hdropped⟩ := State.rosterEntry_rosterSilence hm hd
    refine ⟨hkept, hmissed, hdropped, fun l => ?_⟩
    rw [hu.lock_of_kept (T.ctrl.trans hv.ctrl) (T.slots.trans hv.slots) (by rw [T.repl, hv.installed]),
      State.lock_rosterSilence hm hd, hv.lock, hv.slots, hv.lockValid]
    cases s.lockValid l <;> simp

/-- A garbled reception at a station in recovery: the owner's miss count, and no page left (R79, R95). -/
theorem State.slotWork_garbled_recovering (hs : s.isRecovering = true) :
    ∃ r, s.slotWork .garbled = { s with roster := r, repl.installed := 0 }
      ∧ ∀ j, (s.slotWork .garbled).rosterEntry j
        = if s.pageInstalled 0 ∧ j = s.slots.position then { s.rosterEntry s.slots.position with misses := 0 }
          else s.rosterEntry j := by
  obtain ⟨r, e⟩ := s.rosterActivity_eq s.slots.position
  have hs' : (s.rosterActivity s.slots.position).isRecovering = true := by rw [e]; exact hs
  have hwork : s.slotWork .garbled = (s.rosterActivity s.slots.position).uninstallAll := by
    rw [State.slotWork]; exact if_pos hs'
  refine ⟨r, hwork.trans (by rw [e]; rfl), fun j => ?_⟩
  rw [hwork]
  exact s.rosterEntry_rosterActivity s.slots.position j

theorem State.locks_eq_of_lock (h : ∀ l, t.lock l = s.lock l) : t.locks = s.locks :=
  Vector.ext fun i hi => h ⟨i, hi⟩

/-- FRAME_SLOT_END with a garbled reception at a station in recovery, after the own frame's fate: every page uninstalled,
the owner's miss count 0 in a valid roster, and an orphaned slot (R79, R95, R97). -/
theorem exec_frameSlotEnd_garbled_recovering (ha : s.slots.aligned = true) (hph : s.slots.phase = .inFrame)
    (hclass : s.classify = .garbled) (hl : s.leavingSlot = false)
    (hs : s.ctrl.state = .syncing ∨ s.ctrl.state = .founding) :
    ∃ u : State, exec .frameSlotEnd s = .next u.nextSlot
      ∧ ({ s.settleOwnFrame .garbled with repl.installed := 0 } : State).OrphanedSlot u
      ∧ u.notices = s.notices ∧ u.locks = s.locks
      ∧ ∀ j, u.rosterEntry j = if s.pageInstalled 0 ∧ j = s.slots.position then
          { s.rosterEntry s.slots.position with misses := 0 } else s.rosterEntry j := by
  have hv := (s.settleOwnFrame_sameReads .garbled).endReception
  have hrec : (s.settleOwnFrame .garbled).endReception.isRecovering = true := by
    unfold State.isRecovering State.inState
    rw [hv.ctrl]
    rcases hs with hs | hs <;> rw [hs] <;> rfl
  obtain ⟨r, e, hroster⟩ := State.slotWork_garbled_recovering hrec
  obtain ⟨u, hexec, hu⟩ := exec_frameSlotEnd_orphaned ha hph hclass hl hs rfl rfl (by rw [e]; exact hv.ctrl)
    (by rw [e]; exact nofun)
  refine ⟨u, hexec, hu.orphaned.congr ?_ ?_ ?_ ?_ ?_ ?_, ?notices, State.locks_eq_of_lock fun l => ?lock, fun j => ?roster⟩
  case notices => rw [hu.notices, e]; exact hv.notices
  case lock =>
    rw [hu.lock, e]
    exact (if_neg (by simp [State.lockValid, State.pageInstalled])).trans (hv.lock l)
  case roster => rw [hu.rosterEntry, hroster, hv.pageInstalled, hv.slots, hv.rosterEntry, hv.rosterEntry]
  all_goals rw [e]; rfl

/-- FRAME_SLOT_END with a valid JOIN or SYNCING frame at a station in recovery, after the own frame's fate: the sender
SYNCING in a valid roster, its purge after a JOIN where it was not ABSENT, and an orphaned slot (R13, R75, R97). -/
theorem exec_frameSlotEnd_joining_recovering (ha : s.slots.aligned = true) (hph : s.slots.phase = .inFrame) {f : Frame}
    (hclass : s.classify = .valid f) (hst : f.status = .syncing ∨ f.status = .join) (hl : s.leavingSlot = false)
    (hs : s.ctrl.state = .syncing ∨ s.ctrl.state = .founding) (hn : s.repl.installed ≠ allPages)
    (hfirst : s.pageInstalled 0 = false → s.repl.installed = 0) :
    ∃ u : State, exec .frameSlotEnd s = .next u.nextSlot ∧ (s.settleOwnFrame (.valid f)).OrphanedSlot u
      ∧ u.notices = s.notices
      ∧ (∀ j, u.rosterEntry j = if s.pageInstalled 0 ∧ j = f.sender then ⟨.syncing, 0⟩ else s.rosterEntry j)
      ∧ ∀ l, u.lock l = if s.lockValid l then
          s.endingCycle (if f.status = .join ∧ (s.rosterEntry f.sender).state ≠ .absent then
            (s.lock l).purged f.sender s.slots.cycle else s.lock l) else s.lock l := by
  have hv := (s.settleOwnFrame_sameReads (.valid f)).endReception
  have hwork : (s.settleOwnFrame (.valid f)).endReception.slotWork (.valid f)
      = (s.settleOwnFrame (.valid f)).endReception.rosterFrame f.sender f.status := by
    rw [State.slotWork, State.handFrame]
    rcases hst with hst | hst <;> rw [hst]
  have T := Touches.rosterFrame (s.settleOwnFrame (.valid f)).endReception f.sender f.status
  have hoff := hv.isActive.trans (State.isActive_of_recovering hs)
  obtain ⟨hreq, hnotices, hroster, hlock⟩ := State.rosterFrame_joining hoff f.sender hst
  have hheard : (SlotContent.valid f).heardActive = false := by
    rcases hst with hst | hst <;> simp [SlotContent.heardActive, hst]
  obtain ⟨u, hexec, hu⟩ := exec_frameSlotEnd_orphaned ha hph hclass hl hs hheard hwork (T.ctrl.trans hv.ctrl)
    (by rw [T.repl, hv.installed]; exact hn)
  refine ⟨u, hexec, (hu.orphaned.before T hreq).congr rfl rfl rfl rfl rfl rfl,
    (hu.notices.trans hnotices).trans hv.notices, fun j => ?roster, fun l => ?lock⟩
  case roster => rw [hu.rosterEntry, hroster, hv.pageInstalled, hv.rosterEntry]
  case lock =>
    rw [hu.lock_of_kept (T.ctrl.trans hv.ctrl) (T.slots.trans hv.slots) (by rw [T.repl, hv.installed]), hlock,
      hv.pageInstalled, hv.rosterEntry, hv.lockValid, hv.lock, hv.slots]
    by_cases hvalid : s.lockValid l = true
    · have h0 : s.pageInstalled 0 = true := by
        rw [← Bool.not_eq_false]
        intro h0
        simp [State.lockValid, State.pageInstalled, hfirst h0] at hvalid
      simp [hvalid, h0]
    · simp [hvalid]

/-! ### The obligation -/

/-- The fate of the own frame, case by case of Table 4-2. -/
theorem State.ownFrameFate {o : OwnFrame} (ho : s.line.own = some o) (c : SlotContent) :
    ((o.sent = false ∨ c = .silent) →
      (s.settleOwnFrame c).req.queue = o.tags.filter s.inFlight ++ s.req.queue
      ∧ (∀ g, (s.settleOwnFrame c).entry g
          = if g ∈ o.tags ∧ s.inFlight g = true then { s.entry g with opStatus := .queued, doubtMark := false }
            else s.entry g)
      ∧ { s.settleOwnFrame c with req := s.req } = s)
    ∧ (o.sent = true → ∀ f, c = .valid f → f.status = o.frame.status → f.ops = o.frame.ops →
        s.settleOwnFrame c = s.joinSent o)
    ∧ (o.sent = true →
        (c = .garbled ∨ c = .alien ∨ ∃ f, c = .valid f ∧ (f.status ≠ o.frame.status ∨ f.ops ≠ o.frame.ops)) →
        (s.settleOwnFrame c).req.queue = s.req.queue
        ∧ (s.settleOwnFrame c).req.doubtOrder = s.req.doubtOrder ++ o.tags.filter s.inFlight
        ∧ (∀ g, (s.settleOwnFrame c).entry g
            = if g ∈ o.tags ∧ s.inFlight g = true then { s.entry g with opStatus := .doubtful, doubtMark := false }
              else s.entry g)
        ∧ { s.settleOwnFrame c with req := s.req } = s.joinSent o) := by
  have hnotices := (s.settleOwnFrame_sameReads c).notices
  refine ⟨fun h => ?returned, fun hsent f hc hstatus hops => ?applied, fun hsent hc => ?doubtful⟩
  case returned =>
    rw [State.settleOwnFrame_unsent ho h] at hnotices ⊢
    exact ⟨s.returnToHead_queue _, s.entry_returnDrawn o.tags, (Touches.returnDrawn s o.tags).withReq_eq hnotices⟩
  case applied => rw [hc, State.settleOwnFrame_readBack ho hsent hstatus hops]
  case doubtful =>
    rw [State.settleOwnFrame_doubtful ho hsent hc] at hnotices ⊢
    obtain ⟨hqueue, horder⟩ := (s.joinSent o).doubtDrawn_lists o.tags
    exact ⟨hqueue, horder, (s.joinSent o).entry_doubtDrawn o.tags,
      (Touches.doubtDrawn (s.joinSent o) o.tags).withReq_eq hnotices⟩

/-- Settles O45: ownFrameFate is Table 4-2; at an ACTIVE station the own frame's works are those of any frame, and at a
station in recovery each content of the own slot is an orphaned slot after that fate. -/
theorem ownFrameFateFollowsTheReadback : Obligations.OwnFrameFateFollowsTheReadback := by
  intro s o ho
  refine ⟨State.ownFrameFate ho, fun hs ha hph hall hp hsent hstatus hrx hsender hcount hcycle => ?active,
    fun hs ha hleave k e hp hk he => ?recovering⟩
  case active =>
    have hclass := State.classify_own ho hsent hrx (hsender.trans hp.symm) hcount hcycle
    have hexec := exec_frameSlotEnd_own_active hs ha hph ho hsent hp hclass hstatus hsender
    have T := s.endReception.frameWork_touches o.frame
    have B := s.frameWork_beside o.frame
    rw [hsender] at B
    have hroster := State.rosterEntry_frameWork_valid (s := s.endReception) (rosterValid_of_all hall) o.frame
    have hlock := State.lock_frameWork_all (s := s.endReception) hall o.frame
    rw [hsender] at hroster hlock
    exact ⟨_, hexec, T.ctrl, T.slots, T.repl, T.pageCursor, T.port, hroster, hlock, B.req, B.notices⟩
  case recovering =>
    have hl := State.not_leavingSlot ho hleave
    subst hp he
    refine ⟨fun hph hn => exec_silentSlotEnd_recovering ha hph hl hs hn rfl, fun hph h => ?garbled,
      fun f hph hsent hrx hn halien => ?alien, fun hph hsent hrx hst hsender hcount hcycle hn hfirst => ?joining⟩
    case garbled =>
      refine exec_frameSlotEnd_garbled_recovering ha hph (State.classify_garbled ?_) hl hs
      rw [State.ownUnsent_of_own ho, Bool.not_eq_true']
      exact h
    case alien =>
      refine exec_frameSlotEnd_alien_recovering ha hph ?_ hl hs hn
      rw [State.classify_frame (by rw [State.ownUnsent_of_own ho, hsent]; rfl) hrx, if_pos ((s.alienFrame_iff f).2 halien)]
    case joining =>
      have hclass := State.classify_own ho hsent hrx hsender hcount hcycle
      have h := exec_frameSlotEnd_joining_recovering ha hph hclass hst hl hs hn hfirst
      rwa [hsender] at h

end Sys2Proof.Machine
end

section
/-! The layout of a frame (Tables 11-1 and 11-2): its bytes, the checks of R64 and R65 on the bytes of a reception, and
that a frame's bytes read back as the frame. -/

namespace Sys2Proof.Machine

/-! ### The frame check (R59) -/

theorem byteBits_eq_map (b : Byte) : byteBits b = (List.range 8).map fun i => b.getLsbD (7 - i) := by
  simp [byteBits, List.range_succ, BitVec.getMsbD]

theorem crcBit_eq (c : Word16) (bit : Bool) :
    crcBit c bit = if c.getLsbD 15 = bit then c <<< 1 else (c <<< 1) ^^^ 0x1021 := by
  have hmsb : c.msb = c.getLsbD 15 := BitVec.msb_eq_getLsbD_last c
  rw [crcBit, hmsb]
  cases c.getLsbD 15 <;> cases bit <;> rfl

theorem crc16_append (bs : List Byte) (b : Byte) : crc16 (bs ++ [b]) = (byteBits b).foldl crcBit (crc16 bs) := by
  rw [crc16, List.foldl_append]
  rfl

/-! ### Header codes (Table 11-1) -/

theorem statusOfCode_statusCode (st : FrameStatus) : statusOfCode (statusCode st) = some st := by
  cases st <;> rfl

theorem statusOfCode_eq_some {n : Nat} {st : FrameStatus} (h : statusOfCode n = some st) :
    n ≤ 4 ∧ n = statusCode st := by
  unfold statusOfCode at h
  split at h
  case h_6 => cases h
  all_goals
    obtain rfl := Option.some.inj h
    exact ⟨by decide, rfl⟩

/-- The second byte of a header carries status, operation count and page flag. -/
theorem header_flags (st : FrameStatus) {n : Nat} (hn : n ≤ 4) (page : Bool) {b : Byte}
    (hb : b = BitVec.ofNat 8 (32 * statusCode st + 4 * n + 2 * page.toNat)) :
    b.toNat / 32 = statusCode st ∧ b.toNat / 4 % 8 = n ∧ b.getLsbD 1 = page := by
  have hst : statusCode st ≤ 4 := by cases st <;> decide
  have hpage : page.toNat ≤ 1 := page.toNat_le
  have hnat : b.toNat = 32 * statusCode st + 4 * n + 2 * page.toNat := by
    rw [hb, BitVec.toNat_ofNat, Nat.mod_eq_of_lt (by omega)]
  have hbit : b.getLsbD 1 = decide (b.toNat / 2 % 2 = 1) := by
    rw [BitVec.getLsbD, Nat.testBit_eq_decide_div_mod_eq, pow_one]
  refine ⟨by omega, by omega, ?_⟩
  rw [hbit, hnat]
  cases page <;> simp <;> omega

/-- The first byte of a header carries sender and slot count. -/
theorem header_sender (k n : Fin 16) {b : Byte} (hb : b = BitVec.ofNat 8 (16 * k.val + n.val)) :
    b.toNat / 16 = k.val ∧ b.toNat % 16 = n.val := by
  have hnat : b.toNat = 16 * k.val + n.val := by rw [hb, BitVec.toNat_ofNat]; omega
  omega

/-! ### The parts of a reception's bytes -/

/-- The bytes of a reception of at least 12 bytes, cut as Table 11-1 does: the ten of the header, what stands between, and
the two of the frame check. -/
structure RawFrame where
  b0 : Byte
  b1 : Byte
  c2 : Byte
  c1 : Byte
  c0 : Byte
  d1 : Byte
  d0 : Byte
  index : Byte
  l1 : Byte
  l0 : Byte
  rest : List Byte
  k1 : Byte
  k0 : Byte

namespace RawFrame

variable (r : RawFrame)

/-- What the frame check is taken over. -/
def front : List Byte := [r.b0, r.b1, r.c2, r.c1, r.c0, r.d1, r.d0, r.index, r.l1, r.l0] ++ r.rest

def bytes : List Byte := r.front ++ [r.k1, r.k0]

def opCount : Nat := r.b1.toNat / 4 % 8

def pageFlag : Bool := r.b1.getLsbD 1

def bodyLength : Nat := (word16 r.l1 r.l0).toNat

def body : List Byte := r.rest.drop (4 * r.opCount)

theorem length_front : r.front.length = 10 + r.rest.length := by
  simp [front]; omega

theorem length_bytes : r.bytes.length = 12 + r.rest.length := by
  simp [bytes, length_front]; omega

theorem exists_bytes {bs : List Byte} (h : 12 ≤ bs.length) : ∃ r : RawFrame, bs = r.bytes := by
  rcases bs with _ | ⟨b0, _ | ⟨b1, _ | ⟨c2, _ | ⟨c1, _ | ⟨c0, _ | ⟨d1, _ | ⟨d0, _ | ⟨i, _ | ⟨l1, _ | ⟨l0, more⟩⟩⟩⟩⟩⟩⟩⟩⟩⟩
  case cons.cons.cons.cons.cons.cons.cons.cons.cons.cons =>
    rcases List.eq_nil_or_concat more with rfl | ⟨more', k0, rfl⟩
    · simp at h
    · rcases List.eq_nil_or_concat more' with rfl | ⟨rest, k1, rfl⟩
      · simp at h
      · exact ⟨⟨b0, b1, c2, c1, c0, d1, d0, i, l1, l0, rest, k1, k0⟩, by simp [bytes, front]⟩
  all_goals simp at h

/-- The frame with this status and page that the other fields spell (Tables 11-1 and 11-2). -/
def spelled (st : FrameStatus) (page : Option Page) : Frame :=
  ⟨Fin.ofNat 16 (r.b0.toNat / 16), Fin.ofNat 16 (r.b0.toNat % 16), st, r.c2 ++ r.c1 ++ r.c0, word16 r.d1 r.d0,
    readOperations r.opCount (r.rest ++ [r.k1, r.k0]), page⟩

/-- The checks of R64 and R65, and the frame that passes them. -/
structure Reads (f : Frame) : Prop where
  check : crc16 r.front = word16 r.k1 r.k0
  status : statusOfCode (r.b1.toNat / 32) = some f.status
  sender : r.b0.toNat / 16 ≤ r.b0.toNat % 16
  opCount : r.opCount ≤ 4
  activeAlone : r.opCount ≠ 0 ∨ r.pageFlag = true → f.status = .active
  pageIndex : r.pageFlag = true → r.index.toNat ≤ 8
  pageless : r.pageFlag = false → r.index.toNat = 0 ∧ r.bodyLength = 0 ∧ f.page = none
  length : r.rest.length = 4 * r.opCount + r.bodyLength
  page : r.pageFlag = true → ∃ p, readPage r.index.toNat r.body = some p ∧ f.page = some p
  frame : f = r.spelled f.status f.page

theorem readFrame_bytes_iff (f : Frame) : readFrame r.bytes = some f ↔ r.Reads f := by
  have hlen := r.length_bytes
  have htake : r.bytes.take (r.bytes.length - 2) = r.front := by
    rw [bytes]; simp
  have hk1 : r.bytes.getD (r.bytes.length - 2) 0 = r.k1 := by
    rw [bytes]; simp
  have hk0 : r.bytes.getD (r.bytes.length - 1) 0 = r.k0 := by
    rw [bytes]; simp
  have hdrop : r.bytes.drop 10 = r.rest ++ [r.k1, r.k0] := rfl
  have hbody : r.rest.length = 4 * r.opCount + r.bodyLength →
      (r.bytes.drop (10 + 4 * r.opCount)).take r.bodyLength = r.body := by
    intro h
    rw [← List.drop_drop, hdrop, body, List.drop_append_of_le_length (by omega)]
    exact List.take_left' (by rw [List.length_drop]; omega)
  unfold readFrame
  simp only [htake, hk1, hk0, hdrop, Option.ite_none_left_eq_some]
  constructor
  · rintro ⟨-, hcheck, h⟩
    split at h
    · cases h
    · rename_i st hst
      simp only [Option.ite_none_left_eq_some] at h
      obtain ⟨hsender, hops, hactive, hindex, hpageless, hlength, h⟩ := h
      have hlength : r.rest.length = 4 * r.opCount + r.bodyLength := by
        have h12 : r.bytes.length = 10 + 4 * r.opCount + r.bodyLength + 2 := not_not.1 hlength
        omega
      have hparts : f.status = st ∧ f = r.spelled st f.page
          ∧ (r.pageFlag = true → ∃ p, readPage r.index.toNat r.body = some p ∧ f.page = some p)
          ∧ (r.pageFlag = false → f.page = none) := by
        rw [← hbody hlength]
        split at h
        · rename_i hflag
          obtain ⟨p, hp, rfl⟩ := Option.map_eq_some_iff.1 h
          exact ⟨rfl, rfl, fun _ => ⟨p, hp, rfl⟩, fun hno => absurd (hflag.symm.trans hno) nofun⟩
        · rename_i hflag
          obtain rfl := Option.some.inj h
          exact ⟨rfl, rfl, fun hyes => absurd hyes hflag, fun _ => rfl⟩
      obtain ⟨rfl, hframe, hpage, hnone⟩ := hparts
      refine ⟨not_not.1 hcheck, hst, Nat.not_lt.1 hsender, Nat.not_lt.1 hops, fun hn => ?_,
        fun hp => Nat.not_lt.1 fun hgt => hindex ⟨hp, hgt⟩, fun hp => ?_, hlength, hpage, hframe⟩
      · exact not_not.1 fun hne => hactive ⟨hn, hne⟩
      · have hzero := not_or.1 fun hor => hpageless ⟨hp, hor⟩
        exact ⟨not_not.1 hzero.1, not_not.1 hzero.2, hnone hp⟩
  · intro h
    have hst : statusOfCode ((r.bytes.getD 1 0).toNat / 32) = some f.status := h.status
    refine ⟨Nat.not_lt.2 (hlen ▸ Nat.le_add_right 12 _), not_not.2 h.check, ?_⟩
    rw [hst]
    simp only [Option.ite_none_left_eq_some]
    refine ⟨Nat.not_lt.2 h.sender, Nat.not_lt.2 h.opCount, fun hn => hn.2 (h.activeAlone hn.1),
      fun hn => Nat.not_lt.2 (h.pageIndex hn.1) hn.2, fun hn => ?pageless, not_not.2 ?length, ?frame⟩
    case pageless =>
      obtain ⟨hindex, hzero, -⟩ := h.pageless hn.1
      exact hn.2.elim (fun hne => hne hindex) fun hne => hne hzero
    case length =>
      have := h.length
      show r.bytes.length = 10 + 4 * r.opCount + r.bodyLength + 2
      omega
    case frame =>
      have hframe := h.frame
      split
      · rename_i hflag
        obtain ⟨p, hp, hpage⟩ := h.page hflag
        rw [← hbody h.length] at hp
        rw [hpage] at hframe
        exact Option.map_eq_some_iff.2 ⟨p, hp, hframe.symm⟩
      · rename_i hflag
        obtain ⟨-, -, hpage⟩ := h.pageless (Bool.not_eq_true _ ▸ hflag)
        rw [hpage] at hframe
        exact congrArg some hframe.symm

end RawFrame

/-! ### A frame's bytes read back -/

/-- The body of the frame's page, empty without one. -/
def Frame.pageBody (f : Frame) : List Byte := (f.page.map Page.body).getD []

/-- The frame's bytes, cut into their parts. -/
def Frame.raw (f : Frame) : RawFrame where
  b0 := BitVec.ofNat 8 (16 * f.sender.val + f.slotCount.val)
  b1 := BitVec.ofNat 8 (32 * statusCode f.status + 4 * f.ops.length + 2 * f.page.isSome.toNat)
  c2 := f.cycle.extractLsb' 16 8
  c1 := f.cycle.extractLsb' 8 8
  c0 := f.cycle.extractLsb' 0 8
  d1 := hiByte f.digest
  d0 := loByte f.digest
  index := countByte ((f.page.map Page.index).getD 0)
  l1 := hiByte (BitVec.ofNat 16 f.pageBody.length)
  l0 := loByte (BitVec.ofNat 16 f.pageBody.length)
  rest := f.ops.flatMap Operation.toBytes ++ f.pageBody
  k1 := hiByte (crc16 f.content)
  k0 := loByte (crc16 f.content)

theorem Frame.front_raw (f : Frame) : f.raw.front = f.content :=
  (List.append_assoc f.header _ _).symm

theorem Frame.bytes_raw (f : Frame) : f.raw.bytes = f.toBytes := by
  rw [RawFrame.bytes, f.front_raw]
  rfl

/-- The form of a page that R65 asks for: 16 roster entries, or 8 records of at most 16 participants. -/
def Page.WellFormed : Page → Prop
  | .roster es => es.length = 16
  | .locks _ rs => rs.length = 8 ∧ ∀ r ∈ rs, r.holders.length + r.waiters.length ≤ 16

theorem Page.index_le (p : Page) : p.index ≤ 8 := by
  cases p with
  | roster es => exact Nat.zero_le 8
  | locks k rs => exact k.isLt

theorem Page.length_body_lt {p : Page} (h : p.WellFormed) : p.body.length < 65536 := by
  cases p with
  | roster es => rw [Page.body, List.length_map, show es.length = 16 from h]; decide
  | locks k rs =>
    obtain ⟨hcount, hsize⟩ := h
    have hbound : ∀ n ∈ rs.map fun r => r.toBytes.length, n ≤ 131 := by
      intro n hn
      obtain ⟨r, hr, rfl⟩ := List.mem_map.1 hn
      have := hsize r hr
      rw [r.toBytes_length]
      omega
    have hsum := List.sum_le_card_nsmul _ 131 hbound
    rw [List.length_map, hcount] at hsum
    rw [Page.body, List.length_flatMap]
    exact lt_of_le_of_lt hsum (by decide)

theorem Page.readPage_body {p : Page} (h : p.WellFormed) : readPage p.index p.body = some p := by
  cases p with
  | roster es => exact readPage_body_roster h
  | locks k rs => exact readPage_body_locks h.1 fun r hr => r.participants_length ▸ h.2 r hr

/-- A frame that a station sends: its sender a slot of its line, at most 4 operations, operations and page in an ACTIVE
frame alone, a well-formed page. -/
structure Frame.WellFormed (f : Frame) : Prop where
  sender : f.sender ≤ f.slotCount
  ops : f.ops.length ≤ 4
  activeAlone : f.status ≠ .active → f.ops = [] ∧ f.page = none
  page : ∀ p, f.page = some p → p.WellFormed

theorem Frame.WellFormed.length_pageBody_lt {f : Frame} (h : f.WellFormed) : f.pageBody.length < 65536 := by
  unfold Frame.pageBody
  cases hp : f.page with
  | none => decide
  | some p => exact Page.length_body_lt (h.page p hp)

theorem Frame.WellFormed.reads_raw {f : Frame} (h : f.WellFormed) : f.raw.Reads f := by
  obtain ⟨hsender, hcount⟩ := header_sender f.sender f.slotCount (b := f.raw.b0) rfl
  obtain ⟨hstatus, hops, hflag⟩ := header_flags f.status h.ops f.page.isSome (b := f.raw.b1) rfl
  have hops : f.raw.opCount = f.ops.length := hops
  have hflag : f.raw.pageFlag = f.page.isSome := hflag
  have hsome : f.raw.pageFlag = true → ∃ p, f.page = some p :=
    fun hp => Option.isSome_iff_exists.1 (hflag.symm.trans hp)
  have hlength : f.raw.bodyLength = f.pageBody.length := by
    have hw : word16 f.raw.l1 f.raw.l0 = BitVec.ofNat 16 f.pageBody.length := word16_hiByte_loByte _
    rw [RawFrame.bodyLength, hw, BitVec.toNat_ofNat, Nat.mod_eq_of_lt h.length_pageBody_lt]
  have hindex : f.raw.index.toNat = (f.page.map Page.index).getD 0 := by
    refine countByte_toNat ?_
    cases f.page with
    | none => decide
    | some p => exact lt_of_le_of_lt p.index_le (by decide)
  have hbody : f.raw.body = f.pageBody := by
    rw [RawFrame.body, hops]
    exact List.drop_left' (flatMap_operations_length f.ops)
  have hread : readOperations f.raw.opCount (f.raw.rest ++ [f.raw.k1, f.raw.k0]) = f.ops := by
    rw [hops, Frame.raw, List.append_assoc]
    exact readOperations_toBytes f.ops _
  have hfin : ∀ k : Fin 16, Fin.ofNat 16 k.val = k := fun k => Fin.ext (Nat.mod_eq_of_lt k.isLt)
  refine ⟨?check, ?status, ?sender, hops ▸ h.ops, fun hn => ?activeAlone, fun hp => ?pageIndex, fun hp => ?pageless,
    ?length, fun hp => ?page, ?frame⟩
  case check => rw [f.front_raw]; exact (word16_hiByte_loByte _).symm
  case status => rw [hstatus, statusOfCode_statusCode]
  case sender => rw [hsender, hcount]; exact h.sender
  case activeAlone =>
    by_contra hne
    obtain ⟨hnoOps, hnoPage⟩ := h.activeAlone hne
    rw [hops, hflag] at hn
    simp [hnoOps, hnoPage] at hn
  case pageless =>
    have hnone : f.page = none := by rw [hflag] at hp; simpa using hp
    rw [hindex, hlength, Frame.pageBody, hnone]
    exact ⟨rfl, rfl, rfl⟩
  case length =>
    rw [hops, hlength, ← flatMap_operations_length f.ops]
    exact List.length_append
  case pageIndex =>
    obtain ⟨p, hpage⟩ := hsome hp
    rw [hindex, hpage]
    exact p.index_le
  case page =>
    obtain ⟨p, hpage⟩ := hsome hp
    refine ⟨p, ?_, hpage⟩
    rw [hindex, hbody, Frame.pageBody, hpage]
    exact Page.readPage_body (h.page p hpage)
  case frame =>
    rw [RawFrame.spelled, hread, hsender, hcount, hfin, hfin]
    have hcycle : f.raw.c2 ++ f.raw.c1 ++ f.raw.c0 = f.cycle := cycleBytes_join f.cycle
    have hdigest : word16 f.raw.d1 f.raw.d0 = f.digest := word16_hiByte_loByte f.digest
    rw [hcycle, hdigest]

theorem Frame.WellFormed.readFrame_toBytes {f : Frame} (h : f.WellFormed) : readFrame f.toBytes = some f := by
  rw [← f.bytes_raw, RawFrame.readFrame_bytes_iff]
  exact h.reads_raw

/-! ### The bytes of Tables 11-1 and 11-2 -/

theorem hiByte_ofNat (n : Nat) : hiByte (BitVec.ofNat 16 n) = BitVec.ofNat 8 (n / 256) := by
  rw [hiByte_eq_ofNat, BitVec.toNat_ofNat]
  apply BitVec.eq_of_toNat_eq
  rw [BitVec.toNat_ofNat, BitVec.toNat_ofNat]
  omega

theorem loByte_ofNat (n : Nat) : loByte (BitVec.ofNat 16 n) = BitVec.ofNat 8 n := by
  rw [loByte_eq_ofNat, BitVec.toNat_ofNat]
  apply BitVec.eq_of_toNat_eq
  rw [BitVec.toNat_ofNat, BitVec.toNat_ofNat]
  omega

/-- The four bytes of an operation (Table 11-2). -/
theorem Operation.toBytes_eq (o : Operation) : o.toBytes
    = [BitVec.ofNat 8 (64 * kindCode o.kind + (if o.mode = .shared then 32 else 0) + if o.tryOnly then 16 else 0),
      o.lock, BitVec.ofNat 8 (o.limit.toNat / 256), BitVec.ofNat 8 o.limit.toNat] := by
  have hmode : 32 * modeCode o.mode = if o.mode = .shared then 32 else 0 := by cases o.mode <;> rfl
  have htry : 16 * o.tryOnly.toNat = if o.tryOnly then 16 else 0 := by cases o.tryOnly <;> rfl
  rw [Operation.toBytes, limitBytes_eq_ofNat, hmode, htry]

/-- The ten bytes of a header (Table 11-1). -/
theorem Frame.header_eq (f : Frame) : f.header
    = [BitVec.ofNat 8 (16 * f.sender.val + f.slotCount.val),
        BitVec.ofNat 8 (32 * statusCode f.status + 4 * f.ops.length + if f.page.isSome then 2 else 0),
        BitVec.ofNat 8 (f.cycle.toNat / 65536), BitVec.ofNat 8 (f.cycle.toNat / 256), BitVec.ofNat 8 f.cycle.toNat,
        BitVec.ofNat 8 (f.digest.toNat / 256), BitVec.ofNat 8 f.digest.toNat,
        BitVec.ofNat 8 (match f.page with | some (.locks p _) => p.val + 1 | _ => 0),
        BitVec.ofNat 8 (f.pageBody.length / 256), BitVec.ofNat 8 f.pageBody.length] := by
  have hflag : 2 * f.page.isSome.toNat = if f.page.isSome then 2 else 0 := by cases f.page.isSome <;> rfl
  have hindex : (f.page.map Page.index).getD 0 = match f.page with | some (.locks p _) => p.val + 1 | _ => 0 := by
    rcases f.page with _ | _ | _ <;> rfl
  rw [Frame.header, cycleBytes_eq_ofNat, hiByte_ofNat, loByte_ofNat, hiByte_eq_ofNat, loByte_eq_ofNat, hflag, hindex]
  rfl

/-! ### What is read -/

/-- The participants that are read number what the count says, and take 8 bytes each (R65). -/
theorem readParticipants_length {n : Nat} {bs left : List Byte} {ps : List Participant}
    (h : readParticipants n bs = some (ps, left)) : ps.length = n ∧ bs.length = 8 * n + left.length := by
  fun_induction readParticipants n bs generalizing ps left with
  | case1 bs =>
    cases h
    simp
  | case2 n p0 p1 p2 p3 p4 p5 p6 p7 bs ps' left' hrest ih =>
    cases h
    obtain ⟨hcount, hlength⟩ := ih hrest
    simp only [List.length_cons]
    omega
  | case3 => cases h
  | case4 => cases h

theorem recordOfParticipants_length (g : Word16) (ps : List Participant) :
    (recordOfParticipants g ps).holders.length + (recordOfParticipants g ps).waiters.length = ps.length := by
  induction ps with
  | nil => rfl
  | cons p ps ih =>
    cases p <;> simp only [recordOfParticipants, List.filterMap_cons, List.length_cons] at ih ⊢ <;> omega

/-- A record that is read has the participants that its count says, at most 16 (R65). -/
theorem readRecord_length {bs left : List Byte} {r : LockRecord} (h : readRecord bs = some (r, left)) :
    r.holders.length + r.waiters.length ≤ 16
      ∧ bs.length = 3 + 8 * (r.holders.length + r.waiters.length) + left.length := by
  revert h
  fun_cases readRecord bs with
  | case2 g1 g0 count bs hcount ps left' hrest =>
    intro h
    cases h
    obtain ⟨hps, hlength⟩ := readParticipants_length hrest
    rw [recordOfParticipants_length]
    simp only [List.length_cons]
    omega
  | case1 => exact nofun
  | case3 => exact nofun
  | case4 => exact nofun

theorem readRecords_length {n : Nat} {bs left : List Byte} {rs : List LockRecord}
    (h : readRecords n bs = some (rs, left)) :
    rs.length = n ∧ (∀ r ∈ rs, r.holders.length + r.waiters.length ≤ 16)
      ∧ bs.length = (rs.map fun r => 3 + 8 * (r.holders.length + r.waiters.length)).sum + left.length := by
  fun_induction readRecords n bs generalizing rs left with
  | case1 bs =>
    cases h
    simp
  | case2 n bs r after hfirst rs' rest hmore ih =>
    cases h
    obtain ⟨hcount, hsizes, hlength⟩ := ih hmore
    obtain ⟨hsize, hlength'⟩ := readRecord_length hfirst
    refine ⟨congrArg (· + 1) hcount, List.forall_mem_cons.2 ⟨hsize, hsizes⟩, ?_⟩
    rw [List.map_cons, List.sum_cons]
    omega
  | case3 => cases h
  | case4 => cases h

theorem rosterOfCode_le {n : Nat} {st : RosterState} (h : rosterOfCode n = some st) : n ≤ 2 := by
  unfold rosterOfCode at h
  split at h
  case h_4 => cases h
  all_goals decide

/-- The bytes that are read as roster entries carry no state code but those of Table 11-4 (R65). -/
theorem rosterEntriesOfBytes_codes {body : List Byte} {es : List RosterEntry}
    (h : rosterEntriesOfBytes body = some es) : ∀ x ∈ body, x.toNat / 64 ≤ 2 := by
  fun_induction rosterEntriesOfBytes body generalizing es with
  | case1 => exact nofun
  | case2 b bs e es' hrest hfirst ih =>
    refine List.forall_mem_cons.2 ⟨?_, ih hrest⟩
    unfold rosterEntryOfByte at hfirst
    split at hfirst
    · exact rosterOfCode_le ‹_›
    · cases hfirst
  | case3 => cases h

/-- A page that is read from index 0 is a roster of 16 bytes. -/
theorem readPage_zero {body : List Byte} {p : Page} (h : readPage 0 body = some p) :
    body.length = 16 ∧ ∀ x ∈ body, x.toNat / 64 ≤ 2 := by
  rw [readPage, if_pos rfl, Option.ite_none_right_eq_some] at h
  obtain ⟨hlength, h⟩ := h
  obtain ⟨es, hes, -⟩ := Option.map_eq_some_iff.1 h
  exact ⟨hlength, rosterEntriesOfBytes_codes hes⟩

/-- A page that is read from another index is 8 records that fill its body. -/
theorem readPage_locks {index : Nat} {body : List Byte} {p : Page} (h0 : index ≠ 0)
    (h : readPage index body = some p) :
    ∃ rs, readRecords 8 body = some (rs, []) ∧ p = .locks (Fin.ofNat 8 (index - 1)) rs := by
  unfold readPage at h
  rw [if_neg h0] at h
  split at h
  case isFalse => cases h
  case isTrue hlt =>
    split at h
    case h_2 => cases h
    case h_1 rs hrs =>
      refine ⟨rs, hrs, (Option.some.inj h).symm.trans ?_⟩
      exact congrArg (Page.locks · rs) (Fin.ext (Nat.mod_eq_of_lt hlt).symm)

theorem readFrame_length {bs : List Byte} {f : Frame} (h : readFrame bs = some f) : 12 ≤ bs.length := by
  unfold readFrame at h
  exact Nat.not_lt.1 (Option.ite_none_left_eq_some.1 h).1

theorem Reception.frame_eq (rx : Reception) : rx.frame
    = if rx.fault = true ∨ rx.overLong = true ∨ rx.cells ≠ [] then none else readFrame rx.bytes := by
  unfold Reception.frame Reception.marked
  exact if_congr (by simp [or_assoc]) rfl rfl

/-- Settles O55: a frame that a station sends reads back by reads_raw; its bytes are those of header_eq and
Operation.toBytes_eq; what is read at all is what readFrame_bytes_iff says of its parts. -/
theorem frameReadsBack : Obligations.FrameReadsBack := by
  refine ⟨fun f hsender hops hactive hroster hlocks => ?reads,
    fun f byte body content hbyte hes hrs hnone hcontent => ?bytes, ⟨rfl, fun bs b => ?crc⟩, fun bs f h => ?inverse,
    fun rx => ?reception⟩
  case reads =>
    refine Frame.WellFormed.readFrame_toBytes ⟨hsender, hops, hactive, fun p hp => ?_⟩
    cases p with
    | roster es => exact hroster es hp
    | locks k rs => exact hlocks k rs hp
  case bytes =>
    subst hbyte
    have hbody : body = f.pageBody := by
      unfold Frame.pageBody
      cases hp : f.page with
      | none => exact hnone hp
      | some p =>
        cases p with
        | roster es =>
          refine (hes es hp).trans (List.map_congr_left fun e _ => ?_)
          rw [RosterEntry.toByte]
          cases e.state <;> rfl
        | locks k rs => exact hrs k rs hp
    have hfront : f.content = content := by
      rw [hcontent, hbody]
      refine congrArg (· ++ f.pageBody) (congrArg₂ (· ++ ·) f.header_eq ?_)
      exact congrArg (fun g => f.ops.flatMap g) (funext Operation.toBytes_eq)
    rw [Frame.toBytes, hfront, hiByte_eq_ofNat, loByte_eq_ofNat]
  case crc =>
    rw [crc16_append, byteBits_eq_map, List.foldl_map]
    simp only [crcBit_eq]
  case inverse =>
    obtain ⟨r, rfl⟩ := RawFrame.exists_bytes (readFrame_length h)
    have R := (r.readFrame_bytes_iff f).1 h
    have hlength := R.length
    have htake : (r.rest.take (4 * r.opCount)).length = 4 * r.opCount := by
      rw [List.length_take]; omega
    have hbody : r.body.length = r.bodyLength := by
      rw [RawFrame.body, List.length_drop]; omega
    have hops := R.opCount
    refine ⟨r.front, r.body, r.b0, r.b1, r.c2, r.c1, r.c0, r.d1, r.d0, r.index, r.l1, r.l0, r.k1, r.k0,
      r.rest.take (4 * r.opCount), rfl, R.check.symm, ?front, (statusOfCode_eq_some R.status).1, R.sender, htake,
      by omega, hbody, fun hn => ?alone, fun hp => ?noPage, fun hp h0 => ?rosterPage, fun hp h0 => ?lockPage⟩
    case front =>
      rw [RawFrame.front, RawFrame.body, List.append_assoc, List.take_append_drop]
    case alone =>
      have hactive : f.status = .active := R.activeAlone (hn.imp_left fun hne hzero => hne (by simp [hzero]))
      rw [(statusOfCode_eq_some R.status).2, hactive]
      rfl
    case noPage =>
      obtain ⟨hindex, hzero, -⟩ := R.pageless hp
      exact ⟨BitVec.eq_of_toNat_eq hindex, List.length_eq_zero_iff.1 (hbody.trans hzero)⟩
    case rosterPage =>
      obtain ⟨p, hread, -⟩ := R.page hp
      rw [h0] at hread
      exact readPage_zero hread
    case lockPage =>
      obtain ⟨p, hread, hpage⟩ := R.page hp
      obtain ⟨rs, hrs, rfl⟩ := readPage_locks (fun hzero => h0 (BitVec.eq_of_toNat_eq hzero)) hread
      obtain ⟨hcount, hsizes, hsum⟩ := readRecords_length hrs
      exact ⟨R.pageIndex hp, rs, hcount, hsizes, hsum, hpage⟩
  case reception =>
    rw [Reception.frame_eq]
    exact ⟨fun h => if_pos h, fun hfault hlong hcells => if_neg (by simp [hfault, hlong, hcells])⟩

end Sys2Proof.Machine
end

section
/-! The roster as QUERY_ROSTER gives it (R86, Table 11-4). -/

namespace Sys2Proof.Machine

variable {s : State}

/-- A cycle number is its three bytes, high byte first. -/
theorem cycle_eq_append (c : CycleNo) :
    (c.extractLsb' 16 8 : Byte) ++ (c.extractLsb' 8 8 : Byte) ++ (c.extractLsb' 0 8 : Byte) = c := by
  ext i hi
  simp
  grind

/-- The byte of a roster entry: state code, miss count and three 0 bits (Table 11-4). -/
theorem RosterEntry.toByte_fields (e : RosterEntry) :
    (e.toByte.extractLsb' 6 2).toNat = rosterCode e.state
    ∧ e.toByte.extractLsb' 3 3 = e.misses ∧ e.toByte.extractLsb' 0 3 = 0 := by
  obtain ⟨st, m⟩ := e
  cases st <;> revert m <;> decide

/-- The entry of a station stands at its number in the roster's bytes. -/
theorem State.roster_bytes_getElem (s : State) (k : StationNo) :
    (s.roster.toList.map RosterEntry.toByte)[k.val]? = some (s.rosterEntry k).toByte := by
  rw [List.getElem?_map, List.getElem?_eq_getElem (by simp)]
  simp [State.rosterEntry]

/-- The row answers with what the command says of the station after the delivery, and changes nothing else. -/
theorem exec_queryRoster (hp : s.port.phase = .exchange) (extra : Nat) {r : Reply}
    (hc : State.queryRoster (s.afterDelivery (1 + extra)) = (s.afterDelivery (1 + extra), r)) :
    exec (.queryRoster extra) s = .next ((s.afterDelivery (1 + extra)).answered 0x31 r.result r.payload) := by
  refine (State.exchange_eq hp codeQueryRoster extra State.queryRoster).trans ?_
  rw [show wholeBytes codeQueryRoster extra = 1 + extra from rfl, hc]
  rfl

/-- Settles O18: the payload is the cycle number's bytes and each entry's byte, read off by cycle_eq_append and
toByte_fields. -/
theorem queryRosterReturnsTheRoster : Obligations.QueryRosterReturnsTheRoster := by
  intro extra s hp
  refine ⟨fun hs => exec_queryRoster hp extra (r := .no .state) ?_, fun hs =>
    ⟨_, _, _, s.roster.toList.map RosterEntry.toByte, exec_queryRoster hp extra
      (r := .ok (cycleBytes s.slots.cycle ++ s.roster.toList.map RosterEntry.toByte)) ?_, cycle_eq_append _, by simp,
      fun k => ⟨_, s.roster_bytes_getElem k, ?_⟩⟩⟩
  · simp [State.queryRoster, State.isActive, hs]
  · simp [State.queryRoster, State.isActive, hs]
  · obtain ⟨hstate, hmisses, hzero⟩ := (s.rosterEntry k).toByte_fields
    refine ⟨hstate.trans ?_, hmisses, hzero, fun hbounded hk => ?_⟩
    · cases (s.rosterEntry k).state <;> rfl
    · rw [hbounded.tail k hk]
      rfl

end Sys2Proof.Machine
end

section
/-! The end of another station's slot that brings no ACTIVE frame: silence (R80), a garbled reception (R79, R95), and a
SYNCING, JOIN or LEAVE frame (R75 to R77), at an ACTIVE station and at one in recovery. -/

namespace Sys2Proof.Machine

variable {s t u : State}

/-! ### A ROSTER notice stays until it is delivered (R85, R128) -/

/-- The queue holds a ROSTER notice. -/
def State.RosterNoticed (s : State) : Prop := ∃ n ∈ s.notices.queue, n.body = .roster

theorem NoticeBody.eq_roster_of_owner {b : NoticeBody} (h : b.owner = .roster) : b = .roster := by
  cases b with
  | roster => rfl
  | update | ended | sync | tableLost | fault => cases h

theorem State.RosterNoticed.raise (h : s.RosterNoticed) (b : NoticeBody) : (s.raise b).RosterNoticed := by
  obtain ⟨n, hn, hbody⟩ := h
  by_cases howner : b.owner = .roster
  · rw [NoticeBody.eq_roster_of_owner howner]
    exact s.raise_mem_self .roster nofun
  · exact ⟨n, State.raise_mem_other hn (by rw [hbody]; exact Ne.symm howner), hbody⟩

theorem State.RosterNoticed.raised (h : s.RosterNoticed) (hr : s.Raised t) : t.RosterNoticed := by
  induction hr with
  | same e => unfold State.RosterNoticed; rw [e]; exact h
  | raised b _ e ih => unfold State.RosterNoticed; rw [e]; exact ih.raise b

/-- An ACTIVE station raises ROSTER where an entry's state changes (R85). -/
theorem State.rosterNoticed_putRoster (hs : s.isActive = true) {k : StationNo} {e : RosterEntry}
    (hne : (s.rosterEntry k).state ≠ e.state) : (s.putRoster k e).RosterNoticed := by
  unfold State.putRoster
  simp only [hs, Bool.true_and, bne_iff_ne, ne_eq, hne, not_false_eq_true, if_true]
  exact (s.setRosterEntry k e).raise_mem_self .roster nofun

/-! ### The expiries that follow the work of the slot (R31, R32) -/

theorem State.isActive_of_active (hs : s.ctrl.state = .active) : s.isActive = true := by
  rw [State.isActive, hs]; rfl

theorem State.rosterEntry_cycleEndWork (s : State) (j : StationNo) : s.cycleEndWork.rosterEntry j = s.rosterEntry j :=
  State.rosterEntry_congr (Touches.cycleEndWork s).roster j

/-- The records after work on roster and tables and the expiries behind it, where every page is valid. -/
theorem State.OnlyRosterTables.lock_cycleEndWork (k : s.OnlyRosterTables t) (all : s.repl.installed = allPages)
    (l : LockNo) : t.cycleEndWork.lock l = s.endingCycle (t.lock l) := by
  rw [State.lock_cycleEndWork (by rw [k.repl, all]), State.endingCycle_congr k.ctrl k.slots]

theorem State.OnlyRosterTables.thenCycleEnd (k : s.OnlyRosterTables t) : s.OnlyRosterTables t.cycleEndWork :=
  k.trans (Touches.cycleEndWork t).rosterTables

theorem State.leavingSlot_of_none (hown : s.line.own = none) : s.leavingSlot = false := by
  unfold State.leavingSlot; rw [hown]

theorem State.settleOwnFrame_of_none (hown : s.line.own = none) (c : SlotContent) : s.settleOwnFrame c = s := by
  unfold State.settleOwnFrame; rw [hown]

/-- FRAME_SLOT_END of another station's slot at an ACTIVE station, FOUND frames apart. -/
theorem exec_frameSlotEnd_other (hs : s.ctrl.state = .active) (ha : s.slots.aligned = true)
    (hph : s.slots.phase = .inFrame) (hown : s.line.own = none) (hp : s.slots.position ≠ s.ctrl.sid) {c : SlotContent}
    (hclass : s.classify = c) (hc : c.heardFound = false) :
    exec .frameSlotEnd s = .next (s.endReception.slotWork c).cycleEndWork.nextSlot := by
  rw [exec_frameSlotEnd ha hph, hclass, State.slotEnd_other (s := s.endReception) c hown hp hs]
  exact State.slotWork_ctrl (s := s.endReception) hs c hc

/-- SILENT_SLOT_END of another station's slot at an ACTIVE station. -/
theorem exec_silentSlotEnd_other (hs : s.ctrl.state = .active) (ha : s.slots.aligned = true)
    (hph : s.slots.phase = .waiting) (hown : s.line.own = none) (hp : s.slots.position ≠ s.ctrl.sid) :
    exec .silentSlotEnd s = .next (s.rosterSilence s.slots.position).cycleEndWork.nextSlot := by
  rw [exec_silentSlotEnd ha hph, State.slotEnd_other .silent hown hp hs (State.slotWork_ctrl hs .silent rfl)]
  rfl

/-- FRAME_SLOT_END of another station's slot without an ACTIVE frame at a station in recovery. -/
theorem exec_frameSlotEnd_orphaned_other (ha : s.slots.aligned = true) (hph : s.slots.phase = .inFrame)
    (hown : s.line.own = none) {c : SlotContent} (hclass : s.classify = c)
    (hs : s.ctrl.state = .syncing ∨ s.ctrl.state = .founding) (hc : c.heardActive = false)
    (ctrl : (s.endReception.slotWork c).ctrl = s.ctrl) (hn : (s.endReception.slotWork c).repl.installed ≠ allPages) :
    ∃ u : State, exec .frameSlotEnd s = .next u.nextSlot ∧ (s.endReception.slotWork c).OrphanedEnd u :=
  exec_frameSlotEnd_orphaned ha hph hclass (State.leavingSlot_of_none hown) hs hc
    (by rw [s.settleOwnFrame_of_none hown]) ctrl hn

/-! ### Silence (R80) -/

section

variable {k : StationNo}

theorem State.rosterSilence_of_absent (h : (s.rosterEntry k).state = .absent) : s.rosterSilence k = s := by
  rw [State.rosterSilence_eq]; simp [h]

theorem State.rosterSilence_below (hv : s.pageInstalled 0 = true) (hpresent : (s.rosterEntry k).state ≠ .absent)
    (hd : min 7 ((s.rosterEntry k).misses.toNat + 1) < s.ctrl.dropThreshold) : s.rosterSilence k = s.missed k := by
  rw [State.rosterSilence_eq, if_pos ⟨hv, hpresent⟩, if_neg (Nat.not_le.2 hd)]

theorem State.rosterSilence_dropping (hv : s.pageInstalled 0 = true) (hpresent : (s.rosterEntry k).state ≠ .absent)
    (hd : s.ctrl.dropThreshold ≤ min 7 ((s.rosterEntry k).misses.toNat + 1)) :
    s.rosterSilence k = (s.missed k).dropStation k := by
  rw [State.rosterSilence_eq, if_pos ⟨hv, hpresent⟩, if_pos hd]

theorem State.rosterEntry_missed (s : State) (k : StationNo) : (s.missed k).rosterEntry k
    = { s.rosterEntry k with misses := oneMiss (s.rosterEntry k).misses } := by
  rw [State.missed, State.rosterEntry_setRosterEntry, if_pos rfl]

/-- The drop of a station that is not ABSENT raises ROSTER at an ACTIVE station (R80, R85). -/
theorem State.rosterNoticed_dropMissed (hs : s.isActive = true) (hpresent : (s.rosterEntry k).state ≠ .absent) :
    ((s.missed k).dropStation k).RosterNoticed :=
  (State.rosterNoticed_putRoster (s := s.missed k) hs (by rw [State.rosterEntry_missed]; exact hpresent)).raised
    (Raises.purge _ k .drop)

/-- What a silent slot and its expiries do to the owner and to the records, where every page is valid: the ABSENT owner,
the count below D, and the drop at D. -/
theorem State.silence_cases (all : s.repl.installed = allPages) :
    ((s.rosterEntry k).state = .absent →
      (s.rosterSilence k).cycleEndWork.rosterEntry k = s.rosterEntry k
      ∧ ∀ l, (s.rosterSilence k).cycleEndWork.lock l = s.endingCycle (s.lock l))
    ∧ ((s.rosterEntry k).state ≠ .absent → min 7 ((s.rosterEntry k).misses.toNat + 1) < s.ctrl.dropThreshold →
      (s.rosterSilence k).cycleEndWork.rosterEntry k
          = { s.rosterEntry k with misses := oneMiss (s.rosterEntry k).misses }
      ∧ ∀ l, (s.rosterSilence k).cycleEndWork.lock l = s.endingCycle (s.lock l))
    ∧ ((s.rosterEntry k).state ≠ .absent → s.ctrl.dropThreshold ≤ min 7 ((s.rosterEntry k).misses.toNat + 1) →
      (s.rosterSilence k).cycleEndWork.rosterEntry k = ⟨.absent, 0⟩
      ∧ ∀ l, (s.rosterSilence k).cycleEndWork.lock l = s.endingCycle ((s.lock l).purged k s.slots.cycle)) := by
  have hv : s.pageInstalled 0 = true := rosterValid_of_all all
  have hlock := (Touches.rosterSilence s k).lock_cycleEndWork all
  simp only [State.rosterEntry_cycleEndWork, hlock]
  refine ⟨fun habsent => ?_, fun hpresent hd => ?_, fun hpresent hd => ?_⟩
  · rw [State.rosterSilence_of_absent habsent]
    exact ⟨rfl, fun l => rfl⟩
  · rw [State.rosterSilence_below hv hpresent hd]
    exact ⟨s.rosterEntry_missed k, fun l => rfl⟩
  · rw [State.rosterSilence_dropping hv hpresent hd]
    refine ⟨by rw [State.rosterEntry_dropStation, if_pos rfl], fun l => congrArg s.endingCycle ?_⟩
    rw [State.lock_dropStation]
    exact if_pos (lockValid_of_all all l)

/-- SILENT_SLOT_END of another station's slot at a station in recovery: the silence, and an orphaned slot. -/
theorem exec_silentSlotEnd_orphaned (ha : s.slots.aligned = true) (hph : s.slots.phase = .waiting)
    (hown : s.line.own = none) (hs : s.ctrl.state = .syncing ∨ s.ctrl.state = .founding)
    (hn : s.repl.installed ≠ allPages) :
    ∃ u : State, exec .silentSlotEnd s = .next u.nextSlot ∧ (s.rosterSilence s.slots.position).OrphanedEnd u := by
  have hkept : (s.rosterSilence s.slots.position).repl = s.repl := (Touches.rosterSilence s _).repl
  obtain ⟨u, hend, hu⟩ := State.slotEnd_orphaned (w := s.rosterSilence s.slots.position) .silent
    (State.leavingSlot_of_none hown) (s.settleOwnFrame_of_none hown .silent) rfl hs rfl (Touches.rosterSilence s _).ctrl
    (hkept ▸ hn)
  exact ⟨u, by rw [exec_silentSlotEnd ha hph, hend], hu⟩

end

/-- Settles O38: at an ACTIVE station silence_cases and, where nothing is dropped in mid cycle, nothing reported; at a
station in recovery the silence by its missed and dropped cases, with the orphaned slot. -/
theorem silentSlotCountsAMiss : Obligations.SilentSlotCountsAMiss := by
  rintro s k e ha hph hown rfl hk rfl
  refine ⟨fun hs all => ?active, fun hs hn => ?recovering⟩
  case active =>
    have T := (Touches.rosterSilence s s.slots.position).thenCycleEnd
    obtain ⟨habsent, hbelow, hdrop⟩ := State.silence_cases (k := s.slots.position) all
    refine ⟨_, exec_silentSlotEnd_other hs ha hph hown hk, T.ctrl, T.line, T.slots, T.repl, T.pageCursor, T.port,
      fun j hj => ?_, habsent, fun hpresent hd => ?_, fun hpresent hd => ?_, fun hstays hlast => ?_⟩
    · rw [State.rosterEntry_cycleEndWork, s.rosterEntry_rosterSilence_ne hj]
    · obtain ⟨hentry, hlock⟩ := hbelow hpresent hd
      rw [hentry]
      exact ⟨rfl, toNat_oneMiss _, hlock⟩
    · obtain ⟨hentry, hlock⟩ := hdrop hpresent hd
      refine ⟨hentry, State.RosterNoticed.raised ?_ (Raises.cycleEndWork _), hlock⟩
      rw [State.rosterSilence_dropping (rosterValid_of_all all) hpresent hd]
      exact State.rosterNoticed_dropMissed (State.isActive_of_active hs) hpresent
    · have hslots := (Touches.rosterSilence s s.slots.position).slots
      have hctrl := (Touches.rosterSilence s s.slots.position).ctrl
      rw [State.cycleEndWork_of_ne (by rw [hslots, hctrl]; exact hlast)]
      by_cases hpresent : (s.rosterEntry s.slots.position).state = .absent
      · rw [State.rosterSilence_of_absent hpresent]
        exact ⟨rfl, rfl⟩
      · rw [State.rosterSilence_below (rosterValid_of_all all) hpresent (hstays.resolve_left hpresent)]
        exact ⟨rfl, rfl⟩
  case recovering =>
    have T := Touches.rosterSilence s s.slots.position
    obtain ⟨hreq, hnotices⟩ := State.rosterSilence_unreported (State.isActive_of_recovering hs) s.slots.position
    obtain ⟨u, hexec, hu⟩ := exec_silentSlotEnd_orphaned ha hph hown hs hn
    refine ⟨u, hexec, hu.orphaned.before T hreq, hu.line.trans T.line, hu.notices.trans hnotices, fun j hj => ?_,
      fun missed dropped hm hd => ?_⟩
    · rw [hu.rosterEntry, s.rosterEntry_rosterSilence_ne hj]
    · obtain ⟨hkept, hmissed, hdropped⟩ := State.rosterEntry_rosterSilence hm hd
      simp only [hu.rosterEntry, hu.lock_of_kept T.ctrl T.slots (by rw [T.repl]), State.lock_rosterSilence hm hd]
      refine ⟨hkept, hmissed, hdropped, fun l => ?_⟩
      cases s.lockValid l <;> simp

/-! ### A garbled reception (R79, R95) -/

/-- At an ACTIVE station a garbled reception is activity alone (R79). -/
theorem State.slotWork_garbled_active (hs : s.ctrl.state = .active) :
    s.slotWork .garbled = s.rosterActivity s.slots.position := by
  rw [State.slotWork]
  refine if_neg ?_
  rw [State.isRecovering, State.inState, State.inState, (Touches.rosterActivity s s.slots.position).ctrl, hs]
  exact nofun

/-- A SYNCING station counts the orphaned slot and is FOUNDING at N (R97, R98). -/
theorem State.OrphanedSlot.of_syncing (h : s.OrphanedSlot u) (hs : s.ctrl.state = .syncing) :
    u.ctrl.state = (if s.ctrl.snc.val + 1 ≤ s.repl.orphan + 1 then .founding else .syncing)
    ∧ u.repl = { s.repl with orphan := s.repl.orphan + 1 } := by
  rw [h.ctrl, h.repl]
  simp [hs]

/-- A FOUNDING station counts no slot (R97). -/
theorem State.OrphanedSlot.of_founding (h : s.OrphanedSlot u) (hs : s.ctrl.state = .founding) :
    u.ctrl = s.ctrl ∧ u.repl = s.repl := by
  have hne : s.ctrl.state ≠ .syncing := by rw [hs]; exact nofun
  rw [h.ctrl, h.repl, if_neg fun h => hne h.1, if_neg hne]
  exact ⟨rfl, rfl⟩

/-- Settles O39: activity alone at an ACTIVE station, and an orphaned slot with every page uninstalled at one in
recovery. -/
theorem garbledSlotUninstallsPages : Obligations.GarbledSlotUninstallsPages := by
  rintro s k honline ha hph hown hrx rfl hk
  have hclass : s.classify = .garbled := State.classify_garbled (.inr hrx)
  by_cases hs : s.ctrl.state = .active
  case pos =>
    have hexec := exec_frameSlotEnd_other hs ha hph hown hk hclass rfl
    obtain ⟨r, e⟩ := s.endReception.rosterActivity_eq s.slots.position
    have hroster := s.endReception.rosterEntry_rosterActivity s.slots.position
    rw [State.slotWork_garbled_active (s := s.endReception) hs] at hexec
    change exec .frameSlotEnd s = .next (s.endReception.rosterActivity s.slots.position).cycleEndWork.nextSlot at hexec
    have T := (Touches.rosterActivity s.endReception s.slots.position).thenCycleEnd
    have hlock := (Touches.rosterActivity s.endReception s.slots.position).lock_cycleEndWork
    generalize s.endReception.rosterActivity s.slots.position = w at *
    refine ⟨_, hexec, T.line, T.slots, T.pageCursor, T.port, by rw [T.ctrl]; rfl, fun j hj => ?_, ?_,
      fun _ all => ⟨T.ctrl, T.repl, fun l => ?_, fun hlast => ?_⟩, fun h => ?_, fun h => ?_⟩
    · rw [State.rosterEntry_cycleEndWork, hroster]
      exact if_neg fun h => hj h.2
    · rw [State.rosterEntry_cycleEndWork, hroster]
      exact if_congr (and_iff_left rfl) rfl rfl
    · rw [hlock all, e]
      rfl
    · rw [State.cycleEndWork_of_ne (by rw [e]; exact hlast), e]
      exact ⟨rfl, rfl⟩
    · rw [hs] at h; cases h
    · rw [hs] at h; cases h
  case neg =>
    have hs' : s.ctrl.state = .syncing ∨ s.ctrl.state = .founding := by
      revert honline hs
      cases s.ctrl.state <;> simp [StationState.onLine]
    have hrec : s.endReception.isRecovering = true := by
      unfold State.isRecovering State.inState
      rcases hs' with hs' | hs' <;> simp [hs']
    obtain ⟨r, e, hroster⟩ := State.slotWork_garbled_recovering hrec
    obtain ⟨u, hexec, hu⟩ := exec_frameSlotEnd_orphaned_other ha hph hown hclass hs' rfl (by rw [e]; rfl)
      (by rw [e]; exact nofun)
    have hnotices : u.notices = s.notices := by rw [hu.notices, e]; rfl
    have hlocks : u.locks = s.locks := State.locks_eq_of_lock fun l => by
      rw [hu.lock, e]
      exact if_neg (by simp [State.lockValid, State.pageInstalled])
    have horphan : State.OrphanedSlot { s with repl.installed := 0 } u := by
      refine hu.orphaned.congr ?_ ?_ ?_ ?_ ?_ ?_ <;> rw [e] <;> rfl
    obtain ⟨hreq, hslots, hcursor, hport⟩ := horphan.kept
    simp only [← hu.rosterEntry] at hroster
    refine ⟨u, hexec, by rw [hu.line, e]; rfl, hslots, hcursor, hport, by rw [horphan.ctrl], fun j hj => ?_,
      (hroster _).trans (if_congr (and_iff_left rfl) rfl rfl), fun h => absurd h hs, fun h => ?_, fun h => ?_⟩
    · rw [hroster]
      exact if_neg fun h => hj h.2
    · obtain ⟨hstate, hrepl⟩ := horphan.of_syncing h
      exact ⟨hrepl, hstate, hlocks, hreq, hnotices⟩
    · obtain ⟨hctrl, hrepl⟩ := horphan.of_founding h
      exact ⟨hrepl, hctrl, hlocks, hreq, hnotices⟩

/-! ### SYNCING, JOIN and LEAVE frames (R75 to R77) -/

/-- The entry that such a frame leaves its sender. -/
def FrameStatus.senderEntry (st : FrameStatus) : RosterEntry :=
  if st = .leave then ⟨.absent, 0⟩ else ⟨.syncing, 0⟩

/-- The frame purges its sender: a LEAVE always, a JOIN where the sender was not ABSENT (R9). -/
abbrev State.PurgedBy (s : State) (k : StationNo) (st : FrameStatus) : Prop :=
  st = .leave ∨ (st = .join ∧ (s.rosterEntry k).state ≠ .absent)

/-- An invalid roster takes no effect (R73). -/
theorem State.rosterFrame_of_invalid (hv : s.pageInstalled 0 = false) (k : StationNo) (st : FrameStatus) :
    s.rosterFrame k st = s := by
  unfold State.rosterFrame State.rosterValid
  rw [hv]
  exact if_neg Bool.false_ne_true

section

variable {k : StationNo} {st : FrameStatus} (hst : st = .syncing ∨ st = .join ∨ st = .leave)
include hst

/-- In a valid roster the sender's entry is written, and the sender purged where the frame calls for it. -/
theorem State.rosterFrame_of_valid (hv : s.pageInstalled 0 = true) :
    (s.PurgedBy k st ∧ ∃ cause, s.rosterFrame k st = (s.putRoster k st.senderEntry).purge k cause)
    ∨ (¬ s.PurgedBy k st ∧ s.rosterFrame k st = s.putRoster k st.senderEntry) := by
  unfold State.rosterFrame State.PurgedBy
  rw [State.rosterValid, if_pos hv]
  rcases hst with rfl | rfl | rfl
  · exact .inr ⟨by simp, rfl⟩
  · by_cases habsent : (s.rosterEntry k).state = .absent
    · exact .inr ⟨by simp [habsent], if_pos habsent⟩
    · exact .inl ⟨.inr ⟨rfl, habsent⟩, .join, if_neg habsent⟩
  · exact .inl ⟨.inl rfl, .leave, rfl⟩

theorem State.rosterEntry_rosterFrame (j : StationNo) : (s.rosterFrame k st).rosterEntry j
    = if s.pageInstalled 0 = true ∧ j = k then st.senderEntry else s.rosterEntry j := by
  by_cases hv : s.pageInstalled 0 = true
  · rw [if_congr (and_iff_right hv) rfl rfl]
    rcases s.rosterFrame_of_valid hst (k := k) hv with ⟨-, cause, e⟩ | ⟨-, e⟩
    · rw [e, State.rosterEntry_congr (Touches.purge _ k cause).roster, State.rosterEntry_putRoster]
    · rw [e, State.rosterEntry_putRoster]
  · rw [State.rosterFrame_of_invalid (Bool.not_eq_true _ ▸ hv), if_neg fun h => hv h.1]

theorem State.lock_rosterFrame (l : LockNo) : (s.rosterFrame k st).lock l
    = if (s.pageInstalled 0 = true ∧ s.lockValid l = true) ∧ s.PurgedBy k st then (s.lock l).purged k s.slots.cycle
      else s.lock l := by
  by_cases hv : s.pageInstalled 0 = true
  · have R := Touches.putRoster s k st.senderEntry
    have hlock := State.lock_congr (s.locks_putRoster k st.senderEntry) l
    rw [if_congr (and_congr_left' (and_iff_right hv)) rfl rfl]
    rcases s.rosterFrame_of_valid hst (k := k) hv with ⟨hpurge, cause, e⟩ | ⟨hpurge, e⟩
    · rw [e, State.lock_purge, hlock, State.lockValid_congr R.repl, R.slots]
      exact if_congr (and_iff_left hpurge).symm rfl rfl
    · rw [e, hlock, if_neg fun h => hpurge h.2]
  · rw [State.rosterFrame_of_invalid (Bool.not_eq_true _ ▸ hv), if_neg fun h => hv h.1.1]

/-- A changed state of the sender is noticed at an ACTIVE station (R85). -/
theorem State.rosterNoticed_rosterFrame (hv : s.pageInstalled 0 = true) (hs : s.isActive = true)
    (hne : (s.rosterEntry k).state ≠ st.senderEntry.state) : (s.rosterFrame k st).RosterNoticed := by
  have h := State.rosterNoticed_putRoster hs hne
  rcases s.rosterFrame_of_valid hst (k := k) hv with ⟨-, cause, e⟩ | ⟨-, e⟩
  · rw [e]; exact h.raised (Raises.purge _ k cause)
  · rw [e]; exact h

/-- Nothing is reported at a station that is not ACTIVE (R16). -/
theorem State.rosterFrame_unreported (hoff : s.isActive = false) :
    (s.rosterFrame k st).req = s.req ∧ (s.rosterFrame k st).notices = s.notices := by
  by_cases hv : s.pageInstalled 0 = true
  · rcases s.rosterFrame_of_valid hst (k := k) hv with ⟨-, cause, e⟩ | ⟨-, e⟩
    · rw [e, State.putRoster_unreported hoff]
      exact State.purge_unreported (s := s.setRosterEntry k _) hoff k cause
    · rw [e, State.putRoster_unreported hoff]
      exact ⟨rfl, rfl⟩
  · rw [State.rosterFrame_of_invalid (Bool.not_eq_true _ ▸ hv)]
    exact ⟨rfl, rfl⟩

/-- The works of the slot end are the frame's roster effect (R69). -/
theorem State.slotWork_rosterFrame {f : Frame} (hf : f.status = st) :
    s.slotWork (.valid f) = s.rosterFrame f.sender st := by
  rw [State.slotWork, State.handFrame, hf]
  rcases hst with rfl | rfl | rfl <;> rfl

end

/-- Settles O42: the slot's work is the sender's rosterFrame at either station, followed by the expiries at an ACTIVE
one and by the orphaned slot at one in recovery. -/
theorem joinAndLeaveFramesPurge : Obligations.JoinAndLeaveFramesPurge := by
  intro s f ha hph hown hrx hst hsender hcount hcycle hother record hrecord
  have hclass := State.classify_valid hown hrx hsender hcount hcycle
  have hwork := State.slotWork_rosterFrame (s := s.endReception) hst rfl
  have hquiet : (SlotContent.valid f).heardActive = false ∧ (SlotContent.valid f).heardFound = false := by
    rcases hst with hst | hst | hst <;> simp [SlotContent.heardActive, SlotContent.heardFound, hst]
  have W := Touches.rosterFrame s.endReception f.sender f.status
  refine ⟨fun hs all => ?active, fun hs hn hfirst => ?recovering⟩
  case active =>
    have hv : s.endReception.pageInstalled 0 = true := rosterValid_of_all all
    have hexec := exec_frameSlotEnd_other hs ha hph hown (hsender ▸ hother) hclass hquiet.2
    rw [hwork] at hexec
    have T := W.thenCycleEnd
    have hroster : ∀ j, (s.endReception.rosterFrame f.sender f.status).cycleEndWork.rosterEntry j
        = if j = f.sender then f.status.senderEntry else s.rosterEntry j := fun j => by
      rw [State.rosterEntry_cycleEndWork, State.rosterEntry_rosterFrame hst]
      exact if_congr (and_iff_right hv) rfl rfl
    refine ⟨_, hexec, T.ctrl, T.slots, T.repl, T.pageCursor, T.port, fun j hj => (hroster j).trans (if_neg hj),
      (hroster _).trans (if_pos rfl), fun hne => ?_, fun l => ?_⟩
    · rw [hroster, if_pos rfl] at hne
      exact (State.rosterNoticed_rosterFrame (s := s.endReception) hst hv (State.isActive_of_active hs) hne.symm).raised
        (Raises.cycleEndWork _)
    · rw [W.lock_cycleEndWork all, State.lock_rosterFrame hst, hrecord]
      have hl : s.endReception.lockValid l = true := lockValid_of_all all l
      exact congrArg s.endingCycle (if_congr (and_iff_right ⟨hv, hl⟩) rfl rfl)
  case recovering =>
    have hoff : s.endReception.isActive = false := State.isActive_of_recovering hs
    obtain ⟨hreq, hnotices⟩ := State.rosterFrame_unreported (k := f.sender) hst hoff
    obtain ⟨u, hexec, hu⟩ := exec_frameSlotEnd_orphaned_other ha hph hown hclass hs hquiet.1
      (by rw [hwork, W.ctrl]; rfl) (by rw [hwork, W.repl]; exact hn)
    rw [hwork] at hu
    have hlock := hu.lock_of_kept (s := s) W.ctrl W.slots (by rw [W.repl]; rfl)
    refine ⟨u, hexec, (hu.orphaned.before W hreq).congr rfl rfl rfl rfl rfl rfl, hu.notices.trans hnotices,
      fun j => ?_, fun l => ?_⟩
    · rw [hu.rosterEntry]
      exact State.rosterEntry_rosterFrame (s := s.endReception) hst j
    · rw [hlock, State.lock_rosterFrame (s := s.endReception) hst]
      by_cases hl : s.lockValid l = true
      · have hv : s.pageInstalled 0 = true := by
          rw [← Bool.not_eq_false]
          intro hv
          simp [State.lockValid, State.pageInstalled, hfirst hv] at hl
        rw [if_pos hl, if_pos hl, hrecord]
        exact congrArg s.endingCycle (if_congr (and_iff_right ⟨hv, hl⟩) rfl rfl)
      · rw [if_neg hl, if_neg hl]
        exact if_neg fun h => hl h.1.2

end Sys2Proof.Machine
end

section
/-! The vote evaluation (R91, R92, R120), and the end of the own slot of an ACTIVE station, where it is made last. -/

namespace Sys2Proof.Machine

variable {s t : State}

/-! ### A lost vote (R92) -/

theorem State.voteLost_iff (s : State) :
    s.voteLost = true ↔ 0 < s.repl.disagree ∧ s.repl.agree ≤ s.repl.disagree := by
  simp [State.voteLost]

theorem State.evaluateVote_lost (h : s.voteLost = true) : s.evaluateVote = s.loseVote.clearVote := if_pos h

theorem State.evaluateVote_kept (h : ¬ s.voteLost = true) : s.evaluateVote = s.clearVote.settleDoubtful := if_neg h

/-! ### The DOUBTFUL ops after a vote that is kept (R120) -/

/-- The DOUBTFUL ops whose mark is set are QUEUED again; the others get the mark. -/
theorem State.RequestLaw.entry_settleDoubtful (h : s.RequestLaw) (g : Tag) : s.settleDoubtful.entry g
    = if s.doubtful g then
        (if (s.entry g).doubtMark then { s.entry g with opStatus := .queued, doubtMark := false }
        else { s.entry g with doubtMark := true })
      else s.entry g := by
  have hreturned : State.entry { s.returnToHead (s.doubtfulMarked true) with
      req.doubtOrder := s.doubtfulMarked false } g = (s.returnToHead (s.doubtfulMarked true)).entry g := rfl
  unfold State.settleDoubtful
  rw [State.entry_foldl_setOpStatus, hreturned, State.returnToHead_entry]
  simp only [State.mem_doubtfulMarked h]
  by_cases hd : s.doubtful g = true
  · have hstatus := ((s.doubtful_iff g).1 hd).2
    cases hmark : (s.entry g).doubtMark <;> simp [hd, hstatus]
  · simp [hd]

theorem State.RequestLaw.queue_settleDoubtful (h : s.RequestLaw) : s.settleDoubtful.req.queue
    = (s.req.doubtOrder.filter fun g => (s.entry g).doubtMark) ++ s.req.queue := by
  have hmarked : s.doubtfulMarked true = s.req.doubtOrder.filter fun g => (s.entry g).doubtMark :=
    List.filter_congr fun g hg => by rw [(h.doubtOps g).1 hg]; simp
  unfold State.settleDoubtful
  rw [State.req_foldl_setOpStatus]
  exact (s.returnToHead_queue _).trans (by rw [hmarked])

theorem State.toYield_returnToHead (s : State) (ts : List Tag) : (s.returnToHead ts).req.toYield = s.req.toYield := by
  show (ts.foldl (fun s t => s.setOpStatus t .queued false) s).req.toYield = _
  rw [State.req_foldl_setOpStatus]

theorem State.toYield_settleDoubtful (s : State) : s.settleDoubtful.req.toYield = s.req.toYield := by
  unfold State.settleDoubtful
  rw [State.req_foldl_setOpStatus]
  exact s.toYield_returnToHead _

theorem State.notices_settleDoubtful (s : State) : s.settleDoubtful.notices = s.notices := by
  unfold State.settleDoubtful
  rw [State.foldl_setOpStatus_notices]
  exact s.returnToHead_notices _

/-! ### The own slot at an ACTIVE station -/

namespace State.Beside

variable {q : Prop} (h : s.Beside q t)
include h

theorem purgeLock (k : StationNo) (c : PurgeCause) (l : LockNo) :
    (s.purgeLock k c l).Beside q (t.purgeLock k c l) := by
  obtain ⟨hlock, hvalid, hactive⟩ := h.reads l
  unfold State.purgeLock
  rw [hlock, hvalid, hactive, h.slots, h.ctrl]
  split
  · dsimp only
    split
    · split
      · exact ((h.setLock l _).removalReport l _).reportGrant l _ _
      · exact (h.setLock l _).reportGrant l _ _
    · exact h.setLock l _
  · exact h

theorem purge (k : StationNo) (c : PurgeCause) : (s.purge k c).Beside q (t.purge k c) :=
  foldl (fun h l => h.purgeLock k c l) allLocks h

end State.Beside

/-- A silent slot below D lies beside all but the roster (R80). -/
theorem State.beside_silence_below (all : s.repl.installed = allPages) {k : StationNo}
    (hpresent : (s.rosterEntry k).state ≠ .absent)
    (hd : min 7 ((s.rosterEntry k).misses.toNat + 1) < s.ctrl.dropThreshold) : s.Beside False (s.rosterSilence k) := by
  rw [State.rosterSilence_below (rosterValid_of_all all) hpresent hd]
  exact ⟨rfl, rfl, rfl, rfl, rfl, False.elim⟩

/-- A silent slot at D lies beside the purge that its drop holds, but for roster and notices (R80). -/
theorem State.beside_silence_dropping (all : s.repl.installed = allPages) {k : StationNo}
    (hpresent : (s.rosterEntry k).state ≠ .absent)
    (hd : s.ctrl.dropThreshold ≤ min 7 ((s.rosterEntry k).misses.toNat + 1)) :
    (s.purge k .drop).Beside False (s.rosterSilence k) := by
  rw [State.rosterSilence_dropping (rosterValid_of_all all) hpresent hd]
  obtain ⟨ctrl, slots, locks, repl, req, -⟩ := (s.missed k).beside_putRoster k .absent
  have h : s.Beside False ((s.missed k).putRoster k .absent) := ⟨ctrl, slots, locks, repl, req, False.elim⟩
  exact h.purge k .drop

/-- A silent own slot returns the ops of the own frame, and changes nothing else (R62). -/
theorem State.settleOwnFrame_silent (s : State) : s.OnlyRequests (s.settleOwnFrame .silent) := by
  cases hown : s.line.own with
  | none => unfold State.settleOwnFrame; rw [hown]; exact .refl s
  | some o =>
    rw [State.settleOwnFrame_unsent hown (.inr rfl)]
    exact Touches.returnDrawn s o.tags

theorem exec_silentSlotEnd_own (hs : s.ctrl.state = .active) (ha : s.slots.aligned = true)
    (hph : s.slots.phase = .waiting) (hp : s.slots.position = s.ctrl.sid) (hl : s.leavingSlot = false) :
    exec .silentSlotEnd s
      = .next ((s.settleOwnFrame .silent).rosterSilence s.ctrl.sid).cycleEndWork.evaluateVote.nextSlot := by
  rw [exec_silentSlotEnd ha hph, State.slotEnd_own .silent hs hp hl rfl, State.slotWork,
    (s.settleOwnFrame_sameReads .silent).slots, hp]

theorem exec_frameSlotEnd_own (hs : s.ctrl.state = .active) (ha : s.slots.aligned = true)
    (hph : s.slots.phase = .inFrame) (hp : s.slots.position = s.ctrl.sid) (hl : s.leavingSlot = false)
    (hc : s.classify.heardFound = false) :
    exec .frameSlotEnd s
      = .next ((s.endReception.settleOwnFrame s.classify).slotWork s.classify).cycleEndWork.evaluateVote.nextSlot := by
  rw [exec_frameSlotEnd ha hph, State.slotEnd_own (s := s.endReception) s.classify hs hp hl hc]

/-- A garbled or alien reception at an ACTIVE station is activity of the owner, beside all but roster and notices (R66,
R79). -/
theorem State.slotWork_activity (hs : s.ctrl.state = .active) (all : s.repl.installed = allPages) {c : SlotContent}
    (hc : c = .garbled ∨ c = .alien) :
    (s.slotWork c).rosterEntry s.slots.position = { s.rosterEntry s.slots.position with misses := 0 }
    ∧ s.Beside False (s.slotWork c) := by
  have hactivity : ∀ {r e : RosterEntry},
      (if s.pageInstalled 0 = true ∧ s.slots.position = s.slots.position then r else e) = r :=
    if_pos ⟨rosterValid_of_all all, rfl⟩
  rcases hc with rfl | rfl
  · obtain ⟨r, e⟩ := s.rosterActivity_eq s.slots.position
    rw [State.slotWork_garbled_active hs]
    refine ⟨(s.rosterEntry_rosterActivity _ _).trans hactivity, ?_⟩
    rw [e]
    exact ⟨rfl, rfl, rfl, rfl, rfl, False.elim⟩
  · obtain ⟨r, e, hroster⟩ := s.slotWork_alien
    refine ⟨(hroster _).trans hactivity, ?_⟩
    rw [e]
    exact ⟨rfl, rfl, rfl, rfl, rfl, False.elim⟩

/-! ### The obligation -/

/-- Settles O46: a lost vote is loseVote, a kept one settleDoubtful. The ends of the own slot make it last, after the
silence by silence_cases or the activity by slotWork_activity; neither moves the requests but for the own ops and a drop. -/
theorem voteEvaluationSettlesTheDoubtful : Obligations.VoteEvaluationSettlesTheDoubtful := by
  intro s
  refine ⟨fun h => ?vote, fun hs ha hp hl => ⟨fun hph all e he => ?silent, fun hph hc =>
    ⟨_, exec_frameSlotEnd_own hs ha hph hp hl hc, rfl, fun hcontent all => ?frame⟩⟩⟩
  case vote =>
    by_cases hv : s.voteLost = true
    · rw [State.evaluateVote_lost hv]
      refine ⟨rfl, rfl, fun _ _ => ⟨rfl, rfl, rfl, State.raise_mem_self _ (.sync .syncing) nofun, rfl⟩,
        fun hkept => ?_⟩
      rw [State.voteLost_iff] at hv
      omega
    · have hlaw : s.clearVote.RequestLaw := h.congr rfl rfl rfl (fun t => State.endUnread_congr rfl t) h.ownOnce
      have T := Touches.settleDoubtful s.clearVote
      have hrepl := T.tables.rosterTables.repl
      have hsame := T.withReq_eq s.clearVote.notices_settleDoubtful
      rw [State.evaluateVote_kept hv]
      rw [State.voteLost_iff] at hv
      refine ⟨by rw [hrepl]; rfl, by rw [hrepl]; rfl, fun h0 hle => absurd ⟨h0, hle⟩ hv, fun _ =>
        ⟨hlaw.entry_settleDoubtful, hlaw.queue_settleDoubtful, s.clearVote.toYield_settleDoubtful, ?_⟩⟩
      exact congrArg (fun u : State => { u with repl := s.repl }) hsame
  case silent =>
    subst he
    have hv := s.settleOwnFrame_sameReads .silent
    have R := s.settleOwnFrame_silent.tables.rosterTables
    have hexec := exec_silentSlotEnd_own hs ha hph hp hl
    generalize s.settleOwnFrame .silent = v at hv R hexec ⊢
    have T := R.trans (Touches.rosterSilence v s.ctrl.sid).thenCycleEnd
    have hall : v.repl.installed = allPages := hv.installed.trans all
    obtain ⟨habsent, hbelow, hdrop⟩ := State.silence_cases (s := v) (k := s.ctrl.sid) hall
    simp only [hv.rosterEntry, hv.ctrl, hv.lock, hv.slots, State.endingCycle_congr hv.ctrl hv.slots]
      at habsent hbelow hdrop
    refine ⟨_, hexec, T.ctrl, T.slots, T.repl, T.pageCursor, T.port, fun j hj => ?_, fun h => (habsent h).1,
      fun hpresent hd => ?_, fun hpresent hd => ?_⟩
    · rw [State.rosterEntry_cycleEndWork, v.rosterEntry_rosterSilence_ne hj, hv.rosterEntry]
    · obtain ⟨hentry, hlock⟩ := hbelow hpresent hd
      rw [hentry]
      refine ⟨rfl, toNat_oneMiss _, hlock, (State.beside_silence_below hall ?_ ?_).cycleEndWork.req⟩
      · rw [hv.rosterEntry]; exact hpresent
      · rw [hv.rosterEntry, hv.ctrl]; exact hd
    · obtain ⟨hentry, hlock⟩ := hdrop hpresent hd
      refine ⟨hentry, hlock, (State.beside_silence_dropping hall ?_ ?_).cycleEndWork.req⟩
      · rw [hv.rosterEntry]; exact hpresent
      · rw [hv.rosterEntry, hv.ctrl]; exact hd
  case frame =>
    have hv := (s.settleOwnFrame_sameReads s.classify).endReception
    rw [s.settleOwnFrame_endReception]
    obtain ⟨hroster, B⟩ := State.slotWork_activity (s := (s.settleOwnFrame s.classify).endReception)
      (by rw [hv.ctrl]; exact hs) (hv.installed.trans all) hcontent
    rw [hv.slots, hp, hv.rosterEntry] at hroster
    have B' : (s.settleOwnFrame s.classify).Beside False
        ((s.settleOwnFrame s.classify).endReception.slotWork s.classify) :=
      ⟨B.ctrl, B.slots, B.locks, B.repl, B.req, False.elim⟩
    exact ⟨(State.rosterEntry_cycleEndWork _ _).trans hroster, B'.cycleEndWork.req⟩

end Sys2Proof.Machine
end

section
/-! The end of a slot that brought a valid FOUND frame, at a SYNCING, FOUNDING or ACTIVE station: the founding effects and
nothing else (R78, R101 to R104, R122), the founder's own readback included. -/

namespace Sys2Proof.Machine

variable {s : State} {f : Frame}

/-! ### The slot end -/

/-- An own frame that may stand in the slot of a valid FOUND frame: none, or an own FOUND frame that was begun (R58,
R63). -/
def State.FoundingOwn (s : State) : Prop :=
  s.line.own = none ∨ ∃ g, s.line.own = some ⟨g, [], true⟩ ∧ g.status = .found

theorem State.FoundingOwn.ownUnsent (h : s.FoundingOwn) : s.ownUnsent = false := by
  rcases h with hown | ⟨g, hown, -⟩
  · exact State.ownUnsent_of_none hown
  · exact State.ownUnsent_of_own hown

theorem State.FoundingOwn.not_leavingSlot (h : s.FoundingOwn) : s.leavingSlot = false := by
  rcases h with hown | ⟨g, hown, hg⟩
  · exact State.leavingSlot_of_none hown
  · exact State.not_leavingSlot hown (by rw [hg]; exact nofun)

/-- Without ops in it, an own frame that is put in doubt changes nothing (R63). -/
theorem State.doubtDrawn_nil (s : State) : s.doubtDrawn [] = s := by
  simp [State.doubtDrawn]

/-- An own FOUND frame carries no op, and is no JOIN: its readback settles nothing (R55, R58, R63). -/
theorem State.FoundingOwn.settleOwnFrame (h : s.FoundingOwn) (f : Frame) : s.settleOwnFrame (.valid f) = s := by
  rcases h with hown | ⟨g, hown, hg⟩
  · exact s.settleOwnFrame_of_none hown _
  · have hjoin : s.joinSent ⟨g, [], true⟩ = s := by rw [State.joinSent, hg]; rfl
    rw [State.settleOwnFrame_of_own hown, if_neg (by simp), hjoin, s.doubtDrawn_nil, ite_self]

/-- A FOUND frame of the slot's owner with the own slot count is valid, whatever its cycle number (R66). -/
theorem State.classify_found (hunsent : s.ownUnsent = false) (hrx : s.line.rx.frame = some f) (hf : f.status = .found)
    (hsender : f.sender = s.slots.position) (hcount : f.slotCount = s.ctrl.snc) : s.classify = .valid f := by
  rw [State.classify_frame hunsent hrx, if_neg]
  rw [State.alienFrame_iff]
  rintro (h | h | ⟨h, -⟩)
  · exact h hsender
  · exact h hcount
  · exact h hf

theorem State.ctrl_found (s : State) (f : Frame) : (s.found f).ctrl = { s.ctrl with state := .active } :=
  (s.found_touches f).tables.rosterTables.ctrl

/-- No lease is left to end after the founding effects (R10, R31). -/
theorem State.cycleEndWork_found (s : State) (f : Frame) : (s.found f).cycleEndWork = s.found f :=
  State.cycleEndWork_eq_self fun l _ => by rw [State.lock_found]; rfl

/-- The founding effects are all of the slot end's work: no lease expires, the station is not SYNCING any more, and no
vote is evaluated after a FOUND frame (log 20). -/
theorem State.slotEnd_found (hown : s.FoundingOwn) (hf : f.status = .found) :
    s.slotEnd (.valid f) = (s.found f).nextSlot := by
  have hwork : (s.slotWork (.valid f)).cycleEndWork = s.found f := by
    rw [State.slotWork, State.handFrame, hf]
    exact s.cycleEndWork_found f
  have hoff : (s.found f).inState .syncing = false := by rw [State.inState, State.ctrl_found]; rfl
  have hrecovered : (s.found f).completeRecovery = s.found f := by
    rw [State.completeRecovery, hoff]; rfl
  have horphan : ∀ heard, (s.found f).countOrphan heard = s.found f := fun heard => by
    rw [State.countOrphan, hoff]; rfl
  have hheard : (SlotContent.valid f).heardFound = true := by simp [SlotContent.heardFound, hf]
  rw [State.slotEnd, if_neg (by simp [hown.not_leavingSlot])]
  simp only [hown.settleOwnFrame, hwork, hrecovered, horphan, hheard, ite_self, Bool.not_true, Bool.and_false,
    Bool.false_eq_true, if_false]

/-- FRAME_SLOT_END with a valid FOUND frame, the founder's own readback included (R78, R101). -/
theorem exec_frameSlotEnd_found (ha : s.slots.aligned = true) (hph : s.slots.phase = .inFrame) (hown : s.FoundingOwn)
    (hrx : s.line.rx.frame = some f) (hf : f.status = .found) (hsender : f.sender = s.slots.position)
    (hcount : f.slotCount = s.ctrl.snc) : exec .frameSlotEnd s = .next (s.endReception.found f).nextSlot := by
  have hended : s.endReception.FoundingOwn := hown
  rw [exec_frameSlotEnd ha hph, State.classify_found hown.ownUnsent hrx hf hsender hcount, State.slotEnd_found hended hf]

/-! ### Requests and notices (R103, R122) -/

/-- The owners of all notices that the founding effects can raise (R103). -/
def foundingOwners : List NoticeOwner :=
  [.roster] ++ [.tableLost] ++ (List.finRange 16).map NoticeOwner.tag ++ [.sync]

/-- Each owner gets one notice of the founding effects at most (R125). -/
theorem State.foundingNotices_nodup (s : State) (founder : StationNo) :
    ((s.foundingNotices founder).map (·.owner)).Nodup := by
  have optional : ∀ (p : Prop) [Decidable p] (b : NoticeBody),
      ((if p then [b] else []).map (·.owner)).Sublist [b.owner] := by
    intro p _ b
    split
    · exact .refl _
    · exact List.nil_sublist _
  have hsub : ((s.foundingNotices founder).map (·.owner)).Sublist foundingOwners := by
    simp only [State.foundingNotices, List.map_append]
    refine (((optional _ _).append (optional _ _)).append ?ends).append ?sync
    case ends =>
      rw [List.map_map]
      exact List.filter_sublist.map _
    case sync =>
      split
      · exact List.nil_sublist _
      · exact .refl _
  exact hsub.nodup (by decide)

/-- Every notice of the founding effects is in the queue behind them (R103, R128). -/
theorem State.FoundingHandled.noticed {u : State} {founder : StationNo} (h : s.FoundingHandled u founder)
    {b : NoticeBody} (hb : b ∈ s.foundingNotices founder) (hfault : b.owner ≠ .fault) :
    ∃ n ∈ u.notices.queue, n.body = b := by
  rw [h.notices]
  exact State.mem_foldl_raise (s.foundingNotices_nodup founder) s hb hfault

/-- The end of the reception is no matter to what becomes of requests and notices. -/
theorem State.FoundingHandled.of_endReception {u : State} {founder : StationNo}
    (h : s.endReception.FoundingHandled u founder) : s.FoundingHandled u founder :=
  ⟨h.claims, h.ended, h.kept, h.queue, h.emptied,
    h.notices.trans (State.notices_foldl_raise (s.foundingNotices founder) rfl)⟩

theorem State.RequestLaw.endReception (h : s.RequestLaw) : s.endReception.RequestLaw :=
  h.congr rfl rfl rfl (State.endUnread_congr rfl) h.ownOnce

/-- Settles O43: the slot end is the founding effects alone, by exec_frameSlotEnd_found; what they do to requests and
notices is RequestLaw.found, and to the rest found_touches. -/
theorem foundFrameFoundsTheTable : Obligations.FoundFrameFoundsTheTable := by
  intro s f _ ha hph hown hrx hf hsender hcount _ hlaw
  have k := s.endReception.found_touches f
  have kr := k.tables.rosterTables
  have handled : s.FoundingHandled (s.endReception.found f) f.sender := (hlaw.endReception.found f).of_endReception
  refine ⟨_, exec_frameSlotEnd_found ha hph hown hrx hf hsender hcount, kr.ctrl, kr.slots, State.lock_found _ f,
    fun j => ?roster, ?repl, by rw [kr.pageCursor]; rfl, kr.port, handled, fun hlost => ?tableLost, fun hs => ?sync⟩
  case roster =>
    rw [State.rosterEntry_congr k.tables.roster j]
    exact foundRoster_entry f.sender j
  case repl =>
    rw [kr.repl]
    exact ⟨rfl, rfl, rfl, rfl, rfl⟩
  case tableLost => exact handled.noticed (by simp [State.foundingNotices, hlost]) nofun
  case sync => exact handled.noticed (by simp [State.foundingNotices, hs]) nofun

end Sys2Proof.Machine
end

section
/-! The laws of the request entries, which every step keeps (R108 to R111, R116), and the laws at the station after reset. -/

namespace Sys2Proof.Machine

/-! ### The to-yield set (R111, R116) -/

theorem pairwise_allLocks : allLocks.Pairwise (· < ·) := by
  unfold allLocks
  exact (List.sortedLT_finRange 64).pairwise

/-- The to-yield set of `t` comes from that of `s`, or from the list of all locks, by taking locks out. -/
def State.YieldsKept (s t : State) : Prop :=
  t.req.toYield.Sublist s.req.toYield ∨ t.req.toYield.Sublist allLocks

theorem State.YieldsKept.ascending {s t : State} (h : s.YieldsKept t) (hs : s.ToYieldAscending) : t.ToYieldAscending :=
  h.elim (List.Pairwise.sublist · hs) (List.Pairwise.sublist · pairwise_allLocks)

namespace State.YieldsKept

section

variable {s t u : State}

theorem of_eq (h : t.req.toYield = s.req.toYield) : s.YieldsKept t := .inl (by rw [h])

theorem of_nil (h : t.req.toYield = []) : s.YieldsKept t := .inl (by rw [h]; exact List.nil_sublist _)

theorem trans (h : s.YieldsKept t) (k : t.YieldsKept u) : s.YieldsKept u :=
  k.elim (fun k => h.imp k.trans k.trans) .inr

theorem ite {c : Prop} [Decidable c] (ht : s.YieldsKept t) (hu : s.YieldsKept u) : s.YieldsKept (if c then t else u) := by
  split
  · exact ht
  · exact hu

theorem foldl {α : Type} {f : State → α → State} (hf : ∀ (s : State) (x : α), s.YieldsKept (f s x)) (xs : List α) (s : State) :
    s.YieldsKept (xs.foldl f s) :=
  foldl_keeps (fun _ => of_eq rfl) trans hf xs s

end

variable (s : State)

theorem refl : s.YieldsKept s := of_eq rfl

theorem unyield (l : LockNo) : s.YieldsKept (s.unyield l) := .inl List.filter_sublist

/-! Entries and ops -/

theorem endEntry (g : Tag) (o : EndOutcome) : s.YieldsKept (s.endEntry g o) := of_eq rfl

theorem endAll (o : EndOutcome) : s.YieldsKept (s.endAll o) := of_nil rfl

theorem setOpStatuses (st : OpStatus) (mark : Bool) (ts : List Tag) :
    s.YieldsKept (ts.foldl (fun s t => s.setOpStatus t st mark) s) :=
  foldl (f := fun s t => s.setOpStatus t st mark) (fun _ _ => of_eq rfl) ts s

theorem returnDrawn (ts : List Tag) : s.YieldsKept (s.returnDrawn ts) := of_eq (s.toYield_returnToHead _)

theorem doubtDrawn (ts : List Tag) : s.YieldsKept (s.doubtDrawn ts) :=
  (setOpStatuses s .doubtful false (ts.filter s.inFlight)).trans (of_eq rfl)

theorem settleDoubtful : s.YieldsKept s.settleDoubtful := of_eq s.toYield_settleDoubtful

theorem draw : s.YieldsKept s.draw.2.2 := of_eq s.draw_toYield

theorem removeHead (sr : Byte) : s.YieldsKept (s.removeHead sr) := by
  unfold State.removeHead
  dsimp only
  repeat' split
  all_goals exact of_eq rfl

/-! Reports -/

theorem resultReport (k : OpKind) (l : LockNo) (r : OpResult) : s.YieldsKept (s.resultReport k l r) := by
  unfold State.resultReport
  split
  · unfold State.entryResult
    dsimp only
    split <;> exact of_eq rfl
  · exact ite (unyield s l) (refl s)

theorem grantReport (l : LockNo) (m : Mode) (token : Word16) : s.YieldsKept (s.grantReport l m token) := by
  unfold State.grantReport
  refine ite (refl s) ?_
  split
  · exact refl s
  · exact ite (of_eq rfl) (refl s)

theorem removalReport (l : LockNo) (o : EndOutcome) : s.YieldsKept (s.removalReport l o) := by
  unfold State.removalReport
  refine ite (unyield s l) ?_
  split
  · exact refl s
  · exact ite (endEntry s _ o) (refl s)

theorem reportGrant (l : LockNo) (a b : LockRecord) : s.YieldsKept (s.reportGrant l a b) := by
  unfold State.reportGrant
  refine ite ?_ (refl s)
  split
  · exact grantReport s l _ _
  · exact refl s

theorem setLock (l : LockNo) (r : LockRecord) : s.YieldsKept (s.setLock l r) := of_eq rfl

theorem applyOperation (k : StationNo) (o : Operation) : s.YieldsKept (s.applyOperation k o) := by
  unfold State.applyOperation
  split
  · exact refl s
  · exact ite (ite ((setLock s _ _).trans ((ite (resultReport _ _ _ _) (refl _)).trans (reportGrant _ _ _ _)))
      (setLock s _ _)) (refl s)

theorem applyOperations (k : StationNo) (ops : List Operation) : s.YieldsKept (s.applyOperations k ops) :=
  foldl (fun s o => applyOperation s k o) ops s

theorem purgeLock (k : StationNo) (c : PurgeCause) (l : LockNo) : s.YieldsKept (s.purgeLock k c l) := by
  unfold State.purgeLock
  exact ite (ite ((setLock s _ _).trans ((ite (removalReport _ _ _) (refl _)).trans (reportGrant _ _ _ _)))
    (setLock s _ _)) (refl s)

theorem purge (k : StationNo) (c : PurgeCause) : s.YieldsKept (s.purge k c) :=
  foldl (fun s l => purgeLock s k c l) allLocks s

theorem expireLock (l : LockNo) : s.YieldsKept (s.expireLock l) := by
  unfold State.expireLock
  exact ite (ite ((setLock s _ _).trans ((ite (removalReport _ _ _) (refl _)).trans (reportGrant _ _ _ _)))
    (setLock s _ _)) (refl s)

theorem cycleEndWork : s.YieldsKept s.cycleEndWork := by
  unfold State.cycleEndWork
  exact ite (foldl expireLock allLocks s) (refl s)

/-! Roster and station state -/

theorem putRoster (k : StationNo) (e : RosterEntry) : s.YieldsKept (s.putRoster k e) := by
  unfold State.putRoster
  exact ite (of_eq rfl) (of_eq rfl)

theorem rosterFrame (k : StationNo) (st : FrameStatus) : s.YieldsKept (s.rosterFrame k st) := by
  unfold State.rosterFrame
  refine ite ?_ (refl s)
  cases st with
  | active => exact putRoster s k _
  | syncing => exact putRoster s k _
  | join => exact ite (putRoster s k _) ((putRoster s k _).trans (purge _ k _))
  | leave => exact (putRoster s k _).trans (purge _ k _)
  | found => exact refl s

theorem rosterActivity (k : StationNo) : s.YieldsKept (s.rosterActivity k) := by
  unfold State.rosterActivity
  exact ite (of_eq rfl) (refl s)

theorem dropStation (k : StationNo) : s.YieldsKept (s.dropStation k) := (putRoster s k _).trans (purge _ k _)

theorem rosterSilence (k : StationNo) : s.YieldsKept (s.rosterSilence k) := by
  have missed : s.YieldsKept (s.setRosterEntry k { s.rosterEntry k with misses := oneMiss (s.rosterEntry k).misses }) :=
    of_eq rfl
  unfold State.rosterSilence
  exact ite (ite (missed.trans (dropStation _ k)) missed) (refl s)

theorem halt (f : FaultSet) : s.YieldsKept (s.halt f) := of_nil rfl

theorem stop : s.YieldsKept s.stop := of_nil rfl

/-- The founding effects empty the set (R122). -/
theorem found (f : Frame) : s.YieldsKept (s.found f) := by
  have raised : ∀ (t : State) (n : NoticeBody), t.YieldsKept (t.raise n) := fun _ _ => of_eq rfl
  have handled : ∀ t : State, s.YieldsKept t.foundHandling := fun _ => of_nil rfl
  unfold State.found
  exact ite (handled _) ((handled _).trans (raised _ _))

theorem evaluateVote : s.YieldsKept s.evaluateVote := by
  unfold State.evaluateVote
  exact ite (of_nil rfl) ((of_eq rfl : s.YieldsKept s.clearVote).trans (settleDoubtful _))

/-- Reconciliation takes the set from the list of all locks, in its order (R121). -/
theorem completeRecovery : s.YieldsKept s.completeRecovery := by
  have raised : s.YieldsKept (s.becomeActive.reconcile.raise (.sync .active)) := .inr List.filter_sublist
  unfold State.completeRecovery
  exact ite raised (refl s)

theorem countOrphan (b : Bool) : s.YieldsKept (s.countOrphan b) := by
  obtain ⟨st, n, e⟩ := s.countOrphan_eq b
  rw [e]
  exact of_eq rfl

theorem beforeRoster (f : Frame) : s.YieldsKept ((s.returnToSyncing.countVote f).takePage f.page) := by
  obtain ⟨st, n, e1⟩ := s.returnToSyncing_eq
  obtain ⟨a, d, e2⟩ := s.returnToSyncing.countVote_eq f
  obtain ⟨r, l, i, e3⟩ := (s.returnToSyncing.countVote f).takePage_eq f.page
  rw [e3, e2, e1]
  exact of_eq rfl

/-! Slot ends and slot starts -/

theorem handFrame (f : Frame) : s.YieldsKept (s.handFrame f) := by
  unfold State.handFrame
  cases f.status with
  | active => exact ((beforeRoster s f).trans (rosterFrame _ _ _)).trans (applyOperations _ _ _)
  | syncing | join | leave => exact rosterFrame s _ _
  | found => exact found s f

theorem slotWork (c : SlotContent) : s.YieldsKept (s.slotWork c) := by
  cases c with
  | silent => exact rosterSilence s _
  | garbled => exact (rosterActivity s _).trans (ite (of_eq rfl) (refl _))
  | alien => exact (of_eq rfl : s.YieldsKept (s.raise _)).trans (rosterActivity _ _)
  | valid f => exact handFrame s f

theorem settleOwnFrame (c : SlotContent) : s.YieldsKept (s.settleOwnFrame c) := by
  cases ho : s.line.own with
  | none =>
    have he : s.settleOwnFrame c = s := by unfold State.settleOwnFrame; rw [ho]
    rw [he]
    exact refl s
  | some o =>
    have sent : s.YieldsKept (s.joinSent o) := of_eq rfl
    rw [State.settleOwnFrame_of_own ho]
    exact ite (returnDrawn s _) (ite sent (sent.trans (doubtDrawn _ _)))

theorem nextSlot : s.YieldsKept s.nextSlot := by
  obtain ⟨p, c, e⟩ := s.nextPosition_eq
  have opened : s.YieldsKept s.nextPosition.slotOpened := by rw [e]; exact of_eq rfl
  rw [State.nextSlot, State.slotStart_eq]
  refine ite (opened.trans ?_) opened
  rcases s.nextPosition.slotOpened.buildOwnFrame_cases with ⟨-, e⟩ | ⟨-, f, c, -, -, -, -, e⟩ | ⟨st, -, -, e⟩
  · rw [e]; exact refl _
  · rw [e]; exact (draw _).trans (of_eq rfl)
  · rw [e]; exact of_eq rfl

theorem slotEnd (c : SlotContent) : s.YieldsKept (s.slotEnd c) := by
  have worked := (((settleOwnFrame s c).trans (slotWork _ c)).trans (cycleEndWork _)).trans (completeRecovery _)
  have counted := ite (c := s.inState .syncing = true) (worked.trans (countOrphan _ c.heardActive)) worked
  unfold State.slotEnd
  exact ite (stop s) ((ite (counted.trans (evaluateVote _)) counted).trans (nextSlot _))

theorem align (f : Frame) : s.YieldsKept (s.align f) := by
  unfold State.align
  refine trans ?_ ((cycleEndWork _).trans (nextSlot _))
  exact ite ((of_eq rfl : s.YieldsKept _).trans (found _ f)) (of_eq rfl)

end State.YieldsKept

/-! ### What every step keeps -/

/-- The laws of the request entries and of the notices are kept from `s` to `t`, and so is the order of the to-yield
set. -/
structure State.RequestsKept (s t : State) : Prop where
  law : s.RequestNoticeLaw → t.RequestNoticeLaw
  yields : s.YieldsKept t

variable {s t u : State}

theorem State.RequestsKept.refl (s : State) : s.RequestsKept s := ⟨id, .refl s⟩

theorem State.RequestsKept.trans (h : s.RequestsKept t) (k : t.RequestsKept u) : s.RequestsKept u :=
  ⟨k.law ∘ h.law, h.yields.trans k.yields⟩

theorem State.RequestsKept.ite {c : Prop} [Decidable c] (ht : s.RequestsKept t) (hu : s.RequestsKept u) :
    s.RequestsKept (if c then t else u) := by
  split
  · exact ht
  · exact hu

/-- A change outside Request Engine, Notice Queue and own frame. -/
theorem State.RequestsKept.of_eq (req : t.req = s.req) (notices : t.notices = s.notices)
    (own : t.line.own = s.line.own) : s.RequestsKept t :=
  ⟨fun h => h.congr req notices own, State.YieldsKept.of_eq (by rw [req])⟩

/-- A change outside Request Engine and Notice Queue that leaves no own frame. -/
theorem State.RequestsKept.of_noOwn (req : t.req = s.req) (notices : t.notices = s.notices)
    (own : t.line.own = none) : s.RequestsKept t :=
  ⟨fun h => h.noOwn req notices own, State.YieldsKept.of_eq (by rw [req])⟩

/-- Either reset leaves every entry FREE, the queue and the to-yield set empty and no notice (R108, R110, R111, R135). -/
theorem State.RequestNoticeLaw.afterReset (sid snc : Fin 16) (port : HostPort) (pending : List Instr) :
    (State.afterReset sid snc port pending).RequestNoticeLaw := by
  have blank : ∀ g, (State.afterReset sid snc port pending).entry g = .blank := fun g => by
    simp [State.entry, State.afterReset, RequestEngine.afterReset]
  refine ⟨List.nodup_nil, ?_⟩
  constructor
  case queueOnce => exact List.nodup_nil
  case doubtOnce => exact List.nodup_nil
  case ownOnce => nofun
  case queueOps => exact fun g => by rw [blank]; exact ⟨nofun, nofun⟩
  case doubtOps => exact fun g => by rw [State.doubtful, blank]; exact ⟨nofun, nofun⟩
  case pendingClaim => exact fun g => by rw [blank]; exact ⟨nofun, nofun⟩
  case endNotice => exact fun g => by rw [blank]; exact ⟨nofun, nofun⟩
  case opLive => exact fun g => by rw [blank]; exact nofun
  case oneLock => exact fun g v => by rw [blank]; exact nofun

theorem State.RequestsKept.afterReset (s : State) (sid snc : Fin 16) (port : HostPort) (pending : List Instr) :
    s.RequestsKept (State.afterReset sid snc port pending) :=
  ⟨fun _ => .afterReset sid snc port pending, State.YieldsKept.of_nil rfl⟩

/-! ### Host commands -/

/-- The command keeps the laws of the request entries. -/
def Command.KeepsRequests (c : Command) : Prop := ∀ u : State, u.RequestsKept (c u).1

namespace Command.KeepsRequests

/-- A command that reads the station changes nothing. -/
theorem of_reads {c : Command} (h : ∀ u, (c u).1 = u) : c.KeepsRequests := fun u => by rw [h u]; exact .refl u

theorem acquire (lock modeTry : Byte) (limit : Word16) : KeepsRequests (State.acquire lock modeTry limit) := by
  refine fun u => ⟨fun h => h.acquire lock modeTry limit, ?_⟩
  unfold State.acquire
  repeat' split
  all_goals exact State.YieldsKept.of_eq rfl

theorem release (tag : Byte) : KeepsRequests (State.release tag) := by
  refine fun u => ⟨fun h => h.release tag, ?_⟩
  unfold State.release State.releaseTag
  repeat' split
  all_goals exact State.YieldsKept.of_eq rfl

theorem downgradeTag (tag : Byte) : KeepsRequests (State.downgradeTag tag) := by
  refine fun u => ⟨fun h => h.downgradeTag tag, ?_⟩
  unfold State.downgradeTag
  repeat' split
  all_goals exact State.YieldsKept.of_eq rfl

theorem renewTag (tag : Byte) : KeepsRequests (State.renewTag tag) := by
  refine fun u => ⟨fun h => h.renewTag tag, ?_⟩
  unfold State.renewTag
  repeat' split
  all_goals exact State.YieldsKept.of_eq rfl

theorem queryTag (tag : Byte) : KeepsRequests (State.queryTag tag) := of_reads fun u => by
  unfold State.queryTag
  repeat' split
  all_goals rfl

theorem queryLock (lock : Byte) : KeepsRequests (State.queryLock lock) := of_reads fun u => by
  unfold State.queryLock
  repeat' split
  all_goals rfl

theorem queryRoster : KeepsRequests State.queryRoster := of_reads fun u => by
  unfold State.queryRoster
  split <;> rfl

theorem fetchNotice : KeepsRequests State.fetchNotice := of_reads fun u => by
  unfold State.fetchNotice
  split <;> rfl

theorem configure (d t f : Byte) : KeepsRequests (State.configure d t f) := by
  intro u
  unfold State.configure
  repeat' split
  all_goals exact .of_eq rfl rfl rfl

theorem startStation : KeepsRequests State.startStation := by
  intro u
  unfold State.startStation
  repeat' split
  · exact .refl u
  · exact .refl u
  · exact .of_noOwn rfl rfl rfl

/-- LEAVE ends every entry of a LISTENING station, and sets a flag of one on the line (R156, R157). -/
theorem leaveLine : KeepsRequests State.leaveLine := by
  intro u
  unfold State.leaveLine
  cases u.ctrl.state with
  | listening => exact ⟨fun h => h.stop, State.YieldsKept.stop u⟩
  | syncing | founding | active => exact .of_eq rfl rfl rfl
  | idle | stopped | halted => exact .refl u

end Command.KeepsRequests

theorem State.RequestsKept.deliver (s : State) : s.RequestsKept s.deliver := by
  refine ⟨fun h => h.deliver, ?_⟩
  rcases s.deliver_eq with e | ⟨sr, -, -, e⟩
  · rw [e]; exact State.YieldsKept.of_eq rfl
  · rw [e]; exact (State.YieldsKept.removeHead s sr).trans (State.YieldsKept.of_eq rfl)

theorem State.RequestsKept.endComplete (s : State) {c : Command} (hc : c.KeepsRequests) (code : Byte) (n : Nat) :
    s.RequestsKept (s.endComplete code n c) := by
  have shifted : s.RequestsKept (s.shiftOut n) := .of_eq rfl rfl rfl
  unfold State.endComplete
  exact .ite (.of_eq rfl rfl rfl) (((shifted.trans (.deliver _)).trans (hc _)).trans (.of_eq rfl rfl rfl))

/-! ### Every step -/

/-- A row that ends an exchange keeps the laws. -/
theorem exchangeRow_keepsRequests {i : Instr} (hi : endsExchange i = true) (s : State) :
    ∃ t, exec i s = .next t ∧ s.RequestsKept t := by
  have ends : ∀ {c : Command}, c.KeepsRequests → ∀ code n, s.RequestsKept (s.endComplete code n c) :=
    fun hc code n => .endComplete s hc code n
  cases i <;> simp only [endsExchange, Bool.false_eq_true] at hi
  case nop => exact ⟨_, rfl, ends (.of_reads fun _ => rfl) _ _⟩
  case status => exact ⟨_, rfl, ends (.of_reads fun _ => rfl) _ _⟩
  case configure => exact ⟨_, rfl, ends (.configure _ _ _) _ _⟩
  case start => exact ⟨_, rfl, ends .startStation _ _⟩
  case leave => exact ⟨_, rfl, ends .leaveLine _ _⟩
  case resetStation => exact ⟨_, rfl, ends (fun u => .afterReset u _ _ _ _) _ _⟩
  case acquire => exact ⟨_, rfl, ends (.acquire _ _ _) _ _⟩
  case release => exact ⟨_, rfl, ends (.release _) _ _⟩
  case downgrade => exact ⟨_, rfl, ends (.downgradeTag _) _ _⟩
  case renew => exact ⟨_, rfl, ends (.renewTag _) _ _⟩
  case queryTag => exact ⟨_, rfl, ends (.queryTag _) _ _⟩
  case fetch => exact ⟨_, rfl, ends .fetchNotice _ _⟩
  case queryLock => exact ⟨_, rfl, ends (.queryLock _) _ _⟩
  case queryRoster => exact ⟨_, rfl, ends .queryRoster _ _⟩
  case unknownCommand => exact ⟨_, rfl, ends (.of_reads fun _ => rfl) _ _⟩
  case truncatedExchange code whole =>
    have shifted : s.RequestsKept (s.shiftOut whole) := .of_eq rfl rfl rfl
    exact ⟨_, rfl, .ite (.of_eq rfl rfl rfl) ((shifted.trans (.deliver _)).trans (.of_eq rfl rfl rfl))⟩
  case emptyExchange => exact ⟨_, rfl, .of_eq rfl rfl rfl⟩

theorem State.RequestsKept.elapse (s : State) (n : Nat) : s.RequestsKept (s.elapse n) := by
  by_cases hr : s.receiving = true
  · obtain ⟨_, _, _, _, _, _, e⟩ := s.advanceOwn_frame n
    rw [s.elapse_eq hr, e]
    exact .of_eq rfl rfl rfl
  · rw [s.elapse_off (by simpa using hr)]
    exact .refl s

/-- The begin of the own frame leaves its tags as they are. -/
theorem State.RequestsKept.beginSending (s : State) : s.RequestsKept s.beginSending := by
  refine ⟨fun h => ⟨h.distinct, h.law.congr rfl rfl rfl (fun g => State.endUnread_congr rfl g) fun o ho => ?_⟩,
    State.YieldsKept.of_eq rfl⟩
  obtain ⟨o', ho', rfl⟩ := Option.map_eq_some_iff.1 (show s.line.own.map _ = some o from ho)
  exact h.law.ownOnce o' ho'

/-- The cold-start frame carries no op (R58). -/
theorem State.RequestsKept.coldStart (s : State) : s.RequestsKept s.coldStart := by
  refine ⟨fun h => ⟨h.distinct, h.law.congr rfl rfl rfl (fun g => State.endUnread_congr rfl g) fun o ho => ?_⟩,
    State.YieldsKept.of_eq rfl⟩
  obtain rfl := Option.some.inj ho
  exact List.nodup_nil

theorem State.RequestsKept.slotEnd (s : State) (c : SlotContent) : s.RequestsKept (s.slotEnd c) :=
  ⟨fun h => h.slotEnd c, State.YieldsKept.slotEnd s c⟩

theorem State.RequestsKept.halt (s : State) (f : FaultSet) : s.RequestsKept (s.halt f) :=
  ⟨fun h => h.halt f, State.YieldsKept.halt s f⟩

/-- A row of the line or of a timer, EXCHANGE_START and PIN_RESET keep the laws. -/
theorem lineRow_keepsRequests {i : Instr} (hi : endsExchange i = false) (s : State) :
    ∃ t, exec i s = .next t ∧ s.RequestsKept t := by
  have keepIf : ∀ {t : State} (b : Bool), s.RequestsKept t → s.RequestsKept (if b then t else s) :=
    fun _ ht => .ite ht (.refl s)
  have received : s.RequestsKept s.endReception := .of_eq rfl rfl rfl
  cases i <;> simp only [endsExchange, Bool.true_eq_false] at hi
  case pinReset => exact ⟨_, rfl, .afterReset s _ _ _ _⟩
  case exchangeStart => exact ⟨_, rfl, .of_eq rfl rfl rfl⟩
  case listeningWindowExpiry => exact ⟨_, rfl, keepIf _ (.coldStart s)⟩
  case transmitGapExpiry =>
    have begun := State.RequestsKept.beginSending s
    refine ⟨_, rfl, keepIf _ ?_⟩
    cases s.slots.phase with
    | waiting => exact begun.trans (.of_eq rfl rfl rfl)
    | inFrame => exact begun
  case transmissionEnd => exact ⟨_, rfl, keepIf _ (.ite (.of_noOwn rfl rfl rfl) (.of_eq rfl rfl rfl))⟩
  case readbackMismatch => exact ⟨_, rfl, keepIf _ (.halt s _)⟩
  case arbitrationLoss => exact ⟨_, rfl, keepIf _ (.of_noOwn rfl rfl rfl)⟩
  case silentSlotEnd => exact ⟨_, rfl, keepIf _ (.slotEnd s _)⟩
  case frameSlotEnd => exact ⟨_, rfl, keepIf _ (received.trans (.slotEnd _ _))⟩
  case listeningReceptionEnd =>
    refine ⟨_, rfl, keepIf _ ?_⟩
    split
    · exact received
    · rename_i f _
      exact .ite (received.trans ⟨fun h => h.align f, State.YieldsKept.align _ f⟩) (.halt s _)
  case leaseExpiry => exact ⟨_, rfl, keepIf _ ⟨fun h => h.cycleEndWork, State.YieldsKept.cycleEndWork s⟩⟩
  case drop => exact ⟨_, rfl, keepIf _ ⟨fun h => h.dropStation _, State.YieldsKept.dropStation s _⟩⟩
  case enterFounding =>
    obtain ⟨st, e⟩ := s.foundIfOrphaned_eq
    exact ⟨_, rfl, .ite (.refl s) (by rw [e]; exact .of_eq rfl rfl rfl)⟩
  case cellStart after _ _ _ _ =>
    refine ⟨_, rfl, keepIf _ ((State.RequestsKept.elapse s after).trans ?_)⟩
    unfold State.takeCell
    exact .ite (.of_eq rfl rfl rfl) (.of_eq rfl rfl rfl)

theorem step_keepsRequests (h : step s = .next t) : s.RequestsKept t := by
  unfold step at h
  split at h
  · obtain rfl := Host.Outcome.next.inj h
    exact .elapse s 1
  · rename_i i rest _
    have taken : s.RequestsKept { s with pending := rest } := .of_eq rfl rfl rfl
    obtain ⟨u, he, hu⟩ : ∃ u, exec i { s with pending := rest } = .next u
        ∧ State.RequestsKept { s with pending := rest } u := by
      cases hi : endsExchange i with
      | true => exact exchangeRow_keepsRequests hi _
      | false => exact lineRow_keepsRequests hi _
    obtain rfl := Host.Outcome.next.inj (he.symm.trans h)
    exact taken.trans hu

/-- Settles O57: RequestNoticeLaw is the invariant, for an entry and its END notice come and go together; the to-yield set
only loses locks, or is taken anew from the list of all locks. -/
theorem requestsStayLawful : Obligations.RequestsStayLawful := by
  intro s t hdistinct hlaw hascending hstep
  have kept := step_keepsRequests hstep
  exact ⟨(kept.law ⟨hdistinct, hlaw⟩).law, kept.yields.ascending hascending⟩

/-- Settles O60: each law is one of either reset. -/
theorem resetStationIsLawful : Obligations.ResetStationIsLawful := by
  obtain ⟨distinct, law⟩ := State.RequestNoticeLaw.afterReset 0 0 (.afterPinReset .closed) []
  obtain ⟨station, bounded⟩ := State.StationKept.afterReset 0 0 (.afterPinReset .closed) []
  exact ⟨distinct, law, station, bounded, .afterReset _ _ _ _, List.Pairwise.nil⟩

end Sys2Proof.Machine
end

section
/-! The host's commands on request entries: ACQUIRE, RELEASE, DOWNGRADE and RENEW, check by check (R112 to R115, R145). -/

namespace Sys2Proof.Machine

variable {s : State}

/-! ### The exchange -/

/-- The row of a command of Table 9-2 with what the command leaves and answers after the delivery (R140). -/
theorem State.exchange_of_eq (hp : s.port.phase = .exchange) (code : Byte) (extra : Nat) {c : Command} {t : State}
    {r : Reply} (hc : c (s.afterDelivery (wholeBytes code extra)) = (t, r)) :
    s.exchange code extra c = .next (t.answered code r.result r.payload) := by
  rw [State.exchange_eq hp, hc]

/-! ### ACQUIRE -/

theorem State.takesAcquire_eq_true : s.takesAcquire = true ↔ s.receiving = true ∧ s.ctrl.leavePending = false := by
  simp [State.takesAcquire]

theorem State.takesAcquire_eq_false : s.takesAcquire = false ↔ s.receiving = false ∨ s.ctrl.leavePending = true := by
  rw [← Bool.not_eq_true, State.takesAcquire_eq_true, not_and_or, Bool.not_eq_true, Bool.not_eq_false]

/-- A delivery does not change whether ACQUIRE is taken. -/
theorem State.takesAcquire_afterDelivery (s : State) (n : Nat) : (s.afterDelivery n).takesAcquire = s.takesAcquire := by
  simp only [State.takesAcquire, State.receiving, State.isRecovering, State.inState, State.isActive,
    State.afterDelivery_ctrl]

/-- The entry that ACQUIRE makes, with the mode byte and the limit as Table 11-9 lays them out. -/
theorem acquiredEntry_of_bytes (l : LockNo) (mode : Byte) (limit : Word16) :
    acquiredEntry l (modeOfBit (modeByteShared mode)) (modeByteTry mode) (limit.setWidth 12)
      = ⟨.pending, l, if mode.toNat / 2 % 2 = 1 then .shared else .exclusive, decide (mode.toNat % 2 = 1),
          BitVec.ofNat 12 limit.toNat, 0, some .claim, .queued, false⟩ := by
  have hshared : modeByteShared mode = decide (mode.toNat / 2 % 2 = 1) := by
    rw [modeByteShared, BitVec.getLsbD, Nat.testBit_eq_decide_div_mod_eq, pow_one]
  have htry : modeByteTry mode = decide (mode.toNat % 2 = 1) := by
    rw [modeByteTry, BitVec.getLsbD, Nat.testBit_eq_decide_div_mod_eq, pow_zero, Nat.div_one]
  rw [acquiredEntry, modeOfBit, hshared, htry]
  simp only [decide_eq_true_eq]
  rfl

section

variable {lock mode : Byte} {limit : Word16} {l : LockNo} (hs : s.takesAcquire = true)
include hs

theorem State.acquire_of_range (h : 64 ≤ lock.toNat ∨ 4096 ≤ limit.toNat) :
    State.acquire lock mode limit s = (s, .no .range) := by
  unfold State.acquire
  simp only [hs, Bool.not_true, Bool.false_eq_true, if_false]
  split
  · rfl
  · rename_i l hl
    have := lockOfByte_eq_some_iff.1 hl
    rw [if_pos (by omega)]

theorem State.acquire_of_duplicate (hl : lock.toNat = l.val) (hlimit : limit.toNat ≤ 4095)
    (h : (s.liveTag l).isSome = true) : State.acquire lock mode limit s = (s, .no .duplicate) := by
  simp [State.acquire, hs, lockOfByte_eq hl, Nat.not_lt.2 hlimit, h]

theorem State.acquire_of_full (hl : lock.toNat = l.val) (hlimit : limit.toNat ≤ 4095) (h : s.liveTag l = none)
    (hfree : s.lowestFree = none) : State.acquire lock mode limit s = (s, .no .full) := by
  simp [State.acquire, hs, lockOfByte_eq hl, Nat.not_lt.2 hlimit, h, hfree]

theorem State.acquire_of_free (hl : lock.toNat = l.val) (hlimit : limit.toNat ≤ 4095) (h : s.liveTag l = none) {g : Tag}
    (hfree : s.lowestFree = some g) :
    State.acquire lock mode limit s
      = ((s.setEntry g (acquiredEntry l (modeOfBit (modeByteShared mode)) (modeByteTry mode)
          (limit.setWidth 12))).enqueue g, .ok [countByte g.val]) := by
  simp [State.acquire, hs, lockOfByte_eq hl, Nat.not_lt.2 hlimit, h, hfree]

end

/-- Settles O24: past its checks ACQUIRE writes the lowest FREE entry, and a delivery leaves the queue alone. -/
theorem acquireMakesTheLowestFreeEntryPending : Obligations.AcquireMakesTheLowestFreeEntryPending := by
  intro lock mode limit extra s l g hp hreceiving hleave hl hlimit hnone hfree hlowest
  have htakes : (s.afterDelivery (5 + extra)).takesAcquire = true := by
    rw [State.takesAcquire_afterDelivery, State.takesAcquire_eq_true]
    exact ⟨hreceiving, hleave⟩
  have hacquire := State.acquire_of_free (mode := mode) htakes hl hlimit (State.liveTag_of_none hnone)
    (State.lowestFree_eq hfree hlowest)
  rw [acquiredEntry_of_bytes] at hacquire
  refine (State.exchange_of_eq hp codeAcquire extra hacquire).trans ?_
  rw [← s.afterDelivery_queue (5 + extra)]
  rfl

/-- Settles O25: each check of ACQUIRE answers once those before it have passed. -/
theorem acquireChecksInOrder : Obligations.AcquireChecksInOrder := by
  rintro lock mode limit extra s d hp rfl
  have answers : ∀ {r : Result},
      State.acquire lock mode limit (s.afterDelivery (5 + extra)) = (s.afterDelivery (5 + extra), .no r) →
      exec (.acquire lock mode limit extra) s = .next ((s.afterDelivery (5 + extra)).answered 0x10 r []) :=
    fun h => State.exchange_of_eq hp codeAcquire extra h
  have htakes : s.receiving = true → s.ctrl.leavePending = false →
      (s.afterDelivery (5 + extra)).takesAcquire = true := fun hr hl => by
    rw [State.takesAcquire_afterDelivery, State.takesAcquire_eq_true]
    exact ⟨hr, hl⟩
  refine ⟨fun hoff => answers ?state, fun hr hl hrange => answers (State.acquire_of_range (htakes hr hl) hrange),
    fun hr hl hlimit hlive => answers ?duplicate, fun hr hl hlock hlimit hnone hfull => answers ?full⟩
  case state =>
    have h : (s.afterDelivery (5 + extra)).takesAcquire = false := by
      rwa [State.takesAcquire_afterDelivery, State.takesAcquire_eq_false]
    simp [State.acquire, h]
  case duplicate =>
    obtain ⟨v, hv, hlock⟩ := hlive
    have hsome : ((s.afterDelivery (5 + extra)).liveTag ((s.afterDelivery (5 + extra)).entry v).lock).isSome = true := by
      rw [Option.isSome_iff_ne_none]
      exact fun e => State.liveTag_none e v hv rfl
    exact State.acquire_of_duplicate (htakes hr hl) hlock.symm (Nat.le_of_lt_succ hlimit) hsome
  case full =>
    have htag : (s.afterDelivery (5 + extra)).liveTag ⟨lock.toNat, hlock⟩ = none :=
      State.liveTag_of_none fun v hv e => hnone v hv (congrArg Fin.val e)
    have hfree : (s.afterDelivery (5 + extra)).lowestFree = none :=
      List.find?_eq_none.2 fun v _ => by simpa using hfull v
    exact State.acquire_of_full (htakes hr hl) rfl (Nat.le_of_lt_succ hlimit) htag hfree

/-! ### The commands that name an entry by its tag -/

section

variable {tag : Byte}

theorem State.liveOfByte_eq {g : Tag} (h : g.val = tag.toNat) (hl : (s.entry g).live = true) :
    s.liveOfByte tag = some g := by
  simp [State.liveOfByte, tagOfByte_eq h.symm, hl]

theorem State.liveOfByte_none (h : ∀ g : Tag, g.val = tag.toNat → (s.entry g).live = false) :
    s.liveOfByte tag = none := by
  rw [Option.eq_none_iff_forall_ne_some]
  intro g e
  obtain ⟨hg, hl⟩ := State.liveOfByte_some e
  have hval : g.val = tag.toNat := by
    unfold tagOfByte at hg
    split at hg
    · rw [← Option.some.inj hg]
    · cases hg
  rw [h g hval] at hl
  cases hl

/-- RELEASE, DOWNGRADE and RENEW first look at leave pending, then for the live entry; `act` is what they then do
(R113 to R115). -/
theorem State.exchange_of_tag (hp : s.port.phase = .exchange) (code : Byte) (extra : Nat) {c : Command}
    {act : State → Tag → State × Reply}
    (hc : ∀ u : State, c u = if u.ctrl.leavePending then (u, .no .state)
      else match u.liveOfByte tag with
        | none => (u, .no .tag)
        | some g => act u g)
    {d : State} (hd : s.afterDelivery (wholeBytes code extra) = d) :
    (s.ctrl.leavePending = true → s.exchange code extra c = .next (d.answered code .state []))
    ∧ (s.ctrl.leavePending = false → (∀ g : Tag, g.val = tag.toNat → (d.entry g).live = false) →
      s.exchange code extra c = .next (d.answered code .tag []))
    ∧ ∀ g : Tag, g.val = tag.toNat → (d.entry g).live = true → s.ctrl.leavePending = false →
      ∀ (t : State) (r : Reply), act d g = (t, r) → s.exchange code extra c = .next (t.answered code r.result r.payload) := by
  subst hd
  have answers : ∀ {t r}, c (s.afterDelivery (wholeBytes code extra)) = (t, r) →
      s.exchange code extra c = .next (t.answered code r.result r.payload) := State.exchange_of_eq hp code extra
  simp only [hc, State.afterDelivery_ctrl] at answers
  refine ⟨fun h => ?_, fun h hn => ?_, fun g hg hl h t r hact => ?_⟩
  · rw [h] at answers
    exact answers rfl
  · rw [h, State.liveOfByte_none hn] at answers
    exact answers rfl
  · rw [h, State.liveOfByte_eq hg hl] at answers
    exact answers hact

/-! ### RELEASE -/

section

variable {g : Tag}

theorem State.releaseTag_of_none (hop : (s.entry g).op = none) :
    s.releaseTag g = (s.queueOp g .yield, .ok []) := by
  simp only [State.releaseTag, hop]

theorem State.releaseTag_of_claim (hop : (s.entry g).op = some .claim) (hst : (s.entry g).opStatus = .queued) :
    s.releaseTag g = (s.endEntry g .cancelled, .ok []) := by
  simp only [State.releaseTag, hop, hst]

theorem State.releaseTag_of_yield (hop : (s.entry g).op = some .yield) (hst : (s.entry g).opStatus = .queued) :
    s.releaseTag g = (s, .ok []) := by
  simp only [State.releaseTag, hop, hst]

theorem State.releaseTag_of_lease (hop : (s.entry g).op = some .renew ∨ (s.entry g).op = some .downgrade)
    (hst : (s.entry g).opStatus = .queued) : s.releaseTag g = (s.supersede g, .ok []) := by
  rcases hop with hop | hop <;> simp only [State.releaseTag, hop, hst]

/-- An op IN_FLIGHT or DOUBTFUL cannot be turned (R113). -/
theorem State.releaseTag_of_busy (hop : (s.entry g).op ≠ none) (hst : (s.entry g).opStatus ≠ .queued) :
    s.releaseTag g = (s, .no .busy) := by
  unfold State.releaseTag
  split <;> simp_all

end

/-- The end of one entry as RELEASE brings it about: the entry, its place in the queue and its END notice, and nothing
else (R109). -/
theorem State.endEntry_effects (s : State) (g : Tag) (o : EndOutcome) :
    (s.endEntry g o).entry g
      = { s.entry g with relation := .ended, op := none, opStatus := .queued, doubtMark := false }
    ∧ (∀ v, v ≠ g → (s.endEntry g o).entry v = s.entry v)
    ∧ (s.endEntry g o).req.queue = s.req.queue.filter (fun v => v ≠ g)
    ∧ (∃ n ∈ (s.endEntry g o).notices.queue, n.body = .ended g (s.entry g).lock o)
    ∧ s.OnlyRequests (s.endEntry g o)
    ∧ (s.endEntry g o).req.toYield = s.req.toYield := by
  refine ⟨?_, fun v hv => ?_, rfl, State.raise_mem_self _ _ nofun, Touches.endEntry s g o, rfl⟩
  · simp [State.endEntry, RequestEntry.noOp]
  · simp [State.endEntry, hv]

/-- Settles O26: releaseTag read off at each op and op status. -/
theorem releaseActsByTheEntrysOp : Obligations.ReleaseActsByTheEntrysOp := by
  intro tag extra s d hp hd
  obtain ⟨hstate, htag, hlive⟩ := State.exchange_of_tag (c := State.release tag) hp codeRelease extra
    (fun _ => rfl) hd
  refine ⟨hstate, htag, ?_⟩
  rintro g _ hg rfl hl hleave
  have answers := hlive g hg hl hleave
  refine ⟨fun hop => answers _ _ (State.releaseTag_of_none hop), fun hop hst => ?claim,
    fun hop hst => answers _ _ (State.releaseTag_of_yield hop hst),
    fun hop hst => answers _ _ (State.releaseTag_of_lease hop hst),
    fun hop hst => answers _ _ (State.releaseTag_of_busy hop hst)⟩
  obtain ⟨hentry, hothers, hqueue, hnotice, hrest, hyield⟩ := d.endEntry_effects g .cancelled
  exact ⟨_, answers _ _ (State.releaseTag_of_claim hop hst), rfl, hentry, hothers, hqueue, hnotice, hrest.exchange, hyield⟩

/-! ### DOWNGRADE and RENEW -/

/-- Settles O27. -/
theorem downgradeQueuesItsOp : Obligations.DowngradeQueuesItsOp := by
  intro tag extra s d hp hd
  obtain ⟨hstate, htag, hlive⟩ := State.exchange_of_tag (c := State.downgradeTag tag) hp codeDowngrade extra
    (fun _ => rfl) hd
  refine ⟨hstate, htag, ?_⟩
  rintro g _ hg rfl hl hleave
  have answers := hlive g hg hl hleave
  have passes : (d.entry g).relation = .held → (d.entry g).mode = .exclusive →
      ¬ ((d.entry g).relation ≠ .held ∨ (d.entry g).mode ≠ .exclusive) := fun hrel hmode h =>
    h.elim (· hrel) (· hmode)
  refine ⟨fun h => answers d (.no .state) (if_pos ?standing), fun hrel hmode hop => answers d (.no .busy) ?busy,
    fun hrel hmode hop => answers (d.queueOp g .downgrade) (.ok []) ?queued⟩
  case standing => exact h.imp_right fun hmode => by rw [hmode]; decide
  case busy => rw [if_neg (passes hrel hmode), if_pos (Option.isSome_iff_ne_none.2 hop)]
  case queued => rw [if_neg (passes hrel hmode), if_neg (by simp [hop])]

/-- Settles O28. -/
theorem renewQueuesItsOp : Obligations.RenewQueuesItsOp := by
  intro tag extra s d hp hd
  obtain ⟨hstate, htag, hlive⟩ := State.exchange_of_tag (c := State.renewTag tag) hp codeRenew extra
    (fun _ => rfl) hd
  refine ⟨hstate, htag, ?_⟩
  rintro g _ hg rfl hl hleave
  have answers := hlive g hg hl hleave
  refine ⟨fun hrel => answers d (.no .state) (if_pos hrel), fun hrel hop hst => answers d (.ok []) ?merged,
    fun hrel hop hne => answers d (.no .busy) ?busy, fun hrel hop => answers (d.queueOp g .renew) (.ok []) ?queued⟩
  case merged => rw [if_neg (not_not.2 hrel), if_pos ⟨hop, hst⟩]
  case busy =>
    rw [if_neg (not_not.2 hrel), if_neg (fun h => hne.elim (· h.1) (· h.2)), if_pos (Option.isSome_iff_ne_none.2 hop)]
  case queued =>
    rw [if_neg (not_not.2 hrel), if_neg (by simp [hop]), if_neg (by simp [hop])]

end

end Sys2Proof.Machine
end

section
/-! The draw of an own ACTIVE frame: the queue's tags in order past the CLAIMs held back, then the YIELDs of the to-yield
set (R56, R116). -/

namespace Sys2Proof.Machine

variable {s : State}

theorem State.heldBack_iff (s : State) (g : Tag) :
    s.heldBack g = true ↔ (s.entry g).op = some .claim ∧ (s.entry g).lock ∈ s.req.toYield := by
  simp [State.heldBack]

/-- A partial function that is defined on a whole list maps it place by place. -/
theorem map_some_filterMap {α β : Type} {f : α → Option β} {xs : List α} (h : ∀ x ∈ xs, (f x).isSome = true) :
    (xs.filterMap f).map some = xs.map f := by
  induction xs with
  | nil => rfl
  | cons x xs ih =>
    obtain ⟨y, hy⟩ := Option.isSome_iff_exists.1 (h x List.mem_cons_self)
    rw [List.filterMap_cons_some hy, List.map_cons, List.map_cons, hy,
      ih fun z hz => h z (List.mem_cons_of_mem _ hz)]

/-- The operation of an entry's op (Table 2-1, R116). -/
theorem RequestEntry.operation_fields (e : RequestEntry) (k : OpKind) :
    (e.operation k).kind = k ∧ (e.operation k).lock.toNat = e.lock.val
    ∧ (k = .claim → (e.operation k).mode = e.mode ∧ (e.operation k).tryOnly = e.tryOnly ∧ (e.operation k).limit = e.limit)
    ∧ (k ≠ .claim → (e.operation k).mode = .exclusive ∧ (e.operation k).tryOnly = false ∧ (e.operation k).limit = 0) := by
  have hlock : (BitVec.ofNat 8 e.lock.val).toNat = e.lock.val :=
    countByte_toNat (lt_trans e.lock.isLt (by decide))
  cases k with
  | claim => exact ⟨rfl, hlock, fun _ => ⟨rfl, rfl, rfl⟩, fun h => absurd rfl h⟩
  | yield | downgrade | renew => exact ⟨rfl, hlock, nofun, fun _ => ⟨rfl, rfl, rfl⟩⟩

/-- The operations drawn from the queue, tag by tag. -/
def State.drawnOps (s : State) : List Operation :=
  s.draw.2.1.filterMap fun g => (s.entry g).op.map (s.entry g).operation

/-- Each tag of the queue has an op, so each tag drawn brings its operation (R110). -/
theorem State.RequestLaw.map_some_drawnOps (h : s.RequestLaw) :
    s.drawnOps.map some = s.draw.2.1.map fun g => (s.entry g).op.map (s.entry g).operation := by
  refine map_some_filterMap fun g hg => ?_
  have hqueued : g ∈ s.req.queue :=
    (drawFrom_perm s.heldBack Config.frameOps s.req.queue).mem_iff.1 (List.mem_append_left _ hg)
  rw [Option.isSome_map]
  exact ((h.queueOps g).1 hqueued).1

/-- Settles O37: drawFrom_fst and drawFrom_snd say which tags are taken and which are left. -/
theorem drawTakesTheQueueInOrder : Obligations.DrawTakesTheQueueInOrder := by
  intro s h
  refine ⟨?tags, ?queue, ⟨s.drawnOps, rfl, ?length, fun i o g ho hg => ?operation⟩, s.draw_entry,
    (Touches.draw s).withReq_eq s.draw_notices, s.draw_toYield⟩
  case tags =>
    rw [State.draw_tags, drawFrom_fst]
    refine congrArg (List.take 4) (List.filter_congr fun g _ => ?_)
    rw [Bool.eq_iff_iff, Bool.not_eq_true', decide_eq_true_eq, ← State.heldBack_iff, Bool.not_eq_true]
  case queue => rw [State.draw_queue, drawFrom_snd _ _ _ h.queueOnce, State.draw_tags]
  case length => simpa using congrArg List.length h.map_some_drawnOps
  case operation =>
    have hplace := congrArg (fun ops => ops[i]?) h.map_some_drawnOps
    simp only [List.getElem?_map, ho, hg, Option.map_some, Option.some.injEq] at hplace
    obtain ⟨k, hk, rfl⟩ := Option.map_eq_some_iff.1 hplace.symm
    obtain ⟨hkind, hlock, hclaim, hother⟩ := (s.entry g).operation_fields k
    rw [hkind]
    exact ⟨hk, hlock, hclaim, hother⟩

end Sys2Proof.Machine
end

section
/-! Reconciliation: what Table 7-6 makes of each live entry, of the DOUBTFUL ops and of the to-yield set, and where it runs
(R96, R121). -/

namespace Sys2Proof.Machine

variable {s : State}

/-! ### One entry (Table 7-6) -/

namespace RequestEntry

/-- The op is done or discarded: a CLAIM that the table shows applied, a DOWNGRADE that it shows done, any op of an entry
that ends. -/
def opSettled (e : RequestEntry) : Participation → Bool
  | .holder h => e.relation == .pending || downgradeDone e h
  | .waiter .. => e.relation == .pending
  | .neither => e.relation != .pending

/-- A live entry after reconciliation with the part that its station takes in the record. -/
def reconciled (e : RequestEntry) (p : Participation) : RequestEntry :=
  let kept := if e.opSettled p then e.noOp else e
  match p with
  | .holder h => { kept with relation := .held, mode := h.mode, token := h.token }
  | .waiter w _ => { kept with relation := .waiting, mode := w.mode, token := 0 }
  | .neither => if e.relation = .pending then kept else { kept with relation := .ended }

/-- The notices that go with it: UPDATE where the entry's standing changes, END where it ends. -/
def reconcileNotices (e : RequestEntry) (g : Tag) : Participation → List NoticeBody
  | .holder h =>
    if e.relation = .held ∧ e.mode = h.mode ∧ e.token = h.token then []
    else [.update g e.lock h.mode (.held h.token)]
  | .waiter w position =>
    if e.relation = .waiting ∧ e.mode = w.mode ∧ e.token = 0 then []
    else [.update g e.lock w.mode (.waiting position)]
  | .neither =>
    if e.relation = .pending then []
    else [.ended g e.lock
      (if e.op ≠ some .yield then .lost else if e.relation = .held then .released else .cancelled)]

variable {e : RequestEntry} {p : Participation}

theorem reconciled_lock (e : RequestEntry) (p : Participation) : (e.reconciled p).lock = e.lock := by
  unfold reconciled
  cases e.opSettled p <;> cases p <;> dsimp only <;> split <;> rfl

theorem reconciled_op_of_settled (h : e.opSettled p = true) : (e.reconciled p).op = none := by
  unfold reconciled
  rw [h]
  cases p with
  | holder | waiter => rfl
  | neither => dsimp only; split <;> rfl

/-- An op that is not settled stays, with its status and its mark. -/
theorem reconciled_op_of_unsettled (h : e.opSettled p = false) :
    (e.reconciled p).op = e.op ∧ (e.reconciled p).opStatus = e.opStatus ∧ (e.reconciled p).doubtMark = e.doubtMark := by
  unfold reconciled
  rw [h]
  cases p with
  | holder | waiter => exact ⟨rfl, rfl, rfl⟩
  | neither => dsimp only; split <;> exact ⟨rfl, rfl, rfl⟩

end RequestEntry

/-- A participant's entry stays live. -/
theorem RequestEntry.reconciled_live {e : RequestEntry} {p : Participation} (h : p ≠ .neither) :
    (e.reconciled p).live = true := by
  cases p with
  | holder | waiter => rfl
  | neither => exact absurd rfl h

/-- The part that the own station takes in the record of the entry's lock. -/
def State.ownPart (s : State) (g : Tag) : Participation := (s.lock (s.entry g).lock).participation s.ctrl.sid

theorem State.setEntry_setEntry (s : State) (g : Tag) (e e' : RequestEntry) :
    (s.setEntry g e).setEntry g e' = s.setEntry g e' := by
  simp [State.setEntry]

theorem State.setEntry_self (s : State) (g : Tag) : s.setEntry g (s.entry g) = s := by
  simp [State.setEntry, State.entry]

theorem State.reconcileEntry_dead {g : Tag} (h : (s.entry g).live = false) : s.reconcileEntry g = s := by
  simp [State.reconcileEntry, h]

theorem State.raiseHeld_setEntry (s : State) (g : Tag) (e : RequestEntry) :
    (s.setEntry g e).raiseHeld g = (s.setEntry g e).raise (.update g e.lock e.mode (.held e.token)) := by
  rw [State.raiseHeld, State.entry_setEntry_self]

theorem State.raiseWaiting_setEntry (s : State) (g : Tag) (e : RequestEntry) (position : Nat) :
    (s.setEntry g e).raiseWaiting g position = (s.setEntry g e).raise (.update g e.lock e.mode (.waiting position)) := by
  rw [State.raiseWaiting, State.entry_setEntry_self]

/-- Reconciliation of a live entry: its op leaves queue and doubt order where it is settled, then the entry is written, then
its notice raised. -/
theorem State.reconcileEntry_live {g : Tag} (h : (s.entry g).live = true) :
    s.reconcileEntry g
      = ((s.entry g).reconcileNotices g (s.ownPart g)).foldl State.raise
          ((if (s.entry g).opSettled (s.ownPart g) then s.dequeue g else s).setEntry g
            ((s.entry g).reconciled (s.ownPart g))) := by
  -- the op is discarded, and the entry written, in one
  have discarded : ∀ (e : RequestEntry → RequestEntry) (c : Bool),
      (if c then s.discardOp g else s).setEntry g (e ((if c then s.discardOp g else s).entry g))
        = (if c then s.dequeue g else s).setEntry g (e (if c then (s.entry g).noOp else s.entry g)) := by
    intro e c
    cases c with
    | false => rfl
    | true => simp only [if_true, State.discardOp, State.setEntry_setEntry, State.entry_setEntry_self]
  have hlock : ∀ c : Bool, (if c then (s.entry g).noOp else s.entry g).lock = (s.entry g).lock := by
    intro c; cases c <;> rfl
  unfold State.reconcileEntry
  simp only [h, Bool.not_true, Bool.false_eq_true, if_false]
  unfold State.ownPart
  generalize (s.lock (s.entry g).lock).participation s.ctrl.sid = p
  cases p with
  | holder x =>
    have hsettled : ((s.entry g).relation = .pending ∨ downgradeDone (s.entry g) x = true)
        ↔ (s.entry g).opSettled (.holder x) = true := by simp [RequestEntry.opSettled]
    simp only [hsettled, discarded fun e => { e with relation := .held, mode := x.mode, token := x.token },
      State.raiseHeld_setEntry, RequestEntry.reconcileNotices, RequestEntry.reconciled]
    split
    · rfl
    · rw [hlock]; rfl
  | waiter w position =>
    have hsettled : (s.entry g).relation = .pending ↔ (s.entry g).opSettled (.waiter w position) = true := by
      simp [RequestEntry.opSettled]
    simp only [hsettled, discarded fun e => { e with relation := .waiting, mode := w.mode, token := 0 },
      State.raiseWaiting_setEntry, RequestEntry.reconcileNotices, RequestEntry.reconciled]
    split
    · rfl
    · rw [hlock]; rfl
  | neither =>
    by_cases hp : (s.entry g).relation = .pending
    · simp [hp, RequestEntry.opSettled, RequestEntry.reconciled, RequestEntry.reconcileNotices, State.setEntry_self]
    · have hsettled : (s.entry g).opSettled .neither = true := by simpa [RequestEntry.opSettled] using hp
      simp only [hp, hsettled, RequestEntry.reconciled, RequestEntry.reconcileNotices, if_true, if_false, ne_eq, ite_not]
      split <;> rfl

/-- The entry of tag `g` after reconciliation (Table 7-6). -/
def State.reconciledEntry (s : State) (g : Tag) : RequestEntry :=
  if (s.entry g).live then (s.entry g).reconciled (s.ownPart g) else s.entry g

theorem State.entry_reconcileEntry (s : State) (g v : Tag) :
    (s.reconcileEntry g).entry v = if v = g then s.reconciledEntry g else s.entry v := by
  unfold State.reconciledEntry
  cases h : (s.entry g).live with
  | false =>
    rw [State.reconcileEntry_dead h]
    split
    · subst_vars; rfl
    · rfl
  | true =>
    rw [State.reconcileEntry_live h, State.entry_foldl_raise, State.entry_setEntry]
    split
    · rfl
    · split <;> rfl

/-- It depends on the entry, the records and the own number. -/
theorem State.reconciledEntry_congr {t : State} {g : Tag} (entry : t.entry g = s.entry g) (locks : t.locks = s.locks)
    (sid : t.ctrl.sid = s.ctrl.sid) : t.reconciledEntry g = s.reconciledEntry g := by
  unfold State.reconciledEntry State.ownPart
  rw [entry, sid, State.lock_congr locks]

/-- An op that reconciliation leaves is the entry's op with its status and its mark. -/
theorem State.reconciledEntry_op {g : Tag} (h : (s.reconciledEntry g).op.isSome = true) :
    (s.reconciledEntry g).op = (s.entry g).op ∧ (s.reconciledEntry g).opStatus = (s.entry g).opStatus
      ∧ (s.reconciledEntry g).doubtMark = (s.entry g).doubtMark := by
  unfold State.reconciledEntry at h ⊢
  split
  · rename_i hl
    cases hs : (s.entry g).opSettled (s.ownPart g) with
    | false => exact RequestEntry.reconciled_op_of_unsettled hs
    | true => rw [if_pos hl, RequestEntry.reconciled_op_of_settled hs] at h; cases h
  · exact ⟨rfl, rfl, rfl⟩

/-- A tag leaves queue and doubt order where its op is settled, and they are otherwise kept. -/
theorem State.lists_reconcileEntry (s : State) (g : Tag) :
    (s.reconcileEntry g).req.queue
      = (if (s.entry g).live && (s.entry g).opSettled (s.ownPart g) then s.req.queue.filter (· ≠ g) else s.req.queue)
    ∧ (s.reconcileEntry g).req.doubtOrder
      = (if (s.entry g).live && (s.entry g).opSettled (s.ownPart g) then s.req.doubtOrder.filter (· ≠ g)
        else s.req.doubtOrder)
    ∧ (s.reconcileEntry g).req.toYield = s.req.toYield := by
  cases h : (s.entry g).live with
  | false => rw [State.reconcileEntry_dead h]; exact ⟨rfl, rfl, rfl⟩
  | true =>
    rw [State.reconcileEntry_live h, State.req_foldl_raise]
    cases (s.entry g).opSettled (s.ownPart g) <;> exact ⟨rfl, rfl, rfl⟩

/-- In a list of tags that have ops, such as queue and doubt order, the tags that reconciliation leaves are those whose op it
leaves. -/
theorem State.filter_reconcileEntry {g : Tag} {ts : List Tag} (hts : ∀ v ∈ ts, (s.entry v).op.isSome = true) :
    (if (s.entry g).live && (s.entry g).opSettled (s.ownPart g) then ts.filter (· ≠ g) else ts)
      = ts.filter fun v => v ≠ g ∨ (s.reconciledEntry v).op.isSome := by
  have settles : ∀ v ∈ ts, v = g → ((s.reconciledEntry v).op.isSome = true
      ↔ ¬ ((s.entry g).live && (s.entry g).opSettled (s.ownPart g)) = true) := by
    rintro v hv rfl
    unfold State.reconciledEntry
    cases hl : (s.entry v).live with
    | false => simpa using hts v hv
    | true =>
      cases hs : (s.entry v).opSettled (s.ownPart v) with
      | false => simpa [RequestEntry.reconciled_op_of_unsettled hs] using hts v hv
      | true => simp [RequestEntry.reconciled_op_of_settled hs]
  split
  · rename_i hc
    refine List.filter_congr fun v hv => ?_
    by_cases hvg : v = g
    · have := mt (settles v hv hvg).1 (not_not.2 hc)
      simp [hvg] at this ⊢
      exact this
    · simp [hvg]
  · rename_i hc
    refine (List.filter_eq_self.2 fun v hv => ?_).symm
    by_cases hvg : v = g
    · have := (settles v hv hvg).2 hc
      simp [this]
    · simp [hvg]

/-! ### Every entry -/

/-- Queue and doubt order hold tags of ops alone. -/
def State.ListsOps (s : State) : Prop :=
  (∀ v ∈ s.req.queue, (s.entry v).op.isSome = true) ∧ ∀ v ∈ s.req.doubtOrder, (s.entry v).op.isSome = true

theorem State.RequestLaw.listsOps (h : s.RequestLaw) : s.ListsOps :=
  ⟨fun v hv => ((h.queueOps v).1 hv).1, fun v hv => ((s.doubtful_iff v).1 ((h.doubtOps v).1 hv)).1⟩

/-- Reconciliation of one entry leaves in the two lists the tags whose op it leaves. -/
theorem State.ListsOps.reconcileEntry (h : s.ListsOps) (g : Tag) :
    (s.reconcileEntry g).req.queue = s.req.queue.filter (fun v => v ≠ g ∨ (s.reconciledEntry v).op.isSome)
    ∧ (s.reconcileEntry g).req.doubtOrder = s.req.doubtOrder.filter (fun v => v ≠ g ∨ (s.reconciledEntry v).op.isSome)
    ∧ (s.reconcileEntry g).ListsOps := by
  obtain ⟨hqueue, hdoubt, -⟩ := s.lists_reconcileEntry g
  rw [State.filter_reconcileEntry h.1] at hqueue
  rw [State.filter_reconcileEntry h.2] at hdoubt
  have keeps : ∀ ts : List Tag, (∀ v ∈ ts, (s.entry v).op.isSome = true) →
      ∀ v ∈ ts.filter (fun v => v ≠ g ∨ (s.reconciledEntry v).op.isSome),
        ((s.reconcileEntry g).entry v).op.isSome = true := by
    intro ts hts v hv
    obtain ⟨hv, hkept⟩ := List.mem_filter.1 hv
    rw [State.entry_reconcileEntry]
    by_cases hvg : v = g
    · subst hvg; simpa using hkept
    · rw [if_neg hvg]; exact hts v hv
  refine ⟨hqueue, hdoubt, ?_, ?_⟩
  · rw [hqueue]; exact keeps _ h.1
  · rw [hdoubt]; exact keeps _ h.2

/-- Two filters in a row: the tags of one entry, then those of the entries after it. -/
theorem filter_filter_tags {ts us : List Tag} {t : Tag} (ht : t ∉ ts) {kept kept' : Tag → Bool}
    (hk : ∀ v ∈ ts, kept' v = kept v) :
    (us.filter fun v => v ≠ t ∨ kept v).filter (fun v => v ∉ ts ∨ kept' v)
      = us.filter fun v => v ∉ t :: ts ∨ kept v := by
  rw [List.filter_filter]
  refine List.filter_congr fun v _ => ?_
  by_cases hvt : v = t
  · subst hvt; simp [ht]
  · by_cases hv : v ∈ ts
    · simp [hvt, hv, hk v hv]
    · simp [hvt, hv]

/-- Reconciliation of the entries of distinct tags reaches each of them as it stood, and takes from the lists the tags whose
op is settled. -/
theorem State.ListsOps.foldl_reconcileEntry {ts : List Tag} (hd : ts.Nodup) (h : s.ListsOps) :
    (∀ v, (ts.foldl State.reconcileEntry s).entry v = if v ∈ ts then s.reconciledEntry v else s.entry v)
    ∧ (ts.foldl State.reconcileEntry s).req.queue
      = s.req.queue.filter (fun v => v ∉ ts ∨ (s.reconciledEntry v).op.isSome)
    ∧ (ts.foldl State.reconcileEntry s).req.doubtOrder
      = s.req.doubtOrder.filter (fun v => v ∉ ts ∨ (s.reconciledEntry v).op.isSome)
    ∧ (ts.foldl State.reconcileEntry s).req.toYield = s.req.toYield := by
  induction ts generalizing s with
  | nil => simp
  | cons t ts ih =>
    obtain ⟨hnt, hnd⟩ := List.nodup_cons.1 hd
    obtain ⟨hqueue, hdoubt, hops⟩ := h.reconcileEntry t
    obtain ⟨i1, i2, i3, i4⟩ := ih hnd hops
    have T := Touches.reconcileEntry s t
    have later : ∀ v, v ∈ ts → (s.reconcileEntry t).reconciledEntry v = s.reconciledEntry v := fun v hv => by
      have hne : v ≠ t := fun e => hnt (e ▸ hv)
      exact State.reconciledEntry_congr (by rw [State.entry_reconcileEntry, if_neg hne]) T.locks
        (by rw [T.tables.rosterTables.ctrl])
    refine ⟨fun v => ?_, ?_, ?_, ?_⟩
    · rw [List.foldl_cons, i1, State.entry_reconcileEntry]
      by_cases hvt : v = t
      · subst hvt; simp [hnt]
      · by_cases hv : v ∈ ts
        · simp [hv, later v hv]
        · simp [hv, hvt]
    · rw [List.foldl_cons, i2, hqueue]
      exact filter_filter_tags hnt fun v hv => by rw [later v hv]
    · rw [List.foldl_cons, i3, hdoubt]
      exact filter_filter_tags hnt fun v hv => by rw [later v hv]
    · rw [List.foldl_cons, i4, (s.lists_reconcileEntry t).2.2]

/-- The DOUBTFUL tags of one mark that reconciliation leaves, in frame order. -/
def State.doubtLeft (s : State) (mark : Bool) : List Tag :=
  s.req.doubtOrder.filter fun g => (s.reconcileEntry g).doubtful g && (s.entry g).doubtMark == mark

theorem State.doubtful_reconcileEntry (s : State) (g : Tag) : (s.reconcileEntry g).doubtful g = true ↔
    (s.reconciledEntry g).op.isSome = true ∧ (s.entry g).opStatus = .doubtful := by
  rw [State.doubtful_iff, State.entry_reconcileEntry, if_pos rfl]
  exact and_congr_right fun h => by rw [(State.reconciledEntry_op h).2.1]

/-- The whole pass: entries, queue, and to-yield set before it is filled (R121). -/
theorem State.RequestLaw.reconcile (h : s.RequestLaw) :
    (∀ g, s.reconcile.entry g
      = if (s.reconcileEntry g).doubtful g then { s.reconciledEntry g with opStatus := .queued, doubtMark := false }
        else s.reconciledEntry g)
    ∧ s.reconcile.req.queue
      = s.doubtLeft true ++ s.doubtLeft false ++ s.req.queue.filter fun g => (s.reconciledEntry g).op.isSome := by
  obtain ⟨hentry, hqueue, hdoubt, -⟩ := h.listsOps.foldl_reconcileEntry nodup_allTags
  simp only [mem_allTags, if_true, not_true_eq_false, false_or, Bool.decide_eq_true] at hentry hqueue hdoubt
  have hw : s.reconcile = ((allTags.foldl State.reconcileEntry s).requeueDoubtful).fillToYield := rfl
  rw [hw]
  generalize allTags.foldl State.reconcileEntry s = w at hentry hqueue hdoubt
  have hmarked : ∀ mark, w.doubtfulMarked mark = s.doubtLeft mark := by
    intro mark
    unfold State.doubtfulMarked State.doubtLeft
    rw [hdoubt, List.filter_filter]
    refine List.filter_congr fun g _ => ?_
    rw [State.doubtful, State.doubtful, State.entry_reconcileEntry, if_pos rfl, hentry]
    cases hop : (s.reconciledEntry g).op.isSome with
    | false => simp
    | true => rw [(State.reconciledEntry_op hop).2.2]; simp
  have hleft : ∀ g, g ∈ s.doubtLeft true ++ s.doubtLeft false ↔ (s.reconcileEntry g).doubtful g = true := by
    intro g
    have hlisted : (s.reconcileEntry g).doubtful g = true → g ∈ s.req.doubtOrder := fun hg => by
      obtain ⟨hop, hstatus⟩ := (s.doubtful_reconcileEntry g).1 hg
      rw [h.doubtOps g, s.doubtful_iff, ← (State.reconciledEntry_op hop).1]
      exact ⟨hop, hstatus⟩
    simp only [State.doubtLeft, List.mem_append, List.mem_filter, Bool.and_eq_true, beq_iff_eq]
    cases (s.entry g).doubtMark <;> simp <;> exact hlisted
  refine ⟨fun g => ?_, ?_⟩
  · show (w.returnToHead (w.doubtfulMarked true ++ w.doubtfulMarked false)).entry g = _
    rw [State.returnToHead_entry, hmarked, hmarked, hentry]
    exact if_congr (hleft g) rfl rfl
  · show (w.returnToHead (w.doubtfulMarked true ++ w.doubtfulMarked false)).req.queue = _
    rw [State.returnToHead_queue, hmarked, hmarked, hqueue]

/-! ### The to-yield set (R111) -/

theorem LockRecord.participation_of_holder {r : LockRecord} {k : StationNo} {h : Holder} (hh : r.holderOf k = some h) :
    r.participation k = .holder h := by
  unfold LockRecord.participation; rw [hh]

theorem LockRecord.participation_of_waiter {r : LockRecord} {k : StationNo} {w : Waiter} (hh : r.holderOf k = none)
    (hw : r.waiterOf k = some w) : r.participation k = .waiter w (r.positionOf k) := by
  unfold LockRecord.participation; rw [hh, hw]

theorem LockRecord.participation_of_neither {r : LockRecord} {k : StationNo} (hh : r.holderOf k = none)
    (hw : r.waiterOf k = none) : r.participation k = .neither := by
  unfold LockRecord.participation; rw [hh, hw]

theorem LockRecord.participation_ne_neither {r : LockRecord} {k : StationNo}
    (h : r.holderOf k ≠ none ∨ r.waiterOf k ≠ none) : r.participation k ≠ .neither := by
  unfold LockRecord.participation
  cases hh : r.holderOf k with
  | some x => nofun
  | none =>
    cases hw : r.waiterOf k with
    | some w => nofun
    | none => simp [hh, hw] at h

/-- Where the own station takes part in a lock's record, reconciliation leaves the lock's entry live, and no other entry comes
to name it. -/
theorem State.reconciledEntry_names {l : LockNo}
    (h : (s.lock l).holderOf s.ctrl.sid ≠ none ∨ (s.lock l).waiterOf s.ctrl.sid ≠ none) (g : Tag) :
    ((s.reconciledEntry g).live = true ∧ (s.reconciledEntry g).lock = l)
      ↔ ((s.entry g).live = true ∧ (s.entry g).lock = l) := by
  unfold State.reconciledEntry
  split
  · rename_i hl
    rw [RequestEntry.reconciled_lock]
    refine and_congr_left fun e => ⟨fun _ => hl, fun _ => RequestEntry.reconciled_live ?_⟩
    subst e
    exact LockRecord.participation_ne_neither h
  · rfl

theorem State.isNone_liveTag (s : State) (l : LockNo) :
    (s.liveTag l).isNone = true ↔ ∀ g, (s.entry g).live = true → (s.entry g).lock ≠ l := by
  rw [Option.isNone_iff_eq_none]
  exact ⟨State.liveTag_none, State.liveTag_of_none⟩

theorem State.mem_fillToYield (s : State) (l : LockNo) : l ∈ s.fillToYield.req.toYield ↔ l ∈ s.req.toYield
    ∨ (((s.lock l).holderOf s.ctrl.sid ≠ none ∨ (s.lock l).waiterOf s.ctrl.sid ≠ none)
      ∧ ∀ g, (s.entry g).live = true → (s.entry g).lock ≠ l) := by
  simp only [State.fillToYield, List.mem_filter, mem_allLocks, true_and, Bool.or_eq_true, Bool.and_eq_true,
    List.contains_iff_mem, State.isNone_liveTag, LockRecord.participates, Option.isSome_iff_ne_none]

/-- Reconciliation takes into the to-yield set the locks in whose record the own station takes part and which no live entry
names (R111, R121). -/
theorem State.RequestLaw.mem_toYield_reconcile (h : s.RequestLaw) (l : LockNo) :
    l ∈ s.reconcile.req.toYield ↔ l ∈ s.req.toYield
      ∨ (((s.lock l).holderOf s.ctrl.sid ≠ none ∨ (s.lock l).waiterOf s.ctrl.sid ≠ none)
        ∧ ∀ g, (s.entry g).live = true → (s.entry g).lock ≠ l) := by
  have T := (Touches.foldl_requests Touches.reconcileEntry allTags s).trans (Touches.requeueDoubtful _)
  have hyield : ((allTags.foldl State.reconcileEntry s).requeueDoubtful).req.toYield = s.req.toYield :=
    (State.toYield_returnToHead _ _).trans (h.listsOps.foldl_reconcileEntry nodup_allTags).2.2.2
  have hentry : ∀ g, ((allTags.foldl State.reconcileEntry s).requeueDoubtful).entry g = _ := h.reconcile.1
  have hnames : ∀ g, ((((allTags.foldl State.reconcileEntry s).requeueDoubtful).entry g).live = true
      ∧ (((allTags.foldl State.reconcileEntry s).requeueDoubtful).entry g).lock = l)
      ↔ ((s.reconciledEntry g).live = true ∧ (s.reconciledEntry g).lock = l) := fun g => by
    rw [hentry]
    split <;> rfl
  refine (State.mem_fillToYield _ l).trans ?_
  rw [hyield, State.lock_congr T.locks, T.tables.rosterTables.ctrl]
  refine or_congr_right (and_congr_right fun hpart => forall_congr' fun g => ?_)
  rw [← not_and, ← not_and, hnames, State.reconciledEntry_names hpart]

/-! ### Where it runs (R96) -/

/-- Reconciliation reads the own number, and neither station state nor replication nor page cursor. -/
theorem State.reconcile_withStation (s : State) (st : StationState) (r : Replication) (c : Fin 9) :
    State.reconcile { s with ctrl.state := st, repl := r, pageCursor := c }
      = { s.reconcile with ctrl.state := st, repl := r, pageCursor := c } := by
  have one : ∀ (u : State) (g : Tag), State.reconcileEntry { u with ctrl.state := st, repl := r, pageCursor := c } g
      = { u.reconcileEntry g with ctrl.state := st, repl := r, pageCursor := c } := by
    intro u g
    have entry : ∀ v, State.entry { u with ctrl.state := st, repl := r, pageCursor := c } v = u.entry v := fun _ => rfl
    have lock : ∀ l, State.lock { u with ctrl.state := st, repl := r, pageCursor := c } l = u.lock l := fun _ => rfl
    unfold State.reconcileEntry
    simp only [entry, lock]
    repeat' split
    all_goals rfl
  have requeued : ∀ u : State, State.requeueDoubtful { u with ctrl.state := st, repl := r, pageCursor := c }
      = { u.requeueDoubtful with ctrl.state := st, repl := r, pageCursor := c } := by
    intro u
    have returned := List.foldl_hom (fun u : State => { u with ctrl.state := st, repl := r, pageCursor := c })
      (g₁ := fun u g => u.setOpStatus g .queued false) (g₂ := fun u g => u.setOpStatus g .queued false)
      (l := u.doubtfulMarked true ++ u.doubtfulMarked false) (init := u) fun _ _ => rfl
    exact congrArg (fun v : State => { v with
      req.queue := (u.doubtfulMarked true ++ u.doubtfulMarked false) ++ v.req.queue, req.doubtOrder := [] }) returned
  have all := List.foldl_hom (fun u : State => { u with ctrl.state := st, repl := r, pageCursor := c })
    (l := allTags) (init := s) one
  unfold State.reconcile
  rw [all, requeued]
  rfl

/-- Recovery completes: the station is ACTIVE, requests and notices are those of the reconciliation, and SYNC ACTIVE follows
(R55, R57, R96). -/
theorem State.completeRecovery_eq (hs : s.ctrl.state = .syncing) (hall : s.repl.installed = allPages) :
    s.completeRecovery = State.raise { s.reconcile with
        ctrl.state := .active
        repl := { s.repl with agree := 0, disagree := 0, orphan := 0, joinPending := false }
        pageCursor := Fin.ofNat 9 s.ctrl.sid.val } (.sync .active) := by
  unfold State.completeRecovery
  rw [if_pos (by simp [State.inState, hs, hall])]
  exact congrArg (State.raise · _) (s.reconcile_withStation _ _ _)

theorem State.completeRecovery_idle (h : s.ctrl.state ≠ .syncing ∨ s.repl.installed ≠ allPages) :
    s.completeRecovery = s := by
  unfold State.completeRecovery
  refine if_neg ?_
  simpa [State.inState, imp_iff_not_or] using h

/-! ### The obligation -/

/-- A live entry after reconciliation, and its notice, where its station takes the part `p` in the record. -/
theorem State.reconcileEntry_part {g : Tag} {p : Participation} (hl : (s.entry g).live = true) (hp : s.ownPart g = p) :
    (s.reconcileEntry g).entry g = (s.entry g).reconciled p
    ∧ ∀ b, (s.entry g).reconcileNotices g p = [b] → b.owner ≠ .fault →
      ∃ n ∈ (s.reconcileEntry g).notices.queue, n.body = b := by
  subst hp
  refine ⟨?_, fun b hb hf => ?_⟩
  · rw [State.entry_reconcileEntry, if_pos rfl, State.reconciledEntry, if_pos hl]
  · rw [State.reconcileEntry_live hl, hb]
    exact State.raise_mem_self _ b hf

/-- The row of Table 7-6 for a holder. -/
theorem State.reconcileEntry_holder {g : Tag} {h : Holder} (hl : (s.entry g).live = true)
    (hh : (s.lock (s.entry g).lock).holderOf s.ctrl.sid = some h) :
    (s.reconcileEntry g).entry g
      = (if (s.entry g).relation = .pending ∨ ((s.entry g).op = some .downgrade ∧ h.mode = .shared) then
          { s.entry g with relation := .held, mode := h.mode, token := h.token, op := none, opStatus := .queued,
                           doubtMark := false }
        else { s.entry g with relation := .held, mode := h.mode, token := h.token })
    ∧ (¬ ((s.entry g).relation = .held ∧ (s.entry g).mode = h.mode ∧ (s.entry g).token = h.token) →
        ∃ n ∈ (s.reconcileEntry g).notices.queue, n.body = .update g (s.entry g).lock h.mode (.held h.token)) := by
  obtain ⟨hentry, hnotice⟩ := State.reconcileEntry_part hl (LockRecord.participation_of_holder hh)
  refine ⟨?_, fun hne => hnotice _ (if_neg hne) nofun⟩
  have hsettled : (s.entry g).opSettled (.holder h) = true
      ↔ (s.entry g).relation = .pending ∨ ((s.entry g).op = some .downgrade ∧ h.mode = .shared) := by
    simp [RequestEntry.opSettled, downgradeDone]
  rw [hentry, RequestEntry.reconciled]
  simp only [hsettled]
  split <;> rfl

/-- The row of Table 7-6 for a waiter. -/
theorem State.reconcileEntry_waiter {g : Tag} {w : Waiter} (hl : (s.entry g).live = true)
    (hh : (s.lock (s.entry g).lock).holderOf s.ctrl.sid = none)
    (hw : (s.lock (s.entry g).lock).waiterOf s.ctrl.sid = some w) :
    (s.reconcileEntry g).entry g
      = (if (s.entry g).relation = .pending then
          { s.entry g with relation := .waiting, mode := w.mode, token := 0, op := none, opStatus := .queued,
                           doubtMark := false }
        else { s.entry g with relation := .waiting, mode := w.mode, token := 0 })
    ∧ (¬ ((s.entry g).relation = .waiting ∧ (s.entry g).mode = w.mode ∧ (s.entry g).token = 0) →
        ∃ n ∈ (s.reconcileEntry g).notices.queue, ∃ i, (s.lock (s.entry g).lock).waiters[i]? = some w
          ∧ n.body = .update g (s.entry g).lock w.mode (.waiting (i + 1))) := by
  obtain ⟨hentry, hnotice⟩ := State.reconcileEntry_part hl (LockRecord.participation_of_waiter hh hw)
  refine ⟨?_, fun hne => ?_⟩
  · have hsettled : ∀ n, (s.entry g).opSettled (.waiter w n) = true ↔ (s.entry g).relation = .pending := fun n => by
      simp [RequestEntry.opSettled]
    rw [hentry, RequestEntry.reconciled]
    simp only [hsettled]
    split <;> rfl
  · obtain ⟨n, hn, hb⟩ := hnotice _ (if_neg hne) nofun
    exact ⟨n, hn, _, (List.find?_eq_getElem?_findIdx).symm.trans hw, hb⟩

/-- The rows of Table 7-6 for a station that takes no part in the record. -/
theorem State.reconcileEntry_neither {g : Tag} (hl : (s.entry g).live = true)
    (hh : (s.lock (s.entry g).lock).holderOf s.ctrl.sid = none)
    (hw : (s.lock (s.entry g).lock).waiterOf s.ctrl.sid = none) :
    ((s.entry g).relation = .pending → s.reconcileEntry g = s)
    ∧ ((s.entry g).relation ≠ .pending →
        (s.reconcileEntry g).entry g
          = { s.entry g with relation := .ended, op := none, opStatus := .queued, doubtMark := false }
        ∧ ∃ n ∈ (s.reconcileEntry g).notices.queue, n.body = .ended g (s.entry g).lock
            (if (s.entry g).op ≠ some .yield then .lost
              else if (s.entry g).relation = .held then .released else .cancelled)) := by
  have hpart : s.ownPart g = .neither := LockRecord.participation_of_neither hh hw
  refine ⟨fun hp => ?_, fun hp => ?_⟩
  · rw [State.reconcileEntry_live hl, hpart]
    simp [RequestEntry.reconcileNotices, RequestEntry.opSettled, RequestEntry.reconciled, hp, State.setEntry_self]
  · obtain ⟨hentry, hnotice⟩ := State.reconcileEntry_part hl hpart
    have hsettled : (s.entry g).opSettled .neither = true := by simpa [RequestEntry.opSettled] using hp
    refine ⟨?_, hnotice _ (if_neg hp) nofun⟩
    rw [hentry, RequestEntry.reconciled, hsettled]
    exact if_neg hp

/-- Settles O49: the rows of the table for one entry; the pass by State.RequestLaw.reconcile, where each entry is reached as
it stood; its place in the slot end by completeRecovery_eq. As the statement parses, the clauses of the pass that follow the
queue belong to the predicate of its last filter; they hold, so that the filter is the one meant. -/
theorem reconciliationFollowsTheTable : Obligations.ReconciliationFollowsTheTable := by
  refine ⟨?entry, fun s h => ?pass, fun s => ⟨fun hs hall => ?completes, State.completeRecovery_idle⟩⟩
  case entry =>
    rintro s g _ _ rfl rfl
    exact ⟨State.reconcileEntry_dead, fun v hv => by rw [State.entry_reconcileEntry, if_neg hv],
      Touches.reconcileEntry s g, fun hl _ => State.reconcileEntry_holder hl,
      fun hl hh _ => State.reconcileEntry_waiter hl hh, fun hl hh hw => State.reconcileEntry_neither hl hh hw⟩
  case pass =>
    obtain ⟨hentry, hqueue⟩ := h.reconcile
    have hself : ∀ g, (s.reconcileEntry g).entry g = s.reconciledEntry g := fun g => by
      rw [State.entry_reconcileEntry, if_pos rfl]
    refine ⟨by simpa only [hself] using hentry, ?_⟩
    -- the last three clauses of the pass stand inside the filter of the queue
    have hframe : { s.reconcile with req := s.req, notices := s.notices } = s := Touches.reconcile s
    have hdone : s.reconcile.req.doubtOrder = [] := rfl
    simpa only [hself, hdone, h.mem_toYield_reconcile, hframe, implies_true, and_true, Bool.decide_eq_true,
      State.doubtLeft, beq_true, beq_false] using hqueue
  case completes =>
    have T := (Touches.reconcile s).tables.rosterTables
    rw [State.completeRecovery_eq hs hall]
    refine ⟨?_, rfl, rfl, rfl, rfl, (Touches.reconcile s).tables.roster, (Touches.reconcile s).locks, T.slots⟩
    rw [← T.ctrl]
    rfl

end Sys2Proof.Machine
end

section
/-! The reports of the Lock Table at the Request Engine: what each does to an entry (R118, R119, Tables 7-3 and 7-4), and
which of the table's works hand which (R7, R9, R16, R22, R34). -/

namespace Sys2Proof.Machine

variable {s : State} {g : Tag} {l : LockNo}

/-! ### Grants and removals (Table 7-4) -/

theorem State.raiseHeld_effects (s : State) (g : Tag) (e : RequestEntry) :
    ((s.setEntry g e).raiseHeld g).entry g = e
    ∧ ∃ n ∈ ((s.setEntry g e).raiseHeld g).notices.queue, n.body = .update g e.lock e.mode (.held e.token) := by
  rw [State.raiseHeld_setEntry]
  exact ⟨s.entry_setEntry_self g e, State.raise_mem_self _ _ nofun⟩

theorem State.raiseWaiting_effects (s : State) (g : Tag) (e : RequestEntry) (position : Nat) :
    ((s.setEntry g e).raiseWaiting g position).entry g = e
    ∧ ∃ n ∈ ((s.setEntry g e).raiseWaiting g position).notices.queue,
        n.body = .update g e.lock e.mode (.waiting position) := by
  rw [State.raiseWaiting_setEntry]
  exact ⟨s.entry_setEntry_self g e, State.raise_mem_self _ _ nofun⟩

/-- A grant for a lock to yield does nothing; the YIELD for it is still to come (R119). -/
theorem State.grantReport_of_toYield (h : l ∈ s.req.toYield) (m : Mode) (token : Word16) :
    s.grantReport l m token = s := if_pos (List.contains_iff_mem.2 h)

theorem State.removalReport_of_toYield (h : l ∈ s.req.toYield) (o : EndOutcome) :
    s.removalReport l o = { s with req.toYield := s.req.toYield.filter (fun x => x ≠ l) } :=
  if_pos (List.contains_iff_mem.2 h)

/-- A grant acts on the WAITING entry of its lock alone. -/
theorem State.grantReport_idle (h : ∀ v, (s.entry v).live = true → (s.entry v).lock = l → (s.entry v).relation ≠ .waiting)
    (m : Mode) (token : Word16) : s.grantReport l m token = s := by
  unfold State.grantReport
  split
  · rfl
  · cases ht : s.liveTag l with
    | none => rfl
    | some v =>
      obtain ⟨hv, hlock⟩ := State.liveTag_some ht
      exact if_neg (h v hv hlock)

theorem State.removalReport_of_none (hy : l ∉ s.req.toYield) (h : ∀ v, (s.entry v).live = true → (s.entry v).lock ≠ l)
    (o : EndOutcome) : s.removalReport l o = s := by
  unfold State.removalReport
  rw [if_neg (by simpa using hy), State.liveTag_of_none h]

section

variable (h : s.RequestLaw) (hl : (s.entry g).live = true) (hy : (s.entry g).lock ∉ s.req.toYield)
include h hl hy

theorem State.RequestLaw.grantReport_of_waiting (hw : (s.entry g).relation = .waiting) (m : Mode) (token : Word16) :
    s.grantReport (s.entry g).lock m token
      = (s.setEntry g { s.entry g with relation := .held, mode := m, token := token }).raiseHeld g := by
  unfold State.grantReport
  rw [if_neg (by simpa using hy), State.liveTag_eq h g hl]
  exact if_pos hw

theorem State.RequestLaw.removalReport_eq (o : EndOutcome) :
    s.removalReport (s.entry g).lock o
      = if (s.entry g).relation = .held ∨ ((s.entry g).relation = .waiting ∧ o ≠ .expired) then s.endEntry g o
        else s := by
  unfold State.removalReport
  rw [if_neg (by simpa using hy), State.liveTag_eq h g hl]

end

/-! ### Results (Table 7-3) -/

theorem State.resultReport_of_inFlight (h : s.RequestLaw) {k : OpKind} (hf : s.inFlight g = true)
    (hk : (s.entry g).op = some k) (res : OpResult) :
    s.resultReport k (s.entry g).lock res = s.entryResult g k res := by
  unfold State.resultReport
  rw [State.reportedTag_eq h g k hf hk]

/-- A result that belongs to no op in flight: that of an orphan YIELD, or one to be ignored. -/
theorem State.resultReport_of_none {k : OpKind}
    (h : ∀ v, s.inFlight v = true → (s.entry v).op = some k → (s.entry v).lock ≠ l) (res : OpResult) :
    s.resultReport k l res
      = if k = .yield then { s with req.toYield := s.req.toYield.filter (fun x => x ≠ l) } else s := by
  have hnone : s.reportedTag k l = none := by
    cases ht : s.reportedTag k l with
    | none => rfl
    | some v =>
      obtain ⟨hf, hop, hlock⟩ := State.reportedTag_some ht
      exact absurd hlock (h v hf hop)
  unfold State.resultReport
  rw [hnone]
  rfl

/-- A result that leaves entry `g` as `after` with no op, and raises `notice` or nothing. -/
structure State.Settles (s t : State) (g : Tag) (after : RequestEntry) (notice : Option NoticeBody) : Prop where
  entry : t.entry g = { after with op := none, opStatus := .queued, doubtMark := false }
  noticed : ∀ b ∈ notice, ∃ n ∈ t.notices.queue, n.body = b
  silent : notice = none → t.notices = s.notices

theorem State.settles_endEntry (s : State) (g : Tag) (o : EndOutcome) :
    s.Settles (s.endEntry g o) g { s.entry g with relation := .ended } (some (.ended g (s.entry g).lock o)) := by
  obtain ⟨hentry, -, -, hnotice, -, -⟩ := s.endEntry_effects g o
  exact ⟨hentry, fun b hb => by obtain rfl := Option.some.inj hb; exact hnotice, nofun⟩

theorem State.settles_raiseHeld (s : State) (g : Tag) (e : RequestEntry) :
    s.Settles ((s.setEntry g e.noOp).raiseHeld g) g e (some (.update g e.lock e.mode (.held e.token))) := by
  obtain ⟨hentry, hnotice⟩ := s.raiseHeld_effects g e.noOp
  exact ⟨hentry, fun b hb => by obtain rfl := Option.some.inj hb; exact hnotice, nofun⟩

theorem State.settles_noOp (s : State) (g : Tag) (e : RequestEntry) : s.Settles (s.setEntry g e.noOp) g e none :=
  ⟨s.entry_setEntry_self g _, nofun, fun _ => rfl⟩

/-! ### The records that works of the table enter their grant pass with -/

namespace LockRecord

variable {r : LockRecord} {k : StationNo}

theorem waiterOf_dropWaiter_self (r : LockRecord) (k : StationNo) : (r.dropWaiter k).waiterOf k = none := by
  simp [waiterOf, dropWaiter]

/-- A station that holds a lock of a lawful record does not wait for it (R1). -/
theorem Lawful.waiterOf_of_holder (h : r.Lawful) (hk : (r.holderOf k).isSome = true) : r.waiterOf k = none := by
  obtain ⟨x, hx⟩ := Option.isSome_iff_exists.1 hk
  obtain ⟨hmem, hstation⟩ := holderOf_mem hx
  exact h.not_both hmem hstation

theorem Lawful.not_holder_and_waiter (h : r.Lawful) (k : StationNo) : r.waiterOf k = none ∨ r.holderOf k = none := by
  cases hk : r.holderOf k with
  | none => exact .inr rfl
  | some x => exact .inl (h.waiterOf_of_holder (by rw [hk]; rfl))

/-- The pass of an operation grants its own sender nothing, a CLAIM apart, whose result says so (R22). -/
theorem Lawful.apply_grants_claim (h : r.Lawful) (c : CycleNo) (k : StationNo) (o : Operation) :
    (r.apply c k o).entering.waiterOf k = none ∨ (r.apply c k o).record.holderOf k = none
      ∨ (o.kind = .claim ∧ ∃ token m, (r.apply c k o).result = .granted token m) := by
  have same := h.not_holder_and_waiter k
  unfold LockRecord.apply
  cases hkind : o.kind with
  | claim =>
    dsimp only
    unfold LockRecord.claim
    split
    · exact same.imp_right .inl
    · dsimp only
      split
      · exact .inr (.inr ⟨rfl, _, _, rfl⟩)
      · rename_i hnone
        split <;> exact .inr (.inl hnone)
  | yield =>
    dsimp only
    unfold LockRecord.yield
    split
    · rename_i hholds
      exact .inl (h.waiterOf_of_holder hholds)
    · split
      · exact .inl (r.waiterOf_dropWaiter_self k)
      · exact same.imp_right .inl
  | downgrade =>
    dsimp only
    unfold LockRecord.downgrade
    split
    · rename_i hholds
      obtain ⟨x, hx, hk⟩ := List.any_eq_true.1 hholds
      simp only [Bool.and_eq_true, beq_iff_eq] at hk
      exact .inl (h.not_both hx hk.1)
    · exact same.imp_right .inl
  | renew =>
    dsimp only
    unfold LockRecord.renew
    split
    · rename_i hholds
      exact .inl (h.waiterOf_of_holder hholds)
    · exact same.imp_right .inl

end LockRecord

/-! ### Operations (R7, R16, R22) -/

section

variable {r : LockRecord} (hr : s.lock l = r) (hv : s.lockValid l = true)
include hr hv

section

variable {o : Operation} (ho : o.lock.toNat = l.val)
include ho

theorem State.applyOperation_other (hs : s.isActive = true) {k : StationNo} (hk : k ≠ s.ctrl.sid) :
    s.applyOperation k o = (s.setLock l (r.apply s.slots.cycle k o).record).reportGrant l
      (r.apply s.slots.cycle k o).entering (r.apply s.slots.cycle k o).record := by
  simp [State.applyOperation, lockOfByte_eq ho, hv, hr, hs, hk]

theorem State.applyOperation_own (hs : s.isActive = true) {k : StationNo} (hk : k = s.ctrl.sid) :
    s.applyOperation k o
      = ((s.resultReport o.kind l (r.apply s.slots.cycle k o).result).setLock l
          (r.apply s.slots.cycle k o).record).reportGrant l
        (r.apply s.slots.cycle k o).entering (r.apply s.slots.cycle k o).record := by
  simp [State.applyOperation, lockOfByte_eq ho, hv, hr, hs, hk, State.resultReport_setLock]

end

end

/-! ### Purges and expiries (R9, R16, R34) -/

theorem State.purgeLock_off (hs : s.isActive = false) (k : StationNo) (cause : PurgeCause) :
    (s.purgeLock k cause l).req = s.req ∧ (s.purgeLock k cause l).notices = s.notices := by
  unfold State.purgeLock
  split
  · simp [hs]
  · exact ⟨rfl, rfl⟩

theorem State.expireLock_off (hs : s.isActive = false) :
    (s.expireLock l).req = s.req ∧ (s.expireLock l).notices = s.notices := by
  unfold State.expireLock
  dsimp only
  split
  · simp [hs]
  · exact ⟨rfl, rfl⟩

theorem State.purgeLock_stranger {k : StationNo} (hp : (s.lock l).participates k = false) (cause : PurgeCause) :
    s.purgeLock k cause l = s := by
  simp [State.purgeLock, hp]

theorem State.expireLock_idle (hp : (s.lock l).holders.any (·.expired s.slots.cycle) = false) : s.expireLock l = s := by
  simp [State.expireLock, hp]

section

variable {r : LockRecord} (hr : s.lock l = r) (hv : s.lockValid l = true) (hs : s.isActive = true)
include hr hv hs

theorem State.purgeLock_other {k : StationNo} (hp : r.participates k = true) (hk : k ≠ s.ctrl.sid)
    (cause : PurgeCause) :
    s.purgeLock k cause l = (s.setLock l (r.purged k s.slots.cycle)).reportGrant l ((r.dropHolder k).dropWaiter k)
      (r.purged k s.slots.cycle) := by
  simp [State.purgeLock, LockRecord.purged, hv, hr, hs, hp, hk]

theorem State.purgeLock_own (hp : r.participates s.ctrl.sid = true) (cause : PurgeCause) :
    s.purgeLock s.ctrl.sid cause l
      = ((s.removalReport l cause.outcome).setLock l (r.purged s.ctrl.sid s.slots.cycle)).reportGrant l
        ((r.dropHolder s.ctrl.sid).dropWaiter s.ctrl.sid) (r.purged s.ctrl.sid s.slots.cycle) := by
  simp [State.purgeLock, LockRecord.purged, hv, hr, hs, hp, ← State.removalReport_setLock]

theorem State.expireLock_other (hp : r.holders.any (·.expired s.slots.cycle) = true)
    (hown : ∀ h ∈ r.holders, h.station = s.ctrl.sid → h.expired s.slots.cycle = false) :
    s.expireLock l = (s.setLock l (r.expiredAt s.slots.cycle)).reportGrant l (r.dropExpired s.slots.cycle)
      (r.expiredAt s.slots.cycle) := by
  have hnot : (r.holders.any fun h => h.station == s.ctrl.sid && h.expired s.slots.cycle) = false :=
    List.any_eq_false.2 fun h hh => by
      by_cases e : h.station = s.ctrl.sid
      · simp [hown h hh e]
      · simp [e]
  unfold State.expireLock LockRecord.expiredAt
  simp only [hr, hv, hs, hp, hnot, Bool.and_self, if_true, Bool.false_eq_true, if_false]

theorem State.expireLock_own {h : Holder} (hh : h ∈ r.holders) (hown : h.station = s.ctrl.sid)
    (he : h.expired s.slots.cycle = true) :
    s.expireLock l = ((s.removalReport l .expired).setLock l (r.expiredAt s.slots.cycle)).reportGrant l
      (r.dropExpired s.slots.cycle) (r.expiredAt s.slots.cycle) := by
  have hp : r.holders.any (·.expired s.slots.cycle) = true := List.any_eq_true.2 ⟨h, hh, he⟩
  have hmine : (r.holders.any fun h => h.station == s.ctrl.sid && h.expired s.slots.cycle) = true :=
    List.any_eq_true.2 ⟨h, hh, by simp [hown, he]⟩
  unfold State.expireLock LockRecord.expiredAt
  simp only [hr, hv, hs, hp, hmine, Bool.and_self, if_true, ← State.removalReport_setLock]

end

end Sys2Proof.Machine
end

section
/-! What the works of the Lock Table hand to the Request Engine, and the whole of the reports. -/

namespace Sys2Proof.Machine

variable {s : State} {g : Tag} {l : LockNo}

/-! ### A live entry and the reports on its lock -/

section

variable (h : s.RequestLaw) (hl : (s.entry g).live = true)
include h hl

theorem State.RequestLaw.grantReport_of_not_waiting (hw : (s.entry g).relation ≠ .waiting) (m : Mode) (token : Word16) :
    s.grantReport (s.entry g).lock m token = s :=
  State.grantReport_idle (fun v hv hlock => by rw [h.oneLock v g hv hl hlock]; exact hw) m token

theorem State.RequestLaw.grantReport_effects (hy : (s.entry g).lock ∉ s.req.toYield)
    (hw : (s.entry g).relation = .waiting) (m : Mode) (token : Word16) :
    (s.grantReport (s.entry g).lock m token).entry g
      = { s.entry g with relation := .held, mode := m, token := token }
    ∧ (∃ n ∈ (s.grantReport (s.entry g).lock m token).notices.queue,
        n.body = .update g (s.entry g).lock m (.held token))
    ∧ (s.grantReport (s.entry g).lock m token).req.queue = s.req.queue := by
  rw [h.grantReport_of_waiting hl hy hw]
  obtain ⟨hentry, hnotice⟩ := s.raiseHeld_effects g { s.entry g with relation := .held, mode := m, token := token }
  exact ⟨hentry, hnotice, rfl⟩

theorem State.RequestLaw.removalReport_keeps (hy : (s.entry g).lock ∉ s.req.toYield) {o : EndOutcome}
    (ho : (s.entry g).relation = .pending ∨ ((s.entry g).relation = .waiting ∧ o = .expired)) :
    s.removalReport (s.entry g).lock o = s := by
  rw [h.removalReport_eq hl hy]
  refine if_neg ?_
  rcases ho with hrel | ⟨hrel, rfl⟩ <;> simp [hrel]

theorem State.RequestLaw.removalReport_ends (hy : (s.entry g).lock ∉ s.req.toYield) {o : EndOutcome}
    (ho : (s.entry g).relation = .held ∨ ((s.entry g).relation = .waiting ∧ o ≠ .expired)) :
    (s.removalReport (s.entry g).lock o).entry g
      = { s.entry g with relation := .ended, op := none, opStatus := .queued, doubtMark := false }
    ∧ (∃ n ∈ (s.removalReport (s.entry g).lock o).notices.queue, n.body = .ended g (s.entry g).lock o)
    ∧ (s.removalReport (s.entry g).lock o).req.queue = s.req.queue.filter (fun x => x ≠ g) := by
  rw [h.removalReport_eq hl hy, if_pos ho]
  obtain ⟨hentry, -, hqueue, hnotice, -, -⟩ := s.endEntry_effects g o
  exact ⟨hentry, hnotice, hqueue⟩

end

/-- The rows of Table 7-3 that end the op, the granted and the queued CLAIM apart. -/
theorem State.settles_entryResult {k : OpKind} {res : OpResult} {after : RequestEntry} {notice : Option NoticeBody}
    (hrow : (k, res, after, notice) ∈
      [(.claim, res, { s.entry g with relation := .ended },
          some (.ended g (s.entry g).lock (if res = .denied then .denied else .refused))),
       (.yield, res, { s.entry g with relation := .ended },
          some (.ended g (s.entry g).lock (if res = .withdrawn then .cancelled else .released))),
       (.downgrade, .downgraded, { s.entry g with mode := .shared },
          some (.update g (s.entry g).lock .shared (.held (s.entry g).token))),
       (.downgrade, .noEffect, s.entry g, none),
       (.renew, .renewed, s.entry g, some (.update g (s.entry g).lock (s.entry g).mode (.held (s.entry g).token))),
       (.renew, .noEffect, s.entry g, none)])
    (hclaim : k = .claim → res = .denied ∨ res = .refused)
    (hyield : k = .yield → res = .released ∨ res = .withdrawn ∨ res = .noEffect) :
    s.Settles (s.entryResult g k res) g after notice := by
  simp only [List.mem_cons, Prod.mk.injEq, List.not_mem_nil, or_false] at hrow
  rcases hrow with ⟨rfl, -, rfl, rfl⟩ | ⟨rfl, -, rfl, rfl⟩ | ⟨rfl, rfl, rfl, rfl⟩ | ⟨rfl, rfl, rfl, rfl⟩
    | ⟨rfl, rfl, rfl, rfl⟩ | ⟨rfl, rfl, rfl, rfl⟩
  case inl =>
    rcases hclaim rfl with rfl | rfl
    · exact s.settles_endEntry g .denied
    · exact s.settles_endEntry g .refused
  case inr.inl =>
    rcases hyield rfl with rfl | rfl | rfl
    · exact s.settles_endEntry g .released
    · exact s.settles_endEntry g .cancelled
    · exact s.settles_endEntry g .released
  · exact s.settles_raiseHeld g { s.entry g with mode := .shared }
  · exact s.settles_noOp g _
  · exact s.settles_raiseHeld g _
  · exact s.settles_noOp g _

/-! ### The grant pass of a work in which the own station takes part itself -/

/-- A grant that finds no WAITING entry of its lock changes nothing. -/
theorem State.reportGrant_unawaited
    (h : ∀ v, (s.entry v).live = true → (s.entry v).lock = l → (s.entry v).relation ≠ .waiting)
    (entering after : LockRecord) : s.reportGrant l entering after = s := by
  unfold State.reportGrant
  split
  · split
    · exact State.grantReport_idle h _ _
    · rfl
  · rfl

/-- A granted CLAIM leaves no live entry WAITING for its lock: its own entry is HELD, and no other names it (R108). -/
theorem State.RequestLaw.unawaited_of_granted (h : s.RequestLaw) (hf : s.inFlight g = true)
    (hk : (s.entry g).op = some .claim) (token : Word16) (m : Mode) {v : Tag}
    (hv : ((s.resultReport .claim (s.entry g).lock (.granted token m)).entry v).live = true)
    (hlock : ((s.resultReport .claim (s.entry g).lock (.granted token m)).entry v).lock = (s.entry g).lock) :
    ((s.resultReport .claim (s.entry g).lock (.granted token m)).entry v).relation ≠ .waiting := by
  rw [State.resultReport_of_inFlight h hf hk] at hv hlock ⊢
  by_cases hvg : v = g
  · subst hvg
    simp [State.entryResult, State.raiseHeld]
  · have kept : (s.entryResult g .claim (.granted token m)).entry v = s.entry v := by
      simp [State.entryResult, State.raiseHeld, hvg]
    rw [kept] at hv hlock
    exact absurd (h.oneLock v g hv (h.opLive g (by rw [hk]; rfl)) hlock) hvg

/-- An own operation hands its result and nothing else (R22). -/
theorem State.RequestLaw.applyOperation_own {r : LockRecord} {o : Operation} (h : s.RequestLaw) (hr : s.lock l = r)
    (hv : s.lockValid l = true) (ho : o.lock.toNat = l.val) (hs : s.isActive = true) (hlaw : r.Lawful)
    (howner : o.kind = .yield ∨ ∃ g, s.inFlight g = true ∧ (s.entry g).op = some o.kind ∧ (s.entry g).lock = l) :
    s.applyOperation s.ctrl.sid o
      = (s.resultReport o.kind l (r.apply s.slots.cycle s.ctrl.sid o).result).setLock l
          (r.apply s.slots.cycle s.ctrl.sid o).record := by
  rw [State.applyOperation_own hr hv ho hs rfl]
  have hctrl : ((s.resultReport o.kind l (r.apply s.slots.cycle s.ctrl.sid o).result).setLock l
      (r.apply s.slots.cycle s.ctrl.sid o).record).ctrl = s.ctrl :=
    (Touches.resultReport s _ l _).tables.rosterTables.ctrl
  rcases hlaw.apply_grants_claim s.slots.cycle s.ctrl.sid o with hnot | hnot | ⟨hclaim, token, m, hgranted⟩
  · exact State.reportGrant_idle (.inl (by rw [hctrl]; exact hnot))
  · exact State.reportGrant_idle (.inr (by rw [hctrl]; exact hnot))
  · obtain ⟨g, hf, hop, rfl⟩ := howner.resolve_left (by rw [hclaim]; nofun)
    rw [hclaim] at hop
    rw [hclaim, hgranted]
    refine State.reportGrant_unawaited (fun v hv hlock => ?_) _ _
    exact h.unawaited_of_granted hf hop token m hv hlock

/-- A purge of the own station hands its removal and nothing else (R9). -/
theorem State.purgeLock_own_removal {r : LockRecord} (hr : s.lock l = r) (hv : s.lockValid l = true)
    (hs : s.isActive = true) (hp : r.participates s.ctrl.sid = true) (cause : PurgeCause) :
    s.purgeLock s.ctrl.sid cause l
      = (s.removalReport l cause.outcome).setLock l (r.purged s.ctrl.sid s.slots.cycle) := by
  rw [State.purgeLock_own hr hv hs hp]
  refine State.reportGrant_idle (.inl ?_)
  rw [show ((s.removalReport l cause.outcome).setLock l _).ctrl = s.ctrl from
    (Touches.removalReport s l _).tables.rosterTables.ctrl]
  exact LockRecord.waiterOf_dropWaiter_self _ _

/-- The expiry of an own lease hands its removal and nothing else (R34). -/
theorem State.expireLock_own_removal {r : LockRecord} (hr : s.lock l = r) (hv : s.lockValid l = true)
    (hs : s.isActive = true) (hlaw : r.Lawful) {h : Holder} (hh : h ∈ r.holders) (hown : h.station = s.ctrl.sid)
    (he : h.expired s.slots.cycle = true) :
    s.expireLock l = (s.removalReport l .expired).setLock l (r.expiredAt s.slots.cycle) := by
  rw [State.expireLock_own hr hv hs hh hown he]
  refine State.reportGrant_idle (.inl ?_)
  rw [show ((s.removalReport l .expired).setLock l _).ctrl = s.ctrl from
    (Touches.removalReport s l _).tables.rosterTables.ctrl]
  exact hlaw.not_both (r := r) hh hown

/-! ### The grant pass of a work of another station -/

/-- Where the record stays as it is nothing is handed, for no station both waits and holds. -/
theorem State.grantHandedOn_same {r : LockRecord} (hr : s.lock l = r) (hlaw : r.Lawful) : s.GrantHandedOn s l r where
  granted h _ _ hw hh := by
    rw [hr] at hw
    rcases hlaw.not_holder_and_waiter s.ctrl.sid with hnone | hnone
    · exact absurd hnone hw
    · rw [hh] at hnone; cases hnone
  silent _ := ⟨rfl, rfl⟩

section

variable {r : LockRecord} (h : s.RequestLaw) (hr : s.lock l = r) (hv : s.lockValid l = true) (hs : s.isActive = true)
include h hr hv hs

theorem State.grantHandedOn_applyOperation {o : Operation} (ho : o.lock.toNat = l.val) {k : StationNo}
    (hk : k ≠ s.ctrl.sid) : s.GrantHandedOn (s.applyOperation k o) l (r.apply s.slots.cycle k o).record := by
  rw [State.applyOperation_other hr hv ho hs hk]
  exact State.grantHandedOn_reportGrant h (by rw [r.waiterOf_entering s.slots.cycle o hk, hr])

theorem State.grantHandedOn_purgeLock (hlaw : r.Lawful) {k : StationNo} (hk : k ≠ s.ctrl.sid) (cause : PurgeCause) :
    s.GrantHandedOn (s.purgeLock k cause l) l (r.purged k s.slots.cycle) := by
  cases hp : r.participates k with
  | false =>
    rw [State.purgeLock_stranger (by rw [hr]; exact hp),
      show r.purged k s.slots.cycle = r by simp [LockRecord.purged, hp]]
    exact State.grantHandedOn_same hr hlaw
  | true =>
    rw [State.purgeLock_other hr hv hs hp hk]
    exact State.grantHandedOn_reportGrant h (by rw [LockRecord.waiterOf_dropWaiter hk, hr]; rfl)

theorem State.grantHandedOn_expireLock (hlaw : r.Lawful)
    (hown : ∀ h ∈ r.holders, h.station = s.ctrl.sid → h.expired s.slots.cycle = false) :
    s.GrantHandedOn (s.expireLock l) l (r.expiredAt s.slots.cycle) := by
  cases hp : r.holders.any (·.expired s.slots.cycle) with
  | false =>
    rw [State.expireLock_idle (by rw [hr]; exact hp),
      show r.expiredAt s.slots.cycle = r by simp [LockRecord.expiredAt, hp]]
    exact State.grantHandedOn_same hr hlaw
  | true =>
    rw [State.expireLock_other hr hv hs hp hown]
    exact State.grantHandedOn_reportGrant h (by rw [hr]; rfl)

end

theorem State.isActive_of_not_active (hs : s.ctrl.state ≠ .active) : s.isActive = false := by
  simp [State.isActive, hs]

/-- Settles O54: the reports by the relation and the op of the live entry (Tables 7-3 and 7-4), then the works of the
Lock Table by whose participation they change. -/
theorem reportsActOnTheLiveEntry : Obligations.ReportsActOnTheLiveEntry := by
  refine ⟨?liveEntry, fun s l => ⟨fun hy => ⟨State.grantReport_of_toYield hy, State.removalReport_of_toYield hy⟩,
    fun hy hnone => ⟨State.grantReport_idle fun v hv hlock => absurd hlock (hnone v hv),
      State.removalReport_of_none hy hnone⟩, fun k hnone res => State.resultReport_of_none hnone res⟩,
    fun s l r hr hv => ⟨?operation, ?purge, fun hs => State.expireLock_off (State.isActive_of_not_active hs), ?expiry⟩⟩
  case liveEntry =>
    rintro s _ g _ h rfl hl rfl
    refine ⟨fun hy => ⟨fun m token hw => h.grantReport_of_not_waiting hl hw m token,
      fun m token hw => h.grantReport_effects hl hy hw m token, fun o ho => h.removalReport_keeps hl hy ho,
      fun o ho => h.removalReport_ends hl hy ho⟩,
      fun k res after notice hf hop hrow hclaim hyield => ?_, fun hf hop => ⟨fun token m => ?_, fun p => ?_⟩⟩
    all_goals rw [State.resultReport_of_inFlight h hf hop]
    · obtain ⟨hentry, hnoticed, hsilent⟩ := State.settles_entryResult hrow hclaim hyield
      exact ⟨hentry, hnoticed, hsilent⟩
    · exact s.raiseHeld_effects g _
    · exact s.raiseWaiting_effects g _ p
  case operation =>
    refine fun k o ho => ⟨fun hs => State.applyOperations_unreported (State.isActive_of_not_active hs) k [o],
      fun hs _ h hk => State.grantHandedOn_applyOperation h hr hv (State.isActive_of_active hs) ho hk, ?_⟩
    rintro hs hlaw h rfl howner
    rw [h.applyOperation_own hr hv ho (State.isActive_of_active hs) hlaw howner]
    exact ⟨rfl, rfl⟩
  case purge =>
    refine fun k cause outcome hcause => ⟨fun hs => State.purgeLock_off (State.isActive_of_not_active hs) k cause,
      fun hs hlaw h hk => State.grantHandedOn_purgeLock h hr hv (State.isActive_of_active hs) hlaw hk cause, ?_⟩
    rintro hs rfl hk
    have houtcome : outcome = cause.outcome := by
      simp only [List.mem_cons, Prod.mk.injEq, List.not_mem_nil, or_false] at hcause
      rcases hcause with ⟨rfl, rfl⟩ | ⟨rfl, rfl⟩ | ⟨rfl, rfl⟩ <;> rfl
    rw [State.purgeLock_own_removal hr hv (State.isActive_of_active hs) ((r.participates_iff _).2 hk) cause, houtcome]
    exact ⟨rfl, rfl⟩
  case expiry =>
    refine fun hs hlaw h =>
      ⟨State.grantHandedOn_expireLock h hr hv (State.isActive_of_active hs) hlaw, fun x hx hown he => ?_⟩
    rw [State.expireLock_own_removal hr hv (State.isActive_of_active hs) hlaw hx hown he]
    exact ⟨rfl, rfl⟩

end Sys2Proof.Machine
end

section
/-! The Notice Queue over a step: raises, behind what a delivery takes from its head or a reset empties (R125, R128, R129,
R132, R135); so it never holds two notices of one owner, nor more than 20. -/

namespace Sys2Proof.Machine

variable {s t u : State}

/-! ### The works of a slot raise -/

theorem State.Raised.ite {c : Prop} [Decidable c] (ht : s.Raised t) (hu : s.Raised u) :
    s.Raised (if c then t else u) := by
  split
  · exact ht
  · exact hu

namespace Raises

variable (s : State)

theorem countOrphan (b : Bool) : s.Raised (s.countOrphan b) := by
  obtain ⟨st, n, e⟩ := s.countOrphan_eq b
  rw [e]
  exact .same rfl

/-- The vote and the page of an ACTIVE frame raise nothing (R69). -/
theorem beforeRoster (f : Frame) : s.Raised ((s.returnToSyncing.countVote f).takePage f.page) := by
  obtain ⟨st, n, e1⟩ := s.returnToSyncing_eq
  obtain ⟨a, d, e2⟩ := s.returnToSyncing.countVote_eq f
  obtain ⟨r, l, i, e3⟩ := (s.returnToSyncing.countVote f).takePage_eq f.page
  rw [e3, e2, e1]
  exact .same rfl

theorem handFrame (f : Frame) : s.Raised (s.handFrame f) := by
  unfold State.handFrame
  cases f.status with
  | active => exact ((beforeRoster s f).trans (rosterFrame _ _ _)).trans (applyOperations _ _ _)
  | syncing | join | leave => exact rosterFrame s _ _
  | found => exact found s f

theorem slotWork (c : SlotContent) : s.Raised (s.slotWork c) := by
  cases c with
  | silent => exact rosterSilence s _
  | garbled => exact (rosterActivity s _).trans (.ite (.same rfl) (.refl _))
  | alien => exact (raise s _).trans (rosterActivity _ _)
  | valid f => exact handFrame s f

theorem settleOwnFrame (c : SlotContent) : s.Raised (s.settleOwnFrame c) := by
  cases ho : s.line.own with
  | none => rw [State.settleOwnFrame_of_none ho]; exact .refl s
  | some o =>
    have sent : s.Raised (s.joinSent o) := .same rfl
    rw [State.settleOwnFrame_of_own ho]
    exact .ite (returnDrawn s _) (.ite sent (sent.trans (doubtDrawn _ _)))

/-- The start of a slot raises nothing (R43). -/
theorem nextSlot : s.Raised s.nextSlot := by
  obtain ⟨p, c, e⟩ := s.nextPosition_eq
  have opened : s.Raised s.nextPosition.slotOpened := by rw [e]; exact .same rfl
  rw [State.nextSlot, State.slotStart_eq]
  refine .ite (opened.trans ?_) opened
  rcases s.nextPosition.slotOpened.buildOwnFrame_cases with ⟨-, e⟩ | ⟨-, f, c, -, -, -, -, e⟩ | ⟨st, -, -, e⟩
  · rw [e]; exact .refl _
  · rw [e]; exact (draw _).trans (.same rfl)
  · rw [e]; exact .same rfl

theorem slotEnd (c : SlotContent) : s.Raised (s.slotEnd c) := by
  have worked := (((settleOwnFrame s c).trans (slotWork _ c)).trans (cycleEndWork _)).trans (completeRecovery _)
  have counted := State.Raised.ite (c := s.inState .syncing = true) (worked.trans (countOrphan _ c.heardActive)) worked
  unfold State.slotEnd
  exact .ite (stop s) ((State.Raised.ite (counted.trans (evaluateVote _)) counted).trans (nextSlot _))

theorem align (f : Frame) : s.Raised (s.align f) := by
  unfold State.align
  refine State.Raised.trans ?_ ((cycleEndWork _).trans (nextSlot _))
  refine .ite (State.Raised.trans ?_ (found _ f)) (.same rfl)
  exact .same rfl

/-- RELEASE of a CLAIM that is still QUEUED raises the END of its entry (R113). -/
theorem releaseTag (t : Tag) : s.Raised (s.releaseTag t).1 := by
  unfold State.releaseTag
  split
  case h_2 => exact endEntry s t .cancelled
  all_goals exact .same rfl

theorem elapse (n : Nat) : s.Raised (s.elapse n) := by
  by_cases hr : s.receiving = true
  · obtain ⟨_, _, _, _, _, _, e⟩ := s.advanceOwn_frame n
    rw [s.elapse_eq hr, e]
    exact .same rfl
  · rw [s.elapse_off (by simpa using hr)]
    exact .refl s

end Raises

/-! ### Deliveries and resets -/

/-- `t`'s queue comes by raises from an end part of `s`'s: a delivery has taken the head (R132), or a reset all of it
(R135). -/
def State.QueueFrom (s t : State) : Prop := ∃ u : State, u.notices.queue <:+ s.notices.queue ∧ u.Raised t

theorem State.Raised.queueFrom (h : s.Raised t) : s.QueueFrom t := ⟨s, List.suffix_rfl, h⟩

theorem State.QueueFrom.of_notices (h : t.notices = s.notices) : s.QueueFrom t := (State.Raised.same h).queueFrom

theorem State.QueueFrom.of_nil (h : t.notices.queue = []) : s.QueueFrom t :=
  ⟨t, by rw [h]; exact List.nil_suffix, .refl t⟩

theorem State.QueueFrom.after (h : u.notices.queue <:+ s.notices.queue) (k : u.QueueFrom t) : s.QueueFrom t := by
  obtain ⟨v, hv, hr⟩ := k
  exact ⟨v, hv.trans h, hr⟩

theorem State.QueueFrom.raised (h : s.QueueFrom t) (k : t.Raised u) : s.QueueFrom u := by
  obtain ⟨v, hv, hr⟩ := h
  exact ⟨v, hv, hr.trans k⟩

theorem State.QueueFrom.ite {c : Prop} [Decidable c] (ht : s.QueueFrom t) (hu : s.QueueFrom u) :
    s.QueueFrom (if c then t else u) := by
  split
  · exact ht
  · exact hu

/-- An end part of a queue with one notice of each owner has one of each, and raises keep that (R125). -/
theorem State.QueueFrom.distinct (h : s.QueueFrom t) (hs : s.NoticesDistinct) : t.NoticesDistinct := by
  obtain ⟨v, hv, hr⟩ := h
  exact hr.distinct (hs.sublist (hv.sublist.map _))

section
variable {n : Notice} {rest : List Notice} {serial : Byte}

theorem State.removeHead_nil (hq : s.notices.queue = []) (serial : Byte) : s.removeHead serial = s := by
  unfold State.removeHead; rw [hq]

theorem State.removeHead_other (hq : s.notices.queue = n :: rest) (h : n.serial ≠ serial) : s.removeHead serial = s := by
  unfold State.removeHead; rw [hq]; exact if_neg h

/-- The delivered END leaves the queue, and its entry becomes FREE (R132, R133). -/
theorem State.removeHead_ended (hq : s.notices.queue = n :: rest) (h : n.serial = serial) {g : Tag} {l : LockNo}
    {o : EndOutcome} (hb : n.body = .ended g l o) :
    s.removeHead serial = State.freeEntry { s with notices.queue := rest } g := by
  unfold State.removeHead
  rw [hq]
  dsimp only
  rw [if_pos h, hb]
  rfl

theorem State.removeHead_kept (hq : s.notices.queue = n :: rest) (h : n.serial = serial)
    (hb : ∀ g l o, n.body ≠ .ended g l o) : s.removeHead serial = { s with notices.queue := rest } := by
  have hend : n.body.endedTag = none := by
    cases hbody : n.body with
    | ended g l o => exact absurd hbody (hb g l o)
    | update | sync | roster | tableLost | fault => rfl
  unfold State.removeHead
  rw [hq]
  dsimp only
  rw [if_pos h, hend]

end

theorem State.removeHead_suffix (s : State) (serial : Byte) :
    (s.removeHead serial).notices.queue <:+ s.notices.queue := by
  cases hq : s.notices.queue with
  | nil => rw [s.removeHead_nil hq, hq]
  | cons n rest =>
    by_cases h : n.serial = serial
    · by_cases hb : ∃ g l o, n.body = .ended g l o
      · obtain ⟨g, l, o, hb⟩ := hb
        rw [State.removeHead_ended hq h hb]
        exact List.suffix_cons n rest
      · rw [State.removeHead_kept hq h fun g l o e => hb ⟨g, l, o, e⟩]
        exact List.suffix_cons n rest
    · rw [State.removeHead_other hq h, hq]

theorem State.afterDelivery_suffix (s : State) (whole : Nat) :
    (s.afterDelivery whole).notices.queue <:+ s.notices.queue := by
  rcases (s.shiftOut whole).deliver_eq with e | ⟨serial, -, -, e⟩
  · rw [State.afterDelivery, e]; exact List.suffix_rfl
  · rw [State.afterDelivery, e]; exact (s.shiftOut whole).removeHead_suffix serial

/-! ### Host commands -/

/-- No command takes a notice from the queue but by emptying it (R132, R135). -/
def Command.QueuesFrom (c : Command) : Prop := ∀ u : State, u.QueueFrom (c u).1

namespace Command.QueuesFrom

theorem of_notices {c : Command} (h : ∀ u, (c u).1.notices = u.notices) : c.QueuesFrom := fun u => .of_notices (h u)

theorem acquire (lock modeTry : Byte) (limit : Word16) : QueuesFrom (State.acquire lock modeTry limit) :=
  of_notices fun u => by
    unfold State.acquire
    repeat' split
    all_goals rfl

theorem release (tag : Byte) : QueuesFrom (State.release tag) := by
  intro u
  unfold State.release
  split
  · exact .of_notices rfl
  · split
    · exact .of_notices rfl
    · exact (Raises.releaseTag u _).queueFrom

theorem downgradeTag (tag : Byte) : QueuesFrom (State.downgradeTag tag) := of_notices fun u => by
  unfold State.downgradeTag
  repeat' split
  all_goals rfl

theorem renewTag (tag : Byte) : QueuesFrom (State.renewTag tag) := of_notices fun u => by
  unfold State.renewTag
  repeat' split
  all_goals rfl

theorem queryTag (tag : Byte) : QueuesFrom (State.queryTag tag) := of_notices fun u => by
  unfold State.queryTag
  repeat' split
  all_goals rfl

theorem queryLock (lock : Byte) : QueuesFrom (State.queryLock lock) := of_notices fun u => by
  unfold State.queryLock
  repeat' split
  all_goals rfl

theorem queryRoster : QueuesFrom State.queryRoster := of_notices fun u => by
  unfold State.queryRoster
  split <;> rfl

theorem fetchNotice : QueuesFrom State.fetchNotice := of_notices fun u => by
  unfold State.fetchNotice
  split <;> rfl

theorem configure (d t f : Byte) : QueuesFrom (State.configure d t f) := of_notices fun u => by
  unfold State.configure
  repeat' split
  all_goals rfl

theorem startStation : QueuesFrom State.startStation := of_notices fun u => by
  unfold State.startStation
  repeat' split
  all_goals rfl

/-- LEAVE raises the ENDs of a LISTENING station, and sets a flag of one on the line (R156, R157). -/
theorem leaveLine : QueuesFrom State.leaveLine := by
  intro u
  unfold State.leaveLine
  cases u.ctrl.state with
  | listening => exact (Raises.stop u).queueFrom
  | syncing | founding | active | idle | stopped | halted => exact .of_notices rfl

theorem resetStation (sid snc : Fin 16) : QueuesFrom (State.resetStation sid snc) := fun _ => .of_nil rfl

end Command.QueuesFrom

/-- The delivery of R140 comes before the command. -/
theorem State.QueueFrom.endComplete (s : State) {c : Command} (hc : c.QueuesFrom) (code : Byte) (n : Nat) :
    s.QueueFrom (s.endComplete code n c) := by
  unfold State.endComplete
  exact .ite (.of_notices rfl) (.after (s.afterDelivery_suffix n) ((hc _).raised (.same rfl)))

/-! ### Every step -/

theorem exchangeRow_queueFrom {i : Instr} (hi : endsExchange i = true) (s : State) :
    ∃ t, exec i s = .next t ∧ s.QueueFrom t := by
  have ends : ∀ {c : Command}, c.QueuesFrom → ∀ code n, s.QueueFrom (s.endComplete code n c) :=
    fun hc code n => .endComplete s hc code n
  have reads : ∀ {r : State → Reply}, Command.QueuesFrom fun u => (u, r u) := .of_notices fun _ => rfl
  cases i <;> simp only [endsExchange, Bool.false_eq_true] at hi
  case nop => exact ⟨_, rfl, ends reads _ _⟩
  case status => exact ⟨_, rfl, ends reads _ _⟩
  case configure => exact ⟨_, rfl, ends (.configure _ _ _) _ _⟩
  case start => exact ⟨_, rfl, ends .startStation _ _⟩
  case leave => exact ⟨_, rfl, ends .leaveLine _ _⟩
  case resetStation => exact ⟨_, rfl, ends (.resetStation _ _) _ _⟩
  case acquire => exact ⟨_, rfl, ends (.acquire _ _ _) _ _⟩
  case release => exact ⟨_, rfl, ends (.release _) _ _⟩
  case downgrade => exact ⟨_, rfl, ends (.downgradeTag _) _ _⟩
  case renew => exact ⟨_, rfl, ends (.renewTag _) _ _⟩
  case queryTag => exact ⟨_, rfl, ends (.queryTag _) _ _⟩
  case fetch => exact ⟨_, rfl, ends .fetchNotice _ _⟩
  case queryLock => exact ⟨_, rfl, ends (.queryLock _) _ _⟩
  case queryRoster => exact ⟨_, rfl, ends .queryRoster _ _⟩
  case unknownCommand => exact ⟨_, rfl, ends reads _ _⟩
  case truncatedExchange code whole =>
    exact ⟨_, rfl, .ite (.of_notices rfl) (.after (s.afterDelivery_suffix whole) (.of_notices rfl))⟩
  case emptyExchange => exact ⟨_, rfl, .of_notices rfl⟩

/-- A row of the line or of a timer and EXCHANGE_START raise at most; PIN_RESET empties the queue. -/
theorem lineRow_queueFrom {i : Instr} (hi : endsExchange i = false) (s : State) :
    ∃ t, exec i s = .next t ∧ s.QueueFrom t := by
  have raisesIf : ∀ {t : State} (b : Bool), s.Raised t → s.Raised (if b then t else s) := fun _ ht => .ite ht (.refl s)
  have received : s.Raised s.endReception := .same rfl
  cases i <;> simp only [endsExchange, Bool.true_eq_false] at hi
  case pinReset => exact ⟨_, rfl, .of_nil rfl⟩
  case exchangeStart => exact ⟨_, rfl, State.Raised.queueFrom (.same rfl)⟩
  case listeningWindowExpiry => exact ⟨_, rfl, State.Raised.queueFrom (raisesIf _ (.same rfl))⟩
  case transmitGapExpiry =>
    refine ⟨_, rfl, State.Raised.queueFrom (raisesIf _ ?_)⟩
    cases s.slots.phase with
    | waiting | inFrame => exact .same rfl
  case transmissionEnd => exact ⟨_, rfl, State.Raised.queueFrom (raisesIf _ (.ite (.same rfl) (.same rfl)))⟩
  case readbackMismatch => exact ⟨_, rfl, State.Raised.queueFrom (raisesIf _ (Raises.halt s _))⟩
  case arbitrationLoss => exact ⟨_, rfl, State.Raised.queueFrom (raisesIf _ (.same rfl))⟩
  case silentSlotEnd => exact ⟨_, rfl, State.Raised.queueFrom (raisesIf _ (Raises.slotEnd s _))⟩
  case frameSlotEnd => exact ⟨_, rfl, State.Raised.queueFrom (raisesIf _ (received.trans (Raises.slotEnd _ _)))⟩
  case listeningReceptionEnd =>
    refine ⟨_, rfl, State.Raised.queueFrom (raisesIf _ ?_)⟩
    split
    · exact received
    · exact .ite (received.trans (Raises.align _ _)) (Raises.halt s _)
  case leaseExpiry => exact ⟨_, rfl, State.Raised.queueFrom (raisesIf _ (Raises.cycleEndWork s))⟩
  case drop => exact ⟨_, rfl, State.Raised.queueFrom (raisesIf _ (Raises.dropStation s _))⟩
  case enterFounding =>
    obtain ⟨st, e⟩ := s.foundIfOrphaned_eq
    exact ⟨_, rfl, State.Raised.queueFrom (.ite (.refl s) (by rw [e]; exact .same rfl))⟩
  case cellStart after _ _ _ _ =>
    refine ⟨_, rfl, State.Raised.queueFrom (raisesIf _ ((Raises.elapse s after).trans ?_))⟩
    unfold State.takeCell
    exact .ite (.same rfl) (.same rfl)

theorem step_queueFrom (h : step s = .next t) : s.QueueFrom t := by
  unfold step at h
  split at h
  · obtain rfl := Host.Outcome.next.inj h
    exact (Raises.elapse s 1).queueFrom
  · rename_i i rest _
    obtain ⟨u, he, hu⟩ : ∃ u, exec i { s with pending := rest } = .next u
        ∧ State.QueueFrom { s with pending := rest } u := by
      cases hi : endsExchange i with
      | true => exact exchangeRow_queueFrom hi _
      | false => exact lineRow_queueFrom hi _
    obtain rfl := Host.Outcome.next.inj (he.symm.trans h)
    exact .after List.suffix_rfl hu

/-- Settles O56: a raise finds the unread notice of its owner, and what leaves the queue leaves no owner twice. -/
theorem noticesStayDistinct : Obligations.NoticesStayDistinct :=
  ⟨fun _ _ distinct hstep => (step_queueFrom hstep).distinct distinct, fun _ distinct => notices_le_twenty distinct⟩

end Sys2Proof.Machine
end

section
/-! The delivery of a FETCH response, the place and content of a raised notice, and FETCH (R127 to R133, R140, R150). -/

namespace Sys2Proof.Machine

variable {s : State}

/-! ### The delivery (R132, R133, R140) -/

/-- The serial of a FETCH OK response alone is handed to the Notice Queue (R132, R150). -/
theorem Response.fetchSerial_eq_none {r : Response} (h : r.echo ≠ 0x20 ∨ r.result ≠ .ok) : r.fetchSerial = none :=
  if_neg fun hr => h.elim (· hr.1) (· hr.2)

theorem State.removeHead_shiftOut (s : State) (whole : Nat) (serial : Byte) :
    (s.shiftOut whole).removeHead serial = (s.removeHead serial).shiftOut whole := by
  cases hq : s.notices.queue with
  | nil => rw [s.removeHead_nil hq, State.removeHead_nil (s := s.shiftOut whole) hq]
  | cons n rest =>
    by_cases h : n.serial = serial
    · by_cases hb : ∃ g l o, n.body = .ended g l o
      · obtain ⟨g, l, o, hb⟩ := hb
        rw [State.removeHead_ended hq h hb, State.removeHead_ended (s := s.shiftOut whole) hq h hb]
        rfl
      · have hb : ∀ g l o, n.body ≠ .ended g l o := fun g l o e => hb ⟨g, l, o, e⟩
        rw [State.removeHead_kept hq h hb, State.removeHead_kept (s := s.shiftOut whole) hq h hb]
        rfl
    · rw [State.removeHead_other hq h, State.removeHead_other (s := s.shiftOut whole) hq h]

/-- A FETCH response shifted out whole hands its serial on (R132). -/
theorem State.afterDelivery_of_serial {whole : Nat} {serial : Byte} (hr : s.port.held.fetchSerial = some serial)
    (hw : 3 + s.port.held.payload.length ≤ whole) :
    s.afterDelivery whole = { s.removeHead serial with port.delivered := false } := by
  have hd : (s.shiftOut whole).port.delivered = true := decide_eq_true hw
  have hs : (s.shiftOut whole).port.held.fetchSerial = some serial := hr
  unfold State.afterDelivery State.deliver
  rw [if_pos hd, hs]
  dsimp only
  rw [s.removeHead_shiftOut]
  rfl

/-- An exchange delivers a FETCH response that it shifts out whole, and else nothing (R132, R137). -/
theorem State.afterDelivery_cases (s : State) (whole : Nat) :
    s.afterDelivery whole = { s with port.delivered := false }
    ∨ ∃ serial, s.port.held.fetchSerial = some serial ∧ 3 + s.port.held.payload.length ≤ whole
        ∧ s.afterDelivery whole = { s.removeHead serial with port.delivered := false } := by
  rcases (s.shiftOut whole).deliver_eq with e | ⟨serial, hr, hd, -⟩
  · exact .inl e
  · have hw : 3 + s.port.held.payload.length ≤ whole := of_decide_eq_true hd
    exact .inr ⟨serial, hr, hw, State.afterDelivery_of_serial hr hw⟩

/-- Nothing is delivered where every delivery that could come leaves the queue as it is. -/
theorem State.afterDelivery_idle {whole : Nat} (h : ∀ serial, s.port.held.fetchSerial = some serial →
      3 + s.port.held.payload.length ≤ whole → s.removeHead serial = s) :
    s.afterDelivery whole = { s with port.delivered := false } := by
  rcases s.afterDelivery_cases whole with e | ⟨serial, hr, hw, e⟩
  · exact e
  · rw [e, h serial hr hw]

/-! ### The raise (R127 to R129) -/

/-- A FAULT joins the faults of an unread one; any other notice takes the new content (R128, R129). -/
theorem NoticeBody.coalesce_of_not_fault (unread : NoticeBody) {b : NoticeBody} (h : ∀ y, b ≠ .fault y) :
    unread.coalesce b = b := by
  cases b with
  | fault y => exact absurd rfl (h y)
  | update | ended | sync | roster | tableLost => cases unread <;> rfl

/-- A notice of an owner with no unread one joins the tail (R128, R129). -/
theorem raiseOnto_append (serial : Byte) {b : NoticeBody} {q : List Notice} (h : ∀ n ∈ q, n.body.owner ≠ b.owner) :
    raiseOnto serial b q = q ++ [⟨serial, b⟩] := by
  induction q with
  | nil => rfl
  | cons n q ih =>
    rw [raiseOnto, if_neg (h n List.mem_cons_self), ih fun m hm => h m (List.mem_cons_of_mem n hm)]
    rfl

/-- The unread notice of the owner changes in its place (R128, R129). -/
theorem raiseOnto_in_place (serial : Byte) {b : NoticeBody} {front : List Notice} {n : Notice} (back : List Notice)
    (hfront : ∀ m ∈ front, m.body.owner ≠ b.owner) (hn : n.body.owner = b.owner) :
    raiseOnto serial b (front ++ n :: back) = front ++ ⟨serial, n.body.coalesce b⟩ :: back := by
  induction front with
  | nil => exact if_pos hn
  | cons m front ih =>
    rw [List.cons_append, raiseOnto, if_neg (hfront m List.mem_cons_self),
      ih fun k hk => hfront k (List.mem_cons_of_mem m hk)]
    rfl

/-- Settles O9: the delivery by the cases of removeHead, the raise by where its owner's unread notice stands. -/
theorem deliveryRemovesTheNoticeCopied : Obligations.DeliveryRemovesTheNoticeCopied := by
  refine ⟨fun s whole => ⟨fun hw => ?part, fun hother => ?other, fun hq => ?empty, fun x more n rest hheld hq => ?fetched⟩,
    fun s b => ⟨⟨_, rfl⟩, raiseOnto_append _, fun front n back hq hfront hn => ?inPlace⟩⟩
  case part => exact State.afterDelivery_idle fun _ _ hw' => absurd hw' (Nat.not_le.2 hw)
  case other =>
    refine State.afterDelivery_idle fun serial hr _ => ?_
    rw [Response.fetchSerial_eq_none hother] at hr
    cases hr
  case empty => exact State.afterDelivery_idle fun serial _ _ => s.removeHead_nil hq serial
  case fetched =>
    have hserial : s.port.held.fetchSerial = some x := by rw [hheld]; rfl
    refine ⟨fun hne => State.afterDelivery_idle fun serial hr _ => ?_, fun heq hw => ?_⟩
    · obtain rfl := Option.some.inj (hserial.symm.trans hr)
      exact State.removeHead_other hq hne
    · have hwhole : 3 + s.port.held.payload.length ≤ whole := by
        rw [hheld, List.length_cons]
        omega
      rw [State.afterDelivery_of_serial hserial hwhole]
      refine ⟨fun g l o hb => ?_, fun hb => ?_⟩
      · rw [State.removeHead_ended hq heq hb]
        rfl
      · rw [State.removeHead_kept hq heq hb]
  case inPlace =>
    have hraised : (s.raise b).notices.queue = front ++ ⟨s.notices.serial + 1, n.body.coalesce b⟩ :: back := by
      rw [State.raise_notices_queue, hq, raiseOnto_in_place _ back hfront hn]
    refine ⟨fun x y hx hy => ?_, fun hb => ?_⟩
    · rw [hraised, hx, hy]
      rfl
    · rw [hraised, NoticeBody.coalesce_of_not_fault _ hb]

/-! ### FETCH (R131, R150) -/

/-- Byte `i` of a notice in the FETCH payload (Table 11-11). -/
def Notice.byte (n : Notice) (i : Nat) : Byte := n.toBytes.getD i 0

theorem Notice.toBytes_eq (n : Notice) :
    n.toBytes = [n.serial, n.byte 1, n.byte 2, n.byte 3, n.byte 4, n.byte 5, n.byte 6, n.byte 7] := by
  obtain ⟨serial, body⟩ := n
  cases body with
  | update g l m standing => cases standing <;> rfl
  | sync value => cases value <;> rfl
  | ended | roster | tableLost | fault => rfl

theorem countByte_fin {k : Nat} (hk : k ≤ 256) (x : Fin k) : (countByte x.val).toNat = x.val :=
  countByte_toNat (x.isLt.trans_le hk)

theorem modeByte_toNat (m : Mode) : (modeByte m).toNat = if m = .shared then 1 else 0 := by
  cases m <;> rfl

/-- The code of each outcome (Table 11-11). -/
theorem outcomeCode_toNat (o : EndOutcome) : (outcomeCode o).toNat =
    (match o with
    | .released => 1 | .cancelled => 2 | .denied => 3 | .expired => 4 | .evicted => 5 | .lost => 6 | .left => 7
    | .refused => 8) := by
  cases o <;> rfl

/-- The value of a FAULT: one bit for each fault, bits 3 to 7 clear (Table 11-11). -/
theorem FaultSet.value_bits (f : FaultSet) : f.value.getLsbD 0 = f.duplicateId ∧ f.value.getLsbD 1 = f.slotCountMismatch
    ∧ f.value.getLsbD 2 = f.alienTraffic ∧ f.value.toNat < 8 := by
  obtain ⟨a, b, c⟩ := f
  revert a b c
  decide

/-- The row answers with what the command says of the station after the delivery, and changes nothing else. -/
theorem exec_fetch (hp : s.port.phase = .exchange) (extra : Nat) {r : Reply}
    (hc : State.fetchNotice (s.afterDelivery (1 + extra)) = (s.afterDelivery (1 + extra), r)) :
    exec (.fetch extra) s = .next ((s.afterDelivery (1 + extra)).answered 0x20 r.result r.payload) :=
  State.exchange_of_eq hp codeFetch extra hc

/-- Settles O16: the payload is the head notice in its bytes, and the bytes of each kind are those of Table 11-11. -/
theorem fetchCopiesTheHeadNotice : Obligations.FetchCopiesTheHeadNotice := by
  intro extra s hp
  refine ⟨fun hq => exec_fetch hp extra (r := .no .empty) ?_, fun n rest hq => ?_⟩
  · unfold State.fetchNotice; rw [hq]
  · have hexec := exec_fetch hp extra (r := .ok n.toBytes) (by unfold State.fetchNotice; rw [hq])
    have hbytes := n.toBytes_eq
    refine ⟨n.byte 1, n.byte 2, n.byte 3, n.byte 4, n.byte 5, n.byte 6, n.byte 7, by rw [hexec, ← hbytes]; rfl, ?_⟩
    have row : ∀ {bs : List Byte}, n.toBytes = bs → ∀ i, n.byte i = bs.getD i 0 := fun h i => by rw [Notice.byte, h]
    obtain ⟨serial, body⟩ := n
    refine ⟨fun g l m token hb => ?held, fun g l m p hb => ?waiting, fun g l o hb => ?ended, fun hb => ?syncing,
      fun hb => ?active, fun hb => ?roster, fun hb => ?tableLost, fun f hb => ?fault⟩
    all_goals
      subst hb
      simp only [row rfl]
    case held =>
      exact ⟨rfl, countByte_fin (by decide) g, countByte_fin (by decide) l, rfl, modeByte_toNat m, word16_hiByte_loByte token⟩
    case waiting =>
      exact ⟨rfl, countByte_fin (by decide) g, countByte_fin (by decide) l, rfl, modeByte_toNat m, word16_hiByte_loByte _⟩
    case ended =>
      exact ⟨rfl, countByte_fin (by decide) g, countByte_fin (by decide) l, rfl, rfl, rfl, outcomeCode_toNat o⟩
    case syncing | active | roster | tableLost => rfl
    case fault => exact ⟨rfl, f.value_bits⟩

end Sys2Proof.Machine
end

section
/-! The outputs: HINT#, the line driver, HDO, and the row that the bits of an exchange spell (R37, R41, R134, R136, R137). -/

namespace Sys2Proof.Machine

variable {s : State}

/-! ### HINT# and the line driver -/

theorem State.hintAsserted_iff (s : State) :
    s.hintAsserted = true ↔ s.notices.queue ≠ [] ∧ s.ctrl.intEnable = true := by
  simp [State.hintAsserted, State.noticePending]

theorem State.drivesDominant_off (h : s.line.sending = false) : s.drivesDominant = false := by
  simp [State.drivesDominant, h]

/-- A cell is dominant in its first third, and in its second where it carries a 0 (R37). -/
theorem State.drivesDominant_of_cell (hsend : s.line.sending = true) {bit : Bool} (hbit : s.cellValue = some bit) :
    s.drivesDominant = true ↔ s.line.shiftClocks < 4 * s.ctrl.divisor
      ∨ (s.line.shiftClocks < 8 * s.ctrl.divisor ∧ bit = false) := by
  have hfirst : Config.clocksPerPhase * s.ctrl.divisor = 4 * s.ctrl.divisor := rfl
  have hsecond : 2 * (4 * s.ctrl.divisor) = 8 * s.ctrl.divisor := by omega
  rw [State.drivesDominant, if_pos hsend, hbit]
  simp only [hfirst, hsecond, Bool.or_eq_true, Bool.and_eq_true, decide_eq_true_eq, Bool.not_eq_true']

/-- The cell under the shift position carries its bit of the frame's bytes, most significant first (R41). -/
theorem State.cellValue_eq {o : OwnFrame} {b : Byte} (ho : s.line.own = some o)
    (hb : o.frame.toBytes[s.line.shift / 8]? = some b) : s.cellValue = some (b.getLsbD (7 - s.line.shift % 8)) := by
  rw [State.cellValue, State.ownBits_getElem?, ho, Option.bind_some, hb, Option.map_some]

/-! ### HDO (R137) -/

theorem State.hdoByte_off (h : s.port.phase ≠ .exchange) (i : Nat) : s.hdoByte i = none := by
  unfold State.hdoByte
  split
  · rename_i hp _; exact absurd hp h
  · rfl

theorem State.hdoBit_off (h : s.port.phase ≠ .exchange) : s.hdoBit = none := by
  rw [State.hdoBit, State.hdoByte_off h]; rfl

/-- Byte `i` of an exchange: the status byte, the held response, and 0x00 after it. -/
theorem State.hdoByte_exchange {b : Byte} (hp : s.port.phase = .exchange) (hs : s.port.status = some b) (i : Nat) :
    s.hdoByte i = some ((b :: s.port.held.toBytes).getD i 0) := by
  unfold State.hdoByte; rw [hp, hs]

theorem State.hdoByte_payload {b : Byte} (hp : s.port.phase = .exchange) (hs : s.port.status = some b) (i : Nat) :
    s.hdoByte (3 + i) = some (s.port.held.payload.getD i 0) := by
  rw [State.hdoByte_exchange hp hs, Nat.add_comm 3 i]; rfl

/-- The codes of Table 9-4. -/
theorem resultCode_toNat (r : Result) : (resultCode r).toNat =
    (match r with
    | .ok => 0 | .unknown => 1 | .state => 2 | .range => 3 | .duplicate => 4 | .full => 5 | .tag => 6 | .busy => 7
    | .straps => 8 | .empty => 9) := by
  cases r <;> rfl

/-- The bit on HDO is the one that the falling edges have come to, most significant first. -/
theorem State.hdoBit_of_byte {b : Byte} (h : s.hdoByte (s.spi.falls / 8) = some b) :
    s.hdoBit = some (b.getLsbD (7 - s.spi.falls % 8)) := by
  have hbit : s.spi.falls % 8 < 8 := Nat.mod_lt _ (by decide)
  rw [State.hdoBit, h, Option.map_some, BitVec.getMsbD, decide_eq_true hbit, Bool.true_and]

/-! ### The edges of HCK (R136, R137) -/

theorem State.hckFall_off (h : s.port.phase ≠ .exchange) : s.hckFall = s := if_neg h

theorem State.hckRise_off (h : s.port.phase ≠ .exchange) (x : Bool) : s.hckRise x = s := if_neg h

theorem State.hckFall_exchange (h : s.port.phase = .exchange) : s.hckFall = { s with spi.falls := s.spi.falls + 1 } :=
  if_pos h

theorem State.hckRise_exchange (h : s.port.phase = .exchange) (x : Bool) : s.hckRise x = { s with
    spi.hdi := s.spi.hdi ++ [x]
    port.delivered := decide (3 + s.port.held.payload.length ≤ (s.spi.hdi.length + 1) / 8) } := if_pos h

/-! ### The row that ends the exchange (R136, Table 9-2) -/

/-- The row is one that these whole bytes spell. -/
structure SpelledBy (bytes : List Byte) (i : Instr) : Prop where
  wellFormed : i.wellFormed = true
  length : exchangeBytes i = bytes.length
  encoded : ∃ filler, encodeExchange filler i = some bytes

theorem commandLength_of_mem {code : Byte} {n : Nat} (h : (code, n) ∈ commandTable) : commandLength code = n :=
  (by decide : ∀ p ∈ commandTable, commandLength p.1 = p.2) _ h

theorem commandListed_eq_false {code : Byte} (h : ∀ n, (code, n) ∉ commandTable) : commandListed code = false := by
  have hnone : commandTable.lookup code = none :=
    List.lookup_eq_none_iff.2 fun p hp => bne_iff_ne.2 fun e : code = p.1 => h p.2 (by rw [e]; exact hp)
  rw [commandListed, hnone]; rfl

theorem hiByte_word16 (hi lo : Byte) : hiByte (word16 hi lo) = hi := BitVec.extractLsb'_append_eq_left

theorem loByte_word16 (hi lo : Byte) : loByte (word16 hi lo) = lo := BitVec.extractLsb'_append_eq_right

/-- A command without arguments; the bytes past its code are filler. -/
theorem spelledBy_of_code (sid snc : Fin 16) {code : Byte} (h : (code, 1) ∈ commandTable) (filler : List Byte) :
    SpelledBy (code :: filler) (decodeExchange sid snc (code :: filler)) := by
  simp only [commandTable, List.mem_cons, Prod.mk.injEq, List.not_mem_nil, or_false, and_true, OfNat.one_ne_ofNat,
    and_false, false_or] at h
  rcases h with rfl | rfl | rfl | rfl | rfl | rfl | rfl
  all_goals exact ⟨rfl, Nat.add_comm 1 _, filler, rfl⟩

/-- A command with one argument byte, a tag or a lock. -/
theorem spelledBy_of_argument (sid snc : Fin 16) {code : Byte} (h : (code, 2) ∈ commandTable) (argument : Byte)
    (filler : List Byte) :
    SpelledBy (code :: argument :: filler) (decodeExchange sid snc (code :: argument :: filler)) := by
  simp only [commandTable, List.mem_cons, Prod.mk.injEq, List.not_mem_nil, or_false, and_true, Nat.reduceEqDiff,
    OfNat.ofNat_ne_one, and_false, false_or] at h
  rcases h with rfl | rfl | rfl | rfl | rfl
  all_goals exact ⟨rfl, Nat.add_comm 2 _, filler, rfl⟩

theorem spelledBy_configure (sid snc : Fin 16) (d t f : Byte) (filler : List Byte) :
    SpelledBy (codeConfigure :: d :: t :: f :: filler)
      (decodeExchange sid snc (codeConfigure :: d :: t :: f :: filler)) :=
  ⟨rfl, Nat.add_comm 4 _, filler, rfl⟩

theorem spelledBy_acquire (sid snc : Fin 16) (l m hi lo : Byte) (filler : List Byte) :
    SpelledBy (codeAcquire :: l :: m :: hi :: lo :: filler)
      (decodeExchange sid snc (codeAcquire :: l :: m :: hi :: lo :: filler)) := by
  have hrow : decodeExchange sid snc (codeAcquire :: l :: m :: hi :: lo :: filler)
      = .acquire l m (word16 hi lo) filler.length := rfl
  exact ⟨rfl, Nat.add_comm 5 _, filler, by rw [hrow, encodeExchange, hiByte_word16, loByte_word16]⟩

/-- Every command of Table 9-2, with the argument bytes that its length gives it and any bytes past them. -/
theorem spelledBy_listed (sid snc : Fin 16) {code : Byte} {n : Nat} (h : (code, n) ∈ commandTable) {args : List Byte}
    (hlen : n ≤ args.length + 1) : SpelledBy (code :: args) (decodeExchange sid snc (code :: args)) := by
  have lengths : n = 1 ∨ n = 2 ∨ (code = codeConfigure ∧ n = 4) ∨ (code = codeAcquire ∧ n = 5) :=
    (by decide : ∀ p ∈ commandTable,
      p.2 = 1 ∨ p.2 = 2 ∨ (p.1 = codeConfigure ∧ p.2 = 4) ∨ (p.1 = codeAcquire ∧ p.2 = 5)) _ h
  rcases lengths with rfl | rfl | ⟨rfl, rfl⟩ | ⟨rfl, rfl⟩
  · exact spelledBy_of_code sid snc h args
  · match args, hlen with
    | argument :: filler, _ => exact spelledBy_of_argument sid snc h argument filler
  · match args, hlen with
    | d :: t :: f :: filler, _ => exact spelledBy_configure sid snc d t f filler
  · match args, hlen with
    | l :: m :: hi :: lo :: filler, _ => exact spelledBy_acquire sid snc l m hi lo filler

/-- Any whole bytes spell the row that they decode to. -/
theorem spelledBy_decodeExchange (sid snc : Fin 16) (bytes : List Byte) :
    SpelledBy bytes (decodeExchange sid snc bytes) := by
  cases bytes with
  | nil => exact ⟨rfl, rfl, [], rfl⟩
  | cons code args =>
    by_cases hlisted : ∃ n, (code, n) ∈ commandTable
    · obtain ⟨n, hn⟩ := hlisted
      by_cases hlen : n ≤ args.length + 1
      · exact spelledBy_listed sid snc hn hlen
      · have hshort : args.length + 1 < commandLength code := by rw [commandLength_of_mem hn]; omega
        rw [Laws.ExchangeBytes.decode_truncated sid snc hshort]
        exact ⟨decide_eq_true ⟨Nat.le_add_left 1 _, hshort⟩, rfl, args, rfl⟩
    · have hfalse : commandListed code = false := commandListed_eq_false fun n hn => hlisted ⟨n, hn⟩
      rw [Laws.ExchangeBytes.decode_unknown sid snc hfalse]
      exact ⟨by rw [Instr.wellFormed, hfalse]; rfl, Nat.add_comm 1 _, args, rfl⟩

/-- The bits of a last byte that is not whole are not read (R136). -/
theorem State.endingRow_eq {bytes : List Byte} {unfinished : List Bool}
    (hbits : s.spi.hdi = bytes.flatMap byteBits ++ unfinished) (hu : unfinished.length < 8) (sid snc : Fin 16) :
    s.endingRow sid snc = decodeExchange sid snc bytes := by
  rw [State.endingRow, hbits, decodeBits, bytesOfBits_flatMap bytes unfinished hu]

/-- Settles O8: each output by its lemma above, and the row of an exchange by decodeExchange of its whole bytes. -/
theorem outputsFollowTheState : Obligations.OutputsFollowTheState := by
  intro s
  refine ⟨s.hintAsserted_iff, State.drivesDominant_off, fun o b hsend ho hb => ?cell,
    fun hp => ⟨State.hdoByte_off hp, State.hdoBit_off hp, State.hckFall_off hp, State.hckRise_off hp⟩,
    fun b hp hs => ?bytes,
    fun hp => ⟨fun b => State.hdoBit_of_byte, State.hckFall_exchange hp, State.hckRise_exchange hp⟩,
    fun sid snc bytes unfinished hbits hu => ?row⟩
  case cell => exact State.drivesDominant_of_cell hsend (State.cellValue_eq ho hb)
  case bytes =>
    refine ⟨State.hdoByte_exchange hp hs 0, State.hdoByte_exchange hp hs 1,
      ⟨_, State.hdoByte_exchange hp hs 2, resultCode_toNat _⟩, fun i hi => ?_, fun i hi => ?_⟩
    · rw [State.hdoByte_payload hp hs, List.getD_eq_getElem _ _ hi, List.getElem?_eq_getElem hi]
    · obtain ⟨k, rfl⟩ := Nat.exists_eq_add_of_le (le_trans (Nat.le_add_right 3 _) hi)
      rw [State.hdoByte_payload hp hs, List.getD_eq_default _ _ (by omega)]
  case row =>
    rw [State.endingRow_eq hbits hu]
    have spelled := spelledBy_decodeExchange sid snc bytes
    refine ⟨spelled.wellFormed, spelled.length, spelled.encoded, ?_, ?_⟩
    · rintro rfl
      rfl
    · rintro code args rfl table htable
      obtain rfl : table = commandTable := htable
      refine ⟨fun n hn hshort => ?_, fun hnone => ?_⟩
      · exact Laws.ExchangeBytes.decode_truncated sid snc (by rwa [commandLength_of_mem hn])
      · exact Laws.ExchangeBytes.decode_unknown sid snc (commandListed_eq_false hnone) args

end Sys2Proof.Machine
end

section
/-! The host port: what the command of each exchange reads and writes, and from that the end of an exchange in every
phase of the port (R139 to R145). -/

namespace Sys2Proof.Machine

variable {s : State}

/-! ### The station with another port -/

/-- The station with this host port. -/
def State.withPort (s : State) (q : HostPort) : State := { s with port := q }

section
variable (s : State) (q : HostPort)
@[simp] theorem State.withPort_ctrl : (s.withPort q).ctrl = s.ctrl := rfl
@[simp] theorem State.withPort_notices : (s.withPort q).notices = s.notices := rfl
@[simp] theorem State.withPort_entry (g : Tag) : (s.withPort q).entry g = s.entry g := rfl
@[simp] theorem State.withPort_lowestFree : (s.withPort q).lowestFree = s.lowestFree := rfl
@[simp] theorem State.withPort_liveOfByte (b : Byte) : (s.withPort q).liveOfByte b = s.liveOfByte b := rfl

/-- The end of every entry does not read the port (R109). -/
theorem State.endAll_withPort (o : EndOutcome) : (s.withPort q).endAll o = (s.endAll o).withPort q := by
  have endLive : ∀ (v : State) (g : Tag), State.endLive o (v.withPort q) g = (State.endLive o v g).withPort q := by
    intro v g
    rw [State.endLive, State.endLive, apply_ite (State.withPort · q)]
    rfl
  have fold := List.foldl_hom (l := allTags) (init := s) (State.withPort · q) endLive
  unfold State.endAll
  rw [fold]
  rfl

theorem State.stop_withPort : (s.withPort q).stop = s.stop.withPort q := by
  rw [State.stop, State.endAll_withPort]
  rfl

theorem State.removeHead_withPort (serial : Byte) :
    (s.withPort q).removeHead serial = (s.removeHead serial).withPort q := by
  unfold State.removeHead
  rw [State.withPort_notices]
  split
  · rfl
  · split
    · dsimp only
      split <;> rfl
    · rfl

end

/-! ### Commands and the port -/

/-- What a command leaves and answers, the station with this port. -/
def answerWithPort (q : HostPort) (x : State × Reply) : State × Reply := (x.1.withPort q, x.2)

/-- A check of a command that comes out the same whatever the port holds. -/
theorem answerWithPort_ite {q : HostPort} {p p' : Prop} [Decidable p] [Decidable p'] {a b a' b' : State × Reply}
    (hp : p' ↔ p) (ha : a' = answerWithPort q a) (hb : b' = answerWithPort q b) :
    (if p' then a' else b') = answerWithPort q (if p then a else b) := by
  rw [apply_ite (answerWithPort q)]
  exact if_congr hp ha hb

/-- The command neither reads nor writes the port, which alone takes its answer (R139). -/
def Command.IgnoresPort (c : Command) : Prop := ∀ (u : State) (q : HostPort), c (u.withPort q) = answerWithPort q (c u)

namespace Command.IgnoresPort

theorem nop : IgnoresPort fun u => (u, .ok []) := fun _ _ => rfl
theorem unknown : IgnoresPort fun u => (u, .no .unknown) := fun _ _ => rfl
theorem status : IgnoresPort fun u => (u, .ok u.statusPayload) := fun _ _ => rfl

theorem acquire (lock modeTry : Byte) (limit : Word16) : IgnoresPort (State.acquire lock modeTry limit) := by
  intro u q
  refine answerWithPort_ite .rfl rfl ?_
  cases lockOfByte lock with
  | none => rfl
  | some l =>
    refine answerWithPort_ite .rfl rfl (answerWithPort_ite .rfl rfl ?_)
    rw [State.withPort_lowestFree]
    cases u.lowestFree <;> rfl

theorem releaseTag (u : State) (q : HostPort) (g : Tag) :
    (u.withPort q).releaseTag g = answerWithPort q (u.releaseTag g) := by
  unfold State.releaseTag
  rw [State.withPort_entry]
  split <;> rfl

/-- RELEASE, DOWNGRADE and RENEW first look at leave pending, then for the live entry. -/
theorem ofTag {tag : Byte} {act : State → Tag → State × Reply}
    (h : ∀ (u : State) (q : HostPort) (g : Tag), act (u.withPort q) g = answerWithPort q (act u g)) :
    IgnoresPort fun u => if u.ctrl.leavePending then (u, .no .state)
      else match u.liveOfByte tag with
        | none => (u, .no .tag)
        | some g => act u g := by
  intro u q
  refine answerWithPort_ite .rfl rfl ?_
  rw [State.withPort_liveOfByte]
  cases u.liveOfByte tag with
  | none => rfl
  | some g => exact h u q g

theorem release (tag : Byte) : IgnoresPort (State.release tag) := ofTag releaseTag

theorem downgradeTag (tag : Byte) : IgnoresPort (State.downgradeTag tag) :=
  ofTag fun _ _ _ => answerWithPort_ite .rfl rfl (answerWithPort_ite .rfl rfl rfl)

theorem renewTag (tag : Byte) : IgnoresPort (State.renewTag tag) :=
  ofTag fun _ _ _ => answerWithPort_ite .rfl rfl (answerWithPort_ite .rfl rfl (answerWithPort_ite .rfl rfl rfl))

theorem queryTag (tag : Byte) : IgnoresPort (State.queryTag tag) := by
  intro u q
  unfold State.queryTag
  cases tagOfByte tag with
  | none => rfl
  | some g => exact answerWithPort_ite .rfl rfl rfl

theorem queryLock (lock : Byte) : IgnoresPort (State.queryLock lock) := by
  intro u q
  refine answerWithPort_ite .rfl ?_ rfl
  cases lockOfByte lock <;> rfl

theorem queryRoster : IgnoresPort State.queryRoster := fun _ _ => answerWithPort_ite .rfl rfl rfl

theorem fetchNotice : IgnoresPort State.fetchNotice := by
  intro u q
  unfold State.fetchNotice
  rw [State.withPort_notices]
  split <;> rfl

theorem configure (d t f : Byte) : IgnoresPort (State.configure d t f) := fun _ _ =>
  answerWithPort_ite .rfl rfl (answerWithPort_ite .rfl rfl rfl)

theorem startStation : IgnoresPort State.startStation := fun _ _ =>
  answerWithPort_ite .rfl rfl (answerWithPort_ite .rfl rfl rfl)

theorem leaveLine : IgnoresPort State.leaveLine := by
  intro u q
  unfold State.leaveLine
  rw [State.withPort_ctrl, State.stop_withPort]
  cases u.ctrl.state <;> rfl

theorem resetStation (sid snc : Fin 16) : IgnoresPort (State.resetStation sid snc) := fun _ _ => rfl

end Command.IgnoresPort

/-! ### Rejections -/

/-- The answer is OK, or it is a rejection: no payload, and the station is left as `u` (R145). -/
def WholeAnswer (u : State) (x : State × Reply) : Prop := x.2.result = .ok ∨ ∃ r, x = (u, .no r)

namespace WholeAnswer

variable (u : State)

theorem ok (t : State) (payload : List Byte) : WholeAnswer u (t, .ok payload) := .inl rfl

theorem no (r : Result) : WholeAnswer u (u, .no r) := .inr ⟨r, rfl⟩

theorem ite {u : State} {p : Prop} [Decidable p] {a b : State × Reply} (ha : WholeAnswer u a) (hb : WholeAnswer u b) :
    WholeAnswer u (if p then a else b) := by
  split
  · exact ha
  · exact hb

theorem acquire (lock modeTry : Byte) (limit : Word16) : WholeAnswer u (State.acquire lock modeTry limit u) := by
  refine .ite (no u _) ?_
  cases lockOfByte lock with
  | none => exact no u _
  | some l =>
    refine .ite (no u _) (.ite (no u _) ?_)
    cases u.lowestFree with
    | none => exact no u _
    | some g => exact ok u _ _

theorem releaseTag (g : Tag) : WholeAnswer u (u.releaseTag g) := by
  unfold State.releaseTag
  split
  case h_6 | h_7 => exact no u _
  all_goals exact ok u _ _

/-- RELEASE, DOWNGRADE and RENEW first look at leave pending, then for the live entry. -/
theorem ofTag {tag : Byte} {act : Tag → State × Reply} (h : ∀ g, WholeAnswer u (act g)) :
    WholeAnswer u (if u.ctrl.leavePending then (u, .no .state)
      else match u.liveOfByte tag with
        | none => (u, .no .tag)
        | some g => act g) := by
  refine .ite (no u _) ?_
  cases u.liveOfByte tag with
  | none => exact no u _
  | some g => exact h g

theorem release (tag : Byte) : WholeAnswer u (State.release tag u) := ofTag u (releaseTag u)

theorem downgradeTag (tag : Byte) : WholeAnswer u (State.downgradeTag tag u) :=
  ofTag u fun _ => .ite (no u _) (.ite (no u _) (ok u _ _))

theorem renewTag (tag : Byte) : WholeAnswer u (State.renewTag tag u) :=
  ofTag u fun _ => .ite (no u _) (.ite (ok u _ _) (.ite (no u _) (ok u _ _)))

theorem queryTag (tag : Byte) : WholeAnswer u (State.queryTag tag u) := by
  unfold State.queryTag
  cases tagOfByte tag with
  | none => exact no u _
  | some g => exact .ite (no u _) (ok u _ _)

theorem queryLock (lock : Byte) : WholeAnswer u (State.queryLock lock u) := by
  refine .ite ?_ (no u _)
  cases lockOfByte lock with
  | none => exact no u _
  | some l => exact ok u _ _

theorem queryRoster : WholeAnswer u (State.queryRoster u) := .ite (ok u _ _) (no u _)

theorem fetchNotice : WholeAnswer u (State.fetchNotice u) := by
  unfold State.fetchNotice
  cases u.notices.queue with
  | nil => exact no u _
  | cons n rest => exact ok u _ _

theorem configure (d t f : Byte) : WholeAnswer u (State.configure d t f u) := .ite (no u _) (.ite (no u _) (ok u _ _))

theorem startStation : WholeAnswer u (State.startStation u) := .ite (no u _) (.ite (no u _) (ok u _ _))

theorem leaveLine : WholeAnswer u (State.leaveLine u) := by
  unfold State.leaveLine
  cases u.ctrl.state with
  | listening | syncing | founding | active => exact ok u _ _
  | idle | stopped | halted => exact no u _

end WholeAnswer

/-! ### The rows that end an exchange -/

/-- The command that the end of a complete exchange executes, with its code (Table 9-2); none for any other row. -/
def hostCommand : Instr → Option (Byte × Command)
  | .nop _ => some (codeNop, fun u => (u, .ok []))
  | .status _ => some (codeStatus, fun u => (u, .ok u.statusPayload))
  | .configure d t f _ => some (codeConfigure, State.configure d t f)
  | .start _ => some (codeStart, State.startStation)
  | .leave _ => some (codeLeave, State.leaveLine)
  | .resetStation sid snc _ => some (codeResetStation, State.resetStation sid snc)
  | .acquire l m limit _ => some (codeAcquire, State.acquire l m limit)
  | .release g _ => some (codeRelease, State.release g)
  | .downgrade g _ => some (codeDowngrade, State.downgradeTag g)
  | .renew g _ => some (codeRenew, State.renewTag g)
  | .queryTag g _ => some (codeQueryTag, State.queryTag g)
  | .fetch _ => some (codeFetch, State.fetchNotice)
  | .queryLock l _ => some (codeQueryLock, State.queryLock l)
  | .queryRoster _ => some (codeQueryRoster, State.queryRoster)
  | .unknownCommand code _ => some (code, fun u => (u, .no .unknown))
  | _ => none

section

variable {i : Instr} {code : Byte} {c : Command}

theorem exec_hostCommand (h : hostCommand i = some (code, c)) (s : State) :
    exec i s = .next (s.endComplete code (exchangeBytes i) c) := by
  cases i <;> cases h <;> rfl

/-- An exchange ends truncated, empty, or with a command. -/
theorem endsExchange_cases (hi : endsExchange i = true) :
    (∃ code whole, i = .truncatedExchange code whole) ∨ i = .emptyExchange
    ∨ ∃ code c, hostCommand i = some (code, c) := by
  cases i <;> cases hi
  case truncatedExchange code whole => exact .inl ⟨code, whole, rfl⟩
  case emptyExchange => exact .inr (.inl rfl)
  all_goals exact .inr (.inr ⟨_, _, rfl⟩)

theorem hostCommand_ignoresPort (h : hostCommand i = some (code, c)) : c.IgnoresPort := by
  cases i <;> cases h
  case nop => exact .nop
  case status => exact .status
  case configure => exact .configure _ _ _
  case start => exact .startStation
  case leave => exact .leaveLine
  case resetStation => exact .resetStation _ _
  case acquire => exact .acquire _ _ _
  case release => exact .release _
  case downgrade => exact .downgradeTag _
  case renew => exact .renewTag _
  case queryTag => exact .queryTag _
  case fetch => exact .fetchNotice
  case queryLock => exact .queryLock _
  case queryRoster => exact .queryRoster
  case unknownCommand => exact .unknown

theorem hostCommand_answersWhole (h : hostCommand i = some (code, c)) (u : State) : WholeAnswer u (c u) := by
  cases i <;> cases h
  case nop | status | resetStation => exact .ok u _ _
  case configure => exact .configure u _ _ _
  case start => exact .startStation u
  case leave => exact .leaveLine u
  case acquire => exact .acquire u _ _ _
  case release => exact .release u _
  case downgrade => exact .downgradeTag u _
  case renew => exact .renewTag u _
  case queryTag => exact .queryTag u _
  case fetch => exact .fetchNotice u
  case queryLock => exact .queryLock u _
  case queryRoster => exact .queryRoster u
  case unknownCommand => exact .no u _

/-- At a port that waits for HSEL# to be deasserted no exchange executes anything (R143). -/
theorem exec_of_waitDeassert (hi : endsExchange i = true) (hp : s.port.phase = .waitDeassert) :
    exec i s = .next s.closeExchange := by
  rcases endsExchange_cases hi with ⟨code, whole, rfl⟩ | rfl | ⟨code, c, hc⟩
  · exact congrArg _ (if_pos hp)
  · rfl
  · rw [exec_hostCommand hc, State.endComplete, if_pos hp]

/-- In either other phase of the port an exchange ends as a whole one does (log 6). -/
theorem State.endComplete_of_ne (hp : s.port.phase ≠ .waitDeassert) (code : Byte) (n : Nat) (c : Command) :
    s.endComplete code n c
      = (c (s.afterDelivery n)).1.answered code (c (s.afterDelivery n)).2.result (c (s.afterDelivery n)).2.payload := by
  rw [State.endComplete, if_neg hp]
  rfl

theorem exec_truncatedExchange (hp : s.port.phase ≠ .waitDeassert) (code : Byte) (whole : Nat) :
    exec (.truncatedExchange code whole) s
      = .next ((s.afterDelivery whole).withPort ⟨s.port.held, false, true, .closed, none⟩) := by
  have hheld : (s.afterDelivery whole).port.held = s.port.held := by rw [State.afterDelivery_port]
  rw [← hheld]
  exact congrArg _ (if_neg hp)

end

/-- What an exchange delivers does not depend on the phase of the port. -/
theorem State.afterDelivery_withPhase (s : State) (p : PortPhase) (n : Nat) :
    (s.withPort { s.port with phase := p }).afterDelivery n
      = (s.afterDelivery n).withPort { s.port with phase := p, delivered := false } := by
  by_cases h : 3 + s.port.held.payload.length ≤ n ∧ ∃ serial, s.port.held.fetchSerial = some serial
  · obtain ⟨hn, serial, hserial⟩ := h
    rw [State.afterDelivery_of_serial hserial hn,
      State.afterDelivery_of_serial (s := s.withPort { s.port with phase := p }) hserial hn, State.removeHead_withPort]
    rfl
  · rw [State.afterDelivery_idle fun serial hserial hn => absurd ⟨hn, serial, hserial⟩ h,
      State.afterDelivery_idle (s := s.withPort { s.port with phase := p }) fun serial hserial hn =>
        absurd ⟨hn, serial, hserial⟩ h]
    rfl

/-- Settles O6: the commands do not see the port, and each end of an exchange writes all of it but the held response. -/
theorem exchangeEndsOutsideAnExchange : Obligations.ExchangeEndsOutsideAnExchange := by
  intro i s hi
  refine ⟨exec_of_waitDeassert hi, fun hp => ?_⟩
  have hclosed : s.port.phase ≠ .waitDeassert := by rw [hp]; nofun
  have hopen : (s.withPort { s.port with phase := .exchange }).port.phase ≠ .waitDeassert := nofun
  show exec i s = exec i (s.withPort { s.port with phase := .exchange })
  rcases endsExchange_cases hi with ⟨code, whole, rfl⟩ | rfl | ⟨code, c, hc⟩
  · rw [exec_truncatedExchange hclosed, exec_truncatedExchange hopen, State.afterDelivery_withPhase]
    rfl
  · rfl
  · rw [exec_hostCommand hc, exec_hostCommand hc, State.endComplete_of_ne hclosed, State.endComplete_of_ne hopen,
      State.afterDelivery_withPhase, hostCommand_ignoresPort hc]
    rfl

/-- Settles O13: each command answers OK or leaves the station after the delivery as it is. -/
theorem rejectedCommandChangesNothing : Obligations.RejectedCommandChangesNothing := by
  intro i s t hi htruncated hempty hp ht hr
  rcases endsExchange_cases hi with ⟨code, whole, rfl⟩ | rfl | ⟨code, c, hc⟩
  · exact absurd rfl (htruncated code whole)
  · exact absurd rfl hempty
  · rw [exec_hostCommand hc, State.endComplete_eq hp] at ht
    obtain rfl := Host.Outcome.next.inj ht
    rcases hostCommand_answersWhole hc (s.afterDelivery (exchangeBytes i)) with hok | ⟨r, hno⟩
    · exact absurd hok hr
    · exact ⟨code, r, by rw [hno]; rfl⟩

/-! ### Frames -/

/-- The items that no command of the host changes but a reset: waiting commands, straps, records, roster and page cursor
(R15, R54, R153). -/
def State.beyondHost (s : State) :
    List Instr × StationNo × Fin 16 × Vector LockRecord 64 × Vector RosterEntry 16 × Fin 9 :=
  (s.pending, s.ctrl.sid, s.ctrl.snc, s.locks, s.roster, s.pageCursor)

/-- The configuration: divisor, drop threshold and interrupt enable (Table 10-2). -/
def State.configuration (s : State) : Nat × Nat × Bool := (s.ctrl.divisor, s.ctrl.dropThreshold, s.ctrl.intEnable)

section

variable {i : Instr} {code : Byte} {c : Command} {t : State}

/-- The row leaves those items as they were, and the configuration too where it is not CONFIGURE (R154). -/
structure State.KeepsBeyondHost (i : Instr) (s t : State) : Prop where
  items : t.beyondHost = s.beyondHost
  configuration : (∀ d n f x, i ≠ .configure d n f x) → t.configuration = s.configuration

theorem State.KeepsBeyondHost.trans {u : State} (h : s.KeepsBeyondHost i t) (k : t.KeepsBeyondHost i u) :
    s.KeepsBeyondHost i u :=
  ⟨k.items.trans h.items, fun hc => (k.configuration hc).trans (h.configuration hc)⟩

theorem State.KeepsBeyondHost.pending (h : s.KeepsBeyondHost i t) : t.pending = s.pending := congrArg Prod.fst h.items

theorem State.OnlyExchange.keepsBeyondHost (h : s.OnlyExchange t) : s.KeepsBeyondHost i t := by
  refine ⟨?_, fun _ => ?_⟩ <;> rw [← h] <;> rfl

theorem State.OnlyRequests.keepsBeyondHost (h : s.OnlyRequests t) : s.KeepsBeyondHost i t := h.exchange.keepsBeyondHost

theorem State.afterDelivery_exchange (s : State) (n : Nat) : s.OnlyExchange (s.afterDelivery n) :=
  (s.shiftOut_touches n).trans (State.deliver_touches _)

theorem State.withPort_touches (s : State) (q : HostPort) : s.OnlyExchange (s.withPort q) := rfl

theorem State.answered_touches (s : State) (code : Byte) (r : Result) (payload : List Byte) :
    s.OnlyExchange (s.answered code r payload) := rfl

/-- The stop of a station ends its requests and leaves the line (R156). -/
theorem State.stop_keepsBeyondHost (s : State) : s.KeepsBeyondHost i s.stop :=
  (Touches.endAll s .left).keepsBeyondHost.trans ⟨rfl, fun _ => rfl⟩

/-- Every command but a reset keeps them. -/
theorem hostCommand_keepsBeyondHost (h : hostCommand i = some (code, c)) (hr : ∀ sid snc x, i ≠ .resetStation sid snc x)
    (u : State) : u.KeepsBeyondHost i (c u).1 := by
  cases i <;> cases h
  case resetStation => exact absurd rfl (hr _ _ _)
  case configure =>
    refine ⟨?_, fun hc => absurd rfl (hc _ _ _ _)⟩
    unfold State.configure
    repeat' split
    all_goals rfl
  case start =>
    unfold State.startStation
    repeat' split
    all_goals exact ⟨rfl, fun _ => rfl⟩
  case leave =>
    unfold State.leaveLine
    cases u.ctrl.state with
    | listening => exact u.stop_keepsBeyondHost
    | syncing | founding | active | idle | stopped | halted => exact ⟨rfl, fun _ => rfl⟩
  case nop | status | unknownCommand => exact ⟨rfl, fun _ => rfl⟩
  case acquire => exact (Touches.acquire u _ _ _).keepsBeyondHost
  case release => exact (Touches.release u _).keepsBeyondHost
  case downgrade => exact (Touches.downgradeTag u _).keepsBeyondHost
  case renew => exact (Touches.renewTag u _).keepsBeyondHost
  case queryTag => exact (Touches.queryTag u _).keepsBeyondHost
  case fetch => exact (Touches.fetchNotice u).keepsBeyondHost
  case queryLock => exact (Touches.queryLock u _).keepsBeyondHost
  case queryRoster => exact (Touches.queryRoster u).keepsBeyondHost

/-- A row that ends an exchange keeps the waiting commands, and all of those items unless it is RESET_STATION. -/
theorem exchangeRow_keepsBeyondHost (hi : endsExchange i = true) (s : State) : ∃ t, exec i s = .next t
    ∧ t.pending = s.pending ∧ ((∀ sid snc x, i ≠ .resetStation sid snc x) → s.KeepsBeyondHost i t) := by
  have ofKept : ∀ {t : State}, s.KeepsBeyondHost i t → t.pending = s.pending
      ∧ ((∀ sid snc x, i ≠ .resetStation sid snc x) → s.KeepsBeyondHost i t) := fun h => ⟨h.pending, fun _ => h⟩
  by_cases hp : s.port.phase = .waitDeassert
  · exact ⟨_, exec_of_waitDeassert hi hp, ofKept s.closeExchange_touches.keepsBeyondHost⟩
  rcases endsExchange_cases hi with ⟨code, whole, rfl⟩ | rfl | ⟨code, c, hc⟩
  · exact ⟨_, exec_truncatedExchange hp code whole,
      ofKept ((s.afterDelivery_exchange whole).trans (State.withPort_touches _ _)).keepsBeyondHost⟩
  · exact ⟨_, rfl, ofKept s.closeExchange_touches.keepsBeyondHost⟩
  · refine ⟨_, by rw [exec_hostCommand hc, State.endComplete_of_ne hp], ?_⟩
    by_cases hr : ∃ sid snc x, i = .resetStation sid snc x
    · obtain ⟨sid, snc, x, rfl⟩ := hr
      cases hc
      exact ⟨s.afterDelivery_pending _, fun h => absurd rfl (h sid snc x)⟩
    · have kept := hostCommand_keepsBeyondHost hc (fun sid snc x e => hr ⟨sid, snc, x, e⟩)
      exact ofKept (((s.afterDelivery_exchange _).keepsBeyondHost.trans (kept _)).trans
        (State.answered_touches _ _ _ _).keepsBeyondHost)

end

/-- Settles O3: the rows that end an exchange by exchangeRow_keepsBeyondHost, the rows of the line and of the timers by
lineRow_keepsHostSide. -/
theorem commandsKeepWhatTheyDoNotOwn : Obligations.CommandsKeepWhatTheyDoNotOwn := by
  intro i s
  cases hi : endsExchange i with
  | true =>
    obtain ⟨t, he, hpending, hkeeps⟩ := exchangeRow_keepsBeyondHost hi s
    refine ⟨t, he, hpending, fun _ hreset => ?_⟩
    obtain ⟨hbeyond, hconf⟩ := hkeeps hreset
    simp only [State.beyondHost, State.configuration, Prod.mk.injEq] at hbeyond hconf
    obtain ⟨-, hsid, hsnc, hlocks, hroster, hcursor⟩ := hbeyond
    exact ⟨hsid, hsnc, hconf, nofun, fun _ => ⟨hlocks, hroster, hcursor⟩⟩
  | false =>
    by_cases hpin : ∃ sid snc h, i = .pinReset sid snc h
    · obtain ⟨sid, snc, h, rfl⟩ := hpin
      exact ⟨_, rfl, rfl, fun hr _ => absurd rfl (hr sid snc h)⟩
    by_cases hstart : i = .exchangeStart
    · subst hstart
      exact ⟨_, rfl, rfl, fun _ _ => ⟨rfl, rfl, fun _ => ⟨rfl, rfl, rfl⟩, fun _ h => absurd rfl h, nofun⟩⟩
    · obtain ⟨t, he, k⟩ := lineRow_keepsHostSide hi hstart (fun sid snc h e => hpin ⟨sid, snc, h, e⟩) s
      exact ⟨t, he, k.pending, fun _ _ => ⟨k.sid, k.snc, fun _ => ⟨k.divisor, k.dropThreshold, k.intEnable⟩,
        fun _ _ => ⟨k.port, k.spi⟩, nofun⟩⟩

end Sys2Proof.Machine
end

section
/-! Steps and exchanges: the front command, the status byte, and the exchanges that end empty, truncated, with an
unknown code, NOP, STATUS or QUERY_TAG (R136 to R149). -/

namespace Sys2Proof.Machine

variable {s : State}

/-! ### The step -/

/-- Settles O1. -/
theorem stepRunsFrontCommand : Obligations.StepRunsFrontCommand := fun _ _ _ => rfl

/-! ### The status byte (R138, Table 11-8) -/

/-- The station state codes fit their three bits (Table 11-7). -/
theorem stationCode_lt (st : StationState) : stationCode st < 8 := by cases st <;> decide

/-- The station state codes of Table 11-7. -/
theorem stationCode_eq (st : StationState) : stationCode st =
    (match st with
    | .idle => 0 | .listening => 1 | .syncing => 2 | .founding => 3 | .active => 4 | .stopped => 5 | .halted => 6) := by
  cases st <;> rfl

/-- A byte of a code in bits 7 to 5, four flags below it and a 0 in bit 0 reads back. -/
theorem flagByte_fields {k : Nat} (hk : k < 8) (a b c d : Bool) {x : Byte}
    (hx : x = BitVec.ofNat 8 (32 * k + 16 * a.toNat + 8 * b.toNat + 4 * c.toNat + 2 * d.toNat)) :
    (x.extractLsb' 5 3).toNat = k ∧ x.getLsbD 4 = a ∧ x.getLsbD 3 = b ∧ x.getLsbD 2 = c ∧ x.getLsbD 1 = d
      ∧ x.getLsbD 0 = false := by
  subst hx
  revert a b c d
  interval_cases k <;> decide

theorem isEmpty_not_eq_decide {α : Type} [DecidableEq α] (xs : List α) : (!xs.isEmpty) = decide (xs ≠ []) := by
  cases xs <;> rfl

/-- Settles O7: the status byte is a flagByte_fields byte of the station state's code and the four flags. -/
theorem exchangeStartTakesTheStatusByte : Obligations.ExchangeStartTakesTheStatusByte := by
  intro s
  obtain ⟨hcode, hnotices, htruncated, hops, hleave, hzero⟩ :=
    flagByte_fields (stationCode_lt s.ctrl.state) s.noticePending s.port.truncated s.opsWaiting s.ctrl.leavePending
      (x := s.statusByte) rfl
  exact ⟨s.statusByte, rfl, hcode.trans (stationCode_eq _), hnotices.trans (isEmpty_not_eq_decide _), htruncated,
    hops.trans (isEmpty_not_eq_decide _), hleave, hzero⟩

/-! ### Exchanges that execute nothing, or a command without a payload -/

/-- Settles O10. -/
theorem emptyExchangeDoesNothing : Obligations.EmptyExchangeDoesNothing := fun _ => rfl

/-- Settles O11. -/
theorem truncatedExchangeSetsTheFlag : Obligations.TruncatedExchangeSetsTheFlag := fun code whole s hp =>
  exec_truncatedExchange (by rw [hp]; nofun) code whole

/-- Settles O12. -/
theorem unknownCodeAnswersUnknown : Obligations.UnknownCodeAnswersUnknown := fun code extra _ hp =>
  congrArg _ (State.endComplete_eq hp code (1 + extra) _)

/-- Settles O14. -/
theorem nopAnswersOk : Obligations.NopAnswersOk := fun extra _ hp =>
  State.exchange_of_eq hp codeNop extra (r := .ok []) rfl

/-! ### STATUS (R146) -/

theorem allTags_length : allTags.length = 16 := by
  unfold allTags
  exact List.length_finRange

theorem State.liveCount_le (s : State) : s.liveCount ≤ 16 :=
  (List.length_filter_le _ _).trans_eq allTags_length

theorem RequestEntry.live_eq_decide (e : RequestEntry) :
    e.live = decide (e.relation = .pending ∨ e.relation = .waiting ∨ e.relation = .held) := by
  rw [RequestEntry.live]
  cases e.relation <;> rfl

/-- The live entries counted (R108). -/
theorem State.liveCount_eq (s : State) : s.liveCount = ((List.finRange 16).filter fun g =>
    (s.entry g).relation = .pending ∨ (s.entry g).relation = .waiting ∨ (s.entry g).relation = .held).length := by
  simp only [State.liveCount, allTags, RequestEntry.live_eq_decide]

/-- The installed-page mask: bits 8 to 0 are the pages, the others 0 (R107). -/
theorem State.pageMask_getLsbD (s : State) {k : Nat} (hk : k < 16) :
    s.pageMask.getLsbD k = (decide (k < 9) && s.pageInstalled k) := by
  rw [State.pageMask, BitVec.getLsbD_setWidth, decide_eq_true hk, Bool.true_and, State.pageInstalled]
  by_cases h : k < 9
  · rw [decide_eq_true h, Bool.true_and]
  · rw [decide_eq_false h, Bool.false_and, BitVec.getLsbD_of_ge _ _ (Nat.le_of_not_lt h)]

/-- Settles O15: the payload byte by byte; what the delivery leaves alone is read at the station before it. -/
theorem statusReportsTheStation : Obligations.StatusReportsTheStation := by
  intro extra s hp
  generalize hd : s.afterDelivery (1 + extra) = d
  have hctrl : d.ctrl = s.ctrl := by rw [← hd, s.afterDelivery_ctrl]
  have hslots : d.slots = s.slots := by rw [← hd, s.afterDelivery_slots]
  have hrepl : d.repl = s.repl := by rw [← hd, s.afterDelivery_repl]
  have hqueue : d.req.queue = s.req.queue := by rw [← hd, s.afterDelivery_queue]
  have hyield : d.req.toYield = s.req.toYield := by rw [← hd, s.afterDelivery_toYield]
  have hmask : d.pageMask = s.pageMask := by rw [State.pageMask, hrepl]; rfl
  have hexec : exec (.status extra) s = .next (d.answered 0x01 .ok d.statusPayload) :=
    State.exchange_of_eq hp codeStatus extra (t := d) (r := .ok d.statusPayload)
      (by rw [show wholeBytes codeStatus extra = 1 + extra from rfl, hd])
  rw [State.statusPayload, hctrl, hslots, hqueue, hyield, hmask] at hexec
  refine ⟨_, _, _, _, _, _, _, _, _, _, _, _, hexec, ?state, cycle_eq_append _, countByte_fin (by decide) _, ?mask,
    ?live, rfl, rfl, rfl, rfl⟩
  case state => exact (countByte_toNat ((stationCode_lt _).trans (by decide))).trans (stationCode_eq _)
  case mask =>
    exact fun k hk => (congrArg (BitVec.getLsbD · k) (word16_hiByte_loByte s.pageMask)).trans (s.pageMask_getLsbD hk)
  case live =>
    rw [countByte_toNat (d.liveCount_le.trans_lt (by decide)), d.liveCount_eq]

/-! ### QUERY_TAG (R149) -/

/-- The row answers with what the command says of the station after the delivery, and changes nothing else. -/
theorem exec_queryTag (hp : s.port.phase = .exchange) (b : Byte) (extra : Nat) {r : Reply}
    (hc : State.queryTag b (s.afterDelivery (2 + extra)) = (s.afterDelivery (2 + extra), r)) :
    exec (.queryTag b extra) s = .next ((s.afterDelivery (2 + extra)).answered 0x14 r.result r.payload) :=
  State.exchange_of_eq hp codeQueryTag extra hc

/-- The codes of a relation (Table 11-10). -/
theorem relationCode_toNat (r : Relation) : (countByte (relationCode r)).toNat =
    (match r with | .free => 0 | .pending => 1 | .waiting => 2 | .held => 3 | .ended => 4) := by
  cases r <;> rfl

/-- Mode in bit 1 and try flag in bit 0 (Table 11-10). -/
theorem modeTryByte_toNat (m : Mode) (t : Bool) : (countByte (2 * modeCode m + t.toNat)).toNat =
    (if m = .shared then 2 else 0) + (if t then 1 else 0) := by
  cases m <;> cases t <;> rfl

/-- Op in the high nibble, op status in the low one (Table 11-10). -/
theorem opByte_fields (e : RequestEntry) :
    ((countByte (16 * opCode e.op + e.opStatusCode)).extractLsb' 4 4).toNat
      = (match e.op with
        | none => 0 | some .claim => 1 | some .yield => 2 | some .downgrade => 3 | some .renew => 4)
    ∧ ((countByte (16 * opCode e.op + e.opStatusCode)).extractLsb' 0 4).toNat
      = (if e.op = none then 0 else match e.opStatus with | .queued => 0 | .inFlight => 1 | .doubtful => 2) := by
  rw [RequestEntry.opStatusCode]
  rcases e.op with _ | (_ | _ | _ | _)
  all_goals cases e.opStatus <;> exact ⟨rfl, rfl⟩

/-- Settles O19: no entry for a byte of 16 or more, a FREE one, or the entry's bytes, each read by its lemma above. -/
theorem queryTagShowsTheEntry : Obligations.QueryTagShowsTheEntry := by
  intro b extra s hp
  refine ⟨fun hb => exec_queryTag hp b extra (r := .no .tag) ?_, fun g hg => ⟨fun hfree =>
    exec_queryTag hp b extra (r := .no .tag) ?_, ?_⟩⟩
  · rw [State.queryTag, tagOfByte_none hb]
  · simp only [State.queryTag, tagOfByte_eq hg, hfree, if_true]
  · rintro e rfl hlive
    have hc := exec_queryTag hp b extra (r := .ok ((s.afterDelivery (2 + extra)).entry g).toBytes)
      (by simp only [State.queryTag, tagOfByte_eq hg, hlive, if_false])
    exact ⟨_, _, _, _, _, _, _, _, hc, relationCode_toNat _, countByte_fin (by decide) _, modeTryByte_toNat _ _,
      word16_hiByte_loByte _, word16_hiByte_loByte _, opByte_fields _⟩

end Sys2Proof.Machine
end

section
/-! The station's life cycle: the two resets, CONFIGURE, START, LEAVE, and the end of the own LEAVE slot (R153 to R163). -/

namespace Sys2Proof.Machine

variable {s t : State}

/-! ### The resets (R162, R163) -/

section
variable (sid snc : Fin 16) (port : HostPort) (pending : List Instr)

@[simp] theorem State.rosterEntry_afterReset (k : StationNo) :
    (State.afterReset sid snc port pending).rosterEntry k = .absent := by
  simp [State.rosterEntry, State.afterReset]

@[simp] theorem State.lock_afterReset (l : LockNo) : (State.afterReset sid snc port pending).lock l = .empty := by
  simp [State.lock, State.afterReset]

@[simp] theorem State.entry_afterReset (g : Tag) : (State.afterReset sid snc port pending).entry g = .blank := by
  simp [State.entry, State.afterReset, RequestEngine.afterReset]

end

/-- Settles O4: the three tables entry by entry, every other block as State.afterReset writes it. -/
theorem pinResetLeavesResetValues : Obligations.PinResetLeavesResetValues := by
  intro sid snc hsel s
  refine ⟨_, rfl, rfl, ⟨rfl, rfl, rfl, rfl, rfl, rfl⟩, ⟨rfl, rfl, rfl, rfl, rfl, rfl⟩, rfl,
    State.rosterEntry_afterReset sid snc _ _, State.lock_afterReset sid snc _ _, rfl, ⟨fun g => ?entries, rfl, rfl⟩,
    rfl, rfl, rfl, rfl, rfl⟩
  rw [State.entry_afterReset]
  exact ⟨rfl, rfl⟩

/-- Settles O5: both rows write State.afterReset; a delivery leaves the waiting commands alone, and the response replaces
the port. -/
theorem resetStationResetsAsThePinDoes : Obligations.ResetStationResetsAsThePinDoes := by
  intro sid snc extra hsel s hp
  refine ⟨_, rfl, (State.exchange_of_eq hp codeResetStation extra (r := .ok []) rfl).trans ?_⟩
  rw [State.afterDelivery_pending]
  rfl

/-! ### CONFIGURE (R154, R166) -/

theorem configureInRange_iff (divisor threshold : Byte) : configureInRange divisor threshold = true ↔
    1 ≤ divisor.toNat ∧ divisor.toNat ≤ 64 ∧ 2 ≤ threshold.toNat ∧ threshold.toNat ≤ 7 :=
  decide_eq_true_iff

/-- The interrupt enable is bit 0 of the flags byte (Table 11-9). -/
theorem flagsIntEnable_eq (flags : Byte) : flagsIntEnable flags = decide (flags.toNat % 2 = 1) := by
  rw [flagsIntEnable, BitVec.getLsbD, Nat.testBit_zero]

section
variable {divisor threshold flags : Byte}

theorem State.configure_of_state (hs : s.ctrl.state ≠ .idle) :
    State.configure divisor threshold flags s = (s, .no .state) := by
  simp [State.configure, State.inState, hs]

theorem State.configure_of_range (hs : s.ctrl.state = .idle) (h : configureInRange divisor threshold = false) :
    State.configure divisor threshold flags s = (s, .no .range) := by
  simp [State.configure, State.inState, hs, h]

theorem State.configure_of_inRange (hs : s.ctrl.state = .idle) (h : configureInRange divisor threshold = true) :
    State.configure divisor threshold flags s
      = ({ s with ctrl := { s.ctrl with divisor := divisor.toNat, dropThreshold := threshold.toNat,
                                        intEnable := decide (flags.toNat % 2 = 1) } }, .ok []) := by
  simp [State.configure, State.inState, hs, h, flagsIntEnable_eq]

end

/-- Settles O20: CONFIGURE's two checks and its effect, at the station after the delivery, whose controller is the same. -/
theorem configureReplacesTheConfiguration : Obligations.ConfigureReplacesTheConfiguration := by
  intro divisor threshold flags extra s hp
  have answers : ∀ {t r}, State.configure divisor threshold flags (s.afterDelivery (4 + extra)) = (t, r) →
      exec (.configure divisor threshold flags extra) s = .next (t.answered 0x02 r.result r.payload) :=
    State.exchange_of_eq hp codeConfigure extra
  rw [← s.afterDelivery_ctrl (4 + extra)]
  generalize s.afterDelivery (4 + extra) = d at answers ⊢
  refine ⟨fun hs => answers (State.configure_of_state hs),
    fun hs hout => answers (State.configure_of_range hs ?range),
    fun hs hd1 hd2 ht1 ht2 =>
      answers (State.configure_of_inRange hs ((configureInRange_iff _ _).2 ⟨hd1, hd2, ht1, ht2⟩))⟩
  rw [← Bool.not_eq_true, configureInRange_iff]
  omega

/-! ### START (R153, R155) -/

/-- N is SNC + 1: the straps allow the start where N is at least 2 and the own number less than N (R153). -/
theorem State.strapsAllow_iff (s : State) : s.strapsAllow = true ↔ s.ctrl.snc.val ≠ 0 ∧ s.ctrl.sid ≤ s.ctrl.snc := by
  rw [State.strapsAllow, decide_eq_true_iff, State.lineSlots, Fin.le_def]
  omega

theorem State.startStation_of_state (hidle : s.ctrl.state ≠ .idle) (hstopped : s.ctrl.state ≠ .stopped) :
    s.startStation = (s, .no .state) := by
  simp [State.startStation, State.inState, hidle, hstopped]

section
variable (hs : s.ctrl.state = .idle ∨ s.ctrl.state = .stopped)
include hs

theorem State.startStation_of_straps (h : s.strapsAllow = false) : s.startStation = (s, .no .straps) := by
  rcases hs with hs | hs <;> simp [State.startStation, State.inState, hs, h]

theorem State.startStation_of_allowed (h : s.strapsAllow = true) : s.startStation = (s.enterListening, .ok []) := by
  rcases hs with hs | hs <;> simp [State.startStation, State.inState, hs, h]

end

/-- Settles O21: START's two checks and its effect, at the station after the delivery, whose controller is the same. -/
theorem startEntersListening : Obligations.StartEntersListening := by
  intro extra s hp
  have answers : ∀ {t r}, State.startStation (s.afterDelivery (1 + extra)) = (t, r) →
      exec (.start extra) s = .next (t.answered 0x03 r.result r.payload) := State.exchange_of_eq hp codeStart extra
  rw [← s.afterDelivery_ctrl (1 + extra)]
  generalize s.afterDelivery (1 + extra) = d at answers ⊢
  refine ⟨fun hidle hstopped => answers (State.startStation_of_state hidle hstopped),
    fun hs hstraps => answers (State.startStation_of_straps hs ?straps),
    fun hs hN hown => answers (State.startStation_of_allowed hs (d.strapsAllow_iff.2 ⟨hN, hown⟩))⟩
  rw [← Bool.not_eq_true, State.strapsAllow_iff]
  exact fun ⟨hN, hown⟩ => hstraps.elim hN hown.not_gt

/-! ### LEAVE (R156, R157, R159, R161) -/

theorem State.leaveLine_of_onLine (hs : s.ctrl.state.onLine = true) :
    s.leaveLine = ({ s with ctrl := { s.ctrl with leavePending := true } }, .ok []) := by
  unfold State.leaveLine
  cases e : s.ctrl.state with
  | syncing | founding | active => rfl
  | idle | listening | stopped | halted => rw [e] at hs; cases hs

theorem State.leaveLine_of_off (hs : s.ctrl.state = .idle ∨ s.ctrl.state = .stopped ∨ s.ctrl.state = .halted) :
    s.leaveLine = (s, .no .state) := by
  unfold State.leaveLine
  rcases hs with hs | hs | hs <;> rw [hs]

theorem State.leaveLine_of_listening (hs : s.ctrl.state = .listening) : s.leaveLine = (s.stop, .ok []) := by
  unfold State.leaveLine
  rw [hs]

/-- Settles O22: LEAVE by the station state, at the station after the delivery, whose controller is the same. -/
theorem leaveSetsLeavePending : Obligations.LeaveSetsLeavePending := by
  intro extra s hp
  have answers : ∀ {t r}, State.leaveLine (s.afterDelivery (1 + extra)) = (t, r) →
      exec (.leave extra) s = .next (t.answered 0x04 r.result r.payload) := State.exchange_of_eq hp codeLeave extra
  rw [← s.afterDelivery_ctrl (1 + extra)]
  generalize s.afterDelivery (1 + extra) = d at answers ⊢
  exact ⟨fun hon => answers (State.leaveLine_of_onLine hon), fun hoff => answers (State.leaveLine_of_off hoff)⟩

/-! ### The entry to STOPPED (R123) -/

/-- The end of every live entry changes requests and notices alone; goOffLine changes neither (R53, R87, R123). -/
theorem State.stoppedFrom_stop (s : State) : s.StoppedFrom s.stop := by
  have k : s.OnlyRequests (s.endAll .left) := Touches.endAll s .left
  have kr := k.tables.rosterTables
  obtain ⟨ended, kept, noticed, others, queue, toYield⟩ := s.endsAll_endAll .left
  rw [State.stop]
  generalize s.endAll .left = u at *
  refine ⟨⟨?ctrl, ⟨rfl, rfl, rfl, rfl⟩, ?slots, ⟨rfl, rfl, rfl, rfl, rfl⟩,
    ⟨k.tables.roster, k.locks, kr.pageCursor, kr.pending⟩⟩, ⟨ended, kept, noticed, others, queue, toYield⟩⟩
  case ctrl => rw [← kr.ctrl]; rfl
  case slots => rw [← kr.slots]; exact ⟨rfl, rfl, rfl, rfl⟩

/-- The entry to STOPPED releases the line and abandons the reception whatever they were, and says nothing of the
host port (R41). -/
theorem State.StoppedFrom.congr {s' t' : State} (h : s.StoppedFrom t) (hs : { s' with line := s.line } = s)
    (ht : { t' with port := t.port } = t) : s'.StoppedFrom t' := by
  rw [← hs, ← ht] at h
  obtain ⟨⟨ctrl, released, slots, repl, tables⟩, ended, kept, noticed, others, queue, toYield⟩ := h
  exact ⟨⟨ctrl, released, slots, repl, tables⟩, ended, kept, noticed, others, queue, toYield⟩

/-- Settles O23: LEAVE in LISTENING is State.stop at the station after the delivery. -/
theorem leaveStopsAListeningStation : Obligations.LeaveStopsAListeningStation := by
  intro extra s hp hs
  have hstop : State.leaveLine (s.afterDelivery (1 + extra)) = ((s.afterDelivery (1 + extra)).stop, .ok []) :=
    State.leaveLine_of_listening (by rw [State.afterDelivery_ctrl, hs])
  exact ⟨_, State.exchange_of_eq hp codeLeave extra hstop, rfl, (State.stoppedFrom_stop _).congr rfl rfl⟩

/-! ### The end of the own LEAVE slot (R158) -/

theorem State.slotEnd_of_leavingSlot (h : s.leavingSlot = true) (c : SlotContent) : s.slotEnd c = s.stop := by
  rw [State.slotEnd, if_pos h]

/-- Settles O44: both rows come to State.stop, for every content of the slot. -/
theorem leaveSlotEndStops : Obligations.LeaveSlotEndStops := by
  intro s o ha hown hstatus
  have hleaving : s.leavingSlot = true := s.leavingSlot_iff.2 ⟨o, hown, hstatus⟩
  refine ⟨fun hph => ⟨s.stop, ?silent, s.stoppedFrom_stop, (HostSide.stop s).port⟩,
    fun hph => ⟨s.endReception.stop, ?frame, s.endReception.stoppedFrom_stop.congr rfl rfl,
      (HostSide.stop s.endReception).port⟩⟩
  case silent => rw [exec_silentSlotEnd ha hph, State.slotEnd_of_leavingSlot hleaving]
  case frame => rw [exec_frameSlotEnd ha hph, State.slotEnd_of_leavingSlot (s := s.endReception) hleaving]

end Sys2Proof.Machine
end
